-- ==== Sys2Proof/Word.lean ====
section
/-! DEFINITION. The word types of the HX-7240 (R10, R277) and nothing else: every bit-field and
arithmetic helper stands where a later repair may mend it. -/

namespace Sys2Proof

/-- A 64-bit register, address or dword (R99, R115, R171). -/
abbrev Word := BitVec 64

/-- A byte of memory (R10). -/
abbrev Byte := BitVec 8

/-- One lane of a token's payload (R136). -/
abbrev Lane := BitVec 32

/-- A word ordinal (R102). -/
abbrev WordOrd := BitVec 48

end Sys2Proof
end

