-- ==== Sys2Proof/Config.lean ====
section
/-! DEFINITION. What an implementation of the HX-7240 fixes and the manual leaves open: opaque constants
without a body, so that no statement can rest on a value of one. Each is named in the assumption log. -/

namespace Sys2Proof.Config

/-- Which agent moves when nothing in `State.agenda` says so: applied to the count of steps taken (R107, R203;
DESIGN CHOICE, log entry 1). -/
opaque schedule : Nat → Nat

/-- A free 64-bit value: applied to the state's own counter `State.fresh` (DESIGN CHOICE, log entry 2). -/
opaque freeValue : Nat → BitVec 64

/-- The bits of an approximate function beyond the special and exact cases of Table 16.3 (R419, R420): a fixed function of
the operation code and the operand (DESIGN CHOICE, log entry 3). -/
opaque approx : BitVec 8 → BitVec 32 → BitVec 32

/-- The firmware image that the store holds at delivery, part by part: 0 its bytes, 1 the step list, 2 and 3 the RSA key's
modulus and exponent and 4 the RSA signature (most significant byte first), 5 the SLH-DSA key, 6 the SLH-DSA signature, 7 the digest (R56,
R58; DESIGN CHOICE, log entry 4). -/
opaque factoryImage : Nat → List (BitVec 8)

/-- The delivered image's security version (R58; DESIGN CHOICE, log entry 4). -/
opaque factoryVersion : BitVec 32

/-- The X.509 v3 identity certificate of each device key: 0 RSA, 1 SLH-DSA (R66; DESIGN CHOICE, log entry 4). -/
opaque identityCert : Nat → List (BitVec 8)

/-- The RSA-3072 TLS key that the module generates at its first boot, by the state's own counter `State.fresh` (R66; DESIGN
CHOICE, log entry 4). -/
opaque tlsKey : Nat → List (BitVec 8)

/-- The 802.1Q priority of a traffic class (Table 1.4; DESIGN CHOICE, log entry 28). -/
opaque classPriority : BitVec 2 → BitVec 3

/-- The signature the security engine makes over a report digest, by key: 0 RSA, 1 SLH-DSA (R67; DESIGN CHOICE, log entry 4). -/
opaque sign : Nat → BitVec 384 → BitVec 384

/-- The digest that stands for the code and configuration that a start step used: of the step, its level, the image's digest and the stored
configuration (R67; DESIGN CHOICE, log entry 4). -/
opaque stepDigest : Nat → Nat → BitVec 384 → BitVec 32 → BitVec 384

/-- The port that a circuit's endpoints and number hash to among `n` ports (R32; DESIGN CHOICE, log entry 5). -/
opaque portHash : Nat → Nat → Nat → Nat → Nat

/-- The OP code of a remote operation in the circuit header: 0 put, 1 get request, 2 get reply, 3 reduction step, 4 launch,
5 signal (Table 1.4; DESIGN CHOICE, log entry 28). -/
opaque frameOp : Nat → BitVec 8

/-- Which of the cells that an element may take it is placed on: applied to the attic key, image hash and SHAPE, and the
element's position (R91; DESIGN CHOICE, log entry 16). -/
opaque placeChoice : BitVec 256 → BitVec 16 → Nat → Nat

/-- The device's serial number in an attestation report (R67; DESIGN CHOICE, log entry 4). -/
opaque serial : BitVec 64

/-- The hub's fuses: the digest of each root public key, the revocation mask and the minimum security version as
manufactured (R58; DESIGN CHOICE, log entry 4). -/
opaque rsaRootDigest : BitVec 384
/-- See `rsaRootDigest`. -/
opaque slhRootDigest : BitVec 384
/-- See `rsaRootDigest`. -/
opaque revocationMask : BitVec 64
/-- The 32-bit minimum security version fused at manufacture (R58). -/
opaque fusedMinimum : BitVec 32

/-- The initial password of the factory account, printed on the module label (R68). -/
opaque labelPassword : List Byte

end Sys2Proof.Config
end

