-- ==== Sys2Proof/Syntax.lean ====
section
/-! DEFINITION. Every row of the opcode table as a constructor of `Instr`: the sequencer words with their fields
(Table 12.2), the stream commands with the fields of their frame (Table 12.9), the element firings with the element that
fires, and the events with what the outside world says in them. -/

namespace Sys2Proof

/-- A module row, die × 6 + row (R4). -/
abbrev RowId := Fin 24
/-- A core of a row (R4). -/
abbrev CoreId := Fin 8
/-- A place of a row: 0–7 its cores, 8 its row fetch unit (R238, Table 8.2). -/
abbrev PlaceId := Fin 9
/-- A region slot of a core (R157). -/
abbrev SlotId := Fin 8

/-- Format A with its Q bit (Table 12.2). -/
structure FmtA where
  q : Bool
  d : BitVec 5
  a : BitVec 5
  b : BitVec 5
  x : Bool
  y : Bool
  deriving DecidableEq, Repr

/-- Format A of the forms whose Q bit the form fixes (Table 4.1). -/
structure FmtA0 where
  d : BitVec 5
  a : BitVec 5
  b : BitVec 5
  x : Bool
  y : Bool
  deriving DecidableEq, Repr

/-- Format I (Table 12.2). -/
structure FmtI where
  q : Bool
  d : BitVec 5
  a : BitVec 5
  i : BitVec 14
  x : Bool
  deriving DecidableEq, Repr

/-- Format I of JALR, whose Q bit is 1. -/
structure FmtI0 where
  d : BitVec 5
  a : BitVec 5
  i : BitVec 14
  x : Bool
  deriving DecidableEq, Repr

/-- Format B (Table 12.2). -/
structure FmtB where
  a : BitVec 5
  b : BitVec 5
  o : BitVec 15
  deriving DecidableEq, Repr

/-- Format J (Table 12.2). -/
structure FmtJ where
  l : BitVec 5
  o : BitVec 20
  deriving DecidableEq, Repr

/-- Format M: s is the size, or the kind of FENCE, and c the scope (Table 12.2, R303). -/
structure FmtM where
  q : Bool
  d : BitVec 5
  b : BitVec 5
  i : BitVec 9
  s : BitVec 2
  c : BitVec 3
  x : Bool
  deriving DecidableEq, Repr

/-- The atomics: c is the scope and z the size (Table 12.6). -/
structure FmtAmo where
  q : Bool
  d : BitVec 5
  a : BitVec 5
  b : BitVec 5
  c : BitVec 3
  z : Bool
  x : Bool
  y : Bool
  deriving DecidableEq, Repr

/-- The ring forms: h is the handle (Table 12.6). -/
structure FmtRing where
  d : BitVec 5
  a : BitVec 5
  b : BitVec 5
  h : BitVec 4
  x : Bool
  y : Bool
  deriving DecidableEq, Repr

/-- Format C: f, g, j, x, y are SA, SB, HS, DRPA, DRPB (Table 12.7). -/
structure FmtC where
  e : BitVec 2
  h : BitVec 4
  a : BitVec 5
  b : BitVec 5
  f : Bool
  g : Bool
  j : Bool
  x : Bool
  y : Bool
  u : BitVec 4
  deriving DecidableEq, Repr

/-- WAITC and ECNT: n is the count of WAITC (Table 12.6). -/
structure FmtW where
  d : BitVec 5
  a : BitVec 5
  i : BitVec 7
  n : BitVec 4
  e : BitVec 2
  x : Bool
  deriving DecidableEq, Repr

/-- CSRR and CSRW: n is the system register number (Table 12.4). -/
structure FmtCsr where
  q : Bool
  d : BitVec 5
  a : BitVec 5
  n : BitVec 12
  x : Bool
  deriving DecidableEq, Repr

/-- The fields of a stream command beside OP (Table 12.9). -/
structure Command where
  t : Bool
  scp : BitVec 3
  drp : Bool
  sub : BitVec 3
  ha : BitVec 4
  hb : BitVec 4
  wa : BitVec 5
  wb : BitVec 5
  pdir : Bool
  port : BitVec 4
  arg : BitVec 25
  addr : Word
  deriving DecidableEq, Repr

/-- A placed element: its row, core, region slot and canonical number (R132, R316). -/
structure ElemRef where
  m : RowId
  c : CoreId
  slot : SlotId
  e : Nat
  deriving DecidableEq, Repr

/-- What a machine check records (Table 8.4). -/
structure MachineCheck where
  cls : BitVec 4
  array : BitVec 8
  bank : BitVec 12
  synd : BitVec 32
  addr : Word
  deriving DecidableEq, Repr

/-- The kinds of access an application core makes (R43–R47). -/
inductive CcKind where
  | load
  | store
  /-- an AMO, an LR or an SC: they fault on the I/O regions (R46) -/
  | amoadd
  | amoand
  | amoor
  | amoxor
  | amomin
  | amomax
  | amominu
  | amomaxu
  | amoswap
  | lr
  | sc
  deriving DecidableEq, Repr

/-- An access of an application core, by physical address (R43). -/
structure CcAccess where
  ac : Fin 24
  addr : Nat
  size : Nat
  kind : CcKind
  value : Word
  deriving DecidableEq, Repr

/-- Where a self-test found a fault (R63). -/
inductive FaultSite where
  | nowhere
  | place (die : Fin 5) (row : Fin 24) (core : Fin 8) (cell : Fin 64)
  | edge (e module : Fin 8)
  deriving DecidableEq, Repr

/-- What a failing self-test leaves for the diagnostic record (R62, R63). -/
structure Finding where
  test : BitVec 8
  site : FaultSite
  array : BitVec 8
  bank : BitVec 12
  syndrome : BitVec 40
  addr : BitVec 64
  deriving DecidableEq, Repr

/-- What one start step meets, as the outside world has it (R60, R61). -/
inductive StepResult where
  /-- it finishes -/
  | ok
  /-- it writes a FAIL entry with the code -/
  | fail (code : BitVec 16)
  /-- it makes no END before its deadline, so the watchdog resets the module -/
  | hang
  /-- it finishes with a finding that keeps the fabric off, as POST may -/
  | finding (code : BitVec 16) (f : Finding)
  deriving DecidableEq, Repr

/-- The results of the eight start steps (Table 2.7), for each start in turn. -/
structure StartInputs where
  steps : List StepResult
  deriving DecidableEq, Repr

/-- A public RSA-3072 key. -/
structure RsaKey where
  n : Nat
  e : Nat
  deriving DecidableEq, Repr

/-- What a firmware image's header carries beside its commit word (R58). The place of each in the header's bytes is not given. -/
structure ImageHeader where
  secVersion : BitVec 32
  /-- the step list -/
  steps : List Byte
  /-- the keys that the image is signed under, and their bit of the revocation mask (DESIGN CHOICE, log entry 57) -/
  rsaKey : RsaKey
  slhKey : List Byte
  keyIndex : Fin 64
  rsaSig : Nat
  slhSig : List Byte
  deriving DecidableEq, Repr

/-- A firmware image push: where the service has received it in HBM and how the programming ends (R69). -/
structure ImagePush where
  addr : Nat
  len : Nat
  header : ImageHeader
  /-- a push already in progress -/
  busy : Bool
  /-- whether the read-back digest compares equal to the header -/
  readBack : Bool
  deriving DecidableEq, Repr

/-- The reports of the 25 supply regions and the 8 fixed rails (R270). -/
structure CurrentCodes where
  regions : List (BitVec 10)
  fixed : List (BitVec 10)
  deriving DecidableEq, Repr

/-- Who makes a request at an HBM bridge (R275). -/
inductive Requester where
  /-- a place of a row, an engine operation, a PICK or an element of one of its cores -/
  | agent (m : RowId)
  /-- a hub unit acting for a launch on a core's behalf -/
  | hubFor (m : RowId)
  /-- a trace write of a core -/
  | traceOf (m : RowId)
  /-- a table walk that an access of the row caused -/
  | walkOf (m : RowId)
  /-- checkpoint and restore traffic -/
  | checkpoint
  /-- larder spills and reloads -/
  | larder
  /-- attic, launch descriptor and launch-table reads -/
  | hubRead
  /-- a frame from another module -/
  | frame
  /-- stall walker, event ring and completion stores -/
  | hubStore
  /-- a control complex access -/
  | control
  deriving DecidableEq, Repr

/-- The row that pays for a request (R275). -/
def Requester.row : Requester → Option RowId
  | .agent m | .hubFor m | .traceOf m | .walkOf m => some m
  | .checkpoint | .larder | .hubRead | .frame | .hubStore | .control => none

/-- A request at an HBM bridge: a whole 128-byte line, or the bytes of it that a mask names (R24). -/
structure BridgeRequest where
  by_ : Requester
  line : Nat
  write : Bool
  /-- bit i: byte i of the line is named -/
  mask : BitVec 128
  data : BitVec 1024
  deriving DecidableEq, Repr

/-- The row charged, none for traffic that no row pays for (R275). -/
def BridgeRequest.row (r : BridgeRequest) : Option RowId := r.by_.row

/-- What the scrubber finds in a line (R25). -/
inductive EccOutcome where
  | clean
  | corrected
  | uncorrectable
  deriving DecidableEq, Repr

/-- A frame as it arrives at a port: its EtherType and circuit header (Table 1.4) and its payload. -/
structure Frame where
  ethertype : BitVec 16
  ver : BitVec 4
  kind : BitVec 4
  dst : BitVec 18
  src : BitVec 18
  cls : BitVec 2
  circ : BitVec 16
  seq : BitVec 32
  ackseq : BitVec 32
  len : BitVec 16
  op : BitVec 8
  win : BitVec 16
  payload : List Byte
  /-- the port that it arrives at, the 802.1Q tags before its EtherType and its length in bytes (R27) -/
  port : Fin 16 := 0
  tags : Nat := 0
  octets : Nat := 64
  deriving DecidableEq, Repr

/-- One IEEE 1588 message with its hardware timestamp (R35, R53). -/
structure PtpMessage where
  twoStep : Bool
  domain : BitVec 8
  seqId : BitVec 16
  /-- the timestamp that the message carries, in seconds and nanoseconds -/
  seconds : BitVec 48
  nanos : BitVec 32
  /-- the timestamp taken at the MAC, in timebase units -/
  local_ : Word
  /-- the correctionField: signed, in units of 2^−16 ns -/
  correction : Word
  master : Word
  port : BitVec 16
  deriving DecidableEq, Repr

/-- An error of an array of the control complex (R54). -/
inductive CcError where
  /-- repaired and counted -/
  | corrected
  /-- in data that one application core consumes -/
  | consumed (ac : Fin 24)
  /-- in a dirty block of the shared cache, at a physical address -/
  | dirtyBlock (addr : Nat)
  /-- not attributable to one core -/
  | unattributed
  deriving DecidableEq, Repr

/-- The machine's instructions and events: one constructor per row of the opcode table. -/
inductive Instr where
  /-- ADD (R343): Writes the sum of two registers to the destination. -/
  | add (f : FmtA)
  /-- SUB (R343): Writes the difference of two registers to the destination. -/
  | sub (f : FmtA)
  /-- MUL (R343): Writes the low 64 bits of the product of two registers. -/
  | mul (f : FmtA)
  /-- MULH (R343): Writes the high 64 bits of the signed product of two registers. -/
  | mulh (f : FmtA)
  /-- MULHU (R343): Writes the high 64 bits of the unsigned product of two registers. -/
  | mulhu (f : FmtA)
  /-- DIV (R344): Writes the signed quotient truncated toward zero, with fixed results for the edge cases. -/
  | div (f : FmtA)
  /-- DIVU (R344): Writes the unsigned quotient, with fixed results for the edge cases. -/
  | divu (f : FmtA)
  /-- REM (R344): Writes the signed remainder, which takes the sign of the dividend. -/
  | rem (f : FmtA)
  /-- REMU (R344): Writes the unsigned remainder. -/
  | remu (f : FmtA)
  /-- AND (R343): Writes the bitwise AND of two registers. -/
  | andR (f : FmtA)
  /-- OR (R343): Writes the bitwise OR of two registers. -/
  | orR (f : FmtA)
  /-- XOR (R343): Writes the bitwise XOR of two registers. -/
  | xorR (f : FmtA)
  /-- SHL (R343): Shifts a register left by the low six bits of another. -/
  | shl (f : FmtA)
  /-- SHR (R343): Shifts a register right, shifting zeros in. -/
  | shr (f : FmtA)
  /-- SRA (R343): Shifts a register right, copying bit 63 in. -/
  | sra (f : FmtA)
  /-- MIN (R343): Writes the signed lesser of two registers. -/
  | minR (f : FmtA)
  /-- MAX (R343): Writes the signed greater of two registers. -/
  | maxR (f : FmtA)
  /-- MINU (R343): Writes the unsigned lesser of two registers. -/
  | minu (f : FmtA)
  /-- MAXU (R343): Writes the unsigned greater of two registers. -/
  | maxu (f : FmtA)
  /-- CLZ (R343): Writes the count of leading zero bits of a register. -/
  | clz (f : FmtA)
  /-- POPC (R343): Writes the count of one bits of a register. -/
  | popc (f : FmtA)
  /-- SEL (R343): Writes a or b according to the old destination value. -/
  | sel (f : FmtA)
  /-- SLT (R343): Writes 1 if a is signed-less than b, else 0. -/
  | slt (f : FmtA)
  /-- SLTU (R343): Writes 1 if a is unsigned-less than b, else 0. -/
  | sltu (f : FmtA)
  /-- SEQ (R343): Writes 1 if a equals b, else 0. -/
  | seq (f : FmtA)
  /-- ADDI (R345): Adds a sign-extended 14-bit immediate to a register. -/
  | addi (f : FmtI)
  /-- ANDI (R345): ANDs a register with a sign-extended immediate. -/
  | andi (f : FmtI)
  /-- ORI (R345): ORs a register with a sign-extended immediate. -/
  | ori (f : FmtI)
  /-- XORI (R345): XORs a register with a sign-extended immediate. -/
  | xori (f : FmtI)
  /-- SHLI (R345): Shifts a register left by an immediate count. -/
  | shli (f : FmtI)
  /-- SHRI (R345): Shifts a register right by an immediate count, shifting zeros in. -/
  | shri (f : FmtI)
  /-- SRAI (R345): Shifts a register right by an immediate count, copying bit 63 in. -/
  | srai (f : FmtI)
  /-- LUI (R345): Writes the immediate multiplied by 2^14. -/
  | lui (f : FmtI)
  /-- LEA (R346): Forms a slice-window address in the executing core's own slices. -/
  | lea (f : FmtI)
  /-- BEQ (R347): Branches at the row fetch unit when two q registers are equal. -/
  | beq (f : FmtB)
  /-- BNE (R347): Branches at the row fetch unit when two q registers differ. -/
  | bne (f : FmtB)
  /-- BLT (R347): Branches when a is signed-less than b. -/
  | blt (f : FmtB)
  /-- BGE (R347): Branches when a is signed-greater or equal to b. -/
  | bge (f : FmtB)
  /-- BLTU (R347): Branches when a is unsigned-less than b. -/
  | bltu (f : FmtB)
  /-- BGEU (R347): Branches when a is unsigned-greater or equal to b. -/
  | bgeu (f : FmtB)
  /-- JAL (R348): Jumps at the row fetch unit and writes the return address to a q register. -/
  | jal (f : FmtJ)
  /-- JALR (R348): Jumps to a register target plus word offset and writes the return address. -/
  | jalr (f : FmtI0)
  /-- LOOP (R349): Decrements a count register and branches while it exceeds 1. -/
  | loopW (f : FmtB)
  /-- ROWALL (R351): Collects every core's contribution and writes 1 at the RFU if all are non-zero. -/
  | rowall (f : FmtA0)
  /-- ROWANY (R351): Collects every core's contribution and writes 1 at the RFU if any is non-zero. -/
  | rowany (f : FmtA0)
  /-- ROWSUM (R351): Collects every core's contribution and writes their sum modulo 2^64 at the RFU. -/
  | rowsum (f : FmtA0)
  /-- CIF (R352): Pushes a predication entry and sets the core's active bit from a register. -/
  | cif (f : FmtA0)
  /-- CELSE (R352): Inverts the active bit within the current predication entry. -/
  | celse (f : FmtA0)
  /-- CEND (R352): Pops the predication stack and restores the outer active bit. -/
  | cend (f : FmtA0)
  /-- POSTE (R353): Writes the east post from a register, without release mark. -/
  | poste (f : FmtA)
  /-- POSTE_REL (R353): Writes the east post from a register as a release at row scope. -/
  | posteRel (f : FmtA)
  /-- GETW (R353): Writes the post value carried by this vine word, or core 7's post at the RFU. -/
  | getw (f : FmtA)
  /-- LD (R356): Loads a sign-extended value from memory. -/
  | ld (f : FmtM)
  /-- LDU (R356): Loads a zero-extended value from memory. -/
  | ldu (f : FmtM)
  /-- ST (R356): Stores the low bytes of a register to memory. -/
  | st (f : FmtM)
  /-- LDA (R356): Loads a sign-extended value as an acquire at its scope. -/
  | lda (f : FmtM)
  /-- STL (R356): Stores a value as a release at its scope. -/
  | stl (f : FmtM)
  /-- FENCE (R357): Orders the place's own accesses as an acq, rel or full fence at its scope. -/
  | fence (f : FmtM)
  /-- AMOADD (R360): Atomically adds an operand at the home and returns the old value. -/
  | amoadd (f : FmtAmo)
  /-- AMOAND (R360): Atomically ANDs an operand at the home and returns the old value. -/
  | amoand (f : FmtAmo)
  /-- AMOOR (R360): Atomically ORs an operand at the home and returns the old value. -/
  | amoor (f : FmtAmo)
  /-- AMOXOR (R360): Atomically XORs an operand at the home and returns the old value. -/
  | amoxor (f : FmtAmo)
  /-- AMOMIN (R360): Atomically keeps the signed lesser value and returns the old value. -/
  | amomin (f : FmtAmo)
  /-- AMOMAX (R360): Atomically keeps the signed greater value and returns the old value. -/
  | amomax (f : FmtAmo)
  /-- AMOMINU (R360): Atomically keeps the unsigned lesser value and returns the old value. -/
  | amominu (f : FmtAmo)
  /-- AMOMAXU (R360): Atomically keeps the unsigned greater value and returns the old value. -/
  | amomaxu (f : FmtAmo)
  /-- AMOSWP (R360): Atomically swaps in an operand and returns the old value. -/
  | amoswp (f : FmtAmo)
  /-- AMOCAS (R360): Atomically writes the operand if the old value equals the compare value and returns the old value. -/
  | amocas (f : FmtAmo)
  /-- HSET (R362): Binds a ring handle to a well-formed descriptor, or unbinds it with address 0. -/
  | hset (f : FmtRing)
  /-- WAITF (R363): Issues once the ring has at least n filled slots, as an acquire. -/
  | waitf (f : FmtRing)
  /-- WAITE (R363): Issues once the ring has at least n free slots, as an acquire. -/
  | waite (f : FmtRing)
  /-- ADVH (R363): Advances the ring head by n at the home as a release. -/
  | advh (f : FmtRing)
  /-- ADVT (R363): Advances the ring tail by n at the home as a release. -/
  | advt (f : FmtRing)
  /-- HCNT (R363): Writes a snapshot of the ring's filled and free counts. -/
  | hcnt (f : FmtRing)
  /-- CMD (R365): Issues the command in its four literal words, after substitution, to an engine as a fork. -/
  | cmd (f : FmtC) (lit : BitVec 128)
  /-- CMDM (R365): Loads a 16-byte command from memory and issues it, after substitution, to an engine. -/
  | cmdm (f : FmtC)
  /-- WAITC (R366): Issues once an engine has at most n unretired operations, joining those retired. -/
  | waitc (f : FmtW)
  /-- ECNT (R366): Writes the count of issued and unretired operations of an engine. -/
  | ecnt (f : FmtW)
  /-- RCFG (R367): Configures a region slot from an RCB and starts its placement. -/
  | rcfg (f : FmtA0)
  /-- RSTART (R367): Starts a READY region, injecting its initial tokens. -/
  | rstart (f : FmtA0)
  /-- RSWITCH (R367): Switches the configuration of a running region to a new image. -/
  | rswitch (f : FmtA0)
  /-- RWAIT (R369): Waits until the region is not loading, running or completing and returns its status word. -/
  | rwait (f : FmtA0)
  /-- TNEXT (R89): Returns the next schedule table entry address and advances the cursor. -/
  | tnext (f : FmtA0)
  /-- BANK (R371): Sets a scalar register bank to OFF, KEEP or FULL. -/
  | bank (f : FmtA0)
  /-- DROP (R370): Makes up to three named scalar registers dead. -/
  | drop (f : FmtA0)
  /-- NOP (R372): Does nothing; with Q = 0 it is a vine word carrying posts. -/
  | nop (f : FmtA)
  /-- HALT (R372): Stops fetching at the RFU and halts every core of the row. -/
  | halt (f : FmtA)
  /-- ERET (R238): Leaves handler mode, restores held state and resends vine words from the resend buffer. -/
  | eret (f : FmtA)
  /-- TBR (R372): Reads the timebase once earlier accesses of the place are performed. -/
  | tbr (f : FmtA)
  /-- TRAP (R373): Raises a uniform SOFT trap carrying its immediate. -/
  | trapW (f : FmtI)
  /-- BRK (R373): Raises a uniform BRKPT trap carrying its immediate. -/
  | brk (f : FmtI)
  /-- CSRR (R374): Reads a system register into a register. -/
  | csrr (f : FmtCsr)
  /-- CSRW (R374): Writes a system register field by field from a register. -/
  | csrw (f : FmtCsr)
  /-- HANDLER_ENTRY (R236): Once every place has stopped, the row enters handler mode and fetches from %hbase. -/
  | handlerEntry (m : RowId)
  /-- MACHINE_CHECK (R241): An uncorrectable error or broken circuit halts every place of the row at once with cause MCHK. -/
  | machineCheck (m : RowId) (p : PlaceId) (k : MachineCheck)
  /-- LOAD_DATA_RETURN (R341): Returned data of a load or atomic is written to its pending destination. -/
  | loadDataReturn (m : RowId) (p : PlaceId)
  /-- ECHO_RETURN (R112): A row reduction or Q = 1 GETW returns on the echo path and the RFU writes q[d]. -/
  | echoReturn (m : RowId)
  /-- REGISTER_BANK_IDLE (R119): A scalar bank idle for %kidle.IDLE ns with live registers goes to KEEP. -/
  | registerBankIdle (m : RowId) (c : CoreId) (b : Fin 4)
  /-- REGISTER_BANK_WAKE (R119): A waking scalar bank reaches FULL and waiting words issue. -/
  | registerBankWake (m : RowId) (c : CoreId) (b : Fin 4)
  /-- SCRATCHPAD_BANK_IDLE (R187): A scratchpad bank idle for %kidle.IDLE ns with live lines goes to KEEP. -/
  | scratchpadBankIdle (m : RowId) (c : CoreId) (mi : Fin 64) (b : Fin 16)
  /-- SCRATCHPAD_BANK_WAKE (R187): A waking scratchpad bank reaches FULL and serves waiting requesters. -/
  | scratchpadBankWake (m : RowId) (c : CoreId) (mi : Fin 64) (b : Fin 16)
  /-- HOLD_BANK_IDLE (R169): A hold bank idle for %kidle.IDLE ns with live entries goes to KEEP. -/
  | holdBankIdle (r : ElemRef)
  /-- HOLD_BANK_WAKE (R169): A waking hold bank reaches FULL and the waiting firing proceeds. -/
  | holdBankWake (r : ElemRef)
  /-- OPERATION_COMPLETION (R125): An engine operation completes with a status, retires in order and records non-OK status in %estE. -/
  | operationCompletion (m : RowId) (c : CoreId) (op : Nat)
  /-- SRD (R382): Reads the elements of a walk and feeds them to a fabric input port or ring by whole lines. -/
  | srd (c : Command)
  /-- SWR (R382): Drains a fabric output port or ring and writes the walk's elements by whole lines. -/
  | swr (c : Command)
  /-- SCOPY (R383): Copies each element of one walk to the element of the same index in another. -/
  | scopy (c : Command)
  /-- SFILL (R384): Writes each element of a walk with a repeated 8-byte pattern. -/
  | sfill (c : Command)
  /-- PSET (R385): Reads 32 bytes and writes them to a walk slot of the issuing core. -/
  | pset (c : Command)
  /-- SGATHER (R382): Reads walk elements through the radix-partition network and feeds them. -/
  | sgather (c : Command)
  /-- SSCATTER (R382): Drains data and writes walk elements through the radix-partition network. -/
  | sscatter (c : Command)
  /-- SSCATOP (R386): Combines each operand atomically into the walk element of the same index at its home. -/
  | sscatop (c : Command)
  /-- KVAPP (R387): Reserves, writes and publishes keys into a key set, maintaining rinds. -/
  | kvapp (c : Command)
  /-- KVAPP_PUBLISH (R201): Once every earlier reservation has published, a KVAPP updates rinds and adds n to NKEY as a release. -/
  | kvappPublish (m : RowId) (c : CoreId) (op : Nat)
  /-- PICK (R391): Bounds every page of a key set against a query and writes the chosen pages to the punnet. -/
  | pick (c : Command)
  /-- GATHP (R393): Gathers the key or value pages named by a punnet into a ring or port. -/
  | gathp (c : Command)
  /-- MXLDW (R395): Loads the B tile at the ring head as stationary weights by a K sweep. -/
  | mxldw (c : Command)
  /-- MXGO (R396): Streams the A tile rows through a systolic region into the accumulators. -/
  | mxgo (c : Command)
  /-- MXDRN (R397): Reads, converts and writes every accumulator of a systolic region. -/
  | mxdrn (c : Command)
  /-- SPUT (R401): Writes local walk elements to a remote node over a circuit. -/
  | sput (c : Command)
  /-- SGET (R401): Reads a remote extent and writes it to the local walk elements. -/
  | sget (c : Command)
  /-- ARED (R402): Reduces one vector across a group of modules in list order. -/
  | ared (c : Command)
  /-- CJOIN (R403): Configures a join node over 2 to 8 cross-die circuits. -/
  | cjoin (c : Command)
  /-- LAUNCH (R404): Passes a ROWS or GRAPH request to the fabric manager. -/
  | launchCmd (c : Command)
  /-- CKPT (R405): Asks the hub for a checkpoint at once. -/
  | ckpt (c : Command)
  /-- MARK (R406): Writes one MARK record through the issuing core's trace unit. -/
  | markCmd (c : Command)
  /-- SIGNAL (R407): After earlier operations on the engine complete, stores or adds a value to each walk element as a release. -/
  | signalCmd (c : Command)
  /-- BAR (R408): Adds one to a barrier word and waits until the generation target is reached. -/
  | barCmd (c : Command)
  /-- CE_FIRING (R135): An enabled compute element fires, carrying one vector through its context's stages. -/
  | ceFiring (r : ElemRef)
  /-- MLD (R432): A memory element loads one value per active lane and emits them. -/
  | mld (r : ElemRef)
  /-- MST (R432): A memory element stores one value per active lane. -/
  | mst (r : ElemRef)
  /-- MAMO (R432): A memory element performs one atomic per active lane and emits the old values. -/
  | mamo (r : ElemRef)
  /-- SINK (R151): Consumes tokens and reports to the region controller after its target of F tokens. -/
  | sinkElem (r : ElemRef)
  /-- CNTR (R429): Emits index tokens of up to three counter levels, once or per trigger. -/
  | cntr (r : ElemRef)
  /-- STAMP (R145): Tags data tokens from a counter within its window. -/
  | stampElem (r : ElemRef)
  /-- ORDER (R146): Emits held tagged tokens in tag order and returns tags to STAMP. -/
  | orderElem (r : ElemRef)
  /-- RINGIN (R467): A ring port takes a filled slot, advances the head and emits its token. -/
  | ringin (r : ElemRef)
  /-- RINGOUT (R467): A ring port writes a data token into a free slot and advances the tail. -/
  | ringout (r : ElemRef)
  /-- PLACEMENT (R161): Placement and load of a configured region end, moving it to READY or back to FREE. -/
  | placement (m : RowId) (c : CoreId) (slot : SlotId)
  /-- REGION_COMPLETION (R92): A region meeting its completion condition writes back and performs its completion store. -/
  | regionCompletion (m : RowId) (c : CoreId) (slot : SlotId)
  /-- GRAPH_REQUEST (R95): The fabric manager serves a queued GRAPH request once a region is found. -/
  | graphRequest (prio : Fin 4)
  /-- BREAKPOINT (R256): An arc admitting its N-th token fires a breakpoint and freezes the region. -/
  | breakpoint (m : RowId) (c : CoreId) (i : Fin 4)
  /-- LSUBMIT_WRITE (R80): Reads and checks a launch descriptor and makes the launch pending or refuses it. -/
  | lsubmitWrite (ac : Fin 24) (v : Word)
  /-- LAUNCH_START (R74): A launch starts on its row set, setting registers and state before the first fetch. -/
  | launchStart (lid : BitVec 16)
  /-- LAUNCH_COMPLETION (R76): When rows, regions and operations are done, the hub stores DONEV and frees the rows. -/
  | launchCompletion (lid : BitVec 16)
  /-- LABORT_WRITE (R78): Aborts the launch with the written identifier. -/
  | labortWrite (v : Word)
  /-- LTCTL_WRITE (R82): Enables or disables the launch table from the current timebase value. -/
  | ltctlWrite (v : Word)
  /-- LTENT_WRITE (R83): Writes a launch table entry; writing word 0 with V = 1 clears the recorded refusal. -/
  | ltentWrite (e : Fin 256) (w : Fin 4) (v : Word)
  /-- ENTRY_FIRE (R85): A launch table entry's slot begins and the entry fires under its overrun rule. -/
  | entryFire (e : Fin 256)
  /-- ATFLUSH_WRITE (R79): Invalidates every attic entry not in use. -/
  | atflushWrite (v : Word)
  /-- TLBINV_WRITE (R178): Invalidates matching TLB entries on the masked dies and completes when they are gone. -/
  | tlbinvWrite (v : Word)
  /-- SWGO_WRITE (R254): Starts a stall walk and writes its chain record. -/
  | swgoWrite (v : Word)
  /-- BPGO_WRITE (R257): Thaws the frozen region slots named. -/
  | bpgoWrite (m : RowId) (c : CoreId) (v : Word)
  /-- HXM_WRITE (R180): Sets a memory cell's bank hash and kills every line of the cell. -/
  | hxmWrite (m : RowId) (c : CoreId) (mi : Fin 64) (v : Word)
  /-- TRCTL_WRITE (R261): Configures a trace unit; enabling resets TRIDX and writes an ANCHOR. -/
  | trctlWrite (m : RowId) (c : CoreId) (v : Word)
  /-- CHECKPOINT (R262): Every PER ms the hub stops, freezes and pauses the checkpointed rows. -/
  | checkpoint
  /-- EPOCH (R263): Once earlier accesses are performed, the hub writes an epoch to the cellar and resumes. -/
  | epoch
  /-- CKREST_WRITE (R266): Starts a restore of a launch from the cellar, optionally replaying the order log. -/
  | ckrestWrite (v : Word)
  /-- SCRATCHPAD_APERTURE_ACCESS (R44): An application core access to scratchpad through the aperture. -/
  | scratchpadApertureAccess (a : CcAccess)
  /-- CELL_REGISTER_APERTURE_ACCESS (R47): An application core access to memory cell registers through the aperture. -/
  | cellRegisterApertureAccess (a : CcAccess)
  /-- REGISTER_WRITE (R43): A write to a hub register without behaviour of its own, with clamping and W1C rules. -/
  | registerWrite (off : BitVec 32) (v : Word)
  /-- HMODE_WRITE (R52): Switches hub functions between hardware and host-assisted mode. -/
  | hmodeWrite (v : Word)
  /-- HARSP_COMMIT (R51): The final write at HARSP + 0x38 commits a host-assisted response. -/
  | harspCommit (i : Fin 6) (v : Word)
  /-- WDOG_WRITE (R55): Writes the watchdog register; EN is sticky and BOOT clears by W1C. -/
  | wdogWrite (v : Word)
  /-- WDKICK (R55): Restarts the watchdog count. -/
  | wdkick (v : Word)
  /-- WATCHDOG_EXPIRY (R55): The watchdog count expires, giving a first stage, a second-stage halt or an immediate warm reset. -/
  | watchdogExpiry (o : StartInputs)
  /-- POWER_ON (R60): Power is applied and the module begins a start. -/
  | powerOn (o : StartInputs)
  /-- FORCE_RESTART (R68): A Redfish ForceRestart action causes a warm reset. -/
  | forceRestart (o : StartInputs)
  /-- POWER_CYCLE (R68): A Redfish PowerCycle action causes a cold reset. -/
  | powerCycle (o : StartInputs)
  /-- IMAGE_PUSH (R69): A firmware image push is received, checked, programmed and read back. -/
  | imagePush (p : ImagePush)
  /-- CLEAR_START_RECORD (R57): Erases the start record and writes a LEVELS entry with every level PRIMARY. -/
  | clearStartRecord
  /-- ATTESTATION_REPORT (R67): Builds and dual-signs an attestation report over a requester nonce. -/
  | attestationReport (nonce : List Byte)
  /-- LOGIN (R68): A Redfish login, locking the account after five failures. -/
  | login (acct : Fin 16) (password : List Byte)
  /-- PASSWORD_CHANGE (R68): Changes an account password, lifting PasswordChangeRequired. -/
  | passwordChange (acct : Fin 16) (old new : List Byte)
  /-- LOCKOUT_EXPIRY (R68): An account lock ends after 60 s. -/
  | lockoutExpiry (acct : Fin 16)
  /-- SESSION_TIMEOUT (R68): A session idle for 30 minutes ends. -/
  | sessionTimeout (sid : Nat)
  /-- THWARN (R64): A die crosses its warning threshold and THWARN is posted. -/
  | thwarn (d : Fin 5) (temp : BitVec 16)
  /-- THCRIT (R64): A die crosses its critical threshold, halting and switching off that die or the whole fabric. -/
  | thcrit (d : Fin 5) (temp : BitVec 16)
  /-- THERMAL_TRIP (R64): A die crosses the trip threshold and the module removes all power. -/
  | thermalTrip (d : Fin 5) (temp : BitVec 16)
  /-- POWER_BRAKE (R272): The OAM power-brake signal asserts or deasserts, changing the active limits. -/
  | powerBrake (asserted : Bool)
  /-- CURRENT_REPORT (R270): Every 500 ns every rail reports its mean current. -/
  | currentReport (codes : CurrentCodes)
  /-- EXCURSION (R272): The excursion count reaches 20,000 and forces a cut. -/
  | excursion
  /-- REGULATOR_STEP (R269): Every 250 ns a regulator moves 5 mV toward its target. -/
  | regulatorStep (v : Fin 25)
  /-- VSET_WRITE (R269): Sets a region's requested voltage, clamped and rounded, changing its target. -/
  | vsetWrite (v : Fin 25) (mv : Word)
  /-- BUDGET_INTERVAL (R274): At each interval boundary byte-budget counts restart and waiting requests are served. -/
  | budgetInterval
  /-- BRIDGE_REQUEST (R24): An HBM bridge serves a whole or partial line request. -/
  | bridgeRequest (r : BridgeRequest)
  /-- SCRUB (R25): The background scrubber walks HBM, repairing or poisoning lines. -/
  | scrub (line : Nat) (outcome : EccOutcome)
  /-- FLIT_RETRY (R21): A flit failing CRC is retried from the sender's retry buffer. -/
  | flitRetry (e : Fin 8) (k : Fin 8)
  /-- MODULE_RETRAIN (R21): A module exceeding 16 consecutive retries retrains. -/
  | moduleRetrain (e : Fin 8) (k : Fin 8)
  /-- RETRAIN_FAILURE (R21): A module whose retraining fails is taken out of service. -/
  | retrainFailure (e : Fin 8) (k : Fin 8)
  /-- DATA (R30): A circuit DATA frame arrives and is accepted in sequence or NAKed. -/
  | dataFrame (f : Frame)
  /-- ACK (R31): An ACK frame acknowledges frames and completes remote puts. -/
  | ackFrame (f : Frame)
  /-- NAK (R30): A NAK frame makes the sender retransmit go-back-N. -/
  | nakFrame (f : Frame)
  /-- OPEN (R398): An OPEN frame opens a circuit. -/
  | openFrame (f : Frame)
  /-- CLOSE (R398): A CLOSE frame closes a circuit. -/
  | closeFrame (f : Frame)
  /-- PROBE (R29): A PROBE frame arrives on a circuit. -/
  | probeFrame (f : Frame)
  /-- RETRANSMIT_TIMEOUT (R30): After 20 µs without acknowledgement the sender retransmits go-back-N. -/
  | retransmitTimeout (circ : BitVec 16)
  /-- PORT_LINK_DOWN (R32): A scale-up port link goes down and its circuits are rebound and resent. -/
  | portLinkDown (p : Fin 16)
  /-- CIRCUIT_GIVE_UP (R33): A circuit with unacknowledged frames makes no progress for the give-up time and breaks. -/
  | circuitGiveUp (circ : BitVec 16)
  /-- CGIVE_WRITE (R33): Sets the circuit give-up time, clamped, for every circuit. -/
  | cgiveWrite (v : Word)
  /-- NODEID_WRITE (R28): Writes the node identifier once per boot; later writes are ignored. -/
  | nodeidWrite (v : Word)
  /-- PTP_SYNC (R53): A Sync message is timestamped for the timebase servo. -/
  | ptpSync (msg : PtpMessage)
  /-- PTP_FOLLOW_UP (R53): A Follow_Up completes a two-step Sync exchange. -/
  | ptpFollowUp (msg : PtpMessage)
  /-- PTP_DELAY_REQ (R35): The device sends a Delay_Req and timestamps its transmission. -/
  | ptpDelayReq (msg : PtpMessage)
  /-- PTP_DELAY_RESP (R53): A Delay_Resp completes a delay exchange. -/
  | ptpDelayResp (msg : PtpMessage)
  /-- TBRATE_WRITE (R38): Sets the timebase rate correction in host-assisted mode. -/
  | tbrateWrite (v : Word)
  /-- TBSLEW_WRITE (R38): Starts slewing away a written offset in host-assisted mode. -/
  | tbslewWrite (v : Word)
  /-- TBSTEP_WRITE (R38): Applies a written timebase step in host-assisted mode. -/
  | tbstepWrite (v : Word)
  /-- RETRAINING_SUCCESS (R21): A retraining die-to-die module completes its retraining and returns to service on its edge. -/
  | retrainingSuccess (e : Fin 8) (k : Fin 8)
  /-- PORT_LINK_UP (R32): A scale-up port's link comes up and becomes available for circuit binding. -/
  | portLinkUp (p : Fin 16)
  /-- LOSS_OF_THE_MASTER (R37): The IEEE 1588 master is lost and the timebase runs free at its last frequency correction. -/
  | lossOfTheMaster
  /-- POWER_LOSS (R69): Input power fails, possibly during programming of the firmware store or start record. -/
  | powerLoss
  /-- CONTROL_COMPLEX_ACCESS (R45): An application core load, store or AMO to device HBM, coherent with fabric writes, or a faulting access outside the mapped ranges. -/
  | controlComplexAccess (a : CcAccess)
  /-- CONTROL_COMPLEX_UNCORRECTABLE_ERROR (R54): An uncorrectable error in a control complex array causes an access fault, poisons an HBM line or interrupts every application core. -/
  | controlComplexUncorrectableError (e : CcError)
  /-- FABRIC_POWER_STATE (R63): A Redfish request to change the fabric power state, refused in the safe, talkative state. -/
  | fabricPowerState (on : Bool)
  deriving DecidableEq, Repr

end Sys2Proof
end

