-- ==== Sys2Proof/WellFormed.lean ====
section
/-! DEFINITION. Which terms of `Instr` an encoding can carry: the encoding checks of R340 step 1 that do not depend on the
executing place's state. A word that fails one traps ILLOP where it executes. -/

namespace Sys2Proof

/-- A register field of a word executed at the row fetch unit names q0–q15 (R298). -/
def rfuReg (q : Bool) (r : BitVec 5) : Bool := !q || decide (r.toNat < 16)

/-- Scope codes 6 and 7 are unassigned (R207). -/
def scopeOk (c : BitVec 3) : Bool := decide (c.toNat < 6)

/-- The encoding checks of R207, R298, R302, R303 and R371. -/
def Instr.wf : Instr → Bool
  | .add f => rfuReg f.q f.d && rfuReg f.q f.a && rfuReg f.q f.b
  | .sub f => rfuReg f.q f.d && rfuReg f.q f.a && rfuReg f.q f.b
  | .mul f => rfuReg f.q f.d && rfuReg f.q f.a && rfuReg f.q f.b
  | .mulh f => rfuReg f.q f.d && rfuReg f.q f.a && rfuReg f.q f.b
  | .mulhu f => rfuReg f.q f.d && rfuReg f.q f.a && rfuReg f.q f.b
  | .div f => rfuReg f.q f.d && rfuReg f.q f.a && rfuReg f.q f.b
  | .divu f => rfuReg f.q f.d && rfuReg f.q f.a && rfuReg f.q f.b
  | .rem f => rfuReg f.q f.d && rfuReg f.q f.a && rfuReg f.q f.b
  | .remu f => rfuReg f.q f.d && rfuReg f.q f.a && rfuReg f.q f.b
  | .andR f => rfuReg f.q f.d && rfuReg f.q f.a && rfuReg f.q f.b
  | .orR f => rfuReg f.q f.d && rfuReg f.q f.a && rfuReg f.q f.b
  | .xorR f => rfuReg f.q f.d && rfuReg f.q f.a && rfuReg f.q f.b
  | .shl f => rfuReg f.q f.d && rfuReg f.q f.a && rfuReg f.q f.b
  | .shr f => rfuReg f.q f.d && rfuReg f.q f.a && rfuReg f.q f.b
  | .sra f => rfuReg f.q f.d && rfuReg f.q f.a && rfuReg f.q f.b
  | .minR f => rfuReg f.q f.d && rfuReg f.q f.a && rfuReg f.q f.b
  | .maxR f => rfuReg f.q f.d && rfuReg f.q f.a && rfuReg f.q f.b
  | .minu f => rfuReg f.q f.d && rfuReg f.q f.a && rfuReg f.q f.b
  | .maxu f => rfuReg f.q f.d && rfuReg f.q f.a && rfuReg f.q f.b
  | .clz f => rfuReg f.q f.d && rfuReg f.q f.a
  | .popc f => rfuReg f.q f.d && rfuReg f.q f.a
  | .sel f => rfuReg f.q f.d && rfuReg f.q f.a && rfuReg f.q f.b
  | .slt f => rfuReg f.q f.d && rfuReg f.q f.a && rfuReg f.q f.b
  | .sltu f => rfuReg f.q f.d && rfuReg f.q f.a && rfuReg f.q f.b
  | .seq f => rfuReg f.q f.d && rfuReg f.q f.a && rfuReg f.q f.b
  | .addi f => rfuReg f.q f.d && rfuReg f.q f.a
  | .andi f => rfuReg f.q f.d && rfuReg f.q f.a
  | .ori f => rfuReg f.q f.d && rfuReg f.q f.a
  | .xori f => rfuReg f.q f.d && rfuReg f.q f.a
  | .shli f => rfuReg f.q f.d && rfuReg f.q f.a
  | .shri f => rfuReg f.q f.d && rfuReg f.q f.a
  | .srai f => rfuReg f.q f.d && rfuReg f.q f.a
  | .lui f => rfuReg f.q f.d
  | .lea f => rfuReg f.q f.d && rfuReg f.q f.a
  | .beq f => rfuReg true f.a && rfuReg true f.b
  | .bne f => rfuReg true f.a && rfuReg true f.b
  | .blt f => rfuReg true f.a && rfuReg true f.b
  | .bge f => rfuReg true f.a && rfuReg true f.b
  | .bltu f => rfuReg true f.a && rfuReg true f.b
  | .bgeu f => rfuReg true f.a && rfuReg true f.b
  | .jal f => rfuReg true f.l
  | .jalr f => rfuReg true f.d && rfuReg true f.a
  | .loopW f => rfuReg true f.a
  | .rowall f => rfuReg true f.d
  | .rowany f => rfuReg true f.d
  | .rowsum f => rfuReg true f.d
  | .cif _ => true
  | .celse _ => true
  | .cend _ => true
  | .poste f => rfuReg f.q f.a
  | .posteRel f => rfuReg f.q f.a
  | .getw f => rfuReg f.q f.d
  | .ld f => rfuReg f.q f.d && rfuReg f.q f.b && scopeOk f.c
  | .ldu f => rfuReg f.q f.d && rfuReg f.q f.b && scopeOk f.c
  | .st f => rfuReg f.q f.d && rfuReg f.q f.b && scopeOk f.c
  | .lda f => rfuReg f.q f.d && rfuReg f.q f.b && scopeOk f.c
  | .stl f => rfuReg f.q f.d && rfuReg f.q f.b && scopeOk f.c
  | .fence f => scopeOk f.c && f.s != 3
  | .amoadd f => rfuReg f.q f.d && rfuReg f.q f.a && rfuReg f.q f.b && scopeOk f.c
  | .amoand f => rfuReg f.q f.d && rfuReg f.q f.a && rfuReg f.q f.b && scopeOk f.c
  | .amoor f => rfuReg f.q f.d && rfuReg f.q f.a && rfuReg f.q f.b && scopeOk f.c
  | .amoxor f => rfuReg f.q f.d && rfuReg f.q f.a && rfuReg f.q f.b && scopeOk f.c
  | .amomin f => rfuReg f.q f.d && rfuReg f.q f.a && rfuReg f.q f.b && scopeOk f.c
  | .amomax f => rfuReg f.q f.d && rfuReg f.q f.a && rfuReg f.q f.b && scopeOk f.c
  | .amominu f => rfuReg f.q f.d && rfuReg f.q f.a && rfuReg f.q f.b && scopeOk f.c
  | .amomaxu f => rfuReg f.q f.d && rfuReg f.q f.a && rfuReg f.q f.b && scopeOk f.c
  | .amoswp f => rfuReg f.q f.d && rfuReg f.q f.a && rfuReg f.q f.b && scopeOk f.c
  | .amocas f => rfuReg f.q f.d && rfuReg f.q f.a && rfuReg f.q f.b && scopeOk f.c
  | .hset _ => true
  | .waitf _ => true
  | .waite _ => true
  | .advh _ => true
  | .advt _ => true
  | .hcnt _ => true
  | .cmd _ _ => true
  | .cmdm _ => true
  | .waitc _ => true
  | .ecnt _ => true
  | .rcfg _ => true
  | .rstart _ => true
  | .rswitch _ => true
  | .rwait _ => true
  | .tnext _ => true
  | .bank f => decide (f.a.toNat < 4) && decide (f.b.toNat < 3)
  | .drop _ => true
  | .nop _ => true
  | .halt _ => true
  | .eret _ => true
  | .tbr f => rfuReg f.q f.d
  | .trapW _ => true
  | .brk _ => true
  | .csrr f => rfuReg f.q f.d
  | .csrw f => rfuReg f.q f.a
  | .handlerEntry _ => true
  | .machineCheck _ _ _ => true
  | .loadDataReturn _ _ => true
  | .echoReturn _ => true
  | .registerBankIdle _ _ _ => true
  | .registerBankWake _ _ _ => true
  | .scratchpadBankIdle _ _ _ _ => true
  | .scratchpadBankWake _ _ _ _ => true
  | .holdBankIdle _ => true
  | .holdBankWake _ => true
  | .operationCompletion _ _ _ => true
  | .srd _ => true
  | .swr _ => true
  | .scopy _ => true
  | .sfill _ => true
  | .pset _ => true
  | .sgather _ => true
  | .sscatter _ => true
  | .sscatop _ => true
  | .kvapp _ => true
  | .kvappPublish _ _ _ => true
  | .pick _ => true
  | .gathp _ => true
  | .mxldw _ => true
  | .mxgo _ => true
  | .mxdrn _ => true
  | .sput _ => true
  | .sget _ => true
  | .ared _ => true
  | .cjoin _ => true
  | .launchCmd _ => true
  | .ckpt _ => true
  | .markCmd _ => true
  | .signalCmd _ => true
  | .barCmd _ => true
  | .ceFiring _ => true
  | .mld _ => true
  | .mst _ => true
  | .mamo _ => true
  | .sinkElem _ => true
  | .cntr _ => true
  | .stampElem _ => true
  | .orderElem _ => true
  | .ringin _ => true
  | .ringout _ => true
  | .placement _ _ _ => true
  | .regionCompletion _ _ _ => true
  | .graphRequest _ => true
  | .breakpoint _ _ _ => true
  | .lsubmitWrite _ _ => true
  | .launchStart _ => true
  | .launchCompletion _ => true
  | .labortWrite _ => true
  | .ltctlWrite _ => true
  | .ltentWrite _ _ _ => true
  | .entryFire _ => true
  | .atflushWrite _ => true
  | .tlbinvWrite _ => true
  | .swgoWrite _ => true
  | .bpgoWrite _ _ _ => true
  | .hxmWrite _ _ _ _ => true
  | .trctlWrite _ _ _ => true
  | .checkpoint => true
  | .epoch => true
  | .ckrestWrite _ => true
  | .scratchpadApertureAccess _ => true
  | .cellRegisterApertureAccess _ => true
  | .registerWrite _ _ => true
  | .hmodeWrite _ => true
  | .harspCommit _ _ => true
  | .wdogWrite _ => true
  | .wdkick _ => true
  | .watchdogExpiry _ => true
  | .powerOn _ => true
  | .forceRestart _ => true
  | .powerCycle _ => true
  | .imagePush _ => true
  | .clearStartRecord => true
  | .attestationReport _ => true
  | .login _ _ => true
  | .passwordChange _ _ _ => true
  | .lockoutExpiry _ => true
  | .sessionTimeout _ => true
  | .thwarn _ _ => true
  | .thcrit _ _ => true
  | .thermalTrip _ _ => true
  | .powerBrake _ => true
  | .currentReport _ => true
  | .excursion => true
  | .regulatorStep _ => true
  | .vsetWrite _ _ => true
  | .budgetInterval => true
  | .bridgeRequest _ => true
  | .scrub _ _ => true
  | .flitRetry _ _ => true
  | .moduleRetrain _ _ => true
  | .retrainFailure _ _ => true
  | .dataFrame _ => true
  | .ackFrame _ => true
  | .nakFrame _ => true
  | .openFrame _ => true
  | .closeFrame _ => true
  | .probeFrame _ => true
  | .retransmitTimeout _ => true
  | .portLinkDown _ => true
  | .circuitGiveUp _ => true
  | .cgiveWrite _ => true
  | .nodeidWrite _ => true
  | .ptpSync _ => true
  | .ptpFollowUp _ => true
  | .ptpDelayReq _ => true
  | .ptpDelayResp _ => true
  | .tbrateWrite _ => true
  | .tbslewWrite _ => true
  | .tbstepWrite _ => true
  | .retrainingSuccess _ _ => true
  | .portLinkUp _ => true
  | .lossOfTheMaster => true
  | .powerLoss => true
  | .controlComplexAccess _ => true
  | .controlComplexUncorrectableError _ => true
  | .fabricPowerState _ => true

end Sys2Proof
end

