-- ==== Sys2Proof/Decode.lean ====
section
/-! DEFINITION. Decoding, total on any bytes and rejecting by name, from Tables 12.2 to 12.10; and after it the encoder,
written from the same tables. -/

namespace Sys2Proof

/-- Why a word, a command or a byte string is no instruction. -/
inductive DecodeError where
  /-- fewer bytes than the word or its literals need -/
  | truncated
  /-- a major opcode that Table 12.3 marks ILLOP -/
  | unassignedMajor
  /-- a func or selector that Table 12.5 or 12.6 does not list, or a Q that Table 4.1 marks ILLOP -/
  | unassignedFunc
  /-- an encoding check of R340 fails -/
  | illFormed
  /-- a command opcode that Table 12.10 leaves unassigned -/
  | unassignedCommand
  deriving DecidableEq, Repr

/-- Bits [lo+len-1:lo] of a word. -/
def fld {n : Nat} (w : BitVec n) (lo len : Nat) : BitVec len := w.extractLsb' lo len

/-- Bit i of a word. -/
def bit {n : Nat} (w : BitVec n) (i : Nat) : Bool := w.getLsbD i

/-- The fields of format A. -/
def fmtA (w : BitVec 32) : FmtA := ⟨bit w 25, fld w 20 5, fld w 15 5, fld w 10 5, bit w 1, bit w 0⟩
/-- The fields of format A under a fixed Q. -/
def fmtA0 (w : BitVec 32) : FmtA0 := ⟨fld w 20 5, fld w 15 5, fld w 10 5, bit w 1, bit w 0⟩
/-- The fields of format I. -/
def fmtI (w : BitVec 32) : FmtI := ⟨bit w 25, fld w 20 5, fld w 15 5, fld w 1 14, bit w 0⟩
/-- The fields of JALR. -/
def fmtI0 (w : BitVec 32) : FmtI0 := ⟨fld w 20 5, fld w 15 5, fld w 1 14, bit w 0⟩
/-- The fields of format B. -/
def fmtB (w : BitVec 32) : FmtB := ⟨fld w 20 5, fld w 15 5, fld w 0 15⟩
/-- The fields of format J. -/
def fmtJ (w : BitVec 32) : FmtJ := ⟨fld w 20 5, fld w 0 20⟩
/-- The fields of format M. -/
def fmtM (w : BitVec 32) : FmtM := ⟨bit w 25, fld w 20 5, fld w 15 5, fld w 6 9, fld w 4 2, fld w 1 3, bit w 0⟩
/-- The fields of an atomic. -/
def fmtAmo (w : BitVec 32) : FmtAmo :=
  ⟨bit w 25, fld w 20 5, fld w 15 5, fld w 10 5, fld w 3 3, bit w 2, bit w 1, bit w 0⟩
/-- The fields of a ring form. -/
def fmtRing (w : BitVec 32) : FmtRing := ⟨fld w 20 5, fld w 15 5, fld w 10 5, fld w 2 4, bit w 1, bit w 0⟩
/-- The fields of format C. -/
def fmtC (w : BitVec 32) : FmtC :=
  ⟨fld w 23 2, fld w 19 4, fld w 14 5, fld w 9 5, bit w 8, bit w 7, bit w 6, bit w 5, bit w 4, fld w 0 4⟩
/-- The fields of WAITC and ECNT. -/
def fmtW (w : BitVec 32) : FmtW := ⟨fld w 20 5, fld w 15 5, fld w 7 7, fld w 3 4, fld w 1 2, bit w 0⟩
/-- The fields of CSRR and CSRW. -/
def fmtCsr (w : BitVec 32) : FmtCsr := ⟨bit w 25, fld w 20 5, fld w 15 5, fld w 1 12, bit w 0⟩

/-- The word is a form whose Q bit Table 4.1 fixes, and carries that Q. -/
def onlyQ (q : Bool) (w : BitVec 32) (i : Instr) : Except DecodeError Instr :=
  if bit w 25 = q then .ok i else .error .unassignedFunc

/-- Major 0x01, by its selector (Tables 12.5 and 12.6). -/
def decodeRegister (w : BitVec 32) : Except DecodeError Instr :=
  match (fld w 2 8).toNat with
  | 0 => .ok (.add (fmtA w))
  | 1 => .ok (.sub (fmtA w))
  | 2 => .ok (.mul (fmtA w))
  | 3 => .ok (.mulh (fmtA w))
  | 4 => .ok (.mulhu (fmtA w))
  | 5 => .ok (.div (fmtA w))
  | 6 => .ok (.divu (fmtA w))
  | 7 => .ok (.rem (fmtA w))
  | 8 => .ok (.remu (fmtA w))
  | 9 => .ok (.andR (fmtA w))
  | 10 => .ok (.orR (fmtA w))
  | 11 => .ok (.xorR (fmtA w))
  | 12 => .ok (.shl (fmtA w))
  | 13 => .ok (.shr (fmtA w))
  | 14 => .ok (.sra (fmtA w))
  | 15 => .ok (.minR (fmtA w))
  | 16 => .ok (.maxR (fmtA w))
  | 17 => .ok (.minu (fmtA w))
  | 18 => .ok (.maxu (fmtA w))
  | 19 => .ok (.clz (fmtA w))
  | 20 => .ok (.popc (fmtA w))
  | 21 => .ok (.sel (fmtA w))
  | 22 => .ok (.slt (fmtA w))
  | 23 => .ok (.sltu (fmtA w))
  | 24 => .ok (.seq (fmtA w))
  | _ => .error .unassignedFunc

/-- Major 0x19, by its selector (Tables 12.5 and 12.6). -/
def decodeReduction (w : BitVec 32) : Except DecodeError Instr :=
  match (fld w 2 8).toNat with
  | 0 => onlyQ true w (.rowall (fmtA0 w))
  | 1 => onlyQ true w (.rowany (fmtA0 w))
  | 2 => onlyQ true w (.rowsum (fmtA0 w))
  | _ => .error .unassignedFunc

/-- Major 0x1a, by its selector (Tables 12.5 and 12.6). -/
def decodePredication (w : BitVec 32) : Except DecodeError Instr :=
  match (fld w 2 8).toNat with
  | 0 => onlyQ false w (.cif (fmtA0 w))
  | 1 => onlyQ false w (.celse (fmtA0 w))
  | 2 => onlyQ false w (.cend (fmtA0 w))
  | _ => .error .unassignedFunc

/-- Major 0x1b, by its selector (Tables 12.5 and 12.6). -/
def decodeVine (w : BitVec 32) : Except DecodeError Instr :=
  match (fld w 2 8).toNat with
  | 0 => .ok (.poste (fmtA w))
  | 1 => .ok (.posteRel (fmtA w))
  | 2 => .ok (.getw (fmtA w))
  | _ => .error .unassignedFunc

/-- Major 0x26, by its selector (Tables 12.5 and 12.6). -/
def decodeAtomic (w : BitVec 32) : Except DecodeError Instr :=
  match (fld w 6 4).toNat with
  | 0 => .ok (.amoadd (fmtAmo w))
  | 1 => .ok (.amoand (fmtAmo w))
  | 2 => .ok (.amoor (fmtAmo w))
  | 3 => .ok (.amoxor (fmtAmo w))
  | 4 => .ok (.amomin (fmtAmo w))
  | 5 => .ok (.amomax (fmtAmo w))
  | 6 => .ok (.amominu (fmtAmo w))
  | 7 => .ok (.amomaxu (fmtAmo w))
  | 8 => .ok (.amoswp (fmtAmo w))
  | 9 => .ok (.amocas (fmtAmo w))
  | _ => .error .unassignedFunc

/-- Major 0x27, by its selector (Tables 12.5 and 12.6). -/
def decodeRing (w : BitVec 32) : Except DecodeError Instr :=
  match (fld w 6 4).toNat with
  | 0 => onlyQ false w (.hset (fmtRing w))
  | 1 => onlyQ false w (.waitf (fmtRing w))
  | 2 => onlyQ false w (.waite (fmtRing w))
  | 3 => onlyQ false w (.advh (fmtRing w))
  | 4 => onlyQ false w (.advt (fmtRing w))
  | 5 => onlyQ false w (.hcnt (fmtRing w))
  | _ => .error .unassignedFunc

/-- Major 0x2a, by its selector (Tables 12.5 and 12.6). -/
def decodeWaitc (w : BitVec 32) : Except DecodeError Instr :=
  match (fld w 14 1).toNat with
  | 0 => onlyQ false w (.waitc (fmtW w))
  | 1 => onlyQ false w (.ecnt (fmtW w))
  | _ => .error .unassignedFunc

/-- Major 0x2b, by its selector (Tables 12.5 and 12.6). -/
def decodeRegion (w : BitVec 32) : Except DecodeError Instr :=
  match (fld w 2 8).toNat with
  | 0 => onlyQ false w (.rcfg (fmtA0 w))
  | 1 => onlyQ false w (.rstart (fmtA0 w))
  | 2 => onlyQ false w (.rswitch (fmtA0 w))
  | 3 => onlyQ false w (.rwait (fmtA0 w))
  | _ => .error .unassignedFunc

/-- Major 0x2c, by its selector (Tables 12.5 and 12.6). -/
def decodeSchedule (w : BitVec 32) : Except DecodeError Instr :=
  match (fld w 2 8).toNat with
  | 0 => onlyQ false w (.tnext (fmtA0 w))
  | 1 => onlyQ false w (.bank (fmtA0 w))
  | 2 => onlyQ false w (.drop (fmtA0 w))
  | _ => .error .unassignedFunc

/-- Major 0x30, by its selector (Tables 12.5 and 12.6). -/
def decodeSystem (w : BitVec 32) : Except DecodeError Instr :=
  match (fld w 2 8).toNat with
  | 0 => .ok (.nop (fmtA w))
  | 1 => .ok (.halt (fmtA w))
  | 2 => .ok (.eret (fmtA w))
  | 3 => .ok (.tbr (fmtA w))
  | _ => .error .unassignedFunc

/-- Major 0x33, by its selector (Tables 12.5 and 12.6). -/
def decodeCsrr (w : BitVec 32) : Except DecodeError Instr :=
  match (fld w 13 2).toNat with
  | 0 => .ok (.csrr (fmtCsr w))
  | _ => .error .unassignedFunc

/-- Major 0x34, by its selector (Tables 12.5 and 12.6). -/
def decodeCsrw (w : BitVec 32) : Except DecodeError Instr :=
  match (fld w 13 2).toNat with
  | 0 => .ok (.csrw (fmtCsr w))
  | _ => .error .unassignedFunc

/-- The major opcode map of Table 12.3. CMD is given here with literal words of zero; `decodeBytes` reads them. -/
def decodeMajor (w : BitVec 32) : Except DecodeError Instr :=
  match (fld w 26 6).toNat with
  | 1 => decodeRegister w
  | 2 => .ok (.addi (fmtI w))
  | 3 => .ok (.andi (fmtI w))
  | 4 => .ok (.ori (fmtI w))
  | 5 => .ok (.xori (fmtI w))
  | 6 => .ok (.shli (fmtI w))
  | 7 => .ok (.shri (fmtI w))
  | 8 => .ok (.srai (fmtI w))
  | 9 => .ok (.lui (fmtI w))
  | 10 => .ok (.lea (fmtI w))
  | 16 => onlyQ true w (.beq (fmtB w))
  | 17 => onlyQ true w (.bne (fmtB w))
  | 18 => onlyQ true w (.blt (fmtB w))
  | 19 => onlyQ true w (.bge (fmtB w))
  | 20 => onlyQ true w (.bltu (fmtB w))
  | 21 => onlyQ true w (.bgeu (fmtB w))
  | 22 => onlyQ true w (.jal (fmtJ w))
  | 23 => onlyQ true w (.jalr (fmtI0 w))
  | 24 => onlyQ true w (.loopW (fmtB w))
  | 25 => decodeReduction w
  | 26 => decodePredication w
  | 27 => decodeVine w
  | 32 => .ok (.ld (fmtM w))
  | 33 => .ok (.ldu (fmtM w))
  | 34 => .ok (.st (fmtM w))
  | 35 => .ok (.lda (fmtM w))
  | 36 => .ok (.stl (fmtM w))
  | 37 => .ok (.fence (fmtM w))
  | 38 => decodeAtomic w
  | 39 => decodeRing w
  | 40 => onlyQ false w (.cmd (fmtC w) 0)
  | 41 => onlyQ false w (.cmdm (fmtC w))
  | 42 => decodeWaitc w
  | 43 => decodeRegion w
  | 44 => decodeSchedule w
  | 48 => decodeSystem w
  | 49 => .ok (.trapW (fmtI w))
  | 50 => .ok (.brk (fmtI w))
  | 51 => decodeCsrr w
  | 52 => decodeCsrw w
  | _ => .error .unassignedMajor

/-- A decoded word that fails an encoding check is no instruction (R340 step 1). -/
def checkWf (i : Instr) : Except DecodeError Instr := if i.wf then .ok i else .error .illFormed

/-- A sequencer word with its four literal words, which only CMD reads (R297–R304). -/
def decodeSeq (w : BitVec 32) (lit : BitVec 128) : Except DecodeError Instr :=
  match decodeMajor w with
  | .ok (.cmd f _) => .ok (.cmd f lit)
  | .ok i => checkWf i
  | .error e => .error e

/-- Whether a word is a CMD, which takes four literal words after it (R304). -/
def isCmd (w : BitVec 32) : Bool := decide (fld w 25 7 = 0x50#7)

/-- A little-endian value of n bytes (R10). -/
def leBytes (n : Nat) : List Byte → BitVec (8 * n)
  | bs => BitVec.ofNat _ ((bs.take n).foldr (fun b acc => b.toNat + 256 * acc) 0)

/-- The next sequencer instruction of a byte string and the bytes after it. -/
def decodeBytes (bs : List Byte) : Except DecodeError (Instr × List Byte) :=
  if bs.length < 4 then .error .truncated
  else
    let w : BitVec 32 := leBytes 4 bs
    if isCmd w then
      if bs.length < 20 then .error .truncated
      else (decodeSeq w (leBytes 16 (bs.drop 4))).map fun i => (i, bs.drop 20)
    else (decodeSeq w 0).map fun i => (i, bs.drop 4)

/-- The fields of a stream command (Table 12.9). -/
def commandOf (w : BitVec 128) : Command :=
  { t := bit w 119, scp := fld w 116 3, drp := bit w 115, sub := fld w 112 3, ha := fld w 108 4, hb := fld w 104 4
    wa := fld w 99 5, wb := fld w 94 5, pdir := bit w 93, port := fld w 89 4, arg := fld w 64 25, addr := fld w 0 64 }

/-- The stream command opcode map (Table 12.10). -/
def decodeCommand (w : BitVec 128) : Except DecodeError Instr :=
  let c := commandOf w
  match (fld w 120 8).toNat with
  | 1 => .ok (.srd c)
  | 2 => .ok (.swr c)
  | 3 => .ok (.scopy c)
  | 4 => .ok (.sfill c)
  | 5 => .ok (.pset c)
  | 16 => .ok (.sgather c)
  | 17 => .ok (.sscatter c)
  | 18 => .ok (.sscatop c)
  | 32 => .ok (.kvapp c)
  | 33 => .ok (.pick c)
  | 34 => .ok (.gathp c)
  | 48 => .ok (.mxldw c)
  | 49 => .ok (.mxgo c)
  | 50 => .ok (.mxdrn c)
  | 64 => .ok (.sput c)
  | 65 => .ok (.sget c)
  | 66 => .ok (.ared c)
  | 67 => .ok (.cjoin c)
  | 80 => .ok (.launchCmd c)
  | 81 => .ok (.ckpt c)
  | 82 => .ok (.markCmd c)
  | 83 => .ok (.signalCmd c)
  | 84 => .ok (.barCmd c)
  | _ => .error .unassignedCommand

/-- The decoder on a word of the opcode table's numbering; a command of 128 bits is read as a stream command. -/
def decodeTableWord (nbits w : Nat) : Option Instr :=
  if nbits = 128 then (decodeCommand (BitVec.ofNat 128 w)).toOption
  else
    let v : BitVec 160 := BitVec.ofNat 160 (w % 2 ^ nbits)
    (decodeSeq (fld v 0 32) (fld v 32 128)).toOption

/-! ### The encoder -/

/-- Format A (Table 12.2). -/
def encA (major : BitVec 6) (func : BitVec 8) (f : FmtA) : BitVec 32 :=
  major ++ BitVec.ofBool f.q ++ f.d ++ f.a ++ f.b ++ func ++ BitVec.ofBool f.x ++ BitVec.ofBool f.y
/-- Format A under a fixed Q. -/
def encA0 (major : BitVec 6) (q : Bool) (func : BitVec 8) (f : FmtA0) : BitVec 32 :=
  major ++ BitVec.ofBool q ++ f.d ++ f.a ++ f.b ++ func ++ BitVec.ofBool f.x ++ BitVec.ofBool f.y
/-- Format I. -/
def encI (major : BitVec 6) (f : FmtI) : BitVec 32 :=
  major ++ BitVec.ofBool f.q ++ f.d ++ f.a ++ f.i ++ BitVec.ofBool f.x
/-- JALR. -/
def encI0 (major : BitVec 6) (q : Bool) (f : FmtI0) : BitVec 32 :=
  major ++ BitVec.ofBool q ++ f.d ++ f.a ++ f.i ++ BitVec.ofBool f.x
/-- Format B. -/
def encB (major : BitVec 6) (f : FmtB) : BitVec 32 := major ++ BitVec.ofBool true ++ f.a ++ f.b ++ f.o
/-- Format J. -/
def encJ (major : BitVec 6) (f : FmtJ) : BitVec 32 := major ++ BitVec.ofBool true ++ f.l ++ f.o
/-- Format M. -/
def encM (major : BitVec 6) (f : FmtM) : BitVec 32 :=
  major ++ BitVec.ofBool f.q ++ f.d ++ f.b ++ f.i ++ f.s ++ f.c ++ BitVec.ofBool f.x
/-- The atomics. -/
def encAmo (major : BitVec 6) (kind : BitVec 4) (f : FmtAmo) : BitVec 32 :=
  major ++ BitVec.ofBool f.q ++ f.d ++ f.a ++ f.b ++ kind ++ f.c ++ BitVec.ofBool f.z ++ BitVec.ofBool f.x
    ++ BitVec.ofBool f.y
/-- The ring forms. -/
def encRing (major : BitVec 6) (op : BitVec 4) (f : FmtRing) : BitVec 32 :=
  major ++ BitVec.ofBool false ++ f.d ++ f.a ++ f.b ++ op ++ f.h ++ BitVec.ofBool f.x ++ BitVec.ofBool f.y
/-- Format C. -/
def encC (major : BitVec 6) (f : FmtC) : BitVec 32 :=
  major ++ BitVec.ofBool false ++ f.e ++ f.h ++ f.a ++ f.b ++ BitVec.ofBool f.f ++ BitVec.ofBool f.g ++ BitVec.ofBool f.j
    ++ BitVec.ofBool f.x ++ BitVec.ofBool f.y ++ f.u
/-- WAITC and ECNT. -/
def encW (major : BitVec 6) (sel : Bool) (f : FmtW) : BitVec 32 :=
  major ++ BitVec.ofBool false ++ f.d ++ f.a ++ BitVec.ofBool sel ++ f.i ++ f.n ++ f.e ++ BitVec.ofBool f.x
/-- CSRR and CSRW. -/
def encCsr (major : BitVec 6) (f : FmtCsr) : BitVec 32 :=
  major ++ BitVec.ofBool f.q ++ f.d ++ f.a ++ (0 : BitVec 2) ++ f.n ++ BitVec.ofBool f.x

/-- A stream command (Table 12.9). -/
def encCommand (op : BitVec 8) (c : Command) : BitVec 128 :=
  op ++ BitVec.ofBool c.t ++ c.scp ++ BitVec.ofBool c.drp ++ c.sub ++ c.ha ++ c.hb ++ c.wa ++ c.wb ++ BitVec.ofBool c.pdir
    ++ c.port ++ c.arg ++ c.addr

/-- What an instruction is encoded as. -/
inductive Encoding where
  /-- a sequencer word -/
  | word (w : BitVec 32)
  /-- a CMD and its four literal words -/
  | cmdGroup (w : BitVec 32) (lit : BitVec 128)
  /-- a stream command -/
  | command (w : BitVec 128)
  /-- an element firing or an event: no word of its own names it -/
  | none
  deriving DecidableEq, Repr

/-- The encoder (Tables 12.2–12.10). -/
def encode : Instr → Encoding
  | .add f => .word (encA 0x1 0x0 f)
  | .sub f => .word (encA 0x1 0x1 f)
  | .mul f => .word (encA 0x1 0x2 f)
  | .mulh f => .word (encA 0x1 0x3 f)
  | .mulhu f => .word (encA 0x1 0x4 f)
  | .div f => .word (encA 0x1 0x5 f)
  | .divu f => .word (encA 0x1 0x6 f)
  | .rem f => .word (encA 0x1 0x7 f)
  | .remu f => .word (encA 0x1 0x8 f)
  | .andR f => .word (encA 0x1 0x9 f)
  | .orR f => .word (encA 0x1 0xa f)
  | .xorR f => .word (encA 0x1 0xb f)
  | .shl f => .word (encA 0x1 0xc f)
  | .shr f => .word (encA 0x1 0xd f)
  | .sra f => .word (encA 0x1 0xe f)
  | .minR f => .word (encA 0x1 0xf f)
  | .maxR f => .word (encA 0x1 0x10 f)
  | .minu f => .word (encA 0x1 0x11 f)
  | .maxu f => .word (encA 0x1 0x12 f)
  | .clz f => .word (encA 0x1 0x13 f)
  | .popc f => .word (encA 0x1 0x14 f)
  | .sel f => .word (encA 0x1 0x15 f)
  | .slt f => .word (encA 0x1 0x16 f)
  | .sltu f => .word (encA 0x1 0x17 f)
  | .seq f => .word (encA 0x1 0x18 f)
  | .addi f => .word (encI 0x2 f)
  | .andi f => .word (encI 0x3 f)
  | .ori f => .word (encI 0x4 f)
  | .xori f => .word (encI 0x5 f)
  | .shli f => .word (encI 0x6 f)
  | .shri f => .word (encI 0x7 f)
  | .srai f => .word (encI 0x8 f)
  | .lui f => .word (encI 0x9 f)
  | .lea f => .word (encI 0xa f)
  | .beq f => .word (encB 0x10 f)
  | .bne f => .word (encB 0x11 f)
  | .blt f => .word (encB 0x12 f)
  | .bge f => .word (encB 0x13 f)
  | .bltu f => .word (encB 0x14 f)
  | .bgeu f => .word (encB 0x15 f)
  | .jal f => .word (encJ 0x16 f)
  | .jalr f => .word (encI0 0x17 true f)
  | .loopW f => .word (encB 0x18 f)
  | .rowall f => .word (encA0 0x19 true 0x0 f)
  | .rowany f => .word (encA0 0x19 true 0x1 f)
  | .rowsum f => .word (encA0 0x19 true 0x2 f)
  | .cif f => .word (encA0 0x1a false 0x0 f)
  | .celse f => .word (encA0 0x1a false 0x1 f)
  | .cend f => .word (encA0 0x1a false 0x2 f)
  | .poste f => .word (encA 0x1b 0x0 f)
  | .posteRel f => .word (encA 0x1b 0x1 f)
  | .getw f => .word (encA 0x1b 0x2 f)
  | .ld f => .word (encM 0x20 f)
  | .ldu f => .word (encM 0x21 f)
  | .st f => .word (encM 0x22 f)
  | .lda f => .word (encM 0x23 f)
  | .stl f => .word (encM 0x24 f)
  | .fence f => .word (encM 0x25 f)
  | .amoadd f => .word (encAmo 0x26 0x0 f)
  | .amoand f => .word (encAmo 0x26 0x1 f)
  | .amoor f => .word (encAmo 0x26 0x2 f)
  | .amoxor f => .word (encAmo 0x26 0x3 f)
  | .amomin f => .word (encAmo 0x26 0x4 f)
  | .amomax f => .word (encAmo 0x26 0x5 f)
  | .amominu f => .word (encAmo 0x26 0x6 f)
  | .amomaxu f => .word (encAmo 0x26 0x7 f)
  | .amoswp f => .word (encAmo 0x26 0x8 f)
  | .amocas f => .word (encAmo 0x26 0x9 f)
  | .hset f => .word (encRing 0x27 0x0 f)
  | .waitf f => .word (encRing 0x27 0x1 f)
  | .waite f => .word (encRing 0x27 0x2 f)
  | .advh f => .word (encRing 0x27 0x3 f)
  | .advt f => .word (encRing 0x27 0x4 f)
  | .hcnt f => .word (encRing 0x27 0x5 f)
  | .cmd f lit => .cmdGroup (encC 0x28 f) lit
  | .cmdm f => .word (encC 0x29 f)
  | .waitc f => .word (encW 0x2a false f)
  | .ecnt f => .word (encW 0x2a true f)
  | .rcfg f => .word (encA0 0x2b false 0x0 f)
  | .rstart f => .word (encA0 0x2b false 0x1 f)
  | .rswitch f => .word (encA0 0x2b false 0x2 f)
  | .rwait f => .word (encA0 0x2b false 0x3 f)
  | .tnext f => .word (encA0 0x2c false 0x0 f)
  | .bank f => .word (encA0 0x2c false 0x1 f)
  | .drop f => .word (encA0 0x2c false 0x2 f)
  | .nop f => .word (encA 0x30 0x0 f)
  | .halt f => .word (encA 0x30 0x1 f)
  | .eret f => .word (encA 0x30 0x2 f)
  | .tbr f => .word (encA 0x30 0x3 f)
  | .trapW f => .word (encI 0x31 f)
  | .brk f => .word (encI 0x32 f)
  | .csrr f => .word (encCsr 0x33 f)
  | .csrw f => .word (encCsr 0x34 f)
  | .handlerEntry _ => .none
  | .machineCheck _ _ _ => .none
  | .loadDataReturn _ _ => .none
  | .echoReturn _ => .none
  | .registerBankIdle _ _ _ => .none
  | .registerBankWake _ _ _ => .none
  | .scratchpadBankIdle _ _ _ _ => .none
  | .scratchpadBankWake _ _ _ _ => .none
  | .holdBankIdle _ => .none
  | .holdBankWake _ => .none
  | .operationCompletion _ _ _ => .none
  | .srd c => .command (encCommand 0x1 c)
  | .swr c => .command (encCommand 0x2 c)
  | .scopy c => .command (encCommand 0x3 c)
  | .sfill c => .command (encCommand 0x4 c)
  | .pset c => .command (encCommand 0x5 c)
  | .sgather c => .command (encCommand 0x10 c)
  | .sscatter c => .command (encCommand 0x11 c)
  | .sscatop c => .command (encCommand 0x12 c)
  | .kvapp c => .command (encCommand 0x20 c)
  | .kvappPublish _ _ _ => .none
  | .pick c => .command (encCommand 0x21 c)
  | .gathp c => .command (encCommand 0x22 c)
  | .mxldw c => .command (encCommand 0x30 c)
  | .mxgo c => .command (encCommand 0x31 c)
  | .mxdrn c => .command (encCommand 0x32 c)
  | .sput c => .command (encCommand 0x40 c)
  | .sget c => .command (encCommand 0x41 c)
  | .ared c => .command (encCommand 0x42 c)
  | .cjoin c => .command (encCommand 0x43 c)
  | .launchCmd c => .command (encCommand 0x50 c)
  | .ckpt c => .command (encCommand 0x51 c)
  | .markCmd c => .command (encCommand 0x52 c)
  | .signalCmd c => .command (encCommand 0x53 c)
  | .barCmd c => .command (encCommand 0x54 c)
  | .ceFiring _ => .none
  | .mld _ => .none
  | .mst _ => .none
  | .mamo _ => .none
  | .sinkElem _ => .none
  | .cntr _ => .none
  | .stampElem _ => .none
  | .orderElem _ => .none
  | .ringin _ => .none
  | .ringout _ => .none
  | .placement _ _ _ => .none
  | .regionCompletion _ _ _ => .none
  | .graphRequest _ => .none
  | .breakpoint _ _ _ => .none
  | .lsubmitWrite _ _ => .none
  | .launchStart _ => .none
  | .launchCompletion _ => .none
  | .labortWrite _ => .none
  | .ltctlWrite _ => .none
  | .ltentWrite _ _ _ => .none
  | .entryFire _ => .none
  | .atflushWrite _ => .none
  | .tlbinvWrite _ => .none
  | .swgoWrite _ => .none
  | .bpgoWrite _ _ _ => .none
  | .hxmWrite _ _ _ _ => .none
  | .trctlWrite _ _ _ => .none
  | .checkpoint => .none
  | .epoch => .none
  | .ckrestWrite _ => .none
  | .scratchpadApertureAccess _ => .none
  | .cellRegisterApertureAccess _ => .none
  | .registerWrite _ _ => .none
  | .hmodeWrite _ => .none
  | .harspCommit _ _ => .none
  | .wdogWrite _ => .none
  | .wdkick _ => .none
  | .watchdogExpiry _ => .none
  | .powerOn _ => .none
  | .forceRestart _ => .none
  | .powerCycle _ => .none
  | .imagePush _ => .none
  | .clearStartRecord => .none
  | .attestationReport _ => .none
  | .login _ _ => .none
  | .passwordChange _ _ _ => .none
  | .lockoutExpiry _ => .none
  | .sessionTimeout _ => .none
  | .thwarn _ _ => .none
  | .thcrit _ _ => .none
  | .thermalTrip _ _ => .none
  | .powerBrake _ => .none
  | .currentReport _ => .none
  | .excursion => .none
  | .regulatorStep _ => .none
  | .vsetWrite _ _ => .none
  | .budgetInterval => .none
  | .bridgeRequest _ => .none
  | .scrub _ _ => .none
  | .flitRetry _ _ => .none
  | .moduleRetrain _ _ => .none
  | .retrainFailure _ _ => .none
  | .dataFrame _ => .none
  | .ackFrame _ => .none
  | .nakFrame _ => .none
  | .openFrame _ => .none
  | .closeFrame _ => .none
  | .probeFrame _ => .none
  | .retransmitTimeout _ => .none
  | .portLinkDown _ => .none
  | .circuitGiveUp _ => .none
  | .cgiveWrite _ => .none
  | .nodeidWrite _ => .none
  | .ptpSync _ => .none
  | .ptpFollowUp _ => .none
  | .ptpDelayReq _ => .none
  | .ptpDelayResp _ => .none
  | .tbrateWrite _ => .none
  | .tbslewWrite _ => .none
  | .tbstepWrite _ => .none
  | .retrainingSuccess _ _ => .none
  | .portLinkUp _ => .none
  | .lossOfTheMaster => .none
  | .powerLoss => .none
  | .controlComplexAccess _ => .none
  | .controlComplexUncorrectableError _ => .none
  | .fabricPowerState _ => .none

/-- The decoder on what the encoder gives. -/
def decodeEncoding : Encoding → Option Instr
  | .word w => (decodeSeq w 0).toOption
  | .cmdGroup w lit => (decodeSeq w lit).toOption
  | .command w => (decodeCommand w).toOption
  | .none => Option.none

end Sys2Proof
end

