-- ==== Sys2Proof/Machine/State.lean ====
section
/-! DEFINITION. The state of the HX-7240 as plain data: every register, queue, token and unit the manual names, and
`State.reset`, the module as a reset leaves it before its start has begun a row. -/

namespace Sys2Proof.Machine

/-- Why a step stops. No meaning stops this way on a path the manual describes; see NOTES.md, Stops. -/
inductive Fault where
  /-- The machine has no power and the step asked for something other than a power-on (R64, R69). Raised by nothing: a
  module without power stays as it is. Safe. -/
  | noPower
  deriving DecidableEq, Repr

/-- Why an instruction has no meaning. -/
inductive Refusal where
  /-- The arm of exec is not written. Safe. -/
  | notModelled (mnemonic : String)
  deriving DecidableEq, Repr

/-! ### Names -/

/-- Launch, placement and operation statuses (Tables 3.2, 3.4, 15.1). -/
inductive Status where
  | ok | badDesc | xlate | poison | noRegion | badImg | full | aborted | rowDown | noFit | range | rule
  | dropRd | align | perm | badCmd | ringErr | limit | cbrk | noPort
  deriving DecidableEq, Repr

/-- Trap causes (Table 8.1). -/
inductive Cause where
  | none | illop | deadReg | dropRd | align | xlate | perm | badCmd | ringErr | limit | soft | brkpt | poison
  | mchk | double | shrink
  deriving DecidableEq, Repr

/-- Power states of a register, scratchpad or hold bank (Tables 4.7, 5.7, 6.8). -/
inductive Power where
  | off | keep | full | waking
  deriving DecidableEq, Repr

/-- A power bank: its state, when a wake ends in oscillator units, the timebase at its last use, and the interval in ns that
applies to the idle period since then (R119, R169, R187, R374). -/
structure Bank where
  st : Power
  wakeAt : Nat
  lastUse : Word
  idle : BitVec 24
  deriving DecidableEq, Repr

/-! ### Memory -/

/-- A barrier operation that waits at its word's home: its number and launch, the word, the value it waits for, and whether a write has met
it (R408). -/
structure BarWait where
  no : Nat
  lid : BitVec 16
  pa : Nat
  goal : Nat
  met : Bool
  deriving DecidableEq, Repr

/-- Memory by the physical address of Table 2.1: device HBM and, from 0xB0_0000_0000, scratchpad. An unlisted byte reads
as zero (DESIGN CHOICE, log entry 6). A scratchpad line is live when listed; a line of either kind is poisoned when listed. Lines are
physical addresses divided by 128. All four lists rise strictly. -/
structure Memory where
  cells : List Host.Cell
  live : List Nat
  poison : List Nat
  /-- 64 KiB granules written since the last epoch (R263) -/
  dirty : List Nat
  /-- the barrier operations that wait at its homes, oldest first, and how many there have been (R408) -/
  bars : List BarWait := []
  barNo : Nat := 0
  deriving DecidableEq, Repr

/-- A cached translation: root bits [39:16], page base and size, W and X of the leaf (R177). -/
structure TlbEntry where
  root : Nat
  vbase : Nat
  size : Nat
  pbase : Nat
  w : Bool
  x : Bool
  deriving DecidableEq, Repr

/-- The registers of a memory cell (Table 6.6). -/
structure MemCell where
  hxm : BitVec 24
  disc : BitVec 16
  banks : Vector Bank 16
  confl : Vector (BitVec 32) 16
  deriving DecidableEq, Repr

/-! ### Fabric -/

/-- A token (Table 5.1). -/
structure Token where
  tag : BitVec 16
  ctx : BitVec 2
  cnt : Nat
  m : Bool
  k : Bool
  l3 : Bool
  l2 : Bool
  l1 : Bool
  f : Bool
  p : Bool
  e : Bool
  lanes : Vector Lane 16
  deriving DecidableEq, Repr

/-- An arc with its counters and tokens, each with its number on the arc (R139, R252, R259, Table 12.17). -/
structure Arc where
  prod : Nat
  pout : Nat
  cons : Nat
  cin : Nat
  cap : Nat
  nin : Nat
  nout : Nat
  cmask : BitVec 4
  res : List Nat
  toks : List (Nat × Token)
  emptt : Nat
  fullt : Nat
  movt : Nat
  tokn : Nat
  /-- tokens that a breakpoint holds back, with their numbers (R256) -/
  held : List (Nat × Token)
  deriving DecidableEq, Repr

/-- Canonical element types (R132). -/
inductive ElemKind where
  | ce | me | xe
  deriving DecidableEq, Repr

/-- A matching-store entry: the tag and, from each input, its token with its number on the arc (R143). -/
structure MatchEntry where
  tag : BitVec 16
  ins : List (Option (Nat × Token))
  deriving DecidableEq, Repr

/-- A loop instance of CARRY (R148). -/
structure CarryInst where
  tag : BitVec 16
  count : Nat
  /-- F of the init token, for the exit token -/
  f : Bool
  deriving DecidableEq, Repr

/-- A counter run of CNTR (R150, R429). -/
structure CntrRun where
  idx : List Nat
  levels : List (Lane × Lane × Nat)
  tag : BitVec 16
  e : Bool
  p : Bool
  deriving DecidableEq, Repr

/-- What an element's form keeps between firings (R437, R467). -/
inductive FormState where
  | plain
  | carry (insts : List CarryInst)
  /-- times each input's head was passed over, inputs at F, whose turn it is, and the inputs (true for in2) of the tokens that wait,
  in order of arrival (R149) -/
  | ndmrg (passed1 passed2 : Nat) (f1 f2 : Bool) (turn2 : Bool) (came : List Bool)
  | merge (pred : Option Token)
  | invar (value : Option Token)
  /-- next tag, tags outstanding, and the next tag when the last marker passed -/
  | stamp (next : BitVec 16) (outstanding : List (BitVec 16)) (mark : BitVec 16)
  | order (next : BitVec 16) (held : List (Nat × Token))
  | sink (seen : Nat) (reported : Bool)
  | cntr (run : Option CntrRun) (done : Bool)
  | sparse (ca cb : Nat) (pa pb : Lane) (bad : Bool) (lastA lastB : Option Lane)
  | segred (isOpen : Bool) (key acc : Lane) (cur : Nat) (flags : BitVec 5) (e p : Bool)
  /-- descriptor, whether it has stopped, reported or holds its side, and a token read and not yet emitted -/
  | ring (desc : Word) (stopped reported hasSide : Bool) (pend : Option Token)
  | mma (weights : Option (List Byte))
  deriving DecidableEq, Repr

/-- A placed element (R132, R316): its stage words or port record, its cell, context and state. -/
structure Elem where
  kind : ElemKind
  words : List (BitVec 64)
  cell : Nat
  eslot : Nat
  ctx : BitVec 2
  /-- hold entries k0–k7, none when dead (R167) -/
  holds : Vector (Option (Vector Lane 16)) 8
  hbank : Bank
  /-- firings since RSTART or the last switch (R413) -/
  firings : Nat
  matching : List MatchEntry
  /-- inputs discarding up to their next F (R152) -/
  discard : BitVec 4
  /-- this element has consumed the K, or the M, of the flood in progress (R154, R156) -/
  flooded : Bool
  /-- the marker it emits carries E: its inputs were unequal at the flood (R154) -/
  markE : Bool
  /-- rotation among the inputs of a tagged element (R143) -/
  rot : Nat
  form : FormState
  deriving DecidableEq, Repr

/-- Region states (Table 5.6). -/
inductive RegionSt where
  | free | loading | ready | running | completing
  deriving DecidableEq, Repr

/-- A marker flood in progress (R154, R156). -/
inductive Flood where
  | none
  /-- a configuration switch, with the number of the first operation forked after it was asked for, the new stage words,
  hold constants and QK, and the handles as the RSWITCH found them -/
  | switch (op : Nat) (words : List (List (BitVec 64))) (consts : List (Nat × Nat × Vector Lane 16)) (qk : BitVec 32) (binds : List Word)
  /-- a cut, by breakpoint, suspension or checkpoint -/
  | cut
  deriving DecidableEq, Repr

/-- A port link of a GRAPH request: requester row, core and port, direction and element of the image (Table 15.8). -/
structure PortLink where
  m : RowId
  c : CoreId
  port : Nat
  toRequester : Bool
  elem : Nat
  deriving DecidableEq, Repr

/-- A region slot that is not FREE (R157–R162). -/
structure Region where
  /-- the RCB's slice-window address -/
  rcb : Word
  st : RegionSt
  lid : BitVec 16
  image : Word
  org : Nat
  w : Nat
  h : Nat
  ctxn : BitVec 2
  var : BitVec 2
  fold : BitVec 2
  donea : Word
  donev : Word
  qk : BitVec 32
  sticky : BitVec 16
  dskip : BitVec 48
  sinkn : Nat
  sinks : Nat
  status : Status
  hash : BitVec 256
  /-- 0 lockstep, 1 tagged, 2 systolic -/
  disc : BitVec 2
  elems : List Elem
  arcs : List Arc
  inits : List (Nat × Token)
  /-- fold variants of the image: level and, per canonical element, variant element and context (R320) -/
  folds : List (BitVec 2 × List (Nat × BitVec 2))
  flood : Flood
  /-- floods asked for and not begun -/
  queued : List Flood
  frozen : Bool
  /-- a breakpoint froze it: a write of BPGO alone thaws it (R257) -/
  bpHold : Bool
  /-- the weight source of a systolic region (R450) -/
  wsource : Option Word
  /-- a chain-mode MXGO has driven the region (R397) -/
  chained : Bool
  links : List PortLink
  /-- the image as it was read, from its reading to its placement (R321) -/
  copy : List Byte
  /-- RSWITCH words whose image has yet to be read: the first operation forked after each, the image, QK and the handles' bindings
  (R154, R367, R467) -/
  switches : List (Nat × Word × BitVec 32 × List Word)
  /-- software's placements for a fold of the region, by shape, none where it refused (R97) -/
  given : List (BitVec 16 × Option (List (Nat × Nat × Nat)))
  deriving DecidableEq, Repr

/-! ### Engine operations -/

/-- How far an operation has come. -/
inductive OpPhase where
  /-- forked, its checks not yet made -/
  | forked
  /-- past its checks, moving elements -/
  | moving
  /-- waiting for an answer of the hub, another module or the fabric manager -/
  | waiting
  /-- ended with its status; completion is to be recorded -/
  | ended
  /-- completed, not yet retired -/
  | completed
  deriving DecidableEq, Repr

/-- One engine operation (R124, R125, R378). -/
structure Op where
  id : Nat
  engine : Fin 4
  lid : BitVec 16
  cmd : BitVec 128
  cmdAddr : Word
  /-- descriptor addresses of the handles, resolved at the fork (R362) -/
  ha : Option Word
  hb : Option Word
  /-- walk slots as read at the fork (R378) -/
  wa : BitVec 256
  wb : BitVec 256
  phase : OpPhase
  status : Status
  /-- index of the next element in walk order -/
  idx : Nat
  /-- bytes or lanes gathered for the next token or slot, with their poison -/
  buf : List Byte
  bufP : Bool
  /-- elements put into the token being built, when elements fill lanes -/
  lanes : Nat
  /-- F seen by a drain that stops there (R380) -/
  sawF : Bool
  /-- address and element index of a fault (R244) -/
  errAddr : Word
  errInCmd : Bool
  /-- region slot on whose behalf it was forked (R162, R381) -/
  region : Option SlotId
  /-- lines the operation has read with .drop, to be killed at its last read (R185) -/
  drops : List Nat
  /-- KVAPP: first reserved position, when it has reserved (R201) -/
  kvBase : Option Nat
  /-- the descriptor or parameter values a command keeps -/
  aux : List Nat
  /-- circuits and the sequence numbers of the last frames whose acknowledgement it awaits (R31, R400) -/
  awaitSeq : List (BitVec 16 × BitVec 32)
  /-- which bytes of `buf` came from a poisoned line; a byte beyond the list did not (R379) -/
  bufZ : List Bool := []
  /-- the bytes that its elements have written of each poisoned line, as a mask (R26, R198) -/
  cover : List (Nat × Nat) := []
  deriving DecidableEq, Repr

/-! ### Rows -/

/-- A vine word in a hop or the resend buffer (R102, R109, R111, R237). -/
structure VineWord where
  ord : WordOrd
  /-- a word of the handler stream (R236) -/
  handler : Bool
  word : BitVec 32
  lit : BitVec 128
  addr : Word
  post : Word
  postRel : Bool
  /-- the collection a row reduction carries -/
  coll : Word
  deriving DecidableEq, Repr

/-- A predication stack entry (R113). -/
structure PredEntry where
  outer : Bool
  took : Bool
  els : Bool
  deriving DecidableEq, Repr

/-- A destination awaiting its data (R341). -/
structure Pending where
  dest : BitVec 5
  val : Word
  deriving DecidableEq, Repr

/-- A result on the echo path: a row reduction's, or core 7's post for a Q = 1 GETW (R110, R112). -/
structure Echo where
  dest : BitVec 5
  val : Word
  isGetw : Bool
  deriving DecidableEq, Repr

/-- The trap registers of a place (Table 8.2, R231). -/
structure TrapRegs where
  cause : BitVec 8
  eng : Bool
  nest : Bool
  winOpen : Bool
  src : BitVec 8
  rowc : BitVec 8
  xord : WordOrd
  xaddr : Word
  xinfo : Word
  xhold : Word
  /-- live state exchanged with the value of xhold (R231) -/
  xholdLive : Bool
  hbase : Word
  /-- ordinal of the word that trapped, for the choice of SRC (R234) -/
  trapOrd : Option WordOrd
  deriving DecidableEq, Repr

/-- What a place holds while its row runs a handler (R236). -/
structure Held where
  active : Bool
  stack : List PredEntry
  post : Word
  postRel : Bool
  ord : WordOrd
  /-- the place had executed HALT -/
  halted : Bool
  /-- a core's schedule cursor (R89) -/
  cursor : Nat := 0
  deriving DecidableEq, Repr

/-- An engine trap waiting for the core's next program word (R243). -/
structure EngTrap where
  cause : Cause
  xaddr : Word
  xinfo : Word
  deriving DecidableEq, Repr

/-- %est (Table 4.9). -/
structure Est where
  count : BitVec 8
  first : BitVec 8
  deriving DecidableEq, Repr

/-- A breakpoint (Table 9.1); `due` while it holds back its token before the flood. -/
structure Breakpoint where
  en : Bool
  hit : Bool
  slot : SlotId
  arc : Nat
  n : BitVec 48
  due : Bool
  deriving DecidableEq, Repr

/-- A trace unit (Table 9.5). -/
structure TraceUnit where
  en : Bool
  wrap : Bool
  log2n : Nat
  base : Nat
  idx : Nat
  lost : BitVec 32
  lastTb : Word
  deriving DecidableEq, Repr

/-- A core sequencer and everything of its core (R115, R124, R157, R177, R253). -/
structure Core where
  s : Vector Word 32
  live : BitVec 32
  banks : Vector Bank 4
  pend : List Pending
  h : Vector Word 16
  w : Vector (BitVec 256) 32
  epost : Word
  epostRel : Bool
  active : Bool
  stack : List PredEntry
  cursor : Nat
  est : Vector Est 4
  engTrap : Vector (Option EngTrap) 4
  kidle : BitVec 24
  trap : TrapRegs
  held : Held
  stopped : Bool
  halted : Bool
  /-- words below this ordinal are discarded and forwarded after ERET (R238) -/
  skipBelow : Option WordOrd
  /-- the post history: ordinal, post carried and collection (R237) -/
  hist : List (WordOrd × Word × Bool × Word)
  ops : List Op
  nextOp : Nat
  regions : Vector (Option Region) 8
  mcells : Vector MemCell 64
  tlb : List TlbEntry
  bps : Vector Breakpoint 4
  elog : List (BitVec 256)
  elogLost : BitVec 16
  trace : TraceUnit
  /-- the element served last at each cell of its elements: kind and cell, then slot and element (R134) -/
  served : List ((ElemKind × Nat) × (SlotId × Nat)) := []
  deriving DecidableEq, Repr

/-- What a row is doing (Table 8.5, R232–R241). -/
inductive RowPhase where
  | idle
  | running
  /-- a stop is under way; a uniform trap has fixed the stop ordinal, if one stands here -/
  | stopping (uniform : Option WordOrd)
  | handler
  | double
  | mchk
  /-- a machine check has come on a DOUBLE row: only the row's STATE differs from `double` (R241) -/
  | doubleMchk
  | finished
  deriving DecidableEq, Repr

/-- The second trap of a DOUBLE row (Table 8.5); the table's other fields are read from the row's own trap registers. -/
structure RowTrap where
  secsrc : BitVec 8
  secc : BitVec 8
  seca : Word
  seci : Word
  deriving DecidableEq, Repr

/-- A module row: its row fetch unit, its vine and its eight cores (R99, R105, R237). -/
structure Row where
  phase : RowPhase
  /-- the launch that holds the row, and the launch it carries suspended (R70) -/
  lid : Option (BitVec 16)
  suspended : Option (BitVec 16)
  q : Vector Word 16
  qpend : List Pending
  /-- results on the echo path, oldest first (R110, R112) -/
  echo : List Echo
  /-- Q = 1 GETWs waiting for core 7 to have issued every vine word below their ordinals: destination, ordinal and whether
  a handler word (R110) -/
  getw : List (BitVec 5 × WordOrd × Bool)
  pc : Word
  ord : WordOrd
  post : Word
  postRel : Bool
  trap : TrapRegs
  held : Held
  heldPc : Word
  stopped : Bool
  halted : Bool
  hops : Vector (List VineWord) 8
  resend : List VineWord
  /-- words to forward again after ERET (R238) -/
  resendQ : List VineWord
  rtrap : RowTrap
  /-- the instruction cache (R99, R100): at most 512 lines of 128 bytes, each with its virtual line number, latest filled first -/
  icache : List (Nat × List Byte)
  cores : Vector Core 8
  deriving DecidableEq, Repr

/-! ### Launches and the hub -/

/-- Phases of a launch (R74–R87). -/
inductive LaunchSt where
  | pending | starting | running | suspended | aborting
  deriving DecidableEq, Repr

/-- An accepted launch (Table 3.1). -/
structure Launch where
  lid : BitVec 16
  st : LaunchSt
  prio : Nat
  rows : BitVec 24
  entry : Word
  root : Word
  params : Vector Word 4
  sched : Word
  ntile : Nat
  donea : Word
  donev : Word
  abortv : Word
  larder : Word
  hbase : Word
  kidle : Word
  /-- the launch-table entry whose instance it is -/
  ltEntry : Option (Fin 256)
  deriving DecidableEq, Repr

/-- What a folded region returns to: its rectangle and fold level, and each element's cell, slot and context (Table 8.6). -/
structure FoldBack where
  c : CoreId
  slot : SlotId
  org : Nat
  w : Nat
  h : Nat
  fold : BitVec 2
  places : List (Nat × Nat × BitVec 2)
  deriving DecidableEq, Repr

/-- A row's request for a line: the place and operation (from 1; 0 for none) that make it, the physical line, and the access kind's
code of Table 8.1, 4 for a table walk (R274, R275). -/
structure LineReq where
  m : RowId
  place : Nat
  op : Nat
  line : Nat
  kind : Nat
  deriving DecidableEq, Repr

/-- A write that a controller or a port makes, by physical address, with the request for its line that its row's budget counts, if it is
counted with this write (R187, R274). -/
structure PortWrite where
  pa : Nat
  bs : List Byte
  req : Option LineReq
  deriving DecidableEq, Repr

/-- A row kept for a suspended launch whose columns another launch has been given: the row as it stopped, the column at which
the vacated cells of each core begin (8 for a half shrink, 4 for a quarter, 16 for a core that has given none up), and the
regions and scratchpad lines that went to the larder (R246–R251). -/
structure Suspended where
  lid : BitVec 16
  m : RowId
  row : Row
  column : Vector Nat 8
  spilled : List (CoreId × SlotId × Region)
  folded : List FoldBack
  /-- line, its bytes and whether it is poisoned -/
  lines : List (Nat × List Byte × Bool)
  /-- controllers' writes of the launch to cells that it has given up, which wait for its return (R172, R247) -/
  later : List PortWrite := []
  deriving DecidableEq, Repr

/-- A launch-table entry (Table 3.5). -/
structure LtEntry where
  v : Bool
  rule : BitVec 2
  err : BitVec 8
  offs : BitVec 40
  desc : BitVec 33
  miss : BitVec 16
  ovrn : BitVec 16
  lid : BitVec 16
  /-- the slot start last fired or passed over -/
  lastSlot : Option Nat
  /-- slots that have begun and are still to fire, though the registers or the timebase have changed since (R82, R84) -/
  begun : List Nat
  deriving DecidableEq, Repr

/-- The request ring of a host-assisted function (R51, R97). -/
structure HaRing where
  qb : Word
  qh : Word
  qt : Word
  rsp : Vector Word 8
  nextNo : BitVec 16
  /-- open requests: number and what the requester waits for -/
  opened : List (BitVec 16 × List Nat)
  /-- requests waiting for a ring slot, with their words and the bytes of their frame area (R400) -/
  waiting : List (List Word × List Nat × List Byte)
  deriving DecidableEq, Repr

/-- An attic entry (Table 3.8). -/
structure AtticEntry where
  hash : BitVec 256
  shape : BitVec 16
  drev : BitVec 16
  used : Nat
  /-- canonical element, image context and cell offset from the origin -/
  places : List (Nat × Nat × Nat)
  /-- the 64 KiB granule of the attic it stands in -/
  granule : Nat
  deriving DecidableEq, Repr

/-- A queued GRAPH request of the fabric manager (R93–R96). -/
structure GraphReq where
  m : RowId
  c : CoreId
  op : Nat
  /-- its number in the order of arrival (R94) -/
  no : Nat
  deriving DecidableEq, Repr

/-- A circuit of a join node: the region that owns it and its arc, the arc from which its tokens come, and how many of those
were emitted before the node was configured (R229, R403). -/
structure JoinMember where
  rcb : Word
  arc : Nat
  m : RowId
  c : CoreId
  slot : SlotId
  src : Nat
  /-- the launch whose region emits on it -/
  lid : BitVec 16
  plain : Nat
  deriving DecidableEq, Repr

/-- A join node; `order` names, oldest stamp first, the member of every stamped token not yet presented (R229). -/
structure JoinNode where
  srcDie : Nat
  dstDie : Nat
  members : List JoinMember
  order : List Nat
  /-- one of its circuits has broken: it presents nothing further -/
  broken : Bool
  deriving DecidableEq, Repr

/-- A die-to-die edge (Tables 1.1, 1.2). -/
structure Edge where
  retrn : BitVec 8
  crcrt : BitVec 16
  modup : BitVec 8
  training : BitVec 8
  wasdn : Bool
  /-- it has gone down: the circuits that cross it are broken until the next reset (R21) -/
  cut : Bool
  /-- consecutive retries of each module (R21) -/
  retries : Vector Nat 8
  deriving DecidableEq, Repr

/-- A scale-up port (R27, R32). -/
structure Port where
  up : Bool
  /-- interface selected: 0 backplane, 1 copper cable, 2 chip-to-module; and whether an 802.1Q tag is carried -/
  iface : BitVec 2
  tagged : Bool
  deriving DecidableEq, Repr

/-- A frame this module has sent (R29). -/
structure OutFrame where
  kind : BitVec 4
  dst : BitVec 18
  circ : BitVec 16
  cls : BitVec 2
  seq : BitVec 32
  ackseq : BitVec 32
  op : BitVec 8
  win : BitVec 16
  port : Nat
  payload : List Byte
  /-- what the port adds as the frame leaves: source node and MAC address, 802.1Q priority, and the 24-byte circuit header -/
  src : BitVec 18 := 0
  mac : BitVec 48 := 0
  prio : Option (BitVec 3) := none
  header : List Byte := []
  deriving DecidableEq, Repr

/-- A circuit: outgoing when this module is its source, else incoming (R30–R33, R398). -/
structure Circuit where
  outgoing : Bool
  num : BitVec 16
  peer : BitVec 18
  cls : BitVec 2
  /-- the core whose operations it carries; none for the hub's own answers -/
  issuer : Option (RowId × CoreId)
  broken : Bool
  port : Nat
  /-- sequence number of the last frame sent, or the highest received in order -/
  last : BitVec 32
  /-- frames the other side has granted, once it has -/
  win : Option Nat
  unacked : List OutFrame
  lastProgress : Nat
  lastSent : Nat
  /-- the operations that this side refused, latest first: tag, status and the offset of the first byte not performed (R399) -/
  refused : List (Nat × Nat × Nat)
  /-- outgoing: the sequence number that its OPEN gave, before its first frame (DESIGN CHOICE, log entry 28) -/
  start : BitVec 32 := 0
  /-- incoming: frames accepted in order that software has still to perform (R400) -/
  open_ : List (BitVec 32) := []
  deriving DecidableEq, Repr

/-- A participant of a reduction as node 0 of its list knows it (R402). -/
structure AredPart where
  node : BitVec 18
  cls : BitVec 2
  params : List Byte
  busy : Bool
  data : List Byte
  deriving DecidableEq, Repr

/-- A reduction in progress at node 0 of its list (R402). -/
structure AredGroup where
  group : BitVec 16
  parts : List AredPart
  verdict : Option Bool
  deriving DecidableEq, Repr

/-- A supply region (Table 10.1). -/
structure Supply where
  mv : BitVec 10
  ceil : Nat
  act : Nat
  off : Bool
  peak : BitVec 10
  last : BitVec 10
  ilim : BitVec 10
  hbud : BitVec 24
  sbud : BitVec 24
  bwait : BitVec 32
  /-- the 250 ns of the oscillator in which its regulator last took a step (R269) -/
  stepped : Nat := 0
  deriving DecidableEq, Repr

/-- The thermal registers of a die (Table 2.12). -/
structure Thermal where
  now : BitVec 16
  peak : BitVec 16
  crit : BitVec 8
  warn : BitVec 8
  /-- the die went critical: it stays off until the next reset (R64) -/
  halted : Bool
  deriving DecidableEq, Repr

/-- The event ring (R49, Table 2.2). -/
structure EventRing where
  b : Word
  n : Nat
  hd : Word
  tl : Word
  lost : Word
  target : BitVec 5
  identity : BitVec 11
  isSet : Bool
  deriving DecidableEq, Repr

/-- The watchdog (Table 2.5): `since` is when its count last restarted. -/
structure Watchdog where
  en : Bool
  boot : Bool
  stage : BitVec 2
  tmo : BitVec 32
  since : Nat
  deriving DecidableEq, Repr

/-- A record of an order log (R265). An agent is numbered by the model (DESIGN CHOICE, log entry 20). -/
inductive LogRec where
  | ndmrg (m : RowId) (c : CoreId) (slot : SlotId) (e : Nat) (second : Bool)
  | atomic (home : Nat) (agent : Nat) (seq : Nat)
  /-- a frame that arrived: with the circuit, SEQ and arrival index its KIND, and whether it is DATA that came in sequence -/
  | frame (circ : BitVec 16) (src : BitVec 18) (seq : BitVec 32) (idx : Nat) (kind : BitVec 4) (taken : Bool) (op : BitVec 8)
    (payload : List Byte)
  deriving DecidableEq, Repr

/-- The checkpoint registers (Table 9.8). -/
structure Ckpt where
  en : Bool
  logen : Bool
  fulln : BitVec 8
  per : BitVec 10
  rows : BitVec 24
  base : Nat
  size : BitVec 12
  lo : Nat
  hi : Nat
  epoch : BitVec 32
  skip : BitVec 16
  status : BitVec 8
  fullc : Bool
  rlog : BitVec 33
  /-- checkpoint taken and its epoch not yet written -/
  open_ : Bool
  lastAt : Nat
  /-- next byte of the cellar, bytes of the epochs by number and start, and the last full epoch's offset -/
  pos : Nat
  epochs : List (Nat × Nat × Nat)
  lastFull : Nat
  /-- the order log of the open epoch, and what a replay has still to follow -/
  log : List LogRec
  replayQ : List LogRec
  /-- atomics performed so far at each home, for the per-home sequence (R265) -/
  homeSeq : List (Nat × Nat)
  replay : Bool
  /-- the source nodes and circuit numbers whose DATA frames the log of a replay holds (R266) -/
  replayCirc : List (BitVec 18 × BitVec 16)
  /-- homes at which a replay has ended (R266) -/
  freed : List Nat := []
  deriving DecidableEq, Repr

/-- A saved row of an epoch, with the timebase at its cut (R263, R264). -/
structure SavedRow where
  epoch : BitVec 32
  tb : Word
  m : RowId
  row : Row
  deriving DecidableEq, Repr

/-- The module power and limiter registers (Table 10.2). -/
structure PowerCtl where
  pmax : BitVec 16
  psus : BitVec 16
  brake : BitVec 16
  vfloor : BitVec 10
  hyst : BitVec 8
  pnow : BitVec 16
  exc : Nat
  bscale : Nat
  ovr : Bool
  cut : Bool
  brk : Bool
  /-- the 500 ns sampling boundary of the last report, from power-on (R270) -/
  sampled : Nat := 0
  deriving DecidableEq, Repr

/-- The timebase servo and registers (Table 1.5, R53). -/
structure Servo where
  rate : Int
  slew : Int
  nstep : BitVec 32
  hasMaster : Bool
  /-- fraction of a unit left over by the rate correction -/
  frac : Int
  /-- a rate written that takes effect at the next 10 ns boundary (R38) -/
  rateNext : Option Int
  /-- the offset from the master, as last measured and since then slewed and stepped away -/
  off : Int
  syncT1 : Word
  syncT2 : Word
  haveSync : Bool
  /-- a two-step Sync that waits for its Follow_Up: sequenceId, T2 and correctionField -/
  awaitFollow : Option (BitVec 16 × Word × Word)
  delayT3 : Word
  delaySeq : Option (BitVec 16)
  syncCorr : Word
  /-- the mean path delay of the last delay exchange -/
  delay : Int
  domain : BitVec 8
  deriving DecidableEq, Repr

/-- What waits at an arbiter: a place's line, or a request at a bridge (R274). -/
inductive Waiter where
  | line (x : LineReq)
  | bridge (r : BridgeRequest)
  deriving DecidableEq, Repr

/-- The memory-side arbiters' counts (R274). -/
structure Budgets where
  /-- lines served per row and arbiter: 0–11 the bridges, 12 + slice number the slice arbiters -/
  counts : List (Nat × Nat × Nat)
  /-- the interval that the counts are of, by number from power-on -/
  interval : Nat
  inForce : Vector Nat 24
  inForceS : Vector Nat 24
  /-- requests that wait on a budget, in their order of arrival -/
  waiting : List Waiter
  /-- lines that an arbiter has served and their access, made of several, has still to use (R198, R274) -/
  held : List LineReq
  waited : BitVec 24
  deriving DecidableEq, Repr

/-- A hop of a stall walk, as it was read: element, arc, the arc's occupancy and capacity, and its time counter (R254, R255). -/
structure WalkHop where
  elem : Nat
  arc : Nat
  occ : Nat
  cap : Nat
  time : Nat
  deriving DecidableEq, Repr

/-- A stall walk in progress (R254). -/
structure Walker where
  m : RowId
  c : CoreId
  slot : SlotId
  starve : Bool
  /-- where its record goes, and the timebase at its start -/
  pa : Nat
  tb : Word
  elem : Nat
  hops : List WalkHop
  deriving DecidableEq, Repr

/-- The registers and queues of the hub die. -/
structure Hub where
  /-- the fabric prefix of port addresses (R28) -/
  macPrefix : BitVec 24
  hmode : BitVec 6
  ha : Vector HaRing 6
  wdog : Watchdog
  evq : EventRing
  nodeId : BitVec 18
  nodeSet : Bool
  lsubst : Vector Word 24
  lsterr : BitVec 16
  ltEn : Bool
  ltFrame : BitVec 40
  ltEpoch : Word
  /-- no slot fires that begins before these: from enabling or a write (R82), and from a backward step (R84) -/
  ltFrom : Nat
  ltHold : Nat
  /-- entries whose suspension waits for a checkpoint (R262) -/
  ltWait : List (Fin 256)
  lt : Vector LtEntry 256
  atBase : BitVec 14
  atSize : BitVec 7
  atHit : Word
  atMiss : Word
  attic : List AtticEntry
  tlbiva : BitVec 36
  walk : Option Walker
  swStatus : Status
  swArg : BitVec 32
  scana : Word
  ck : Ckpt
  cgive : BitVec 10
  rrootEn : Bool
  rroot : BitVec 24
  servo : Servo
  supply : Vector Supply 25
  fxrep : Vector (BitVec 10 × BitVec 10) 8
  /-- compute dies whose fixed rail is off (R63) -/
  railsOff : BitVec 4
  power : PowerCtl
  budgets : Budgets
  thermal : Vector Thermal 5
  edges : Vector Edge 8
  ports : Vector Port 16
  circuits : List Circuit
  /-- the last sequence number used under each circuit number that is free again (DESIGN CHOICE, log entry 28) -/
  circSeq : List (BitVec 16 × BitVec 32)
  /-- frames sent, newest first -/
  sent : List OutFrame
  /-- dropped frames by reason: EtherType or version, destination, kind or length (R28, R29) -/
  drops : Vector Nat 3
  joins : List JoinNode
  /-- reductions of which this module is node 0, and what has come for its own participants (R402) -/
  areds : List AredGroup
  aredIn : List (BitVec 16 × List Byte)
  /-- circuits of memory requests: the core and the die that each joins (R198) -/
  memCircuits : List (RowId × PlaceId × Nat)
  graphs : Vector (List GraphReq) 4
  /-- GRAPH requests that have entered a queue -/
  graphNo : Nat := 0
  /-- level's last-served row mask and circular order of groups (R81) -/
  turns : Vector (List (BitVec 24)) 4
  nextLid : BitVec 16
  /-- corrected errors of each stack, and of the scratchpads (R25, R184) -/
  eccFixed : Vector Nat 12
  spadFixed : Nat
  /-- corrected errors of the control complex's arrays (R54) -/
  ccFixed : Nat
  deriving DecidableEq, Repr

/-! ### Control complex and management -/

/-- A request to the Redfish service beyond login and the change of a password (Table 2.10, R68). -/
inductive ServiceRequest where
  /-- an action with an event of its own: a reset, the fabric's power, an image push, ClearStartRecord or an attestation report -/
  | act (i : Instr)
  /-- Systems/HX: fabric power state and node identifier -/
  | systems
  /-- Chassis/Module: temperatures, currents, power, thresholds and the brake limit -/
  | chassis
  | setThresholds (d : Fin 5) (warn crit : BitVec 8)
  | setBrake (watts : BitVec 16)
  /-- Chassis: PEAK of a die's temperature is written, which clears it -/
  | clearPeak (d : Fin 5)
  /-- Managers/Ctl: the network protocol, the IEEE 1588 domain and each port's interface and tag -/
  | managers
  | setDomain (d : BitVec 8)
  | setPort (p : Fin 16) (iface : BitVec 2) (tagged : Bool)
  /-- LogServices: 0 Start, 1 Diag, 2 Events -/
  | log (k : Fin 3)
  /-- ComponentIntegrity: the identity certificates -/
  | certificates
  /-- AccountService and SessionService -/
  | accounts
  | sessions
  | setAccount (a : Fin 16) (password : List Byte)
  | deleteAccount (a : Fin 16)
  | logout
  deriving DecidableEq, Repr

/-- A precise fault of an application core's access, with its address (R43, R44, R47). -/
inductive AppFault where
  | access (addr : Nat)
  | misaligned (addr : Nat)
  deriving DecidableEq, Repr

/-- What an application core sees of the device (R43–R54). -/
structure AppCore where
  result : Word
  /-- its last fault -/
  fault : Option AppFault
  /-- the line its load-reserved reads, until a store-conditional or another agent's write to it (Table 2.1) -/
  resv : Option (Nat × List Byte)
  /-- accesses to the I/O regions that wait, in program order (R46) -/
  io : List CcAccess
  /-- message-signalled interrupts delivered, and a pending machine-level interrupt -/
  msi : List (BitVec 11)
  mirq : Bool
  deriving DecidableEq, Repr

/-- A start record entry (Table 2.8). -/
abbrev StartEntry := BitVec 128

/-- The firmware image as the store holds it (R56, R58). -/
structure Image where
  header : ImageHeader
  /-- the SHA-384 digest of header and body -/
  digest : BitVec 384
  commit : Bool
  /-- the image range from its first byte; the rest of the range is erased (Table 2.6) -/
  bytes : List Byte
  deriving DecidableEq, Repr

/-- A record of the diagnostic log (R63). -/
structure DiagRecord where
  step : BitVec 8
  level : BitVec 8
  code : BitVec 16
  finding : Option Finding
  deriving DecidableEq, Repr

/-- What the control complex is running. -/
inductive CcMode where
  /-- no power -/
  | off
  /-- power applied, no start begun -/
  | unstarted
  /-- the operating system runs -/
  | running
  /-- the safe, talkative state (R63) -/
  | safe
  /-- the recovery responder (R59) -/
  | recovery
  deriving DecidableEq, Repr

/-- A local account (R68). -/
structure Account where
  used : Bool
  password : List Byte
  mustChange : Bool
  fails : Nat
  lockedUntil : Option Nat
  deriving DecidableEq, Repr

/-- A session: its number, account and last use (R68). -/
structure Session where
  sid : Nat
  acct : Fin 16
  lastUse : Nat
  deriving DecidableEq, Repr

/-- The management side of the module (R56–R69). -/
structure Mgmt where
  mode : CcMode
  image : Image
  /-- the fused minimum security version -/
  secMin : BitVec 32
  /-- the start record (R57) -/
  sectors : Vector (List StartEntry) 16
  sector : Nat
  startNo : BitVec 32
  levels : BitVec 16
  /-- training values saved by a good start (R61) -/
  trained : Bool
  /-- factory configuration in force (OSLOAD alternate) -/
  factory : Bool
  tmoStored : BitVec 32
  fabricOn : Bool
  /-- the diagnostic record: step or 0xFF, level, code, and what a test found -/
  diag : List DiagRecord
  slots : Vector (BitVec 384) 8
  report : Option (List Byte × BitVec 384 × BitVec 384)
  accounts : Vector Account 16
  sessions : List Session
  nextSid : Nat
  /-- the last HTTP status of the service, and what it served -/
  http : Nat
  reply : List Nat
  /-- a pushed image whose signatures software has still to check, as received (R53) -/
  push : Option (ImagePush × List Byte)
  /-- an image that passed its checks and is being programmed, and whether it will read back as programmed (R69) -/
  writing : Option (Image × Bool)
  /-- the TLS key made at the first boot, with its certificate (R66) -/
  tls : Option (List Byte × List Byte)
  /-- security version of the image that this start runs -/
  secRun : BitVec 32
  /-- the last power removal was a thermal trip, whose signal is asserted until the next power-on (R64) -/
  tripped : Bool
  deriving DecidableEq, Repr

/-! ### The whole machine -/

/-- What may hold a side of a ring (R192, R467). -/
inductive SideHolder where
  | op (m : RowId) (c : CoreId) (id : Nat)
  | port (m : RowId) (c : CoreId) (slot : SlotId) (e : Nat)
  deriving DecidableEq, Repr

/-- One side of a ring, by its descriptor's address: who holds it and who waits, in the order of the requests (R192). -/
structure RingSide where
  desc : Nat
  producer : Bool
  queue : List SideHolder
  deriving DecidableEq, Repr

/-- Whose step it is: the place, and the operation when an engine moves. -/
structure Cursor where
  m : RowId
  p : PlaceId
  op : Nat
  /-- the ordinal and vine word being executed -/
  word : VineWord
  deriving DecidableEq, Repr

/-- What the next step does (DESIGN CHOICE, log entry 1): a place takes its next word, an engine moves an operation, an event of
the opcode table happens, or oscillator time passes. -/
inductive Action where
  | place (m : RowId) (p : PlaceId)
  | engine (m : RowId) (c : CoreId) (op : Nat)
  | event (i : Instr)
  | elapse (units : Nat)
  /-- a link of a GRAPH region carries a token (R96) -/
  | link (m : RowId) (c : CoreId) (slot : SlotId) (i : Nat)
  /-- a replay delivers the next frame of its log (R266) -/
  | replayFrame
  /-- a row's instruction cache fills a line ahead of its words (R100) -/
  | prefetch (m : RowId) (line : Nat)
  /-- an application core's waiting accesses are tried (R44, R46) -/
  | app (ac : Fin 24)
  /-- the Redfish service answers a request of a session (R68) -/
  | service (sid : Nat) (q : ServiceRequest)
  /-- the programming of the firmware store ends (R69) -/
  | program
  /-- the stall walker's next hop (R254) -/
  | walk
  deriving DecidableEq, Repr

/-- The state of the module. -/
structure State where
  /-- the module timebase (R36) and oscillator units since power-on -/
  tb : Word
  osc : Nat
  /-- the model's own: steps taken, free values drawn, and what moves next -/
  ticks : Nat
  fresh : Nat
  agenda : List Action
  cur : Cursor
  mem : Memory
  dieTlb : Vector (List TlbEntry) 4
  rows : Vector Row 24
  launches : List Launch
  suspended : List Suspended
  saved : List SavedRow
  sides : List RingSide
  /-- writes of controllers and ports that wait for their scratchpad bank to wake or on a budget, oldest first (R187, R274) -/
  portQ : List PortWrite
  hub : Hub
  apps : Vector AppCore 24
  mgmt : Mgmt
  deriving DecidableEq, Repr

/-! ### Reset

Every field at the value the manual gives for reset; a register for which it gives none reads zero (DESIGN CHOICE, log entries 7 and
8). -/

/-- A bank that is FULL. -/
def Bank.full : Bank := ⟨.full, 0, 0, 0⟩
/-- A bank that is OFF. -/
def Bank.off : Bank := ⟨.off, 0, 0, 0⟩

/-- Table 6.6 at reset; after power-on every line is dead (R185). -/
def MemCell.reset : MemCell :=
  { hxm := 0, disc := 0, banks := .replicate 16 .off, confl := .replicate 16 0 }

/-- Tables 4.4 and 8.2 at reset. -/
def TrapRegs.reset : TrapRegs :=
  { cause := 0, eng := false, nest := false, winOpen := false, src := 0xFF, rowc := 0, xord := 0, xaddr := 0, xinfo := 0
    xhold := 0, xholdLive := true, hbase := 0, trapOrd := none }

/-- Nothing is held outside handler mode. -/
def Held.reset : Held := { active := true, stack := [], post := 0, postRel := false, ord := 0, halted := false }

/-- Table 9.1 at reset. -/
def Breakpoint.reset : Breakpoint := { en := false, hit := false, slot := 0, arc := 0, n := 0, due := false }

/-- Table 9.5 at reset. -/
def TraceUnit.reset : TraceUnit :=
  { en := false, wrap := false, log2n := 8, base := 0, idx := 0, lost := 0, lastTb := 0 }

/-- A core at reset (R108, R113, R115, R121, Tables 4.4 to 4.9). -/
def Core.reset : Core :=
  { s := .replicate 32 0, live := 0xFFFFFFFF, banks := .replicate 4 .full, pend := [], h := .replicate 16 0
    w := .replicate 32 0, epost := 0, epostRel := false, active := true, stack := [], cursor := 0
    est := .replicate 4 ⟨0, 0⟩, engTrap := .replicate 4 none, kidle := 0, trap := .reset, held := .reset, stopped := false
    halted := false, skipBelow := none, hist := [], ops := [], nextOp := 0, regions := .replicate 8 none
    mcells := .replicate 64 .reset, tlb := [], bps := .replicate 4 .reset, elog := [], elogLost := 0, trace := .reset }

/-- Table 8.5 at reset. -/
def RowTrap.reset : RowTrap :=
  { secsrc := 0xFF, secc := 0, seca := 0, seci := 0 }

/-- A row that no launch holds. -/
def Row.reset : Row :=
  { phase := .idle, lid := none, suspended := none, q := .replicate 16 0, qpend := [], echo := [], getw := [], pc := 0
    ord := 0, post := 0, postRel := false, trap := .reset, held := .reset, heldPc := 0, stopped := false, halted := false
    hops := .replicate 8 [], resend := [], resendQ := [], rtrap := .reset, icache := [], cores := .replicate 8 .reset }

/-- Table 10.1 at reset. -/
def Supply.reset : Supply :=
  { mv := 750, ceil := 900, act := 750, off := false, peak := 0, last := 0, ilim := 1023, hbud := 40000, sbud := 192000
    bwait := 0 }

/-- Table 3.5 at reset. -/
def LtEntry.reset : LtEntry :=
  { v := false, rule := 0, err := 0, offs := 0, desc := 0, miss := 0, ovrn := 0, lid := 0, lastSlot := none, begun := [] }

/-- Table 9.8 at reset. -/
def Ckpt.reset : Ckpt :=
  { en := false, logen := false, fulln := 16, per := 50, rows := 0, base := 0, size := 0, lo := 0, hi := 0, epoch := 0
    skip := 0, status := 0, fullc := false, rlog := 0, open_ := false, lastAt := 0, pos := 0, epochs := []
    lastFull := 0, log := [], replayQ := [], homeSeq := [], replay := false, replayCirc := [] }

/-- The hub at reset (Tables 1.2, 1.5, 2.4, 2.5, 2.12, 10.1, 10.2, R28, R33, R49). -/
def Hub.reset : Hub :=
  { macPrefix := 0x065A00, hmode := 0
    ha := .replicate 6 ⟨0, 0, 0, .replicate 8 0, 0, [], []⟩
    wdog := { en := false, boot := true, stage := 0, tmo := 10000000, since := 0 }
    evq := { b := 0, n := 6, hd := 0, tl := 0, lost := 0, target := 0, identity := 0, isSet := false }
    nodeId := 0, nodeSet := false, lsubst := .replicate 24 0, lsterr := 0, ltEn := false, ltFrame := 16000000, ltEpoch := 0
    ltFrom := 0, ltHold := 0, ltWait := [], lt := .replicate 256 .reset, atBase := 0, atSize := 0, atHit := 0, atMiss := 0, attic := [], tlbiva := 0
    walk := none, swStatus := .ok, swArg := 0, scana := 0, ck := .reset, cgive := 100, rrootEn := false, rroot := 0
    servo := { rate := 0, slew := 0, nstep := 0, hasMaster := false, frac := 0, rateNext := none, off := 0, syncT1 := 0, syncT2 := 0
               haveSync := false, awaitFollow := none, delayT3 := 0, delaySeq := none, syncCorr := 0, delay := 0, domain := 0 }
    supply := .replicate 25 .reset, fxrep := .replicate 8 (0, 0), railsOff := 0
    power := { pmax := 2800, psus := 2400, brake := 600, vfloor := 550, hyst := 50, pnow := 0, exc := 0, bscale := 16
               ovr := false, cut := false, brk := false }
    budgets := { counts := [], interval := 0, inForce := .replicate 24 40000, inForceS := .replicate 24 192000, waiting := [], held := [], waited := 0 }
    thermal := .replicate 5 { now := 0, peak := 0, crit := 105, warn := 95, halted := false }
    edges := .replicate 8 { retrn := 0, crcrt := 0, modup := 0, training := 0, wasdn := false, cut := false, retries := .replicate 8 0 }
    ports := .replicate 16 { up := false, iface := 0, tagged := false }
    circuits := [], circSeq := [], sent := [], drops := .replicate 3 0, joins := [], areds := [], aredIn := [], memCircuits := [], graphs := .replicate 4 [], turns := .replicate 4 []
    nextLid := 1, eccFixed := .replicate 12 0, spadFixed := 0, ccFixed := 0 }

/-- A local account that does not exist. -/
def Account.none : Account := { used := false, password := [], mustChange := false, fails := 0, lockedUntil := Option.none }

/-- The most significant byte first. -/
def natOfBE (bs : List Byte) : Nat := bs.foldl (fun n b => n * 256 + b.toNat) 0

/-- The image that the store holds at delivery: its parts are constants of the device (R56, log entry 4). -/
def Image.factory : Image :=
  { header := { secVersion := Config.factoryVersion, steps := Config.factoryImage 1
                rsaKey := { n := natOfBE (Config.factoryImage 2), e := natOfBE (Config.factoryImage 3) }
                slhKey := Config.factoryImage 5, keyIndex := 0, rsaSig := natOfBE (Config.factoryImage 4)
                slhSig := Config.factoryImage 6 }
    digest := BitVec.ofNat 384 (natOfBE (Config.factoryImage 7)), commit := true, bytes := Config.factoryImage 0 }

/-- The management side with power applied and no start begun: the store empty of start entries (R57), the factory account
alone (R68). -/
def Mgmt.reset : Mgmt :=
  { mode := .unstarted
    image := .factory
    secMin := Config.fusedMinimum, sectors := .replicate 16 [], sector := 0, startNo := 0, levels := 0, trained := false
    factory := false, tmoStored := 10000000, fabricOn := false, diag := [], slots := .replicate 8 0, report := none
    accounts := (Vector.replicate 16 Account.none).set 0
      { used := true, password := Config.labelPassword, mustChange := true, fails := 0, lockedUntil := Option.none }
    sessions := [], nextSid := 0, http := 0, reply := [], push := none, writing := none, tls := none, secRun := 0, tripped := false }

/-- The vine word of no word. -/
def VineWord.none : VineWord :=
  { ord := 0, handler := false, word := 0, lit := 0, addr := 0, post := 0, postRel := false, coll := 0 }

/-- The module right after reset, before its start: no launch holds a row, memory lists nothing. -/
def State.reset : State :=
  { tb := 0, osc := 0, ticks := 0, fresh := 0, agenda := [], cur := { m := 0, p := 0, op := 0, word := .none }
    mem := { cells := [], live := [], poison := [], dirty := [] }, dieTlb := .replicate 4 [], rows := .replicate 24 .reset
    launches := [], suspended := [], saved := [], sides := [], portQ := []
    hub := .reset, apps := .replicate 24 { result := 0, fault := none, resv := none, io := [], msi := [], mirq := false }, mgmt := .reset }

end Sys2Proof.Machine
end

