-- ==== Sys2Proof/Machine/Bits.lean ====
section
/-! DEFINITION. Byte order, sign extension and small arithmetic on fields (R10, R339). -/

namespace Sys2Proof.Machine

/-- The n bytes of a number, lowest first (R10). -/
def bytesOf : Nat → Nat → List Byte
  | 0, _ => []
  | n + 1, v => BitVec.ofNat 8 v :: bytesOf n (v / 256)

/-- The number whose bytes, lowest first, are given (R10). -/
def natOf : List Byte → Nat
  | [] => 0
  | b :: bs => b.toNat + 256 * natOf bs

/-- A natural number as a word. -/
def toWord (n : Nat) : Word := BitVec.ofNat 64 n

/-- SX(v, 8w) for a w-byte value (R339). -/
def sxBytes (w : Nat) (v : Nat) : Word := (BitVec.ofNat (8 * w) v).signExtend 64

/-- Bits [hi:lo] of a number. -/
def bits (v hi lo : Nat) : Nat := v / 2 ^ lo % 2 ^ (hi + 1 - lo)

/-- Bit i of a number. -/
def bitN (v i : Nat) : Bool := decide (v / 2 ^ i % 2 = 1)

/-- A flag as a number. -/
def b2n (b : Bool) : Nat := if b then 1 else 0

/-- Bits [hi:lo] of a register. -/
def wbits (v : Word) (hi lo : Nat) : Nat := bits v.toNat hi lo

/-- The two's-complement value of the low n bits of a number. -/
def sint (n v : Nat) : Int := (BitVec.ofNat n v).toInt

/-- Saturating addition at n bits. -/
def satAdd (n a b : Nat) : Nat := min (a + b) (2 ^ n - 1)

/-- Add one to a counter that saturates. -/
def satInc {n : Nat} (c : BitVec n) : BitVec n := if c = BitVec.allOnes n then c else c + 1

/-- v clamped to the range lo to hi. -/
def clampN (lo hi v : Nat) : Nat := max lo (min hi v)

/-- v clamped to the range lo to hi, on integers. -/
def clampI (lo hi v : Int) : Int := max lo (min hi v)

/-- Serial comparison modulo 2^48: a is below b (R103). -/
def ordBelow (a b : WordOrd) : Bool :=
  let d := (b - a).toNat
  decide (1 ≤ d ∧ d ≤ 2 ^ 47 - 1)

/-- Start numbers compared modulo 2^32 in the manner of R103 (R57). -/
def serialBelow32 (a b : Nat) : Bool :=
  let d := (b + 2 ^ 32 - a) % 2 ^ 32
  decide (1 ≤ d ∧ d ≤ 2 ^ 31 - 1)

/-- Sorted insertion without repetition. -/
def insertNat (x : Nat) : List Nat → List Nat
  | [] => [x]
  | y :: ys => if x < y then x :: y :: ys else if x = y then y :: ys else y :: insertNat x ys

/-- Lists cut into blocks of n, in order, by fuel. -/
def blocks {α : Type} (n : Nat) : Nat → List α → List (List α)
  | 0, _ => []
  | _, [] => []
  | k + 1, xs => xs.take n :: blocks n k (xs.drop n)

/-- The list with position i replaced by f of its value. -/
def modAt {α : Type} (f : α → α) : Nat → List α → List α
  | _, [] => []
  | 0, x :: xs => f x :: xs
  | i + 1, x :: xs => x :: modAt f i xs

/-- A vector with one entry replaced by f of it. -/
def vmod {α : Type} {n : Nat} (v : Vector α n) (i : Fin n) (f : α → α) : Vector α n := v.set i (f v[i])

/-- The parity of the low n bits of a number. -/
def parity : Nat → Nat → Bool
  | 0, _ => false
  | n + 1, v => xor (decide (v % 2 = 1)) (parity n (v / 2))

/-- Every Fin below n, in order. -/
def finsN (n : Nat) : List (Fin n) := List.finRange n

end Sys2Proof.Machine
end

