-- ==== Sys2Proof/Machine/Ops.lean ====
section
/-! DEFINITION. The named operations over memory, registers, banks, address translation and the event ring; taking a
trap, entering the handler, returning from it, and a machine check. -/

namespace Sys2Proof.Machine

/-! ### Accessors -/

/-- A module row. -/
def State.row (s : State) (m : RowId) : Row := s.rows[m]
/-- A core. -/
def State.core (s : State) (m : RowId) (c : CoreId) : Core := s.rows[m].cores[c]
/-- Change a row. -/
def State.modRow (s : State) (m : RowId) (f : Row → Row) : State := { s with rows := vmod s.rows m f }
/-- Change a core of a row. -/
def Row.modCore (r : Row) (c : CoreId) (f : Core → Core) : Row := { r with cores := vmod r.cores c f }
/-- Change a core. -/
def State.modCore (s : State) (m : RowId) (c : CoreId) (f : Core → Core) : State := s.modRow m fun r => r.modCore c f
/-- Change the hub. -/
def State.modHub (s : State) (f : Hub → Hub) : State := { s with hub := f s.hub }
/-- Change the management side. -/
def State.modMgmt (s : State) (f : Mgmt → Mgmt) : State := { s with mgmt := f s.mgmt }
/-- Change memory. -/
def State.withMem (s : State) (mem : Memory) : State := { s with mem := mem }
/-- Draw a free value: the state's counter advances (DESIGN CHOICE, log entry 2). -/
def State.draw (s : State) : Word × State := (Config.freeValue s.fresh, { s with fresh := s.fresh + 1 })

/-- An operation of a core. -/
def Core.findOp (k : Core) (id : Nat) : Option Op := k.ops.find? fun o => o.id == id
/-- Change an operation. -/
def Core.modOp (k : Core) (id : Nat) (f : Op → Op) : Core :=
  { k with ops := k.ops.map fun o => if o.id = id then f o else o }
/-- Change an operation of a core. -/
def State.modOp (s : State) (m : RowId) (c : CoreId) (id : Nat) (f : Op → Op) : State :=
  s.modCore m c fun k => k.modOp id f

/-- The die of a module row (R4). -/
def dieOf (m : RowId) : Nat := m.val / 6
/-- The row within its die (R4). -/
def rowInDie (m : RowId) : Nat := m.val % 6
/-- The core of a place, none at the row fetch unit. -/
def coreOfPlace (p : PlaceId) : Option CoreId := if h : p.val < 8 then some ⟨p.val, h⟩ else none
/-- The place of a core. -/
def placeOfCore (c : CoreId) : PlaceId := ⟨c.val, by omega⟩
/-- The row fetch unit as a place. -/
def rfuPlace : PlaceId := 8

/-! ### Memory -/

/-- The first physical address beyond device HBM (R17). -/
def hbmEnd : Nat := 0x9000000000
/-- The physical address of scratchpad offset 0 (Table 2.1). -/
def spadBase : Nat := 0xB000000000
/-- The virtual base of the slice window (R8). -/
def sliceBase : Nat := 0x7F00000000
/-- The virtual base of the cell register window (Table 6.1). -/
def cellRegBase : Nat := 0x7E00000000

/-- The byte listed at an address, zero when none is (DESIGN CHOICE, log entry 6). -/
def getByte (a : Nat) : List Host.Cell → Byte
  | [] => 0
  | (b, v) :: cs => if a = b then v else getByte a cs

/-- Write one byte, keeping addresses rising and no zero listed. -/
def putByte (a : Nat) (v : Byte) : List Host.Cell → List Host.Cell
  | [] => if v = 0 then [] else [(a, v)]
  | (b, w) :: cs =>
    if a < b then (if v = 0 then (b, w) :: cs else (a, v) :: (b, w) :: cs)
    else if a = b then (if v = 0 then cs else (a, v) :: cs)
    else (b, w) :: putByte a v cs

/-- Write bytes at rising addresses. -/
def putBytes (a : Nat) : List Byte → List Host.Cell → List Host.Cell
  | [], cs => cs
  | v :: vs, cs => putBytes (a + 1) vs (putByte a v cs)

/-- Read n bytes. -/
def getBytes (cs : List Host.Cell) (a : Nat) : Nat → List Byte
  | 0 => []
  | n + 1 => getByte a cs :: getBytes cs (a + 1) n

/-- The 128-byte lines that n bytes at an address touch (R24). -/
def linesOf (a n : Nat) : List Nat := if n = 0 then [] else List.range' (a / 128) ((a + n - 1) / 128 - a / 128 + 1)
/-- The 64 KiB granules that n bytes at an address touch (R263). -/
def granulesOf (a n : Nat) : List Nat :=
  if n = 0 then [] else List.range' (a / 65536) ((a + n - 1) / 65536 - a / 65536 + 1)

/-- The lines rise strictly. -/
def risingNat : List Nat → Bool
  | x :: y :: ys => decide (x < y) && risingNat (y :: ys)
  | _ => true
/-- The addresses rise strictly. -/
def risingCells : List Host.Cell → Bool
  | x :: y :: ys => decide (x.1 < y.1) && risingCells (y :: ys)
  | _ => true

/-- Memory is in its one canonical form. -/
def Memory.wf (m : Memory) : Bool :=
  risingCells m.cells && m.cells.all (fun c => decide (c.2 ≠ 0)) && risingNat m.live && risingNat m.poison
    && risingNat m.dirty

/-- Read one byte. -/
def Memory.byte (m : Memory) (a : Nat) : Byte := getByte a m.cells
/-- Read n bytes. -/
def Memory.read (m : Memory) (a n : Nat) : List Byte := getBytes m.cells a n
/-- Read an n-byte little-endian number. -/
def Memory.num (m : Memory) (a n : Nat) : Nat := natOf (m.read a n)
/-- A line is poisoned. -/
def Memory.poisoned (m : Memory) (a n : Nat) : Bool := (linesOf a n).any fun l => m.poison.contains l
/-- Some line of a scratchpad span is dead; HBM has no dead lines (R185). -/
def Memory.dead (m : Memory) (a n : Nat) : Bool :=
  decide (spadBase ≤ a) && (linesOf a n).any fun l => !m.live.contains l

/-- The home examines a waiting barrier as memory now is; the value counts, whatever becomes of its line (R408; DEDUCED, log entry 68). -/
def BarWait.examine (b : BarWait) (cells : List Host.Cell) : BarWait :=
  { b with met := b.met || decide (b.goal ≤ natOf (getBytes cells b.pa 8)) }

/-- Write bytes: a dead scratchpad line is revived, a whole-line write clears poison, and waiting barriers are examined (R26, R184, R185,
R408). -/
def Memory.write (m : Memory) (a : Nat) (bs : List Byte) : Memory :=
  let n := bs.length
  let ls := linesOf a n
  let cells := putBytes a bs m.cells
  { m with
    cells := cells
    bars := m.bars.map fun b => b.examine cells
    live := if spadBase ≤ a then ls.foldl (fun acc l => insertNat l acc) m.live else m.live
    poison := m.poison.filter fun l => !(decide (a ≤ l * 128 ∧ l * 128 + 128 ≤ a + n))
    dirty := (granulesOf a n).foldl (fun acc g => insertNat g acc) m.dirty }

/-- Write an n-byte little-endian number. -/
def Memory.put (m : Memory) (a n v : Nat) : Memory := m.write a (bytesOf n v)
/-- Mark lines poisoned. -/
def Memory.poisonLines (m : Memory) (ls : List Nat) : Memory :=
  { m with poison := ls.foldl (fun acc l => insertNat l acc) m.poison }
/-- Lines die: their bytes and poison go with them (R185). -/
def Memory.killLines (m : Memory) (ls : List Nat) : Memory :=
  { m with cells := m.cells.filter fun c => !ls.contains (c.1 / 128)
           live := m.live.filter fun l => !ls.contains l
           poison := m.poison.filter fun l => !ls.contains l }
/-- Every line that lies in [lo, hi) dies. -/
def Memory.killRange (m : Memory) (lo hi : Nat) : Memory :=
  let inside (l : Nat) : Bool := decide (lo ≤ l * 128 ∧ l * 128 < hi)
  { m with cells := m.cells.filter fun c => !inside (c.1 / 128)
           live := m.live.filter fun l => !inside l
           poison := m.poison.filter fun l => !inside l }

/-! ### Slices -/

/-- A slice: module row, core, memory cell and byte within it (Table 0.2). -/
structure Slice where
  m : RowId
  c : CoreId
  mi : Fin 64
  off : Nat
  deriving DecidableEq, Repr

/-- The slice an offset names, none when its die or row names none (R9). -/
def sliceOf (v : Nat) : Option Slice :=
  let d := bits v 31 29
  let r := bits v 28 26
  if d < 4 ∧ r < 6 then
    some { m := Fin.ofNat 24 (d * 6 + r), c := Fin.ofNat 8 (bits v 25 23), mi := Fin.ofNat 64 (bits v 22 17)
           off := bits v 16 0 }
  else none

/-- The scratchpad offset of a memory cell's byte (Table 0.2). -/
def sliceOffset (m : RowId) (c : CoreId) (mi : Fin 64) (off : Nat) : Nat :=
  dieOf m * 2 ^ 29 + rowInDie m * 2 ^ 26 + c.val * 2 ^ 23 + mi.val * 2 ^ 17 + off

/-- The column of a memory cell (R6). -/
def colOfMem (mi : Nat) : Nat := 2 * (mi % 8) + (mi / 8 + 1) % 2
/-- The memory cell index of a cell number (R6). -/
def memIndex (cell : Nat) : Nat := 8 * (cell / 16) + (cell % 16 - (cell / 16 + 1) % 2) / 2
/-- A cell is a compute cell (R6). -/
def isCompute (cell : Nat) : Bool := decide ((cell % 16 + cell / 16) % 2 = 0)

/-- The bank of a line by its offset and HXM (R180). -/
def bankOf (hxm : BitVec 24) (off : Nat) : Fin 16 :=
  let f := bits off 16 11
  let one (j : Nat) : Nat := b2n (xor (bitN off (7 + j)) (parity 6 (f &&& bits hxm.toNat (6 * j + 5) (6 * j))))
  Fin.ofNat 16 (one 0 + 2 * one 1 + 4 * one 2 + 8 * one 3)

/-- The physical lines of a bank that are live. -/
def State.bankLive (s : State) (m : RowId) (c : CoreId) (mi : Fin 64) (b : Fin 16) : List Nat :=
  let base := spadBase + sliceOffset m c mi 0
  let hxm := (s.core m c).mcells[mi].hxm
  s.mem.live.filter fun l =>
    decide (base ≤ l * 128 ∧ l * 128 < base + 131072) && decide (bankOf hxm (l * 128 - base) = b)

/-! ### Banks -/

/-- Oscillator units in n ns (R14). -/
def ns (n : Nat) : Nat := 16 * n

/-- A use of a bank at a timebase restarts its idle period under the interval now in force (R119, R187, R374). -/
def Bank.use (b : Bank) (now : Word) (idle : BitVec 24) : Bank := { b with lastUse := now, idle := idle }
/-- A wake begins. -/
def Bank.wake (b : Bank) (now units : Nat) : Bank := { b with st := .waking, wakeAt := now + units }
/-- A wake ends, and an idle period begins (Tables 4.7, 5.7, 6.8). -/
def Bank.woken (b : Bank) (now : Word) (idle : BitVec 24) : Bank :=
  { b with st := .full, lastUse := now, idle := idle }
/-- The bank has idled for its interval, counted in the timebase (R14, R119, R169, R187, Tables 4.7, 5.7, 6.8). A step of the
timebase lengthens or shortens an idle period as it moves the count (DESIGN CHOICE, log entry 19). -/
def Bank.idled (b : Bank) (now : Word) : Bool :=
  b.st == .full && decide (b.idle ≠ 0) && decide ((ns b.idle.toNat : Int) ≤ (now - b.lastUse).toInt)
/-- The two bits of a bank's state in a status register (Tables 4.6, 6.6). -/
def Power.code : Power → Nat
  | .off => 0
  | .keep => 1
  | .full => 2
  | .waking => 3

/-- Change a memory cell. -/
def State.modMem (s : State) (m : RowId) (c : CoreId) (mi : Fin 64) (f : MemCell → MemCell) : State :=
  s.modCore m c fun k => { k with mcells := vmod k.mcells mi f }
/-- Change a scratchpad bank. -/
def State.modBank (s : State) (m : RowId) (c : CoreId) (mi : Fin 64) (b : Fin 16) (f : Bank → Bank) : State :=
  s.modMem m c mi fun x => { x with banks := vmod x.banks b f }

/-- An access of n bytes reaches its scratchpad bank: the state after a wake has begun if one is needed, and whether the
access is served now. A read of a bank that is OFF is served: its line is dead (Table 6.8). -/
def State.spadReady (s : State) (pa : Nat) (write : Bool) : State × Bool :=
  if pa < spadBase then (s, true)
  else match sliceOf (pa - spadBase) with
  | none => (s, true)
  | some sl =>
    let k := s.core sl.m sl.c
    let b := bankOf k.mcells[sl.mi].hxm sl.off
    match k.mcells[sl.mi].banks[b].st with
    | .full => (s.modBank sl.m sl.c sl.mi b fun x => x.use s.tb k.kidle, true)
    | .waking => (s, false)
    | .keep => (s.modBank sl.m sl.c sl.mi b fun x => x.wake s.osc (ns 20), false)
    | .off => if write then (s.modBank sl.m sl.c sl.mi b fun x => x.wake s.osc (ns 120), false) else (s, true)

/-- The banks of n bytes serve, or wake (R187). -/
def State.linesReady (s : State) (pa n : Nat) (write : Bool) : State × Bool :=
  (linesOf pa n).foldl (fun x l => let y := x.1.spadReady (l * 128) write; (y.1, x.2 && y.2)) (s, true)

/-- A scratchpad bank whose last live line has died goes OFF. Table 6.8 gives the event for FULL; a bank in KEEP or waking goes OFF too, for
nothing is left in it to keep (DESIGN CHOICE, log entry 67). -/
def State.settleBank (s : State) (pa : Nat) : State :=
  if pa < spadBase then s
  else match sliceOf (pa - spadBase) with
  | none => s
  | some sl =>
    let b := bankOf (s.core sl.m sl.c).mcells[sl.mi].hxm sl.off
    if (s.bankLive sl.m sl.c sl.mi b).isEmpty then s.modBank sl.m sl.c sl.mi b fun x => { x with st := .off } else s

/-- Scratchpad lines die, and their banks settle (R185). -/
def State.killLines (s : State) (ls : List Nat) : State :=
  let spad := ls.filter fun l => decide (spadBase ≤ l * 128)
  spad.foldl (fun acc l => acc.settleBank (l * 128)) (s.withMem (s.mem.killLines spad))

/-- Every line of a memory cell dies and its banks go OFF (R180, Table 6.8). -/
def State.killCell (s : State) (m : RowId) (c : CoreId) (mi : Fin 64) : State :=
  let base := spadBase + sliceOffset m c mi 0
  (s.withMem (s.mem.killRange base (base + 131072))).modMem m c mi fun x =>
    { x with banks := x.banks.map fun b => { b with st := .off } }

/-- Every line of one bank dies and the bank goes OFF (R185, R188). -/
def State.killBank (s : State) (m : RowId) (c : CoreId) (mi : Fin 64) (b : Fin 16) : State :=
  (s.withMem (s.mem.killLines (s.bankLive m c mi b))).modBank m c mi b fun x => { x with st := .off }

/-! ### Scalar registers -/

/-- The bank of a scalar register (R115). -/
def sBank (r : BitVec 5) : Fin 4 := Fin.ofNat 4 (r.toNat / 8)
/-- The index of a register in its file. -/
def reg32 (r : BitVec 5) : Fin 32 := r.toFin
/-- A row register. -/
def reg16 (r : BitVec 5) : Fin 16 := Fin.ofNat 16 r.toNat

/-- A scalar register is live; s0 always is (R118). -/
def Core.isLive (k : Core) (r : BitVec 5) : Bool := decide (r = 0) || k.live.getLsbD r.toNat
/-- A scalar register's value; s0 reads zero (R115). -/
def Core.read (k : Core) (r : BitVec 5) : Word := if r = 0 then 0 else k.s[reg32 r]

/-- The mask bit of a register. -/
def maskBit (r : BitVec 5) : BitVec 32 := (1 : BitVec 32) <<< r.toNat
/-- The live registers of a bank, s0 not counted (R118). -/
def liveInBank (live : BitVec 32) (b : Fin 4) : Bool :=
  decide ((live &&& ((0xFF : BitVec 32) <<< (8 * b.val)) &&& 0xFFFFFFFE) ≠ 0)

/-- A bank whose last live register has just died goes OFF from FULL (Table 4.7). The table gives that event for FULL alone: a
bank in KEEP or waking keeps its state, and is FULL with nothing live once woken (DESIGN CHOICE, log entry 47). -/
def Core.settle (k : Core) (b : Fin 4) : Core :=
  if liveInBank k.live b then k
  else { k with banks := vmod k.banks b fun x => if x.st = .full then { x with st := .off } else x }

/-- A register becomes dead; s0 never does (R117). -/
def Core.clear (k : Core) (r : BitVec 5) : Core := if r = 0 then k else { k with live := k.live &&& ~~~ maskBit r }

/-- A register is written and live; a write of s0 is discarded (R115, R117). -/
def Core.write (k : Core) (r : BitVec 5) (v : Word) : Core :=
  if r = 0 then k
  else { k with s := k.s.set (reg32 r) v, live := k.live ||| maskBit r }

/-- A use of the banks of the registers named (R119). -/
def Core.touch (k : Core) (now : Word) (rs : List (BitVec 5)) : Core :=
  { k with banks := (rs.filter (· ≠ 0)).foldl (fun bs r => vmod bs (sBank r) fun x => x.use now k.kidle) k.banks }

/-- What a bank needs before a word that reads or writes one of its registers issues: a wake in units, when it is not FULL. -/
def wakeUnits : Power → Option Nat
  | .full => none
  | .waking => some 0
  | .keep => some (ns 6)
  | .off => some (ns 24)

/-- Begin the wakes that the registers named need; whether every bank is FULL already (Table 4.7). -/
def Core.wakeFor (k : Core) (now : Nat) (rs : List (BitVec 5)) : Core × Bool :=
  (rs.filter (· ≠ 0)).foldl (fun (acc : Core × Bool) r =>
    match acc.1.banks[sBank r].st with
    | .full => acc
    | .waking => (acc.1, false)
    | .keep => ({ acc.1 with banks := vmod acc.1.banks (sBank r) fun x => x.wake now (ns 6) }, false)
    | .off => ({ acc.1 with banks := vmod acc.1.banks (sBank r) fun x => x.wake now (ns 24) }, false)) (k, true)

/-- %bstat (Table 4.6). -/
def Core.bstat (k : Core) : Word :=
  toWord ((k.live.toNat ||| 1) * 2 ^ 32
    + k.banks[0].st.code + 4 * k.banks[1].st.code + 16 * k.banks[2].st.code + 64 * k.banks[3].st.code)

/-- A row register's value; q0 reads zero (R99). -/
def Row.readQ (r : Row) (i : BitVec 5) : Word := if i = 0 then 0 else r.q[reg16 i]
/-- A row register is written; a write of q0 is discarded (R99). -/
def Row.writeQ (r : Row) (i : BitVec 5) (v : Word) : Row := if i = 0 then r else { r with q := r.q.set (reg16 i) v }

/-! ### Events and trace -/

/-- Event kinds (Table 2.3). -/
inductive EvKind where
  | double | mchk | circ | edgedn | thwarn | thcrit | wdog | haq | tbstep
  deriving DecidableEq, Repr

/-- The KIND code of an event (Table 2.3). -/
def EvKind.code : EvKind → Nat
  | .double => 1
  | .mchk => 2
  | .circ => 3
  | .edgedn => 4
  | .thwarn => 5
  | .thcrit => 6
  | .wdog => 7
  | .haq => 8
  | .tbstep => 9

/-- A message-signalled interrupt to the application core that EVQI names (R42, R49). -/
def State.sendMsi (s : State) : State :=
  let t := s.hub.evq.target.toNat
  if h : t < 24 then
    { s with apps := vmod s.apps ⟨t, h⟩ fun a => { a with msi := a.msi ++ [s.hub.evq.identity] } }
  else s

/-- Post an event record (R49, Table 2.3). -/
def State.postEvent (s : State) (kind : EvKind) (die mrow core cause : Nat) (addr info : Word) : State :=
  let q := s.hub.evq
  let slot := q.b.toNat + 32 * (q.hd.toNat % 2 ^ q.n)
  if !q.isSet || decide ((q.hd - q.tl).toNat = 2 ^ q.n) || decide (hbmEnd ≤ slot) then
    s.modHub fun h => { h with evq := { h.evq with lost := satInc h.evq.lost } }
  else
    let w3 := kind.code * 2 ^ 48 + die * 2 ^ 40 + mrow * 2 ^ 32 + core * 2 ^ 24 + cause * 2 ^ 16
    let mem := s.mem.write slot
      (bytesOf 8 info.toNat ++ bytesOf 8 addr.toNat ++ bytesOf 8 w3 ++ bytesOf 8 s.tb.toNat)
    State.sendMsi ((s.withMem mem).modHub fun h => { h with evq := { h.evq with hd := h.evq.hd + 1 } })

/-- An event concerning a place of a row. -/
def State.postRow (s : State) (kind : EvKind) (m : RowId) (p : PlaceId) (cause : Nat) (addr info : Word) : State :=
  s.postEvent kind (dieOf m) m.val (if p.val < 8 then p.val else 0xFF) cause addr info

/-! ### Memory-side arbiters and byte budgets (R24, R26, R198, R274–R276) -/

/-- Change a supply region. -/
def State.modSupply (s : State) (v : Fin 25) (f : Supply → Supply) : State :=
  s.modHub fun h => { h with supply := vmod h.supply v f }

/-- The supply region of a row. -/
def regionOf (m : RowId) : Fin 25 := m.castLE (by omega)

/-- The stack of a physical address, 0 to 11 (R17). -/
def stackOf (pa : Nat) : Nat := pa / 0x2400000000 * 3 + pa % 0x2400000000 / 4096 % 3
/-- The offset of a physical address within its stack (R17). -/
def stackOffset (pa : Nat) : Nat := pa % 0x2400000000 / 12288 * 4096 + pa % 4096
/-- The compute die of a physical address (R17). -/
def dieOfPa (pa : Nat) : Nat := pa / 0x2400000000

/-- The memory-side arbiter of a physical address: a stack's bridge, or 12 and the number of its memory cell (R274). -/
def arbiterOf (pa : Nat) : Nat :=
  if pa < hbmEnd then stackOf pa
  else 12 + ((sliceOf (pa - spadBase)).map fun sl => sl.m.val * 512 + sl.c.val * 64 + sl.mi.val).getD 0

/-- Lines served for a row at an arbiter in this interval. -/
def Budgets.count (b : Budgets) (row arb : Nat) : Nat :=
  ((b.counts.find? fun x => decide (x.1 = row ∧ x.2.1 = arb)).map fun x => x.2.2).getD 0

/-- One more line. -/
def Budgets.charge (b : Budgets) (row arb : Nat) : Budgets :=
  { b with counts := (row, arb, b.count row arb + 1) :: b.counts.filter fun x => !decide (x.1 = row ∧ x.2.1 = arb) }

/-- The row that a waiting request is charged to. -/
def Waiter.row : Waiter → Option RowId
  | .line x => some x.m
  | .bridge r => r.row
/-- The arbiter at which it waits. -/
def Waiter.arb : Waiter → Nat
  | .line x => arbiterOf (x.line * 128)
  | .bridge r => stackOf (r.line * 128)

/-- A row's count at an arbiter has reached its budget (R274). -/
def Budgets.reached (b : Budgets) (m : RowId) (arb : Nat) : Bool :=
  decide ((if arb < 12 then b.inForce[m] else b.inForceS[m]) ≤ b.count m.val arb)

/-- A request is held back by its row's budget. -/
def Budgets.holds (b : Budgets) (x : Waiter) : Bool := x.row.any fun m => b.reached m x.arb

/-- A row has no line left at an arbiter, or an earlier request of it waits there. -/
def Budgets.full (b : Budgets) (m : RowId) (arb : Nat) : Bool :=
  b.reached m arb || b.waiting.any fun x => x.row == some m && x.arb == arb

/-- A request joins those that wait on a budget. -/
def Budgets.await (b : Budgets) (x : Waiter) : Budgets :=
  if b.waiting.contains x && (match x with
    | .line _ => true
    | .bridge _ => false) then b else { b with waiting := b.waiting ++ [x] }

/-- A row waits on a budget in this interval (Table 10.1). -/
def State.noteWait (s : State) (m : RowId) : State :=
  if s.hub.budgets.waited.getLsbD m.val then s
  else
    (s.modHub fun h => { h with budgets := { h.budgets with waited := h.budgets.waited ||| (1 <<< m.val) } }).modSupply (regionOf m)
      fun x => { x with bwait := satInc x.bwait }

/-- The bytes that a request leaves in its line. -/
def maskedBytes (old : List Byte) (mask : BitVec 128) (data : BitVec 1024) : List Byte :=
  old.mapIdx fun i b => if mask.getLsbD i then BitVec.ofNat 8 (data.toNat / 2 ^ (8 * i)) else b

/-- A bridge serves a request: a whole line's write clears its poison, a partial one merges and leaves it (R24, R26). -/
def State.serveBridge (s : State) (r : BridgeRequest) : State :=
  let s := match r.row with
    | none => s
    | some m => s.modHub fun h => { h with budgets := h.budgets.charge m.val (stackOf (r.line * 128)) }
  if !r.write then s
  else
    let pa := r.line * 128
    let mem := s.mem.write pa (maskedBytes (s.mem.read pa 128) r.mask r.data)
    s.withMem (if r.mask = BitVec.allOnes 128 then mem else { mem with poison := s.mem.poison })

/-- A place's line is served: it is charged, and stands for its access (R274). -/
def State.serveLine (s : State) (x : LineReq) : State :=
  s.modHub fun h => { h with budgets :=
    { h.budgets.charge x.m.val (arbiterOf (x.line * 128)) with held := h.budgets.held ++ [x] } }

/-- A request waits on a budget, and its row with it. -/
def State.awaitBudget (s : State) (x : Waiter) : State :=
  let s := s.modHub fun h => { h with budgets := h.budgets.await x }
  match x.row with
  | some m => s.noteWait m
  | none => s

/-- A request for a line is served, has been already, or waits on its row's budget (R274). -/
def State.askReq (s : State) (x : LineReq) : State × Bool :=
  if s.hub.budgets.held.contains x then (s, true)
  else if s.hub.budgets.full x.m (arbiterOf (x.line * 128)) then (s.awaitBudget (.line x), false)
  else (s.serveLine x, true)

/-- Requests leave the arbiters: their access is over. -/
def State.dropHeld (s : State) (f : LineReq → Bool) : State :=
  s.modHub fun h => { h with budgets := { h.budgets with held := h.budgets.held.filter fun x => !f x } }

/-- A controller's or a port's write: it waits while its bank wakes, or on its row's budget (R181, R187, R274). -/
def State.portWrite (s : State) (x : PortWrite) : State :=
  let wait (s : State) : State := { s with portQ := s.portQ ++ [x] }
  match s.spadReady x.pa true with
  | (s, false) => wait s
  | (s, true) =>
    match x.req with
    | none => s.withMem (s.mem.write x.pa x.bs)
    | some q => match s.askReq q with
      | (s, false) => wait s
      | (s, true) => (s.dropHeld (· == q)).withMem (s.mem.write x.pa x.bs)

/-- Writes that wait are made, or wait on. -/
def State.retryPorts (s : State) (f : PortWrite → Bool) : State :=
  (s.portQ.filter f).foldl State.portWrite { s with portQ := s.portQ.filter fun x => !f x }

/-- A waiting request is served, and with it the write that asked for it. -/
def State.serveWaiter (s : State) : Waiter → State
  | .line x => (s.serveLine x).retryPorts fun w => w.req == some x
  | .bridge r => s.serveBridge r

/-- The waiting requests in their order of arrival, as far as the budgets reach. -/
def State.serveWaiting (s : State) : List Waiter → State
  | [] => s
  | x :: rest => (if s.hub.budgets.holds x then s.awaitBudget x else s.serveWaiter x).serveWaiting rest

/-- A request reaches its bridge: it is served, or waits behind its row's budget and the row's earlier requests there (R274). -/
def State.askBridge (s : State) (r : BridgeRequest) : State :=
  if r.row.any fun m => s.hub.budgets.full m (stackOf (r.line * 128)) then s.awaitBudget (.bridge r) else s.serveBridge r

/-- The budget in force (R274). -/
def budgetOf (lines : BitVec 24) (scale : Nat) : Nat := max 1 (max lines.toNat 1 * scale / 16)

/-- An interval begins: counts restart, the budgets in force are taken and the requests that waited at the bridges are served, ahead
of any later one (R274). -/
def State.beginInterval (s : State) : State :=
  let w := s.hub.budgets.waiting
  let k := s.hub.power.bscale
  let s := s.modHub fun h => { h with budgets :=
    { counts := [], interval := s.osc / 32000, waiting := [], held := h.budgets.held, waited := 0
      inForce := Vector.ofFn fun m : Fin 24 => budgetOf (h.supply[regionOf m]).hbud k
      inForceS := Vector.ofFn fun m : Fin 24 => budgetOf (h.supply[regionOf m]).sbud k } }
  s.serveWaiting w

/-- The boundaries of 32,000 units of oscillator time from power-on that have passed each begin an interval (R274); with no request
left waiting one does the work of those that follow. -/
def State.newInterval (s : State) : State :=
  (List.range (min (s.osc / 32000 - s.hub.budgets.interval) (s.hub.budgets.waiting.length + 1))).foldl (fun s _ => s.beginInterval) s

/-- The request that writes bytes within one line. -/
def writeRequest (by_ : Requester) (pa : Nat) (bs : List Byte) : BridgeRequest :=
  { by_ := by_, line := pa / 128, write := true, mask := BitVec.ofNat 128 ((2 ^ bs.length - 1) * 2 ^ (pa % 128))
    data := BitVec.ofNat 1024 (natOf bs * 2 ^ (8 * (pa % 128))) }

/-- Write one trace record, a request of the core's row that waits at its bridge when the row's budget is used up, or count it lost
(R260, R261, R274, R275); a buffer beyond HBM takes none. -/
def State.putTrace (s : State) (m : RowId) (c : CoreId) (w0 w1 : Nat) : State :=
  let t := (s.core m c).trace
  let a := t.base + 16 * (t.idx % 2 ^ t.log2n)
  if (!t.wrap && decide (2 ^ t.log2n ≤ t.idx)) || decide (hbmEnd ≤ a) then
    s.modCore m c fun k => { k with trace := { k.trace with lost := satInc k.trace.lost } }
  else
    (s.askBridge (writeRequest (.traceOf m) a (bytesOf 8 w0 ++ bytesOf 8 w1))).modCore m c fun k =>
      { k with trace := { k.trace with idx := t.idx + 1, lastTb := s.tb } }

/-- An ANCHOR record (Table 9.6). -/
def State.anchor (s : State) (m : RowId) (c : CoreId) : State := s.putTrace m c 0 s.tb.toNat

/-- A trace record of a kind: nothing when the unit is off; an ANCHOR first when the delta would not fit (R260, R261). -/
def State.trace (s : State) (m : RowId) (c : CoreId) (kind slot info payload : Nat) : State :=
  if !(s.core m c).trace.en then s
  else
    let d := (s.tb - (s.core m c).trace.lastTb).toNat
    if 2 ^ 32 ≤ d then
      (s.anchor m c).putTrace m c (kind * 2 ^ 24 + slot * 2 ^ 21 + info) payload
    else s.putTrace m c (d * 2 ^ 32 + kind * 2 ^ 24 + slot * 2 ^ 21 + info) payload

/-! ### Traps -/

/-- Cause codes (Table 8.1). -/
def Cause.code : Cause → Nat
  | .none => 0x00
  | .illop => 0x01
  | .deadReg => 0x02
  | .dropRd => 0x03
  | .align => 0x04
  | .xlate => 0x05
  | .perm => 0x06
  | .badCmd => 0x07
  | .ringErr => 0x08
  | .limit => 0x09
  | .soft => 0x0A
  | .brkpt => 0x0B
  | .poison => 0x0C
  | .mchk => 0x10
  | .double => 0x11
  | .shrink => 0x12

/-- The trap registers of a place. -/
def Row.trapAt (r : Row) (p : PlaceId) : TrapRegs :=
  match coreOfPlace p with
  | some c => r.cores[c].trap
  | none => r.trap

/-- Change the trap registers of a place. -/
def Row.modTrap (r : Row) (p : PlaceId) (f : TrapRegs → TrapRegs) : Row :=
  match coreOfPlace p with
  | some c => r.modCore c fun k => { k with trap := f k.trap }
  | none => { r with trap := f r.trap }

/-- A place stops, or goes on. -/
def Row.setStopped (r : Row) (p : PlaceId) (b : Bool) : Row :=
  match coreOfPlace p with
  | some c => r.modCore c fun k => { k with stopped := b }
  | none => { r with stopped := b }

/-- A place has stopped. -/
def Row.isStopped (r : Row) (p : PlaceId) : Bool :=
  match coreOfPlace p with
  | some c => r.cores[c].stopped
  | none => r.stopped

/-- The hop that feeds a core (R105). -/
def Row.hopOf (r : Row) (c : CoreId) : List VineWord := r.hops[c]

/-- The first vine word a place has not issued (R232): the next word in its own hop, else in the nearest hop to the west that
holds one, else the next word the row fetch unit would give. -/
def Row.nextOrd (r : Row) (p : PlaceId) : WordOrd :=
  match coreOfPlace p with
  | none => r.ord
  | some c =>
    let west := (finsN 8).filter fun k => decide (k ≤ c)
    let o := match west.reverse.findSome? fun k => (r.hops[k]).head?.map (·.ord) with
      | some o => o
      | none =>
        match r.resendQ with
        | w :: _ => w.ord
        | [] => r.ord
    match r.cores[c].skipBelow with
    | some x => if ordBelow o x then x else o
    | none => o

/-- Every place of a row, west to east, the row fetch unit first (R234). -/
def allPlaces : List PlaceId := [8, 0, 1, 2, 3, 4, 5, 6, 7]

/-- A place without a trap stops at the first word it has not issued (R232, R246); a halted place stands where it halted. -/
def Row.stopAt (r : Row) (p : PlaceId) : Row :=
  if r.isStopped p then r
  else (r.modTrap p fun t => { t with xord := r.nextOrd p, trapOrd := none }).setStopped p true

/-- What kind of trap a place takes (R230, R233, R243). -/
inductive TrapKind where
  /-- a local trap: the place does not issue the word -/
  | loc
  /-- a uniform trap -/
  | uniform
  /-- a uniform trap whose word has issued: SOFT and BRKPT -/
  | issued
  /-- an engine's trapping completion -/
  | engine
  deriving DecidableEq, Repr

/-- The place, ordinals and causes of the row's first trap: the recorded trap with the lowest ordinal, ties to the west
(R234). -/
def Row.firstTrap (r : Row) : Option (PlaceId × Nat) :=
  let recs := allPlaces.filterMap fun p => (r.trapAt p).trapOrd.map fun o => (p, o)
  match recs with
  | [] => none
  | x :: xs =>
    let best := xs.foldl (fun (b : PlaceId × WordOrd) y => if ordBelow y.2 b.2 then y else b) x
    some (best.1, (r.trapAt best.1).cause.toNat)

/-- SRC and ROWC at every place (R234, R236). -/
def Row.setSrc (r : Row) (src : PlaceId) (rowc : Nat) : Row :=
  allPlaces.foldl (fun acc p => acc.modTrap p fun t =>
    { t with src := BitVec.ofNat 8 src.val, rowc := BitVec.ofNat 8 rowc }) r

/-- The row is in its handler window (R239). -/
def Row.windowOpen (r : Row) : Bool := r.trap.winOpen

/-- Words in flight are discarded (R236, R240). -/
def Row.clearHops (r : Row) : Row := { r with hops := .replicate 8 [] }

/-- Every place takes active = 1, an empty stack and a post of zero, and the row fetches from %hbase (R236, R240). Words that an
ERET had still to send again stay in the resend buffer alone, which is frozen (R237). -/
def Row.enterStream (r : Row) : Row :=
  { r with
    cores := r.cores.map fun k =>
      { k with active := true, stack := [], epost := 0, epostRel := false, stopped := false, halted := false }
    post := 0, postRel := false, pc := r.trap.hbase &&& ~~~ 3#64, ord := 0, stopped := false, halted := false, phase := .handler
    resendQ := [], getw := r.getw.filter fun g => !g.2.2 }

/-- A second trap while the window is open makes the row DOUBLE (R239). -/
def State.takeDouble (s : State) (m : RowId) (p : PlaceId) (cause : Cause) (addr info : Word) : State :=
  let r := s.row m
  let rt : RowTrap := { secsrc := BitVec.ofNat 8 p.val, secc := BitVec.ofNat 8 cause.code, seca := addr, seci := info }
  State.postRow (s.modRow m fun r => { r with phase := .double, rtrap := rt, stopped := true
                                              cores := r.cores.map fun k => { k with stopped := true } })
    .double m p cause.code addr (toWord (r.trap.src.toNat * 256 + r.trap.rowc.toNat))

/-- A trap after the window has closed restarts the handler (R240). -/
def State.restartHandler (s : State) (m : RowId) (p : PlaceId) (cause : Cause) (addr info : Word) : State :=
  let s := s.modRow m fun r =>
    let r := r.modTrap p fun t => { t with cause := BitVec.ofNat 8 cause.code, xaddr := addr, xinfo := info, eng := false }
    let r := allPlaces.foldl (fun acc q => acc.modTrap q fun t => { t with nest := true, winOpen := true }) r
    ((r.setSrc p cause.code).clearHops).enterStream
  match coreOfPlace p with
  | some c => s.trace m c 4 0 cause.code (s.core m c).trap.xord.toNat
  | none => s

/-- What a place writes when it takes a trap (R232, R233, R243). -/
def TrapRegs.record (t : TrapRegs) (kind : TrapKind) (cause : Cause) (n : WordOrd) (addr info : Word) : TrapRegs :=
  { t with cause := BitVec.ofNat 8 cause.code, eng := decide (kind = .engine), xaddr := addr, xinfo := info
           xord := if kind = .issued then n + 1 else n, trapOrd := some n }

/-- TAKING A TRAP at place p on the word of ordinal n (R232–R234, R239, R240): the place records it and stops; the row
begins to stop, at ordinal n everywhere when the trap is uniform and a core takes it. While a stop ordinal stands, a uniform trap
of a core on a word below it lowers it, and a local trap below it makes every place stop at its next word boundary. -/
def State.takeTrap (s : State) (m : RowId) (p : PlaceId) (kind : TrapKind) (cause : Cause) (n : WordOrd)
    (addr info : Word) : State :=
  let r := s.row m
  match r.phase with
  | .handler => if r.windowOpen then s.takeDouble m p cause addr info else s.restartHandler m p cause addr info
  | .running =>
    let ph := if (kind = .uniform ∨ kind = .issued) ∧ p ≠ rfuPlace then RowPhase.stopping (some n) else .stopping none
    let s' := s.modRow m fun r =>
      { (r.modTrap p fun t => t.record kind cause n addr info).setStopped p true with phase := ph }
    match coreOfPlace p with
    | some c => s'.trace m c 4 0 cause.code (if kind = .issued then n + 1 else n).toNat
    | none => s'
  | .stopping u =>
    let ph := RowPhase.stopping (match u with
      | none => none
      | some x =>
        if !ordBelow n x then some x
        else if (kind = .uniform ∨ kind = .issued) ∧ p ≠ rfuPlace then some n else none)
    let s' := s.modRow m fun r =>
      { (r.modTrap p fun t => t.record kind cause n addr info).setStopped p true with phase := ph }
    match coreOfPlace p with
    | some c => s'.trace m c 4 0 cause.code (if kind = .issued then n + 1 else n).toNat
    | none => s'
  | _ => s

/-- The exchange of s31 with %xhold, live state and all (R231). Table 4.7 gives no event for it: an OFF bank that it gives a live
register is FULL at once, without a wake, and a bank in KEEP stays there (DESIGN CHOICE, log entry 64). -/
def Core.exchange (k : Core) : Core :=
  let v := k.s[31]
  let lv := k.live.getLsbD 31
  let k' : Core := { k with s := k.s.set 31 k.trap.xhold
                            live := if k.trap.xholdLive then k.live ||| maskBit 31 else k.live &&& ~~~ maskBit 31
                            trap := { k.trap with xhold := v, xholdLive := lv } }
  if liveInBank k'.live 3 then
    { k' with banks := vmod k'.banks 3 fun b => if b.st = .off then { b with st := .full } else b }
  else if lv then k'.settle 3 else k'

/-- The exchange of q15 with %xhold at the row fetch unit (R231). -/
def Row.exchange (r : Row) : Row :=
  { r with q := r.q.set 15 r.trap.xhold, trap := { r.trap with xhold := r.q[15] } }

/-- A core holds its program state, its schedule cursor with it (R89, R236). -/
def Core.hold (k : Core) (hist : List VineWord) : Core :=
  { k with held := { active := k.active, stack := k.stack, post := k.epost, postRel := k.epostRel, ord := 0, halted := k.halted
                     cursor := k.cursor }
           hist := k.hist ++ hist.map fun w => (w.ord, w.post, w.postRel, w.coll) }

/-- The words that stand between core c and its east neighbour, none beyond core 7 (R237). -/
def Row.eastOf (r : Row) (c : CoreId) : List VineWord := if h : c.val + 1 < 8 then r.hops[c.val + 1] else []

/-- ENTERING THE HANDLER once every place has stopped (R236, R237): each place holds its program state and exchanges its last
scalar with %xhold, a place that took no trap writes NONE, OPEN, SRC and ROWC are set, and the row fetches from the row fetch
unit's %hbase. -/
def State.enterHandler (s : State) (m : RowId) : State :=
  s.modRow m fun r =>
    let ft := r.firstTrap
    let r : Row := { r with cores := Vector.ofFn fun c => (r.cores[c].hold (r.eastOf c)).exchange }
    let r : Row := { r with held := { active := true, stack := [], post := r.post, postRel := r.postRel, ord := r.ord, halted := r.halted }
                            heldPc := r.pc, halted := false }
    let r := r.exchange
    let r := allPlaces.foldl (fun acc p => acc.modTrap p fun t =>
      if t.trapOrd.isNone then { t with cause := 0, eng := false, xaddr := 0, xinfo := 0, winOpen := true }
      else { t with winOpen := true }) r
    let r := match ft with
      | some (p, c) => r.setSrc p c
      | none => r
    (r.clearHops).enterStream

/-- SerialClamp of R238. -/
def serialClamp (x lo hi : WordOrd) : WordOrd := if ordBelow x lo then lo else if ordBelow hi x then hi else x

/-- The row program goes on from its places' resume ordinals (R238, R251): the vine words that some place has not issued are
forwarded again, and each core passes over those that it has. -/
def Row.resendFrom (r : Row) : Row :=
  let rx := r.trap.xord
  let lo := match r.resend with
    | w :: _ => w.ord
    | [] => rx
  let x (c : CoreId) : WordOrd := serialClamp r.cores[c].trap.xord lo rx
  let least := (finsN 8).foldl (fun b c => if ordBelow (x c) b then x c else b) rx
  let keep := r.resend.filter fun w => !ordBelow w.ord least
  { r with cores := Vector.ofFn fun c => { r.cores[c] with skipBelow := some (x c) }
           hops := .replicate 8 [], resend := keep, resendQ := keep }

/-- A core's program state comes back at ERET (R238). -/
def Core.unhold (k : Core) : Core :=
  let k := k.exchange
  { k with active := k.held.active, stack := k.held.stack, epost := k.held.post, epostRel := k.held.postRel
           trap := { k.trap with winOpen := false, nest := false, trapOrd := none }, stopped := false, halted := k.held.halted
           cursor := k.held.cursor }

/-- The row fetch unit's program state comes back at ERET (R238). -/
def Row.unhold (r : Row) : Row :=
  let r := r.exchange
  { r with trap := { r.trap with winOpen := false, nest := false, trapOrd := none }
           post := r.held.post, postRel := r.held.postRel, ord := r.held.ord, pc := r.heldPc, stopped := false
           halted := r.held.halted, phase := .running, getw := r.getw.filter fun g => !g.2.2 }

/-- RETURNING FROM THE HANDLER, once core 7 has issued ERET (R238): the held state comes back, and the row fetch unit
forwards again the vine words that some place has not issued. -/
def State.leaveHandler (s : State) (m : RowId) : State :=
  s.modRow m fun r => ({ r.unhold with cores := r.cores.map Core.unhold } : Row).resendFrom

/-- A place that no trap has stopped writes the ordinal of the first word that it has not issued (R232). -/
def Row.noteOrd (r : Row) (p : PlaceId) : Row :=
  if r.isStopped p then r else r.modTrap p fun t => { t with xord := r.nextOrd p }

/-- Every place of a row stops before its next word without a trap, at a suspension, a checkpoint or an abort, and writes its
resume ordinal (R78, R246, R262, R364). In handler mode %xord keeps the ordinals at which the program resumes (R240; DEDUCED,
log entry 30). -/
def Row.noteOrds (r : Row) : Row :=
  match r.phase with
  | .running | .stopping _ | .finished => allPlaces.foldl Row.noteOrd r
  | _ => r

/-- The suspension notice: a place whose CAUSE is NONE writes SHRINK, in handler mode too (R246, Table 8.1). -/
def TrapRegs.notice (t : TrapRegs) : TrapRegs := if t.cause = 0 then { t with cause := 0x12, eng := false } else t

/-- Every place of a row takes the suspension notice, and each core that writes SHRINK traces it (R246, Table 9.6). -/
def State.shrinkNotice (s : State) (m : RowId) : State :=
  let told := (finsN 8).filter fun c => decide (((s.row m).cores[c]).trap.cause = 0)
  let s := s.modRow m fun r => allPlaces.foldl (fun acc p => acc.modTrap p TrapRegs.notice) r
  told.foldl (fun s c => s.trace m c 4 0 0x12 (s.core m c).trap.xord.toNat) s

/-- A MACHINE CHECK at a place (R241): every place of the row stops at once, the place concerned records it, %xord reads 0
everywhere and the hub posts MCHK. On a DOUBLE row only the row's state changes. -/
def State.takeMachineCheck (s : State) (m : RowId) (p : PlaceId) (addr info : Word) : State :=
  match (s.row m).phase with
  | .mchk | .doubleMchk => s
  | .double => s.modRow m fun r => { r with phase := .doubleMchk }
  | _ =>
    let s := s.modRow m fun r =>
      let r := r.modTrap p fun t => { t with cause := 0x10, eng := false, xaddr := addr, xinfo := info }
      let r := allPlaces.foldl (fun acc q => (acc.modTrap q fun t => { t with xord := 0 }).setStopped q true) r
      { r with phase := .mchk }
    let s := (finsN 8).foldl (fun s c => s.trace m c 4 0 (if placeOfCore c = p then 0x10 else 0) 0) s
    s.postRow .mchk m p 0x10 addr info

/-- %xinfo at a machine check (Table 8.4). -/
def mchkInfo (cls array bank synd : Nat) : Word :=
  toWord (cls * 2 ^ 60 + array * 2 ^ 52 + bank * 2 ^ 40 + synd)

/-- %xcause as a place reads it (Table 8.2). -/
def TrapRegs.xcause (t : TrapRegs) : Word :=
  toWord (t.src.toNat * 2 ^ 24 + t.rowc.toNat * 2 ^ 16 + b2n t.eng * 1024 + b2n t.nest * 512 + b2n t.winOpen * 256
    + t.cause.toNat)

/-! ### Launches and translation -/

/-- The launch an identifier names. -/
def State.launch (s : State) (lid : BitVec 16) : Option Launch := s.launches.find? fun l => l.lid == lid
/-- Change a launch. -/
def State.modLaunch (s : State) (lid : BitVec 16) (f : Launch → Launch) : State :=
  { s with launches := s.launches.map fun l => if l.lid = lid then f l else l }

/-- What makes an access: a core's sequencer, engines and elements, the row fetch unit, or the hub for a launch (R171). -/
inductive Unit' where
  | core (c : CoreId)
  | rfu
  | hub
  /-- an application core, numbered in place of a row -/
  | app
  deriving DecidableEq, Repr

/-- The agent of an access and the launch it acts for. -/
structure Agent where
  m : RowId
  unit : Unit'
  lid : BitVec 16
  /-- the operation that makes it, from 1; 0 for none -/
  op : Nat := 0
  /-- the operation's elements in one line share one request (R198, R382) -/
  byLine : Bool := false
  /-- the element, from 1, whose own request it is -/
  elem : Nat := 0
  deriving DecidableEq, Repr

/-- The row that an agent's requests are charged to; a hub unit and an application core act for none (R275). -/
def Agent.row (a : Agent) : Option RowId :=
  match a.unit with
  | .core _ | .rfu => some a.m
  | .hub | .app => none

/-- The place that an agent's circuits begin at. -/
def Agent.place (a : Agent) : PlaceId :=
  match a.unit with
  | .core c => placeOfCore c
  | _ => rfuPlace

/-- The model's number of an agent in an order log (R265, DESIGN CHOICE, log entry 20). -/
def Agent.num (a : Agent) : Nat :=
  a.m.val * 16 + match a.unit with
    | .core c => c.val
    | .rfu => 8
    | .hub => 9
    | .app => 10

/-- An agent's request for the line of a physical address; `kind` tells apart the elements that ask each for itself. -/
def Agent.req (a : Agent) (kind pa : Nat) : LineReq := ⟨a.m, a.num % 16, a.op, pa / 128, kind + 8 * a.elem⟩

/-- The agent of an operation's element n, when its elements ask each for itself. -/
def Agent.forElem (a : Agent) (n : Nat) : Agent := if a.byLine then a else { a with elem := n + 1 }

/-- An agent's request for a line is served, has been already, or waits on its row's budget (R274). -/
def State.askLine (s : State) (ag : Agent) (kind pa : Nat) : State × Bool :=
  match ag.row with
  | none => (s, true)
  | some _ => s.askReq (ag.req kind pa)

/-- An access has used the lines served for it. One request serves an operation's elements in one line, so those of such an operation
stand until it ends; an atomic's do not (R198, R382; DEDUCED, log entry 61). -/
def State.usedLines (s : State) (ag : Agent) (kind : Nat) (pas : List Nat) : State :=
  if ag.row.isNone || (ag.byLine && decide (kind < 2)) then s
  else s.dropHeld (pas.map (ag.req kind)).contains

/-- A request is an operation's. -/
def LineReq.ofOp (x : LineReq) (m : RowId) (c : CoreId) (id : Nat) : Bool :=
  decide (x.m = m ∧ x.place = c.val ∧ x.op = id + 1)

/-- The requests of an agent's element leave the arbiters. -/
def State.elemDone (s : State) (ag : Agent) : State :=
  if ag.elem = 0 then s
  else s.dropHeld fun x => decide (x.m = ag.m ∧ x.place = ag.num % 16 ∧ x.op = ag.op ∧ x.kind / 8 = ag.elem)

/-- A request of an operation waits on a budget. -/
def Budgets.awaited (b : Budgets) (m : RowId) (c : CoreId) (id : Nat) : Bool :=
  b.waiting.any fun x => match x with
    | .line x => x.ofOp m c id
    | .bridge _ => false

/-- The edges that a circuit from one compute die to another crosses (R20, Table 1.1). -/
def pathEdges (a b : Nat) : List Nat :=
  if a = b then []
  else if (a + 1) % 4 = b then [4 + a]
  else if (b + 1) % 4 = a then [4 + b]
  else [a, b]

/-- The compute die that serves a physical address: its stack's, or its slice's (R17, Table 0.2). -/
def homeDie (pa : Nat) : Nat := if pa < spadBase then dieOfPa pa else (pa - spadBase) / 2 ^ 29

/-- The first edge of a path between dies that has gone down (R20, R21). -/
def Hub.cutEdge (h : Hub) (a b : Nat) : Option Nat := (pathEdges a b).find? fun e => (h.edges[Fin.ofNat 8 e]).cut

/-- An engine operation that waits on a broken circuit ends with CBRK (R33, R64). -/
def State.lostCircuit (s : State) (ag : Agent) : State :=
  match ag.unit with
  | .core c => s.modOp ag.m c (ag.op - 1) fun o =>
    if ag.op ≠ 0 ∧ (o.phase = .moving ∨ o.phase = .waiting) then { o with phase := .ended, status := .cbrk, awaitSeq := [] } else o
  | _ => s

/-- A row's request for another die's stack or scratchpad takes its core's circuit to that die (R198, R228). A circuit over an edge that has
gone down is broken, and its core takes a machine check of class LINK (R21; DEDUCED, log entry 39); one to a die that a critical
temperature has halted is broken too, and serves nothing (R64). -/
def State.overCircuit (s : State) (ag : Agent) (d : Nat) : State × Bool :=
  if ag.row.isNone || decide (dieOf ag.m = d) then (s, true)
  else if (s.hub.thermal[Fin.ofNat 5 d]).halted then (s.lostCircuit ag, false)
  else match s.hub.cutEdge (dieOf ag.m) d with
  | some e => (s.takeMachineCheck ag.m ag.place 0 (mchkInfo 2 0 e 0), false)
  | none =>
    let x := (ag.m, ag.place, d)
    (if s.hub.memCircuits.contains x then s else s.modHub fun h => { h with memCircuits := x :: h.memCircuits }, true)

/-- A level of the translation table: lowest index bit, entries, alignment of the table below, and leaf size (Table 6.2). -/
structure Level where
  lo : Nat
  n : Nat
  below : Nat
  leaf : Nat
  deriving DecidableEq, Repr

/-- Table 6.2; a size of zero means not allowed. -/
def levels : List Level := [⟨39, 8192, 65536, 0⟩, ⟨26, 8192, 256, 2 ^ 26⟩, ⟨21, 32, 256, 2 ^ 21⟩, ⟨16, 32, 0, 2 ^ 16⟩]

/-- The walk of R175 from a table downward. -/
def walk (mem : Memory) (root va : Nat) : List Level → Nat → Except Cause TlbEntry
  | [], _ => .error .xlate
  | lv :: rest, t =>
    if hbmEnd < t + 8 * lv.n then .error .xlate
    else
      let a := t + 8 * (va / 2 ^ lv.lo % lv.n)
      if mem.poisoned a 8 then .error .poison
      else
        let e := mem.num a 8
        let addr := bits e 39 8 * 256
        if !bitN e 0 || decide (bits e 55 40 ≠ 0) || decide (bits e 7 4 ≠ 0) then .error .xlate
        else if bitN e 1 then
          if lv.leaf = 0 ∨ addr % lv.leaf ≠ 0 ∨ hbmEnd < addr + lv.leaf then .error .xlate
          else .ok { root := root, vbase := va / lv.leaf * lv.leaf, size := lv.leaf, pbase := addr, w := bitN e 2, x := bitN e 3 }
        else if lv.below = 0 ∨ addr % lv.below ≠ 0 then .error .xlate
        else walk mem root va rest addr

/-- The addresses of the entries that a walk reads. -/
def walkReads (mem : Memory) (va : Nat) : List Level → Nat → List Nat
  | [], _ => []
  | lv :: rest, t =>
    if hbmEnd < t + 8 * lv.n then []
    else
      let a := t + 8 * (va / 2 ^ lv.lo % lv.n)
      let e := mem.num a 8
      if bitN e 0 && !bitN e 1 then a :: walkReads mem va rest (bits e 39 8 * 256) else [a]

/-- A TLB entry maps an address under a root. -/
def TlbEntry.maps (e : TlbEntry) (root va : Nat) : Bool :=
  decide (e.root = root ∧ e.vbase ≤ va ∧ va < e.vbase + e.size)

/-- The die of a row as an index of the last-level TLBs. -/
def dieIx (m : RowId) : Fin 4 := Fin.ofNat 4 (dieOf m)

/-- What a translation comes to: a walk's reads may wait on the row's budget (R274, R275). -/
inductive Xlat where
  | ok (e : TlbEntry)
  | fail (c : Cause)
  | wait
  deriving DecidableEq, Repr

/-- The reads of a walk, one after another, have their circuit and are served, or one waits (R20, R228, R274, R275). -/
def State.askWalk (s : State) (ag : Agent) : List Nat → State × Bool
  | [] => (s, true)
  | a :: rest =>
    match s.overCircuit ag (homeDie a) with
    | (s, false) => (s, false)
    | (s, true) =>
      match s.askLine ag 4 a with
      | (s, true) => s.askWalk ag rest
      | r => r

/-- Translate a paged address: micro-TLB, die TLB, then a walk, whose entry both keep; a full TLB loses its oldest entry
(R173–R177, R275; DEDUCED, log entry 9). -/
def State.translate (s : State) (ag : Agent) (va : Nat) : State × Xlat :=
  match s.launch ag.lid with
  | none => (s, .fail .xlate)
  | some l =>
    let root := wbits l.root 39 16
    let fill (s : State) (e : TlbEntry) : State :=
      match ag.unit with
      | .core c => s.modCore ag.m c fun k => { k with tlb := (e :: k.tlb).take 64 }
      | _ => s
    let micro : Option TlbEntry :=
      match ag.unit with
      | .core c => (s.core ag.m c).tlb.find? fun e => e.maps root va
      | _ => none
    match micro with
    | some e => (s, .ok e)
    | none =>
      let die := if ag.unit = .hub then none else s.dieTlb[dieIx ag.m].find? fun e => e.maps root va
      match die with
      | some e => (fill s e, .ok e)
      | none =>
        let reads := walkReads s.mem va levels (root * 65536)
        match s.askWalk ag reads with
        | (s, false) => (s, .wait)
        | (s, true) =>
          let s := s.usedLines ag 4 reads
          match walk s.mem root va levels (root * 65536) with
          | .error c => (s, .fail c)
          | .ok e =>
            if ag.unit = .hub then (s, .ok e)
            else (fill { s with dieTlb := vmod s.dieTlb (dieIx ag.m) fun t => (e :: t).take 6144 } e, .ok e)

/-- Whether a launch reaches a memory cell of a row (R172, R247). -/
inductive Reach where
  | yes
  | no
  /-- a vacated cell of a suspended victim: the access waits -/
  | wait
  deriving DecidableEq, Repr

/-- The core state of a launch: the core's own, or the one that is kept while the launch is suspended (DEDUCED, log entry 27). -/
def State.coreFor (s : State) (lid : BitVec 16) (m : RowId) (c : CoreId) : Core :=
  ((s.suspended.find? fun x => x.lid == lid && x.m == m).elim (s.row m) (·.row)).cores[c]

/-- The core state of a launch changes, where it stands. -/
def State.modCoreFor (s : State) (lid : BitVec 16) (m : RowId) (c : CoreId) (f : Core → Core) : State :=
  if s.suspended.any fun x => x.lid == lid && x.m == m then
    { s with suspended := s.suspended.map fun x => if x.lid = lid ∧ x.m = m then { x with row := x.row.modCore c f } else x }
  else s.modCore m c f

/-- The column at which the cells that a suspended launch has given up begin on a core; 16 when it has given none up. -/
def State.vacatedFrom (s : State) (lid : BitVec 16) (m : RowId) (c : CoreId) : Nat :=
  match s.suspended.find? fun x => x.lid == lid && decide (x.m = m) with
  | some x => x.column[c]
  | none => 16

/-- A launch has been given a row that it has not started on (R81). -/
def State.given (s : State) (lid : BitVec 16) (m : RowId) : Bool :=
  (s.row m).lid.isNone && (s.launch lid).any fun l => (l.st == .starting || l.st == .aborting) && l.rows.getLsbD m.val

/-- A launch has a column of a core (R172, R247): its row's launch has those that the suspended launch gave up, and all when
the row carries none. -/
def State.reachCol (s : State) (lid : BitVec 16) (m : RowId) (c : CoreId) (x : Nat) : Reach :=
  let r := s.row m
  if r.lid = some lid ∨ (r.suspended ≠ some lid ∧ s.given lid m) then
    if r.suspended.all fun v => Nat.ble (s.vacatedFrom v m c) x then .yes else .no
  else if r.suspended = some lid then (if x < s.vacatedFrom lid m c then .yes else .wait)
  else .no

/-- R172 and R247 for one memory cell. -/
def State.reach (s : State) (lid : BitVec 16) (m : RowId) (c : CoreId) (mi : Fin 64) : Reach :=
  s.reachCol lid m c (colOfMem mi.val)

/-- A region of a launch that has gone to the larder (Table 8.6). -/
def State.spilled (s : State) (lid : BitVec 16) (m : RowId) (c : CoreId) (slot : SlotId) : Bool :=
  s.suspended.any fun x => x.lid == lid && x.m == m && x.spilled.any fun y => y.1 == c && y.2.1 == slot

/-- Where an access is served: a physical address, or a register of a memory cell. -/
inductive Target where
  | mem (pa : Nat)
  | regs (sl : Slice)
  deriving DecidableEq, Repr

/-- The outcome of checking an access. -/
inductive Check where
  | ok (t : Target)
  | fail (c : Cause)
  | wait
  deriving DecidableEq, Repr

/-- Access kinds (Table 8.1). -/
inductive Kind where
  | load | store | atomic | fetch
  deriving DecidableEq, Repr

/-- The access kind's code in %xinfo (Table 8.1). -/
def Kind.code : Kind → Nat
  | .load => 0
  | .store => 1
  | .atomic => 2
  | .fetch => 3

/-- An offset that names a register of a memory cell: Table 6.6, and Table 9.1 in memory cell 0. -/
def regListed (mi : Fin 64) (off : Nat) : Bool :=
  decide (off = 0 ∨ off = 8 ∨ off = 0x10 ∨ off = 0x18 ∨ (0x80 ≤ off ∧ off < 0x180 ∧ off % 8 = 0))
    || decide (mi = 0) && decide ((0x200 ≤ off ∧ off < 0x280 ∧ off % 32 < 16 ∧ off % 8 = 0) ∨ off = 0x280 ∨ off = 0x300
        ∨ (0x800 ≤ off ∧ off < 0x1000 ∧ off % 8 = 0) ∨ (0x10000 ≤ off ∧ off < 0x20000 ∧ off % 8 = 0))

/-- Steps 2 to 4 of R355 for w bytes at ea, and the bank's readiness (R171–R176, R183, R187), before the circuit to another die and
the row's budget have their say. -/
def State.reachAddr (s : State) (ag : Agent) (ea : Word) (w : Nat) (kind : Kind) : State × Check :=
  let a := ea.toNat
  if 2 ^ 52 ≤ a then (s, .fail .xlate)
  else if sliceBase ≤ a ∧ a < sliceBase + 2 ^ 32 then
    if kind = .fetch then (s, .fail .xlate)
    else match sliceOf (a - sliceBase) with
    | none => (s, .fail .xlate)
    | some sl =>
      match s.reach ag.lid sl.m sl.c sl.mi with
      | .no => (s, .fail .perm)
      | .wait => (s, .wait)
      | .yes =>
        let pa := spadBase + (a - sliceBase)
        match s.spadReady pa (kind == .store) with
        | (s', true) => (s', .ok (.mem pa))
        | (s', false) => (s', .wait)
  else if cellRegBase ≤ a ∧ a < cellRegBase + 2 ^ 32 then
    if kind = .fetch then (s, .fail .xlate)
    else match sliceOf (a - cellRegBase) with
    | none => (s, .fail .xlate)
    | some sl =>
      if !regListed sl.mi (sl.off / 8 * 8) then (s, .fail .xlate)
      else match s.reach ag.lid sl.m sl.c sl.mi with
      | .no => (s, .fail .perm)
      | .wait => (s, .wait)
      | .yes =>
        if kind = .atomic then (s, .fail .perm)
        else if w ≠ 8 then (s, .fail .align)
        else (s, .ok (.regs sl))
  else
    match s.translate ag a with
    | (s', .fail c) => (s', .fail c)
    | (s', .wait) => (s', .wait)
    | (s', .ok e) =>
      if (kind = .store ∨ kind = .atomic) ∧ !e.w then (s', .fail .perm)
      else if kind = .fetch ∧ !e.x then (s', .fail .perm)
      else (s', .ok (.mem (e.pbase + (a - e.vbase))))

/-- An atomic performed at a home is logged while order logging is on (R265). -/
def State.logAtomic (s : State) (pa : Nat) (ag : Agent) : State :=
  if !s.hub.ck.logen then s
  else
    let n := match s.hub.ck.homeSeq.find? fun x => x.1 == pa with
      | some x => x.2
      | none => 0
    s.modHub fun h => { h with ck := { h.ck with
      log := h.ck.log ++ [.atomic pa ag.num n]
      homeSeq := (pa, n + 1) :: h.ck.homeSeq.filter fun x => x.1 != pa } }

/-- During a replay an atomic waits at its home for its logged turn: true when it may go (R266). -/
def State.atomicTurn (s : State) (pa : Nat) (ag : Agent) : Bool :=
  if !s.hub.ck.replay then true
  else
    let at' (r : LogRec) : Bool := match r with
      | .atomic home _ _ => home == pa
      | _ => false
    match s.hub.ck.replayQ.filter at' with
    | [] => true
    | .atomic _ agent _ :: rest =>
      agent == ag.num || !rest.any fun r => match r with
        | .atomic _ a _ => a == ag.num
        | _ => false
    | _ => true

/-- The logged record of an atomic is used up; an agent without an entry ends replay at that home, which runs free from then on, and
its core traces a STOP record (R266). A place that is no core has no trace unit (R260). -/
def State.atomicDone (s : State) (pa : Nat) (ag : Agent) : State :=
  if !s.hub.ck.replay then s
  else
    let mine (r : LogRec) : Bool := match r with
      | .atomic home a _ => home == pa && a == ag.num
      | _ => false
    let here (r : LogRec) : Bool := match r with
      | .atomic home _ _ => home == pa
      | _ => false
    let left (s : State) (q : List LogRec) (fs : List Nat) : State :=
      s.modHub fun h => { h with ck := { h.ck with replayQ := q, replay := !q.isEmpty, freed := fs } }
    let q := s.hub.ck.replayQ
    let fs := s.hub.ck.freed
    if q.any mine then left s (q.eraseP mine) fs
    else if fs.contains pa then s
    else
      let s := left s (q.filter fun r => !here r) (pa :: fs)
      match ag.unit with
      | .core c => s.trace ag.m c 4 0 0xFFFF 0
      | _ => s

/-- Bookkeeping around one atomic at a home (R265, R266). -/
def State.atomicAt (s : State) (pa : Nat) (ag : Agent) : State := (s.atomicDone pa ag).logAtomic pa ag

/-- What a completion store comes to: it waits for its bank's wake (R76, R77, R92, R187). -/
inductive StoreGot where
  | done | failed | wait
  deriving DecidableEq, Repr

/-- A slice-window address in a cell that its suspended launch has given up (R247). -/
def State.vacated (s : State) (lid : BitVec 16) (a : Nat) : Bool :=
  decide (sliceBase ≤ a ∧ a < sliceBase + 2 ^ 32)
    && (sliceOf (a - sliceBase)).any fun sl => s.reach lid sl.m sl.c sl.mi == .wait

/-- A release store of a completion value, which no budget holds back: it reaches HBM and scratchpad alone, a core's over its circuit.
One to a cell that its suspended launch has given up meets PERM: the wait of R247 is an engine operation's (R76, R77, R92, R172, R228,
R275). -/
def State.completionStore (s : State) (ag : Agent) (addr val : Word) : State × StoreGot :=
  let a := addr.toNat
  if a % 8 ≠ 0 || decide (cellRegBase ≤ a ∧ a < cellRegBase + 2 ^ 32) || s.vacated ag.lid a then (s, .failed)
  else match s.reachAddr ag addr 8 .store with
  | (s', .ok (.mem pa)) =>
    match s'.overCircuit ag (homeDie pa) with
    | (s', false) => (s', .wait)
    | (s', true) => if s'.mem.poisoned pa 8 then (s', .failed) else (s'.withMem (s'.mem.put pa 8 val.toNat), .done)
  | (s', .wait) => (s', .wait)
  | (s', _) => (s', .failed)

/-- A row carries a suspended launch, which holds it still or has made room on it (R70, R246). -/
def State.carries (s : State) (m : RowId) : Bool :=
  (s.row m).suspended.isSome || (s.row m).lid.any fun l => (s.launch l).any fun x => x.st == .suspended

/-- The row's STATE at the hub (Table 8.5). A row is suspended from the stop of R246 to the resumption of R251; meanwhile a trap
or machine check of the launch that runs on it shows (DEDUCED, log entry 49). -/
def State.stateCode (s : State) (m : RowId) : Nat :=
  match (s.row m).phase with
  | .double => 3
  | .mchk | .doubleMchk => 4
  | ph =>
    if ph = .handler ∧ !(s.row m).lid.any fun l => (s.launch l).any fun x => x.st == .suspended then 2
    else if s.carries m then 5
    else if ph = .idle then 0 else 1

/-! ### Accesses (R20, R198, R274, R355) -/

/-- Steps 2 to 4 of R355, and what else the access waits for: its bank, its circuit and its row's budget (R187, R198, R274). The line
served stands until the access has used it. -/
def State.lineAddr (s : State) (ag : Agent) (ea : Word) (w : Nat) (kind : Kind) : State × Check :=
  match s.reachAddr ag ea w kind with
  | (s, .ok (.mem pa)) =>
    match s.overCircuit ag (homeDie pa) with
    | (s, false) => (s, .wait)
    | (s, true) => match s.askLine ag kind.code pa with
      | (s, true) => (s, .ok (.mem pa))
      | (s, false) => (s, .wait)
  | (s, .ok (.regs sl)) =>
    match s.overCircuit ag (dieOf sl.m) with
    | (s, false) => (s, .wait)
    | (s, true) => (s, .ok (.regs sl))
  | r => r

/-- The checks of an access of one line, which uses it. -/
def State.checkAddr (s : State) (ag : Agent) (ea : Word) (w : Nat) (kind : Kind) : State × Check :=
  match s.lineAddr ag ea w kind with
  | (s, .ok (.mem pa)) => (s.usedLines ag kind.code [pa], .ok (.mem pa))
  | r => r

/-- The whole check of R355 for a sequencer's access. -/
def State.checkAccess (s : State) (ag : Agent) (ea : Word) (w : Nat) (kind : Kind) : State × Check :=
  if ea.toNat % w ≠ 0 then (s, .fail .align)
  else match s.checkAddr ag ea w kind with
  | (s', .ok (.mem pa)) =>
    if kind = .store then (s', .ok (.mem pa))
    else if s'.mem.dead pa w then (s', .fail .dropRd)
    else if s'.mem.poisoned pa w then (s', .fail .poison)
    else (s', .ok (.mem pa))
  | r => r

end Sys2Proof.Machine
end

