-- ==== Sys2Proof/Machine/Clock.lean ====
section
/-! DEFINITION. The passing of oscillator time: the timebase with its rate and slew (R36–R38) and the arc counters (R252).
A slew remainder and the servo's fraction are held in 10^−8 of a timebase unit. -/

namespace Sys2Proof.Machine

/-- Free slots of an arc (R139): it carries the one context of its region, so every slot not taken is free. A token that a
breakpoint holds back leaves no room behind it (R256). -/
def Arc.room (a : Arc) : Nat := if a.held.isEmpty then a.cap - a.toks.length else 0

/-- A 48-bit counter that saturates (R252). -/
def sat48 (n : Nat) : Nat := min n (2 ^ 48 - 1)

/-- The arc's time counters after n units (R252). -/
def Arc.elapse (a : Arc) (n : Nat) : Arc :=
  if a.toks.isEmpty then { a with emptt := sat48 (a.emptt + n) }
  else if a.room = 0 then { a with fullt := sat48 (a.fullt + n) }
  else { a with movt := sat48 (a.movt + n) }

/-- A region's counters run while it is RUNNING or COMPLETING (R252). -/
def Region.elapse (r : Region) (n : Nat) : Region :=
  if r.st = .running ∨ r.st = .completing then { r with arcs := r.arcs.map fun a => a.elapse n } else r

/-- The counters of every region. -/
def Row.elapse (r : Row) (n : Nat) : Row :=
  { r with cores := r.cores.map fun k => { k with regions := k.regions.map fun g => g.map fun x => x.elapse n } }

/-- Units of 10^−8 of a timebase unit in one unit. -/
def tbScale : Int := 100000000

/-- The next 10 ns boundary of the oscillator at or after a time (R36, R38). -/
def nextBoundary (osc : Nat) : Nat := (osc + 159) / 160 * 160

/-- What the rate correction adds in n units: a rate just written counts from the next 10 ns boundary (R38). -/
def Servo.rated (v : Servo) (osc n : Nat) : Int :=
  match v.rateNext with
  | none => v.rate * n
  | some r =>
    let before := min n (nextBoundary osc - osc)
    v.rate * before + r * (n - before)

/-- A rate just written is in force once its boundary has passed. -/
def Servo.tick (v : Servo) (osc n : Nat) : Servo :=
  match v.rateNext with
  | none => v
  | some r => if nextBoundary osc ≤ osc + n then { v with rate := r, rateNext := none } else v

/-- n oscillator units pass: the timebase advances by them, by the rate correction and by at most 100 ppm of slew (R36–R38;
DEDUCED, log entry 10). -/
def State.timePasses (s : State) (n : Nat) : State :=
  let v := s.hub.servo
  let d := clampI (-(10000 * n)) (10000 * n) v.slew
  let f := v.frac + v.rated s.osc n + d
  let carry := f / tbScale
  { (s.modHub fun h => { h with servo := { (h.servo.tick s.osc n) with
      slew := v.slew - d, frac := f % tbScale, off := v.off + d } }) with
    osc := s.osc + n
    tb := s.tb + BitVec.ofInt 64 ((n : Int) + carry)
    rows := s.rows.map fun r => r.elapse n }

/-- n oscillator units pass, with the boundaries of budget intervals among them (R14, R274). -/
def State.elapse (s : State) (n : Nat) : State := (s.timePasses n).newInterval

end Sys2Proof.Machine
end

