-- ==== Sys2Proof/Machine/Operands.lean ====
section
/-! DEFINITION. The order in which every sequencer word is checked and takes effect at its place (R340, R341), and how a word
leaves a place: forwarded by the row fetch unit, or issued by a core and passed east (R101–R112). -/

namespace Sys2Proof.Machine

/-- What a meaning answers. -/
abbrev Out := Host.Outcome State Fault Refusal

/-- Words a hop holds, with the one that stands at the core it feeds (R105). -/
def hopRoom : Nat := 5

/-- The agent that a word at the current place is (R203). -/
def State.agentHere (s : State) : Agent :=
  { m := s.cur.m
    unit := match coreOfPlace s.cur.p with
      | some c => .core c
      | none => .rfu
    lid := (s.row s.cur.m).lid.getD 0 }

/-- The word at the current place, zero-extended, as %xinfo of ILLOP (Table 8.1). -/
def State.wordInfo (s : State) : Word := s.cur.word.word.setWidth 64

/-! ### Words that leave a place -/

/-- The row fetch unit's next word follows (R102, R348, R365). -/
def Row.advance (r : Row) (next : Word) : Row := { r with pc := next, ord := r.ord + 1 }

/-- Bytes a word takes in the row program: 20 for a CMD and its literals (R365). -/
def wordBytes (w : BitVec 32) : Word := if isCmd w then 20 else 4

/-- Entries of the resend buffer (R237). -/
def resendRoom : Nat := 40

/-- Hop 0 has room for a word, and the resend buffer has if it is a word of the program (R105, R237). -/
def Row.canForward (r : Row) (handler : Bool) : Bool :=
  decide ((r.hops[0]).length < hopRoom) && (handler || decide (r.resend.length < resendRoom))

/-- The row fetch unit forwards the current word with its post, and keeps it in the resend buffer (R109, R237); it waits while
hop 0 or that buffer is full (R105). -/
def State.forward (s : State) : State :=
  let r := s.row s.cur.m
  if !r.canForward s.cur.word.handler then s
  else
    let w : VineWord := { s.cur.word with post := r.post, postRel := r.postRel }
    s.modRow s.cur.m fun r =>
      { (r.advance (s.cur.word.addr + wordBytes w.word)) with
        hops := r.hops.set 0 (r.hops[0] ++ [w])
        resend := if w.handler then r.resend else r.resend ++ [w] }

/-- There is room to the east of a core; core 7 always has it (R105). -/
def Row.roomEast (r : Row) (c : CoreId) : Bool :=
  if h : c.val + 1 < 8 then decide ((r.hops[c.val + 1]).length < hopRoom) else true

/-- The word at the head of a core's hop moves east, carrying a post and a collection (R107, R109). -/
def Row.moveEast (r : Row) (c : CoreId) (post : Word) (rel : Bool) (coll : Word) : Row :=
  match r.hops[c] with
  | [] => r
  | w :: rest =>
    let hops := r.hops.set c rest
    if h : c.val + 1 < 8 then
      { r with hops := hops.set (c.val + 1) (hops[c.val + 1] ++ [{ w with post := post, postRel := rel, coll := coll }]) }
    else { r with hops := hops }

/-- The word at the head of a core's hop goes on without having been issued, as at a uniform trap: the west neighbour's post history
keeps what the word carried (R233, R237). -/
def Row.moveUnissued (r : Row) (c : CoreId) (coll : Word) : Row :=
  let k := r.cores[c]
  let r : Row := match r.hops[c] with
    | w :: _ =>
      if h : 0 < c.val then
        r.modCore ⟨c.val - 1, by omega⟩ fun k => { k with hist := k.hist ++ [(w.ord, w.post, w.postRel, w.coll)] }
      else r
    | [] => r
  r.moveEast c k.epost k.epostRel coll

/-- Every vine word below ordinal n of the stream now running has been issued by core 7 (R110): the resend buffer holds the
program words that have not (R237), and a GETW of the program waits while its row runs a handler. -/
def Row.allBelowIssued (r : Row) (n : WordOrd) (handler : Bool) : Bool :=
  if handler then r.hops.toList.all fun h => h.all fun w => !w.handler || !ordBelow w.ord n
  else decide (r.phase ≠ .handler) && r.resend.all fun w => !ordBelow w.ord n

/-- Core 7's post goes onto the echo path for each Q = 1 GETW whose moment has come (R110). -/
def Row.captureGetw (r : Row) : Row :=
  let due := r.getw.filter fun g => r.allBelowIssued g.2.1 g.2.2
  { r with echo := r.echo ++ due.map fun g => ⟨g.1, r.cores[7].epost, true⟩
           getw := r.getw.filter fun g => !r.allBelowIssued g.2.1 g.2.2 }

/-- The word is a row reduction (Table 12.3). -/
def isReduction (w : BitVec 32) : Bool := bit w 25 && fld w 26 6 == 0x19#6

/-- A core has issued the word at the head of its hop: it moves east, and at core 7 it leaves the vine and the resend buffer
(R107, R237). -/
def Row.issue (r : Row) (c : CoreId) (post : Word) (rel : Bool) (coll : Word) : Row :=
  let w := r.hops[c].head?
  let r := r.moveEast c post rel coll
  if c.val = 7 then
    match w with
    | some w =>
      let r : Row := { r with resend := if w.handler then r.resend else r.resend.filter fun e => e.ord != w.ord }
      ({ r with echo := if isReduction w.word then r.echo ++ [⟨fld w.word 20 5, coll, false⟩] else r.echo } : Row).captureGetw
    | none => r
  else r

/-- A q register awaits a load's data or a row reduction's result (R112, R341). -/
def Row.qPending (r : Row) (d : BitVec 5) : Bool :=
  d != 0 && (r.qpend.any (·.dest == d) || r.echo.any (·.dest == d) || r.getw.any (·.1 == d)
    || (r.hops.toList.any fun h => h.any fun w => isReduction w.word && fld w.word 20 5 == d)
    || (r.resendQ.any fun w => isReduction w.word && fld w.word 20 5 == d))

/-- The row fetch unit waits for a Q = 1 GETW and executes no Q = 1 word (R110). -/
def Row.getwWaits (r : Row) : Bool :=
  (r.getw.any fun g => g.2.2 == decide (r.phase = .handler)) || r.echo.any (·.isGetw)

/-! ### One word at its place -/

/-- The registers of a form (R340): what it reads, what its set drop bits name, its destination, and other registers whose
pending write it waits for (R341). -/
structure Form where
  /-- the Q bit: 1 executes at the row fetch unit alone -/
  q : Bool
  reads : List (BitVec 5)
  drops : List (BitVec 5) := []
  dest : Option (BitVec 5) := none
  names : List (BitVec 5) := []
  /-- a muted core executes it (R113) -/
  always : Bool := false
  /-- an encoding check that depends on the place fails: ILLOP (R340) -/
  illop : Bool := false
  deriving DecidableEq, Repr

/-- The outcome of a form's checks and action, before its drops and destination (R340). -/
inductive Effect where
  /-- the word traps, after an access that it has made (R187, R274) -/
  | trap (s : State) (kind : TrapKind) (c : Cause) (addr info : Word)
  /-- the word waits: nothing of it has happened but a wake it began (R364) -/
  | wait (s : State)
  /-- the word acts; the value of its destination -/
  | done (s : State) (v : Option Word)
  /-- a row fetch unit word acts and the next word is elsewhere -/
  | jump (s : State) (v : Option Word) (next : Word)
  /-- a load or atomic acts; its destination is pending with this value (R341) -/
  | load (s : State) (v : Word)
  /-- the word acts and has left its place already -/
  | left (s : State)
  deriving DecidableEq, Repr

/-- The drop list of a marked field. -/
def dropIf (x : Bool) (r : BitVec 5) : List (BitVec 5) := if x then [r] else []

/-- At the stop ordinal a core's own local trap lets the word go on, so that the cores to its east stop at it too (R233). -/
def State.passStop (s : State) (before : RowPhase) (m : RowId) (c : CoreId) (w : VineWord) : State :=
  if before = .stopping (some w.ord) then s.modRow m fun r => r.moveUnissued c w.coll else s

/-- A trap of the word at the current place. -/
def State.trapHere (s : State) (kind : TrapKind) (c : Cause) (addr info : Word) : State :=
  let s' := s.takeTrap s.cur.m s.cur.p kind c s.cur.word.ord addr info
  match kind, coreOfPlace s.cur.p with
  | .issued, none =>
    if (s.row s.cur.m).phase = .handler then s' else s'.modRow s.cur.m fun r => r.advance (s.cur.word.addr + 4)
  | .uniform, some k =>
    if (s.row s.cur.m).phase = .handler then s'
    else s'.modRow s.cur.m fun r => r.moveUnissued k s.cur.word.coll
  | .issued, some k =>
    if (s.row s.cur.m).phase = .handler then s'
    else s'.modRow s.cur.m fun r => r.issue k (s.core s.cur.m k).epost (s.core s.cur.m k).epostRel s.cur.word.coll
  | _, some k => s'.passStop (s.row s.cur.m).phase s.cur.m k s.cur.word
  | _, none => s'

/-- One of several dead registers is named, which the manual leaves open (R118; DESIGN CHOICE, log entry 11). -/
def State.deadTrap (s : State) (dead : List (BitVec 5)) : State :=
  let (v, s') := s.draw
  s'.trapHere .loc .deadReg 0 ((dead[v.toNat % dead.length]?.getD 0).setWidth 64)

/-- Registers of the form other than its drops. -/
def Form.regs (f : Form) : List (BitVec 5) := f.reads ++ f.dest.toList

/-- A Q = 1 word at the row fetch unit (R298, R340, R341). -/
def State.runRfu (s : State) (f : Form) (act : State → (BitVec 5 → Word) → Effect) : State :=
  let m := s.cur.m
  let r := s.row m
  if f.illop || f.regs.any fun i => decide (16 ≤ i.toNat) then s.trapHere .loc .illop 0 s.wordInfo
  else if r.getwWaits || f.regs.any r.qPending then s
  else
    let step (s' : State) (v : Option Word) (next : Word) : State :=
      s'.modRow m fun r =>
        let r := match v, f.dest with
          | some v, some d => r.writeQ d v
          | _, _ => r
        r.advance next
    match act s r.readQ with
    | .trap s' kind c addr info => s'.trapHere kind c addr info
    | .wait s' => s'
    | .done s' v => step s' v (s.cur.word.addr + 4)
    | .jump s' v next => step s' v next
    | .load s' v =>
      (step s' none (s.cur.word.addr + 4)).modRow m fun r =>
        { r with qpend := r.qpend ++ (f.dest.toList.filter (· ≠ 0)).map fun d => ⟨d, v⟩ }
    | .left s' => s'

/-- A core after its word's drops and its destination's write, which follows them, before its banks settle (R117, R340). -/
def Core.written (k : Core) (now : Word) (f : Form) (v : Option Word) : Core :=
  let k1 := f.drops.foldl Core.clear (k.touch now f.regs)
  match v, f.dest with
  | some v, some d => k1.write d v
  | _, _ => k1

/-- A core after its word's drops and its destination's write: a bank that loses its last live
register to the word goes OFF, and one that the destination keeps live does not. -/
def Core.finishWord (k : Core) (now : Word) (f : Form) (v : Option Word) : Core :=
  (f.drops.filter fun r => decide (r ≠ 0) && k.isLive r).foldl (fun k r => k.settle (sBank r)) (k.written now f v)

/-- A word at a core, in the order of R340: a muted core passes it on (R113); the word waits for pending registers, traps on a
dead operand, waits for the banks it reads and for room to its east, makes its form's checks, waits for its destination's
bank, and then acts. A word that traps goes east too where its trap is uniform, so it waits for room first (R105, R233). -/
def State.runCore (s : State) (c : CoreId) (f : Form) (act : State → (BitVec 5 → Word) → Effect) : State :=
  let m := s.cur.m
  let k := s.core m c
  let pass (s' : State) : State := s'.modRow m fun r => r.issue c k.epost k.epostRel s'.cur.word.coll
  if !k.active && !f.always then (if (s.row m).roomEast c then pass s else s)
  else if f.illop then (if (s.row m).roomEast c then s.trapHere .uniform .illop 0 s.wordInfo else s)
  else if (f.regs ++ f.drops ++ f.names).any fun i => i != 0 && k.pend.any (·.dest == i) then s
  else
    let dead := f.reads.filter fun i => !k.isLive i
    if !dead.isEmpty then s.deadTrap dead
    else match k.wakeFor s.osc f.reads with
    | (k', false) => s.modCore m c fun _ => k'
    | (_, true) =>
      if !(s.row m).roomEast c then s
      else
        let finish (s' : State) (v : Option Word) : State := pass (s'.modCore m c fun k => k.finishWord s.tb f v)
        match act s k.read, k.wakeFor s.osc f.dest.toList with
        | .trap s' kind cs addr info, _ => s'.trapHere kind cs addr info
        | _, (k', false) => s.modCore m c fun _ => k'
        | .wait s', _ => s'
        | .done s' v, _ => finish s' v
        | .jump s' v _, _ => finish s' v
        | .load s' v, _ =>
          (finish s' none).modCore m c fun k =>
            { k with pend := k.pend ++ (f.dest.toList.filter (· ≠ 0)).map fun d => ⟨d, v⟩ }
        | .left s', _ => s'

/-- A word with its registers and effect, at the place where it stands: a Q = 0 word is forwarded by the row fetch unit and
acts at every core, a Q = 1 word acts at the row fetch unit (R101). -/
def State.runWord (s : State) (f : Form) (act : State → (BitVec 5 → Word) → Effect) : State :=
  match coreOfPlace s.cur.p with
  | none => if f.q then s.runRfu f act else s.forward
  | some c => if f.q then s else s.runCore c f act

/-- A form whose action changes nothing but its destination. -/
def pureForm (f : (BitVec 5 → Word) → Word) : State → (BitVec 5 → Word) → Effect := fun s x => .done s (some (f x))

end Sys2Proof.Machine
end

