-- ==== Sys2Proof/Machine/Fabric.lean ====
section
/-! DEFINITION. Tokens, arcs and regions: what a token carries to an arc, the region control block, the exception log,
breakpoints, and the marker floods that switch a configuration or freeze a region (R136–R162, R252–R259). -/

namespace Sys2Proof.Machine

/-! ### Statuses -/

/-- Codes of Tables 3.2, 3.4 and 15.1. -/
def Status.code : Status → Nat
  | .ok => 0x00
  | .badDesc => 0x01
  | .xlate => 0x02
  | .poison => 0x03
  | .noRegion => 0x04
  | .badImg => 0x05
  | .full => 0x06
  | .aborted => 0x07
  | .rowDown => 0x08
  | .noFit => 0x09
  | .range => 0x0A
  | .rule => 0x0B
  | .dropRd => 0x0C
  | .align => 0x0D
  | .perm => 0x0E
  | .badCmd => 0x0F
  | .ringErr => 0x10
  | .limit => 0x11
  | .cbrk => 0x12
  | .noPort => 0x13

/-- The status with the name of a cause (R176, R243). -/
def Cause.status : Cause → Status
  | .dropRd => .dropRd
  | .align => .align
  | .xlate => .xlate
  | .perm => .perm
  | .ringErr => .ringErr
  | .limit => .limit
  | .poison => .poison
  | _ => .badCmd

/-- The trap a status becomes when its command asks for one (R243). -/
def Status.trap : Status → Option Cause
  | .dropRd => some .dropRd
  | .align => some .align
  | .xlate => some .xlate
  | .perm => some .perm
  | .badCmd => some .badCmd
  | .ringErr => some .ringErr
  | .limit => some .limit
  | .poison => some .poison
  | _ => none

/-! ### Tokens (R136, R137) -/

/-- Sixteen lanes of zero. -/
def zeroLanes : Vector Lane 16 := .replicate 16 0
/-- Sixteen lanes from a list, zero beyond it. -/
def lanesOf (xs : List Nat) : Vector Lane 16 := Vector.ofFn fun i => BitVec.ofNat 32 (xs.getD i.val 0)
/-- The lanes as numbers. -/
def lanesNat (v : Vector Lane 16) : List Nat := v.toList.map BitVec.toNat
/-- Lanes at n and above read zero (R137). -/
def clipLanes (n : Nat) (v : Vector Lane 16) : Vector Lane 16 := Vector.ofFn fun i => if i.val < n then v[i] else 0

/-- A token's header (Table 5.1). -/
def Token.hdr (t : Token) : Nat :=
  t.tag.toNat * 65536 + t.ctx.toNat * 16384 + t.cnt * 512 + b2n t.m * 128 + b2n t.k * 64 + b2n t.l3 * 32 + b2n t.l2 * 16
    + b2n t.l1 * 8 + b2n t.f * 4 + b2n t.p * 2 + b2n t.e

/-- The token of a header and lanes (Table 5.1). -/
def Token.ofHdr (h : Nat) (lanes : Vector Lane 16) : Token :=
  { tag := BitVec.ofNat 16 (h / 65536), ctx := BitVec.ofNat 2 (bits h 15 14), cnt := bits h 13 9, m := bitN h 7
    k := bitN h 6, l3 := bitN h 5, l2 := bitN h 4, l1 := bitN h 3, f := bitN h 2, p := bitN h 1, e := bitN h 0
    lanes := lanes }

/-- A data token of no lanes and no flags. -/
def Token.blank (ctx : BitVec 2) : Token := Token.ofHdr (ctx.toNat * 16384) zeroLanes
/-- A marker: K for a switch, M for a cut (R154, R156). -/
def Token.mark (cut : Bool) (ctx : BitVec 2) (e : Bool) : Token := { Token.blank ctx with m := cut, k := !cut, e := e }
/-- A token with K or M set is a marker (R136). -/
def Token.marker (t : Token) : Bool := t.m || t.k

/-- E, P and L1 to L3 are the ORs of those of the tokens consumed (R138). -/
def orFlags (ts : List Token) (t : Token) : Token :=
  { t with e := t.e || ts.any (·.e), p := t.p || ts.any (·.p), l1 := t.l1 || ts.any (·.l1), l2 := t.l2 || ts.any (·.l2)
           l3 := t.l3 || ts.any (·.l3) }

/-! ### Arcs and elements -/

/-- The data tokens ahead of any marker (R134). -/
def Arc.ahead (a : Arc) : List (Nat × Token) := a.toks.takeWhile fun x => !x.2.marker
/-- The head token with its number. -/
def Arc.head (a : Arc) : Option (Nat × Token) := a.toks.head?
/-- The head token, when it is a data token. -/
def Arc.dataHead (a : Arc) : Option (Nat × Token) := a.ahead.head?
/-- A marker heads the arc. -/
def Arc.markHead (a : Arc) : Bool := a.head.any fun x => x.2.marker

/-- The arc that enters input i of an element. -/
def Region.inArc (g : Region) (e i : Nat) : Option Nat := g.arcs.findIdx? fun a => a.cons == e && a.cin == i
/-- The arc that leaves output o of an element. -/
def Region.outArc (g : Region) (e o : Nat) : Option Nat := g.arcs.findIdx? fun a => a.prod == e && a.pout == o
/-- The inputs of an element that have arcs, ascending. -/
def Region.inputs (g : Region) (e : Nat) : List Nat := [0, 1, 2, 3].filter fun i => (g.inArc e i).isSome
/-- The outputs of an element that have arcs, ascending. -/
def Region.outputs (g : Region) (e : Nat) : List Nat := [0, 1, 2, 3].filter fun o => (g.outArc e o).isSome
/-- The arc of an input. -/
def Region.inOf (g : Region) (e i : Nat) : Option Arc := (g.inArc e i).bind fun a => g.arcs[a]?
/-- The arc of an output. -/
def Region.outOf (g : Region) (e o : Nat) : Option Arc := (g.outArc e o).bind fun a => g.arcs[a]?
/-- The data token at the head of an input, with its number. -/
def Region.dataAt (g : Region) (e i : Nat) : Option (Nat × Token) := (g.inOf e i).bind Arc.dataHead
/-- A marker heads an input. -/
def Region.markAt (g : Region) (e i : Nat) : Bool := (g.inOf e i).any Arc.markHead

/-- Data tokens an input must hold before a firing: one in a tagged region (R134, R143). -/
def Region.needIn (g : Region) (a : Arc) : Nat := if g.disc = 1 then 1 else a.nin
/-- An input holds what a firing needs (R134). -/
def Region.inReady (g : Region) (e i : Nat) : Bool := (g.inOf e i).any fun a => decide (g.needIn a ≤ a.ahead.length)
/-- An output has the room a firing demands; an output without an arc demands none (R134, R139). -/
def Region.outReady (g : Region) (e o : Nat) : Bool := (g.outOf e o).all fun a => decide (a.nout ≤ a.room)

/-- A stage word's fields (Table 12.11). -/
structure Stage where
  op : Nat
  ty : Nat
  sela : Nat
  selb : Nat
  selc : Nat
  dst : Nat
  drpa : Bool
  drpb : Bool
  drpc : Bool
  emit : Bool
  low : Nat
  deriving DecidableEq, Repr

/-- The fields of a stage word (Table 12.11). -/
def stageOf (w : BitVec 64) : Stage :=
  let n := w.toNat
  { op := bits n 63 56, ty := bits n 55 52, sela := bits n 51 48, selb := bits n 47 44, selc := bits n 43 40
    dst := bits n 39 36, drpa := bitN n 35, drpb := bitN n 34, drpc := bitN n 33, emit := bitN n 32, low := bits n 31 0 }

/-- The stages a firing may run: up to the first with EMIT (R312). -/
def stagesRun : List (BitVec 64) → List Stage
  | [] => []
  | w :: ws => let st := stageOf w; if st.emit then [st] else st :: stagesRun ws

/-- A port record's fields (Table 12.16). -/
structure PortRec where
  kind : Nat
  num : Nat
  len : Nat
  rsv : Nat
  off : Nat
  deriving DecidableEq, Repr

/-- The fields of a port record (Table 12.16). -/
def portRecOf (w : BitVec 64) : PortRec :=
  let n := w.toNat
  { kind := bits n 63 60, num := bits n 59 56, len := bits n 55 40, rsv := bits n 39 17, off := bits n 16 0 }

/-- An element's first word. -/
def Elem.word0 (e : Elem) : BitVec 64 := e.words.headD 0
/-- The form of an element that is no port, by its stage opcode: for a CE, that of the last stage its firing may run when
that is a control form, else of its first. -/
def Elem.stage0 (e : Elem) : Stage := stageOf e.word0
/-- The port record of an element. -/
def Elem.port (e : Elem) : PortRec := portRecOf e.word0
/-- The element is a port of a kind. -/
def Elem.isPort (e : Elem) (kind : Nat) : Bool := e.kind == .xe && e.port.kind == kind
/-- The element fires in no event of its own: fabric ports, spill ports, accumulator stores and MMA (R132, R446). -/
def Elem.passive (e : Elem) : Bool :=
  (e.kind == .xe && (e.port.kind < 2 || 3 < e.port.kind)) || (e.kind == .ce && e.stage0.op == 0x80)

/-- An element is linked: its circuit stands for the port (R404). -/
def Region.linked (g : Region) (e : Nat) : Bool := g.links.any fun l => l.elem == e

/-- The element of a region that binds a port of its core: direction 0 into the region, 1 out of it (R133, R404). -/
def Region.portElem (g : Region) (dir num : Nat) : Option Nat :=
  (List.range g.elems.length).find? fun i =>
    (g.elems[i]?).any (fun e => e.isPort dir && decide (e.port.num = num)) && !g.linked i

/-! ### Regions in the state -/

/-- The region of a slot. -/
def State.region (s : State) (m : RowId) (c : CoreId) (slot : SlotId) : Option Region := (s.core m c).regions[slot]
/-- Change the region of a slot. -/
def State.modRegion (s : State) (m : RowId) (c : CoreId) (slot : SlotId) (f : Region → Region) : State :=
  s.modCore m c fun k => { k with regions := vmod k.regions slot fun g => g.map f }
/-- Change an element. -/
def State.modElem (s : State) (r : ElemRef) (f : Elem → Elem) : State :=
  s.modRegion r.m r.c r.slot fun g => { g with elems := modAt f r.e g.elems }
/-- Change an arc. -/
def State.modArc (s : State) (m : RowId) (c : CoreId) (slot : SlotId) (a : Nat) (f : Arc → Arc) : State :=
  s.modRegion m c slot fun g => { g with arcs := modAt f a g.arcs }
/-- The region's sticky flags gain bits (R160). -/
def State.setSticky (s : State) (m : RowId) (c : CoreId) (slot : SlotId) (b : BitVec 16) : State :=
  s.modRegion m c slot fun g => { g with sticky := g.sticky ||| b }

/-- Bits of STICKY (Table 5.5). -/
def stSAT : BitVec 16 := 0x20
/-- See `stSAT`. -/
def stLENMIS : BitVec 16 := 0x40
/-- See `stSAT`. -/
def stORDERV : BitVec 16 := 0x80
/-- See `stSAT`. -/
def stLOOPLIM : BitVec 16 := 0x100
/-- See `stSAT`. -/
def stTAGERR : BitVec 16 := 0x200
/-- See `stSAT`. -/
def stORPHAN : BitVec 16 := 0x400
/-- See `stSAT`. -/
def stPSTORE : BitVec 16 := 0x800
/-- See `stSAT`. -/
def stDEADH : BitVec 16 := 0x1000
/-- See `stSAT`. -/
def stCSTF : BitVec 16 := 0x2000
/-- See `stSAT`. -/
def stRNGERR : BitVec 16 := 0x4000

/-- A write of a controller or a port whose line has been asked for with its access (R181, R187). -/
def State.ctlWrite (s : State) (pa : Nat) (bs : List Byte) : State := s.portWrite { pa := pa, bs := bs, req := none }

/-- The agent that an operation of a core is. -/
def coreAgent (m : RowId) (c : CoreId) (lid : BitVec 16) : Agent := { m := m, unit := .core c, lid := lid }

/-- The agent that an element is, apart from the other elements and the operations of its core (R275). -/
def elemAgent (r : ElemRef) (lid : BitVec 16) : Agent := { coreAgent r.m r.c lid with op := 2 ^ 32 + 4096 * r.slot.val + r.e }

/-- The agent that a core's region controller is for a slot, or for none (R203). -/
def ctlAgent (m : RowId) (c : CoreId) (slot : Nat) (lid : BitVec 16) : Agent := { coreAgent m c lid with op := 2 ^ 33 + slot }

/-- A controller's write to a slice for a launch, charged to its core's row: to a cell that the launch has given up it waits for the return
(R172, R247, R274, R275; DEDUCED, log entry 31). -/
def State.ctlWriteFor (s : State) (ag : Agent) (pa : Nat) (bs : List Byte) : State :=
  let w : PortWrite := { pa := pa, bs := bs, req := some (ag.req 1 pa) }
  match if s.vacated ag.lid (sliceBase + (pa - spadBase)) then sliceOf (pa - spadBase) else none with
  | some sl => { s with suspended := s.suspended.map fun x =>
      if x.lid = ag.lid ∧ x.m = sl.m then { x with later := x.later ++ [w] } else x }
  | none => s.portWrite w

/-- The bank of a cell that holds a physical address. -/
def State.inBank (s : State) (m : RowId) (c : CoreId) (mi : Fin 64) (b : Fin 16) (pa : Nat) : Bool :=
  decide (spadBase ≤ pa) && (sliceOf (pa - spadBase)).any fun sl =>
    decide (sl.m = m ∧ sl.c = c ∧ sl.mi = mi ∧ bankOf (s.core m c).mcells[mi].hxm sl.off = b)

/-- No write waits for a scratchpad bank of a row. -/
def State.portsIdle (s : State) (m : RowId) : Bool :=
  !s.portQ.any fun x => (sliceOf (x.pa - spadBase)).any fun sl => sl.m == m

/-- A bank that is FULL serves the writes that wait for it; one that is not, and has some waiting, wakes (R187). -/
def State.servePorts (s : State) (m : RowId) (c : CoreId) (mi : Fin 64) (b : Fin 16) : State :=
  s.retryPorts fun x => s.inBank m c mi b x.pa

/-- The physical address of a slice-window address. -/
def slicePa (a : Word) : Nat := spadBase + (a.toNat - sliceBase)

/-! ### The region control block (R158, R159) -/

/-- STATE codes (Table 5.4). -/
def RegionSt.code : RegionSt → Nat
  | .free => 0
  | .loading => 1
  | .ready => 2
  | .running => 3
  | .completing => 4

/-- Word 0x38 of the RCB (Table 5.4). -/
def Region.word38 (g : Region) (slot : SlotId) : Nat :=
  g.sinkn * 2 ^ 48 + g.sinks * 2 ^ 32 + g.st.code * 2 ^ 16 + g.fold.toNat * 2 ^ 14 + slot.val * 2 ^ 8 + g.status.code

/-- The bytes 0x28 to 0x5F that the controller owns (Table 5.4). -/
def Region.rcbBytes (g : Region) (slot : SlotId) : List Byte :=
  bytesOf 8 g.sticky.toNat ++ bytesOf 8 g.dskip.toNat ++ bytesOf 8 (g.word38 slot) ++ bytesOf 32 g.hash.toNat

/-- The controller writes the fields it owns back to the RCB (R159). -/
def State.writeBack (s : State) (m : RowId) (c : CoreId) (slot : SlotId) : State :=
  match s.region m c slot with
  | none => s
  | some g => s.ctlWriteFor (ctlAgent m c slot.val g.lid) (slicePa g.rcb + 0x28) (g.rcbBytes slot)

/-- A controller's write to an RCB still waits, for its bank, on a budget or for the launch's return. -/
def State.rcbWaits (s : State) (lid : BitVec 16) (rcb : Word) : Bool :=
  let here (x : PortWrite) : Bool := decide (x.pa / 128 = slicePa rcb / 128)
  s.portQ.any here || s.suspended.any fun x => x.lid == lid && x.later.any here

/-- A change of STATE: write-back and a REGION trace record (R159, Table 9.6). -/
def State.setRegionSt (s : State) (m : RowId) (c : CoreId) (slot : SlotId) (st : RegionSt) (status : Status) : State :=
  match s.region m c slot with
  | none => s
  | some g =>
    ((s.modRegion m c slot fun g => { g with st := st, status := status }).writeBack m c slot).trace m c 3 slot.val st.code
      g.rcb.toNat

/-- A refusal written to the STATUS byte of an RCB under which no region is configured (Table 5.6). -/
def State.refuseRcb (s : State) (m : RowId) (c : CoreId) (rcb : Word) (status : Status) : State :=
  let pa := slicePa rcb + 0x38
  s.portWrite { pa := pa, bs := [BitVec.ofNat 8 status.code], req := some ((ctlAgent m c 8 0).req 1 pa) }

/-- The region configured under an RCB address of a core. -/
def Core.slotOf (k : Core) (rcb : Word) : Option SlotId :=
  (finsN 8).find? fun i => (k.regions[i]).any fun g => g.rcb == rcb

/-! ### The exception log (R259, Table 9.3) -/

/-- An entry in the core's exception log: `kind` 0 SINK, 1 output port, 2 self-log; or one more lost (R259). -/
def State.logEntry (s : State) (r : ElemRef) (kind port tag bs seq hdr : Nat) : State :=
  match (s.region r.m r.c r.slot).bind fun g => g.elems[r.e]? with
  | none => s
  | some e =>
    let w1 := kind * 2 ^ 56 + e.cell * 2 ^ 48 + r.slot.val * 2 ^ 45 + e.eslot * 2 ^ 42 + e.ctx.toNat * 2 ^ 40
      + port * 2 ^ 32 + tag * 2 ^ 16 + bs
    let entry : BitVec 256 := BitVec.ofNat 256 (s.tb.toNat + w1 * 2 ^ 64 + seq * 2 ^ 128 + hdr * 2 ^ 192)
    s.modCore r.m r.c fun k =>
      if 64 ≤ k.elog.length then { k with elogLost := satInc k.elogLost } else { k with elog := k.elog ++ [entry] }

/-- An element logs itself with the token on its lowest-numbered input arc of the firing, or the token it emitted (R259), and
sets bits of STICKY. -/
def State.selfLog (s : State) (r : ElemRef) (st : BitVec 16) (tok : Option (Nat × Token)) : State :=
  (s.setSticky r.m r.c r.slot st).logEntry r 2 0xFF (tok.elim 0 fun t => t.2.tag.toNat) st.toNat (tok.elim 0 (·.1))
    (tok.elim 0 fun t => t.2.hdr)

/-! ### Admission to an arc (R139, R252, R256) -/

/-- An armed breakpoint names the n-th token of an arc (R256). -/
def Breakpoint.hits (b : Breakpoint) (slot : SlotId) (a n : Nat) : Bool :=
  b.en && !b.due && b.slot == slot && decide (b.arc = a) && decide (b.n.toNat = n) && decide (n ≠ 0)

/-- A token that enters a joined circuit is stamped (R229). -/
def JoinNode.stamp (j : JoinNode) (m : RowId) (c : CoreId) (slot : SlotId) (lid : BitVec 16) (a : Nat) : JoinNode :=
  match j.members.findIdx? fun x => decide (x.m = m ∧ x.c = c ∧ x.slot = slot ∧ x.lid = lid ∧ x.src = a) with
  | some i => { j with order := j.order ++ [i] }
  | none => j

/-- A data token has come to the head or the queue of an NDMRG's input (R149). -/
def Elem.arrive (e : Elem) (i : Nat) (t : Token) : Elem :=
  match e.form with
  | .ndmrg a b f g u q => if t.marker then e else { e with form := .ndmrg a b f g u (q ++ [decide (i = 2)]) }
  | _ => e

/-- Every breakpoint that names the n-th token of an arc fires, each with its BREAK record (R256, R260). -/
def State.breakHit (s : State) (m : RowId) (c : CoreId) (slot : SlotId) (a n : Nat) : State :=
  (finsN 4).foldl (fun s i =>
    if ((s.core m c).bps[i]).hits slot a n then
      (s.modCore m c fun k => { k with bps := vmod k.bps i fun b => { b with due := true } }).trace m c 5 slot.val i.val n
    else s) s

/-- The flood moves M, not K. -/
def Flood.cut? : Flood → Bool
  | .cut => true
  | _ => false
/-- A flood is in progress. -/
def Flood.isSome : Flood → Bool
  | .none => false
  | _ => true
/-- The flood moves K. -/
def Flood.switch? : Flood → Bool
  | .switch .. => true
  | _ => false

/-- The arc admits a token, or holds it back for a breakpoint (R256); a marker M passes ahead of what is held and is itself never
held, though it counts. In a
configuration switch a token is noted and not held back until the arc's producer has passed its K, which would else wait behind it for
good (DEDUCED, log entry 12). -/
def State.push (s : State) (m : RowId) (c : CoreId) (slot : SlotId) (a : Nat) (t : Token) : State :=
  match (s.region m c slot).bind fun g => (g.arcs[a]?).map fun x => (g, x) with
  | none => s
  | some (g, arc) =>
    let n := sat48 (arc.tokn + 1)
    let hit := (s.core m c).bps.toList.any fun b => b.hits slot a n
    let s := if hit then s.breakHit m c slot a n else s
    let owesK := g.flood.switch? && (t.k || !(g.elems[arc.prod]?).any (·.flooded))
    let hold := !t.m && ((hit && !owesK) || !arc.held.isEmpty)
    let s := if t.marker || s.hub.joins.isEmpty then s
      else s.modHub fun h => { h with joins := h.joins.map fun j => j.stamp m c slot g.lid a }
    if hold then s.modArc m c slot a fun x => { x with tokn := n, held := x.held ++ [(n, t)] }
    else
      (s.modArc m c slot a fun x => { x with tokn := n, toks := x.toks ++ [(n, t)] }).modElem
        { m := m, c := c, slot := slot, e := arc.cons } fun e => e.arrive arc.cin t

/-- The head token leaves an arc. -/
def State.popArc (s : State) (m : RowId) (c : CoreId) (slot : SlotId) (a : Nat) : State :=
  s.modArc m c slot a fun x => { x with toks := x.toks.drop 1 }

/-- An element takes the head token of an input. -/
def State.take (s : State) (r : ElemRef) (i : Nat) : State :=
  match (s.region r.m r.c r.slot).bind fun g => g.inArc r.e i with
  | none => s
  | some a => s.popArc r.m r.c r.slot a

/-- An element emits a token on an output, if that has an arc; its inactive lanes hold zero (R137). -/
def State.give (s : State) (r : ElemRef) (o : Nat) (t : Token) : State :=
  match (s.region r.m r.c r.slot).bind fun g => g.outArc r.e o with
  | none => s
  | some a => s.push r.m r.c r.slot a { t with lanes := clipLanes t.cnt t.lanes }

/-! ### Ring sides (R192, R467) -/

/-- A request for a side of a ring reaches its home: whether the requester holds the side (R192). -/
def State.wantSide (s : State) (desc : Nat) (producer : Bool) (h : SideHolder) : State × Bool :=
  match s.sides.find? fun x => x.desc == desc && x.producer == producer with
  | none => ({ s with sides := s.sides ++ [⟨desc, producer, [h]⟩] }, true)
  | some x =>
    if x.queue.contains h then (s, x.queue.head? == some h)
    else
      ({ s with sides := s.sides.map fun y =>
          if y.desc == desc && y.producer == producer then { y with queue := y.queue ++ [h] } else y }, false)

/-- A holder lets go of every side it holds or waits for. -/
def State.dropSides (s : State) (h : SideHolder) : State :=
  { s with sides := (s.sides.map fun x => { x with queue := x.queue.filter (· != h) }).filter fun x => !x.queue.isEmpty }

/-! ### Floods (R154, R156, R256) -/

/-- The initial state of an element's form (R146, R150, R430, R437); ORDER starts at its STAMP's START. -/
def formInit (words : List (List (BitVec 64))) (kind : ElemKind) (w : BitVec 64) : FormState :=
  let st := stageOf w
  let start (x : Stage) : BitVec 16 := BitVec.ofNat 16 x.low
  match kind with
  | .xe => if (portRecOf w).kind = 2 ∨ (portRecOf w).kind = 3 then .ring 0 false false false none else .plain
  | .me =>
    if st.op = 0x68 then .sink 0 false
    else if st.op = 0x69 then .cntr none false
    else if st.op = 0x6A then .stamp (start st) [] (start st)
    else if st.op = 0x6B then .order (start (stageOf (((words[st.low % 4096]?).getD []).headD 0))) []
    else .plain
  | .ce =>
    if st.op = 0x61 then .merge none
    else if st.op = 0x62 then .ndmrg 0 0 false false false []
    else if st.op = 0x63 then .carry []
    else if st.op = 0x64 then .invar none
    else if st.op = 0x78 ∨ st.op = 0x79 then .sparse 0 0 0 0 false none none
    else if st.op = 0x7A then .segred false 0 0 0 0 false false
    else if st.op = 0x80 then .mma none
    else .plain

/-- Hold entries of a configuration: those the constants name are live, the rest dead (R167). -/
def holdsOf (consts : List (Nat × Nat × Vector Lane 16)) (e : Nat) : Vector (Option (Vector Lane 16)) 8 :=
  Vector.ofFn fun k => (consts.find? fun x => x.1 == e && x.2.1 == k.val).map fun x => x.2.2

/-- A hold bank at configuration of its context: FULL, or OFF if no constant (Table 5.7). -/
def holdBankOf (hs : Vector (Option (Vector Lane 16)) 8) (now : Word) (idle : BitVec 24) : Bank :=
  if hs.toList.any Option.isSome then { Bank.full with lastUse := now, idle := idle } else .off

/-- An element takes its new configuration at a switch (R154, R155): the firing count restarts (R413), open matching entries
go, and what the form keeps starts anew but for the form's tokens in hand and a sink's count (DEDUCED, log entry 13). What other
forms keep stays too: CARRY's instances, NDMRG's counts and inputs at F, SEGRED's open segment, the cursors of ISECT and UNION, STAMP's
outstanding tags and a discard of R152 under way (DESIGN CHOICE, log entry 65). -/
def Elem.switch (e : Elem) (idx : Nat) (words : List (List (BitVec 64))) (consts : List (Nat × Nat × Vector Lane 16))
    (now : Word) (idle : BitVec 24) : Elem :=
  let ws := (words[idx]?).getD e.words
  let init := formInit words e.kind (ws.headD 0)
  let hs := holdsOf consts idx
  let form := match e.form, init with
    | .sink n r, .sink _ _ => .sink n r
    | .carry is, .carry _ => .carry is
    | .merge p, .merge _ => .merge p
    | .invar v, .invar _ => .invar v
    | .ndmrg a b f g t q, .ndmrg .. => .ndmrg a b f g t q
    | .sparse a b p q x l m, .sparse .. => .sparse a b p q x l m
    | .segred o k a n fl x y, .segred .. => .segred o k a n fl x y
    | .ring d st rp hs pe, .ring .. => .ring d st rp hs pe
    | .stamp old out _, .stamp n _ _ => .stamp n out old
    | _, _ => init
  { e with words := ws, holds := hs, hbank := holdBankOf hs now idle, firings := 0, matching := [], form := form }

/-- An MMA element's column, depth, type and SCALE (R446). -/
structure MmaSite where
  j : Nat
  i : Nat
  ty : Nat
  scale : Bool
  deriving DecidableEq, Repr

/-- The site of an element, when it carries MMA. -/
def mmaSite (ws : List (BitVec 64)) : Option MmaSite :=
  let st := stageOf (ws.headD 0)
  if st.op = 0x80 then some { j := st.low % 8, i := bits st.low 5 3, ty := st.ty, scale := bitN st.low 6 } else none

/-- The cell of an MMA site in a region's rectangle (R440). -/
def Region.siteCell (g : Region) (x : MmaSite) : Nat :=
  let y := g.org / 16 + x.i
  16 * y + 2 * (g.org % 16 / 2 + x.j) + y % 2

/-- An MMA element stands at the site that its words name (R440, R459). -/
def Elem.atSite (e : Elem) (g : Region) : Elem :=
  match e.kind, mmaSite e.words with
  | .ce, some x => { e with cell := g.siteCell x }
  | _, _ => e

/-- The QK of an element's firings: in a switch those behind its K have the new one (R154, Table 5.6). -/
def Region.qkOf (g : Region) (e : Elem) : BitVec 32 :=
  match g.flood with
  | .switch _ _ _ qk _ => if e.flooded then qk else g.qk
  | _ => g.qk

/-- The ring of a port element: its descriptor, and whether the port fills it. -/
def Elem.ringOf (e : Elem) : Option (Word × Bool) := match e.form with
  | .ring d _ _ _ _ => some (d, e.isPort 3)
  | _ => none

/-- A port element with its new record: it keeps its ring with its kind and handle; a new one is its handle's, as the RSWITCH found it
bound (R154, R467; DESIGN CHOICE, log entry 65). -/
def Elem.rebound (old e : Elem) (binds : List Word) : Elem :=
  match e.form with
  | .ring _ st rep _ tok =>
    let same := old.isPort e.port.kind
    if same && old.port.num == e.port.num then e
    else { e with form := .ring (binds.getD e.port.num 0) st (same && rep) false (if e.isPort 2 then tok else none) }
  | _ => e

/-- A port whose ring has changed lets go of its old side and asks for its new one (R192, R467). -/
def State.moveSide (s : State) (r : ElemRef) (old new : Option (Word × Bool)) : State :=
  if old = new then s
  else
    let s := s.dropSides (.port r.m r.c r.slot r.e)
    match new with
    | none => s
    | some (d, producer) =>
      let (s, has) := s.wantSide d.toNat producer (.port r.m r.c r.slot r.e)
      s.modElem r fun e => match e.form with
        | .ring d st rep _ tok => { e with form := .ring d st rep has tok }
        | _ => e

/-- The tags that hold the context's entries: those of the tokens that wait, and CARRY's open instances, each in the entry of its tag
(R143, R437). -/
def Elem.entryTags (e : Elem) : List (BitVec 16) :=
  (e.matching.map (·.tag) ++ match e.form with
    | .carry insts => insts.map (·.tag)
    | _ => []).eraseDups

/-- A tagged element's open entries go, CARRY's instances with them (R155, R437). -/
def Elem.freeEntries (e : Elem) : Elem :=
  { e with matching := [], form := match e.form with
                           | .carry _ => .carry []
                           | f => f }

/-- An element has consumed its marker (R154, R156): in a switch it takes its new configuration, and a tagged element drops its
open entries and sets ORPHAN (R155). -/
def State.passMark (s : State) (r : ElemRef) : State :=
  match (s.region r.m r.c r.slot).bind fun g => (g.elems[r.e]?).map fun e => (g, e) with
  | none => s
  | some (g, e) =>
    let idle := (s.core r.m r.c).kidle
    let s := match g.flood with
      | .switch _ words consts _ binds =>
        let s := if g.disc = 1 ∧ !e.entryTags.isEmpty then s.setSticky r.m r.c r.slot stORPHAN else s
        let kept := if g.disc = 1 then e.freeEntries else e
        let new := (e.rebound (kept.switch r.e words consts s.tb idle) binds).atSite g
        (s.modElem r fun _ => new).moveSide r e.ringOf new.ringOf
      | _ => s
    s.modElem r fun e =>
      { e with flooded := true
               form := match g.flood, e.form with
                 | .cut, .stamp n out _ => .stamp n out n
                 | _, f => f }

/-- An element that its region counts as a sink: SINK and ringout (R151, R467). -/
def Elem.isSink (e : Elem) : Bool := (e.kind == .me && decide (e.stage0.op = 0x68)) || e.isPort 3

/-- A sink that has reported. -/
def Elem.reported (e : Elem) : Bool := e.isSink && match e.form with
  | .sink _ r => r
  | .ring _ _ r _ _ => r
  | _ => false

/-- SINKs and ringouts of a region (R151, R467). -/
def sinkCount (elems : List Elem) : Nat := (elems.filter Elem.isSink).length

/-- An arc that a marker may enter: M passes ahead of what a breakpoint holds (R140, R256). -/
def Arc.takesMark (a : Arc) (cut : Bool) : Bool := (cut || a.held.isEmpty) && decide (a.toks.length < a.cap)

/-- One passive element's part of a flood: an input port gets its injected marker out when its arc has a slot, an output port has
passed once K heads its arc, or M stands in it, an element without arcs passes at once (R154, R156). -/
def State.settleElem (s : State) (r : ElemRef) : State :=
  match (s.region r.m r.c r.slot).bind fun g => (g.elems[r.e]?).map fun e => (g, e) with
  | none => s
  | some (g, e) =>
    if e.flooded || !g.flood.isSome || !e.passive then s
    else if e.isPort 0 then
      match g.outOf r.e 0 with
      | some a =>
        if a.takesMark g.flood.cut? then (s.give r 0 (Token.mark g.flood.cut? g.ctxn false)).passMark r else s
      | none => s.passMark r
    else if e.isPort 1 then
      let passes (a : Arc) : Bool := if g.flood.cut? then a.toks.any fun x => x.2.m else a.head.any fun x => x.2.k
      if (g.inOf r.e 0).all passes then (if g.flood.cut? then s else s.take r 0).passMark r else s
    else s.passMark r

/-- A breakpoint that fired in this flood records HIT and is disarmed (R256). -/
def Breakpoint.freeze (b : Breakpoint) (slot : SlotId) : Breakpoint :=
  if b.due && b.slot == slot then { b with en := false, hit := true, due := false } else b

/-- Every element has consumed its marker: a switch is over, and the region counts the sinks that it has now, with those that have
reported (R154, R162); a cut freezes the region (R256). -/
def State.endFlood (s : State) (m : RowId) (c : CoreId) (slot : SlotId) : State :=
  match s.region m c slot with
  | none => s
  | some g =>
    if !g.flood.isSome || g.elems.any (fun e => !e.flooded) then s
    else
      let clear (g : Region) : Region := { g with elems := g.elems.map fun e => { e with flooded := false, markE := false } }
      match g.flood with
      | .cut =>
        let due := (s.core m c).bps.toList.any fun b => b.due && b.slot == slot
        (s.modRegion m c slot fun g => { clear g with flood := .none, frozen := true, bpHold := g.bpHold || due }).modCore m c
          fun k => { k with bps := k.bps.map fun b => b.freeze slot }
      | .switch _ _ _ qk _ =>
        s.modRegion m c slot fun g =>
          { clear g with flood := .none, qk := qk, wsource := none, sinkn := sinkCount g.elems, sinks := (g.elems.filter Elem.reported).length }
      | .none => s

/-- The opcode of a stream command (Table 12.9). -/
def cmdOp (cmd : BitVec 128) : Nat := bits cmd.toNat 127 120

/-- A systolic operation that has started on a region and not ended, MXLDW and MXGO or MXDRN (R394). -/
def Op.drives (o : Op) (slot : SlotId) (lid : BitVec 16) : Bool :=
  decide (0x30 ≤ cmdOp o.cmd ∧ cmdOp o.cmd ≤ 0x32) && o.region == some slot && o.lid == lid
    && (o.phase == .forked || o.phase == .moving)

/-- A flood asked for may begin: in a systolic region a switch waits for the operations forked before it, and a cut for an
MXDRN in progress (R451, R459). -/
def Core.floodMay (k : Core) (slot : SlotId) (g : Region) (f : Flood) : Bool :=
  decide (g.disc ≠ 2) || !k.ops.any fun o => o.drives slot g.lid && match f with
    | .switch op _ _ _ _ => decide (o.id < op)
    | _ => decide (cmdOp o.cmd = 0x32) && o.phase == .moving && !o.aux.isEmpty

/-- The passive elements' part of a flood, and its end. -/
def State.settle (s : State) (m : RowId) (c : CoreId) (slot : SlotId) : State :=
  match s.region m c slot with
  | none => s
  | some g =>
    let s := (List.range g.elems.length).foldl (fun s e => s.settleElem { m := m, c := c, slot := slot, e := e }) s
    let s := s.endFlood m c slot
    match s.region m c slot with
    | none => s
    | some g =>
      match g.queued with
      | [] => s
      | f :: rest =>
        if g.flood.isSome || g.frozen || !(s.core m c).floodMay slot g f then s
        else
          let s := s.modRegion m c slot fun g => { g with flood := f, queued := rest }
          (List.range g.elems.length).foldl (fun s e => s.settleElem { m := m, c := c, slot := slot, e := e }) s

/-- The controller begins a flood, after any in progress (R154, R156). -/
def State.flood (s : State) (m : RowId) (c : CoreId) (slot : SlotId) (f : Flood) : State :=
  (s.modRegion m c slot fun g => { g with queued := g.queued ++ [f] }).settle m c slot

/-- A cut is asked for: one in progress goes on, and there is nothing to do when the region is frozen (R256, R262). -/
def State.askCut (s : State) (m : RowId) (c : CoreId) (slot : SlotId) : State :=
  match s.region m c slot with
  | none => s
  | some g =>
    if g.frozen then s
    else if g.flood.cut? || g.queued.any Flood.cut? then s.settle m c slot
    else s.flood m c slot .cut

/-- A frozen region thaws (R257): held tokens enter their arcs and M tokens at output ports go. -/
def State.thaw (s : State) (m : RowId) (c : CoreId) (slot : SlotId) : State :=
  match s.region m c slot with
  | none => s
  | some g =>
    if !g.frozen then s
    else
      (s.modRegion m c slot fun g =>
        { g with frozen := false, bpHold := false
                 elems := g.arcs.foldl (fun es a => modAt (fun e => a.held.foldl (fun e x => e.arrive a.cin x.2) e) a.cons es) g.elems
                 arcs := g.arcs.map fun a => { a with toks := (a.toks.filter fun x => !x.2.m) ++ a.held, held := [] } }).settle
        m c slot

/-- A region's own event once a breakpoint has fired (R256): the cut begins. Its engines go on until their arcs block. -/
def State.fireBreak (s : State) (m : RowId) (c : CoreId) (i : Fin 4) : State :=
  let b := (s.core m c).bps[i]
  match s.region m c b.slot with
  | none => s
  | some g =>
    if !b.due || g.frozen then s
    else if g.flood.cut? || g.queued.any Flood.cut? then s.settle m c b.slot
    else (s.modRegion m c b.slot fun g => { g with bpHold := true }).askCut m c b.slot

/-! ### A region's circuits and its end (R20, R229, R161) -/

/-- A link across an edge that has gone down is a broken circuit: the cores at both of its ends take a machine check of class LINK as
the region's circuits are made, or made again (R20, R21, R229). -/
def State.breakLinks (s : State) (m : RowId) (c : CoreId) (g : Region) : State :=
  g.links.foldl (fun s l => match s.hub.cutEdge (dieOf m) (dieOf l.m) with
    | some e => (s.takeMachineCheck m (placeOfCore c) 0 (mchkInfo 2 0 e 0)).takeMachineCheck l.m (placeOfCore l.c) 0 (mchkInfo 2 0 e 0)
    | none => s) s

/-- A region leaves its slot: its ports release their rings and its RCB shows FREE (Table 5.6). The join nodes over its circuits go with it, one
that other regions' circuits are in too: the first of their owners to be torn down ends it (R229; DESIGN CHOICE, log entry 67). -/
def State.freeRegion (s : State) (m : RowId) (c : CoreId) (slot : SlotId) (status : Status) : State :=
  match s.region m c slot with
  | none => s
  | some g =>
    let s := s.setRegionSt m c slot .free status
    let s := (List.range g.elems.length).foldl (fun s e => s.dropSides (.port m c slot e)) s
    let s := s.modHub fun h => { h with joins := h.joins.filter fun j => !j.members.any fun x => x.rcb == g.rcb && x.lid == g.lid }
    s.modCore m c fun k => { k with regions := k.regions.set slot none }

end Sys2Proof.Machine
end

