-- ==== Sys2Proof/Machine/Access.lean ====
section
/-! DEFINITION. Reads and writes of more than one line by engines, elements and controllers (R171–R178, R183, R186): each line
is checked, and nothing is delivered unless every line was. -/

namespace Sys2Proof.Machine

/-- What a read comes to. -/
inductive Got where
  /-- the bytes, and whether one came from a poisoned line -/
  | ok (bs : List Byte) (poison : Bool)
  | fail (c : Cause)
  | wait
  deriving DecidableEq, Repr

/-- What a write comes to. -/
inductive Put where
  | ok
  | fail (c : Cause)
  | wait
  deriving DecidableEq, Repr

/-- The pieces of n bytes at an address that lie in one line each, by fuel. -/
def pieces : Nat → Nat → Nat → List (Nat × Nat)
  | 0, _, _ => []
  | k + 1, a, n =>
    if n = 0 then []
    else let t := min n (128 - a % 128); (a, t) :: pieces k (a + t) (n - t)

/-- The lines' pieces of n bytes at an address. -/
def linePieces (a n : Nat) : List (Nat × Nat) := pieces (n / 128 + 2) a n

/-- An address that a unit which is no sequencer may not use: the cell register window gives XLATE (R183). -/
def engBars (va : Nat) : Bool := decide (2 ^ 52 ≤ va ∨ (cellRegBase ≤ va ∧ va < cellRegBase + 2 ^ 32))

/-- Check of one piece of an access by a unit that is no sequencer; its line stands until the access has used it. -/
def State.pieceCheck (s : State) (ag : Agent) (va : Nat) (kind : Kind) : State × Check :=
  if engBars va then (s, .fail .xlate) else s.lineAddr ag (toWord va) 8 kind

/-- Check of an access of one line by a unit that is no sequencer. -/
def State.engCheck (s : State) (ag : Agent) (va : Nat) (kind : Kind) : State × Check :=
  if engBars va then (s, .fail .xlate) else s.checkAddr ag (toWord va) 8 kind

/-- Read pieces in order; a dead line gives DROPRD (Table 6.7). -/
def State.readPieces (s : State) (ag : Agent) : List (Nat × Nat) → State × Got
  | [] => (s, .ok [] false)
  | (va, n) :: rest =>
    match s.pieceCheck ag va .load with
    | (s, .fail c) => (s, .fail c)
    | (s, .ok (.mem pa)) =>
      if s.mem.dead pa n then (s, .fail .dropRd)
      else
        let bs := s.mem.read pa n
        let p := s.mem.poisoned pa n
        match s.readPieces ag rest with
        | (s, .ok more q) => (s, .ok (bs ++ more) (p || q))
        | r => r
    | (s, _) => (s, .wait)

/-- Where the pieces of an access that its agent has made stand. -/
def State.pieceAddrs (s : State) (ag : Agent) (va n : Nat) : List (Nat × Nat) :=
  (linePieces va n).filterMap fun x => match (s.reachAddr ag (toWord x.1) 8 .load).2 with
    | .ok (.mem pa) => some (pa, x.2)
    | _ => none

/-- Read n bytes at a virtual address. -/
def State.readMem (s : State) (ag : Agent) (va n : Nat) : State × Got :=
  match s.readPieces ag (linePieces va n) with
  | (s, .wait) => (s, .wait)
  | (s, r) => (s.usedLines ag 0 ((s.pieceAddrs ag va n).map (·.1)), r)

/-- Which of the bytes that a read has just given came from a poisoned line. -/
def State.marks (s : State) (ag : Agent) (va n : Nat) : List Bool :=
  (s.pieceAddrs ag va n).flatMap fun x => List.replicate x.2 (s.mem.poisoned x.1 x.2)

/-- Check pieces for writing, in order; their physical addresses. -/
def State.writeCheck (s : State) (ag : Agent) (kind : Kind) : List (Nat × Nat) → State × Put × List (Nat × Nat)
  | [] => (s, .ok, [])
  | (va, n) :: rest =>
    match s.pieceCheck ag va kind with
    | (s, .fail c) => (s, .fail c, [])
    | (s, .ok (.mem pa)) =>
      match s.writeCheck ag kind rest with
      | (s, .ok, more) => (s, .ok, (pa, n) :: more)
      | r => r
    | (s, _) => (s, .wait, [])

/-- Write bytes over physical pieces in order. -/
def putPieces (mem : Memory) : List (Nat × Nat) → List Byte → Memory
  | [], _ => mem
  | (pa, n) :: rest, bs => putPieces (mem.write pa (bs.take n)) rest (bs.drop n)

/-- The mask of bytes a to a + n − 1 of a line. -/
def spanMask (a n : Nat) : Nat := (2 ^ n - 1) * 2 ^ (a % 128)

/-- An operation's elements that have covered a poisoned line have written it whole, which clears its poison; a poisoned element does
not (R26, R184, R198). -/
def State.coverLine (s : State) (m : RowId) (c : CoreId) (op : Nat) (x : Nat × Nat) (poison : Bool) : State :=
  let l := x.1 / 128
  match (s.core m c).findOp op with
  | none => s
  | some o =>
    let rest := o.cover.filter fun y => y.1 != l
    let set (s : State) (cs : List (Nat × Nat)) : State := s.modOp m c op fun o => { o with cover := cs }
    if poison || !s.mem.poison.contains l then set s rest
    else
      let mask := ((o.cover.find? fun y => y.1 == l).map (·.2)).getD 0 ||| spanMask x.1 x.2
      if mask = 2 ^ 128 - 1 then set (s.withMem { s.mem with poison := s.mem.poison.filter (· != l) }) rest
      else set s ((l, mask) :: rest)

/-- What an operation's write of pieces covers. -/
def State.coverPieces (s : State) (ag : Agent) (ps : List (Nat × Nat)) (poison : Bool) : State :=
  match ag.unit with
  | .core c => if ag.byLine then ps.foldl (fun s x => s.coverLine ag.m c (ag.op - 1) x poison) s else s
  | _ => s

/-- Write bytes at a virtual address, every line checked first; `poison` marks the lines poisoned (Table 1.3). -/
def State.writeMem (s : State) (ag : Agent) (va : Nat) (bs : List Byte) (poison : Bool := false) : State × Put :=
  match s.writeCheck ag .store (linePieces va bs.length) with
  | (s, .ok, ps) =>
    let mem := putPieces s.mem ps bs
    let s := s.withMem (if poison then mem.poisonLines (ps.flatMap fun x => linesOf x.1 x.2) else mem)
    ((s.coverPieces ag ps poison).usedLines ag 1 (ps.map (·.1)), .ok)
  | (s, .wait, _) => (s, .wait)
  | (s, r, _) => (s.usedLines ag 1 ((s.pieceAddrs ag va bs.length).map (·.1)), r)

/-- Write bytes at a virtual address, each line poisoned that takes a byte which `z` marks (R379, R387). -/
def State.writeMarked (s : State) (ag : Agent) (va : Nat) (bs : List Byte) (z : List Bool) : State × Put :=
  match s.writeCheck ag .store (linePieces va bs.length) with
  | (s, .ok, ps) =>
    let cut := ps.foldl (fun (x : List (Nat × Nat × Bool) × List Bool) y => (x.1 ++ [(y.1, y.2, (x.2.take y.2).any id)], x.2.drop y.2)) ([], z)
    let mem := (putPieces s.mem ps bs).poisonLines (cut.1.flatMap fun x => if x.2.2 then linesOf x.1 x.2.1 else [])
    let s := cut.1.foldl (fun s x => s.coverPieces ag [(x.1, x.2.1)] x.2.2) (s.withMem mem)
    (s.usedLines ag 1 (ps.map (·.1)), .ok)
  | (s, .wait, _) => (s, .wait)
  | (s, r, _) => (s.usedLines ag 1 ((s.pieceAddrs ag va bs.length).map (·.1)), r)

/-- The physical address that a unit which is no sequencer would reach, without an access (R185). -/
def State.peekPa (s : State) (ag : Agent) (va : Nat) : Option Nat :=
  if engBars va then none
  else if sliceBase ≤ va ∧ va < sliceBase + 2 ^ 32 then
    (sliceOf (va - sliceBase)).bind fun sl =>
      if s.reach ag.lid sl.m sl.c sl.mi = .yes then some (spadBase + (va - sliceBase)) else none
  else match (s.translate { ag with unit := .hub } va).2 with
    | .ok e => some (e.pbase + (va - e.vbase))
    | _ => none

/-- The number of n bytes at an address as they now stand, without an access: those of a cell that the launch has given up stand in what was
kept of it; none where a read would fail (R185, R247). -/
def State.peekNum (s : State) (ag : Agent) (va n : Nat) : Option Nat :=
  match s.peekPa ag va with
  | some pa => if s.mem.dead pa n || s.mem.poisoned pa n then none else some (s.mem.num pa n)
  | none =>
    if !s.vacated ag.lid va then none
    else
      let pa := spadBase + (va - sliceBase)
      (s.suspended.findSome? fun x => if x.lid = ag.lid then x.lines.find? fun l => l.1 == pa / 128 else none).bind fun l =>
        if l.2.2 then none else some (natOf ((l.2.1.drop (pa % 128)).take n))

/-- The banks of physical spans serve, or wake (R187). -/
def State.spansReady (s : State) (write : Bool) (spans : List (Nat × Nat)) : State × Bool :=
  spans.foldl (fun x y => let z := x.1.linesReady y.1 y.2 write; (z.1, x.2 && z.2)) (s, true)

/-- An agent's requests for lines are all served, each for itself, or some wait (R274). -/
def State.askLines (s : State) (ag : Agent) (kind : Nat) (lines : List Nat) : State × Bool :=
  match lines.foldl (fun x l => let y := x.1.askLine ag kind (l * 128); (y.1, x.2 && y.2)) (s, true) with
  | (s, true) => (s.usedLines ag kind (lines.map (· * 128)), true)
  | r => r

/-- The circuits to the dies of physical spans stand, or one is broken (R20, R228). -/
def State.spansJoined (s : State) (ag : Agent) (spans : List (Nat × Nat)) : State × Bool :=
  (spans.map fun x => homeDie x.1).eraseDups.foldl (fun x d => let y := x.1.overCircuit ag d; (y.1, x.2 && y.2)) (s, true)

/-- An access to physical spans, made at once: its banks serve, its circuits stand and its row's budget lets every line pass, or it waits
(R20, R187, R228, R274, R275). -/
def State.spansServed (s : State) (ag : Agent) (write : Bool) (spans : List (Nat × Nat)) : State × Bool :=
  match s.spansReady write spans with
  | (s, true) => match s.spansJoined ag spans with
    | (s, true) => s.askLines ag (b2n write) (spans.flatMap fun x => linesOf x.1 x.2).eraseDups
    | r => r
  | r => r

/-- Bytes of a memory cell read without regard to the launch's checks, dead lines and poison told apart: an element's own cell
(R429). -/
def State.readCellBytes (s : State) (m : RowId) (c : CoreId) (mi : Fin 64) (off n : Nat) : List Byte × Bool :=
  let pa := spadBase + sliceOffset m c mi off
  (s.mem.read pa n, s.mem.dead pa n || s.mem.poisoned pa n)

end Sys2Proof.Machine
end

