-- ==== Sys2Proof/Machine/HostRing.lean ====
section
/-! DEFINITION. Request rings of the host-assisted hub functions (R51, R52, R97). -/

namespace Sys2Proof.Machine

/-- Function i is in host-assisted mode (R50). -/
def Hub.assisted (h : Hub) (i : Fin 6) : Bool := h.hmode.getLsbD i.val

/-- The ring holds 256 requests that software has not read (R51). -/
def HaRing.full (q : HaRing) : Bool := decide (256 ≤ (q.qh - q.qt).toNat)

/-- A request's 64 bytes enter the ring, and its frame area if it has one; an empty ring posts HAQ (R51, R400). -/
def State.haWrite (s : State) (i : Fin 6) (words : List Word) (area : List Byte) : State :=
  let q := s.hub.ha[i]
  let slot := q.qh.toNat % 256
  let put (s : State) (a : Nat) (bs : List Byte) : State :=
    if bs.isEmpty ∨ hbmEnd < a + bs.length then s else s.withMem (s.mem.write a bs)
  let s' := put s (q.qb.toNat + 64 * slot) ((words.flatMap fun w => bytesOf 8 w.toNat).take 64)
  let s' := put s' (q.qb.toNat + 0x4000 + 0x1200 * slot) area
  let s' := s'.modHub fun h => { h with ha := vmod h.ha i fun q => { q with qh := q.qh + 1 } }
  if q.qh = q.qt then s'.postEvent .haq 4 0xFF 0xFF 0 0 (toWord i.val) else s'

/-- The priority in word 0 of a request (R97). -/
def reqPrio (words : List Word) : Nat := wbits (words.headD 0) 39 32

/-- Requests that wait for a slot enter in order, the highest priority first (R51). -/
def State.haDrain (s : State) (i : Fin 6) : Nat → State
  | 0 => s
  | n + 1 =>
    let q := s.hub.ha[i]
    match q.waiting with
    | [] => s
    | w :: ws =>
      if q.full then s
      else
        let best := ws.foldl (fun b x => if reqPrio b.1 < reqPrio x.1 then x else b) w
        let s := s.modHub fun h => { h with ha := vmod h.ha i fun q => { q with waiting := q.waiting.erase best } }
        (s.haWrite i best.1 best.2.2).haDrain i n

/-- A request of function i with its words beyond word 0; `who` tells what waits for the answer (R51, R97). -/
def State.haPost (s : State) (i : Fin 6) (prio : Nat) (words : List Word) (who : List Nat)
    (area : List Byte := []) : State :=
  let q := s.hub.ha[i]
  let w0 := toWord (q.nextNo.toNat * 2 ^ 48 + i.val * 2 ^ 40 + prio * 2 ^ 32)
  let all := (w0 :: words) ++ List.replicate (7 - words.length) 0
  let s := s.modHub fun h => { h with ha := vmod h.ha i fun q =>
    { q with nextNo := q.nextNo + 1, opened := q.opened ++ [(q.nextNo, who)], waiting := q.waiting ++ [(all, who, area)] } }
  s.haDrain i (s.hub.ha[i]).waiting.length

/-- Some request of function i waits for this requester's answer. -/
def State.haOpen (s : State) (i : Fin 6) (who : List Nat) : Bool := (s.hub.ha[i]).opened.any fun x => x.2 == who

end Sys2Proof.Machine
end

