-- ==== Sys2Proof/Machine/Image.lean ====
section
/-! DEFINITION. Configuration images: their layout and every ground on which the placement engine refuses one with BADIMG
(R90, R313–R322, R410–R414, R427, R430, R439). -/

namespace Sys2Proof.Machine

/-! ### Stage words -/

/-- The class and accepted types of a stage opcode (Table 12.13). -/
def opTypes (op : Nat) : List Nat :=
  if (1 ≤ op ∧ op ≤ 0x16) then [0, 1]
  else if op ∈ [0x20, 0x21, 0x22, 0x26, 0x27, 0x28, 0x29, 0x2A] then [2, 3, 4]
  else if op ∈ [0x23, 0x24, 0x25, 0x2B, 0x2C, 0x2D, 0x2E, 0x2F, 0x30, 0x31, 0x32, 0x33, 0x44, 0x81, 0x82] then [2]
  else if op = 0x40 then [2, 3, 4, 0xD]
  else if op = 0x41 then [0, 1, 0xA]
  else if op = 0x42 then [2, 3, 4, 5, 6, 7, 8, 9, 0xD]
  else if op = 0x43 ∨ op = 0x45 then [5, 6, 7, 8, 9, 0xB]
  else if op = 0x53 ∨ op = 0x54 then [0, 1, 2, 3, 4]
  else if 0x50 ≤ op ∧ op ≤ 0x57 then [0, 1, 2, 3, 4, 5, 6, 7, 8, 9, 0xA, 0xB]
  else if 0x60 ≤ op ∧ op ≤ 0x6B then [0]
  else if op = 0x70 ∨ op = 0x71 then [0, 1, 2, 3, 4, 0xA]
  else if op = 0x72 then [0, 1, 2]
  else if op = 0x78 ∨ op = 0x79 then [0, 1]
  else if op = 0x7A then [0, 1, 2, 3, 4]
  else if op = 0x80 then [3, 4, 5, 6, 7, 8, 9, 0xA, 0xB]
  else if op = 0x83 then [2, 3, 4, 0xC, 0xD]
  else if op = 0x84 then [0]
  else if op = 0x85 then [2, 3, 4]
  else []

/-- An ME op: MLD, MST, MAMO, STAMP, ORDER, SINK, CNTR (R313). -/
def isMeOp (op : Nat) : Bool := decide (op ∈ [0x68, 0x69, 0x6A, 0x6B, 0x70, 0x71, 0x72])
/-- A control form that stands alone in stage 0 of a CE (Table 16.8). -/
def isLoneOp (op : Nat) : Bool := decide (op ∈ [0x61, 0x62, 0x63, 0x64, 0x66, 0x67, 0x78, 0x79, 0x7A, 0x80, 0x83, 0x84])
/-- STEER or GATE. -/
def isLastOp (op : Nat) : Bool := decide (op = 0x60 ∨ op = 0x65)

/-- SUB of a class-S word (R311). -/
def Stage.sub (st : Stage) : Nat := bits st.low 31 24

/-- SUB, PARAM and selectors that the form assigns (R281, R311, R412–R416, R424, R427–R436, R446, R452–R458). -/
def Stage.fieldsOk (st : Stage) : Bool :=
  let sub := st.sub
  let rnd := sub % 8
  let no15 := decide (st.sela ≠ 15 ∧ st.selb ≠ 15 ∧ st.selc ≠ 15)
  let p := st.low
  let wide (t : Nat) : Bool := decide (t = 0xC ∨ t = 0xD)
  let half (a b : Nat) : Bool := wide a || wide b || !bitN sub 3
  let fmt : Bool := decide (sub / 16 ∈ [2, 3, 4, 0xD])
  match st.op with
  | 0x14 => decide (sub ≤ 5)
  | 0x20 | 0x21 | 0x22 | 0x23 | 0x24 | 0x25 | 0x2B | 0x2C => decide (sub ≤ 4)
  | 0x26 | 0x27 | 0x28 | 0x29 => decide (sub = 0)
  | 0x2A => decide (sub ≤ 7)
  | 0x2D | 0x2E | 0x2F | 0x30 | 0x31 | 0x32 | 0x33 => decide (sub = 0)
  | 0x40 => decide (rnd ≤ 4 ∧ sub / 64 = 0 ∧ bits sub 5 4 ≤ 2) && half st.ty 0
  | 0x41 => decide (rnd ≤ 4) && fmt && half st.ty (sub / 16)
  | 0x42 => decide (rnd ≤ 4) && decide (sub / 16 ∈ [2, 3, 4, 5, 6, 7, 8, 9, 0xD]) && half st.ty (sub / 16)
  | 0x43 => decide (sub ≤ 4)
  | 0x44 => decide (rnd ≤ 4) && decide (sub / 16 ∈ [5, 6, 7, 8, 9, 0xB])
  | 0x45 => decide (sub = 0 ∨ sub = 8)
  | 0x50 | 0x56 => decide (sub = 0)
  | 0x51 | 0x52 | 0x55 => decide (sub = 0 ∨ sub = 64)
  | 0x53 | 0x54 =>
    let k := bits sub 5 3
    decide (sub < 128 ∧ k ≤ 5) && (decide (st.op = 0x54) || decide (sub < 64))
      && (if st.ty < 2 then decide (rnd = 0) else decide (rnd ≤ 4 ∧ k ≤ 2))
  | 0x57 => decide (sub = 0 ∨ sub = 8)
  | 0x60 | 0x65 => decide (p ≤ 1 ∧ st.dst = 0 ∧ st.sela ≠ 15 ∧ st.selb ≠ 15)
  | 0x61 => decide (p ≤ 1 ∧ st.dst = 0 ∧ st.sela = 1 ∧ st.selb = 2 ∧ st.selc = 3)
  | 0x62 => decide (p = 0 ∧ st.dst = 0 ∧ st.sela = 2 ∧ st.selb = 3)
  | 0x63 => decide (st.dst = 0 ∧ st.sela = 1 ∧ st.selb = 2 ∧ st.selc = 3)
  | 0x64 => decide (p = 0 ∧ st.dst = 0 ∧ st.sela = 1 ∧ st.selb = 2)
  | 0x66 | 0x67 => decide (p ≤ 2 ∧ st.dst = 0 ∧ st.sela = 1)
  | 0x68 => decide (1 ≤ p ∧ p ≤ 65535 ∧ st.dst = 0 ∧ st.sela = 1 ∧ st.selb = 14 ∧ st.selc = 14)
  | 0x69 =>
    decide (p < 65536 ∧ p % 8192 ≤ 8189 ∧ 1 ≤ bits p 14 13 ∧ st.dst = 0 ∧ st.selb = 14 ∧ st.selc = 14)
      && decide (st.sela = if bitN p 15 then 1 else 14)
  | 0x6A => decide (p < 2 ^ 20 ∧ st.dst = 0 ∧ st.sela = 1 ∧ st.selb = 14 ∧ st.selc = 14)
  | 0x6B => decide (p < 4096 ∧ st.dst = 0 ∧ st.sela = 1 ∧ st.selb = 14 ∧ st.selc = 14)
  | 0x70 => no15 && decide (p ≤ 1 ∧ st.dst = 0 ∧ st.sela = 1 ∧ st.selc = 14)
  | 0x71 => no15 && decide (p ≤ 1 ∧ st.dst = 0 ∧ st.sela = 1 ∧ st.selb = 2 ∧ st.selc = 14)
  | 0x72 =>
    let kind := bits p 4 2
    decide (p < 2048 ∧ !bitN p 1 ∧ bits p 7 5 ≤ 5 ∧ st.dst = 0 ∧ st.sela = 1 ∧ st.selb = 2)
      && decide (st.selc = if kind = 7 then 3 else 14)
      && (if st.ty = 2 then decide (kind = 0 ∧ bits p 10 8 ≤ 4 ∨ 4 ≤ kind ∧ bits p 10 8 = 0) else decide (bits p 10 8 = 0))
  | 0x78 | 0x79 => decide (p = 0 ∧ st.dst = 0 ∧ st.sela = 1 ∧ st.selb = 2)
  | 0x7A => decide (p < 128 ∧ p % 8 ≤ 4 ∧ bits p 4 3 ≤ 2 ∧ st.dst = 0 ∧ st.sela = 1 ∧ st.selb = 2)
  | 0x80 =>
    decide (p < 128 ∧ st.dst = 0 ∧ st.sela = 14 ∧ st.selb = 14 ∧ st.selc = 14) && !st.drpa && !st.drpb && !st.drpc
      && (if st.ty = 3 ∨ st.ty = 4 ∨ st.ty = 0xA then !bitN p 6 else true) && (decide (st.ty ≠ 0xB) || bitN p 6)
  | 0x81 | 0x82 => no15 && decide (p = 0)
  | 0x83 =>
    decide (p < 64 ∧ p % 8 ≤ 4 ∧ 9 ≤ st.dst ∧ st.sela = 1 ∧ st.selb = 14 ∧ st.selc = 14)
      && (!bitN p 5 || (decide (st.ty = 2) && !bitN p 4 && !bitN p 3)) && (decide (st.ty ≠ 0xC) || decide (p % 8 = 0))
  | 0x84 => decide (p ≤ 1 ∧ st.dst = 0 ∧ st.sela = 1 ∧ st.selb = 14 ∧ st.selc = 14)
  | 0x85 => no15 && decide (p ≤ 4)
  | _ => true

/-- A stage word is assigned in its place: its opcode and type, its stage, its fields, and the disciplines that allow it
(R310–R313, R414, R427, R434, R436, R439). -/
def Stage.ok (st : Stage) (disc index : Nat) : Bool :=
  decide (st.ty ∈ opTypes st.op) && decide (st.dst ≤ 12) && st.fieldsOk
    && (decide (st.op < 0x60) || decide (st.sela ≠ 15 ∧ st.selb ≠ 15 ∧ st.selc ≠ 15))
    && (!isLoneOp st.op || decide (index = 0) && st.emit)
    && (!isLastOp st.op || st.emit || decide (index = 5))
    && (decide (st.op ∉ [0x23, 0x24, 0x25]) || decide (index = 2 ∨ index = 4))
    && (decide (st.op ∉ [0x78, 0x79, 0x7A]) || decide (disc = 0))
    && (decide (st.op ∉ [0x80, 0x83, 0x84]) || decide (disc = 2))

/-! ### Records -/

/-- An arc record (Table 12.17). -/
structure ArcRec where
  prod : Nat
  pout : Nat
  cons : Nat
  cin : Nat
  cap : Nat
  nin : Nat
  nout : Nat
  cmask : Nat
  res : List Nat
  deriving DecidableEq, Repr

/-- The parts of an image. -/
structure ImageData where
  disc : Nat
  elems : List (ElemKind × List (BitVec 64))
  arcs : List ArcRec
  inits : List (Nat × Token)
  consts : List (Nat × Nat × Vector Lane 16)
  folds : List (BitVec 2 × List (Nat × BitVec 2))
  hash : BitVec 256
  deriving DecidableEq, Repr

/-- n bytes of a byte string at an offset, as a number. -/
def fieldAt (bs : List Byte) (o n : Nat) : Nat := natOf ((bs.drop o).take n)

/-- An element record, or none where a value is out of range (R316). -/
def elemRec (bs : List Byte) (idx : Nat) : Option (ElemKind × List (BitVec 64)) :=
  let w0 := fieldAt bs 0 4
  let word (i : Nat) : BitVec 64 := BitVec.ofNat 64 (fieldAt bs (8 + 8 * i) 8)
  if w0 % 4096 ≠ idx ∨ w0 / 16384 ≠ 0 ∨ fieldAt bs 4 4 ≠ 0 then none
  else
    match bits w0 13 12 with
    | 0 => if fieldAt bs 56 8 = 0 then some (.ce, (List.range 6).map word) else none
    | 1 => if fieldAt bs 16 48 = 0 then some (.me, [word 0]) else none
    | 2 =>
      let p := portRecOf (word 0)
      if fieldAt bs 16 48 = 0 ∧ p.kind ≤ 5 ∧ p.rsv = 0
          ∧ (p.kind ≠ 5 ∨ (1 ≤ p.len ∧ p.len ≤ 1024 ∧ p.off % 128 = 0)) then some (.xe, [word 0])
      else none
    | _ => none

/-- The inputs and outputs an element has (R316, R317, R431, Table 16.8). -/
def endsOf (x : ElemKind × List (BitVec 64)) : List Nat × List Nat :=
  let st := stageOf (x.2.headD 0)
  match x.1 with
  | .ce => ([0, 1, 2, 3], [0, 1, 2, 3])
  | .me =>
    match st.op with
    | 0x68 => ([0], [])
    | 0x69 => (if bitN st.low 15 then [0] else [], [0])
    | 0x71 => ([0, 1], [0])
    | 0x72 => (if bits st.low 4 2 = 7 then [0, 1, 2] else [0, 1], [0])
    | _ => ([0], [0])
  | .xe =>
    match (portRecOf (x.2.headD 0)).kind with
    | 0 | 2 => ([], [0])
    | 1 | 3 => ([0], [])
    | _ => ([], [])

/-- An arc record, or none where it is refused (R317, R319). -/
def arcRec (bs : List Byte) (elems : List (ElemKind × List (BitVec 64))) : Option ArcRec :=
  let w0 := fieldAt bs 0 4
  let w1 := fieldAt bs 4 4
  let res := (List.range 4).map fun i => bits w1 (4 * i + 19) (4 * i + 16)
  let a : ArcRec := { prod := w0 % 4096, pout := bits w0 13 12, cons := bits w0 27 16, cin := bits w0 29 28, cap := w1 % 16
                      nin := bits w1 7 4, nout := bits w1 11 8, cmask := bits w1 15 12, res := res }
  let okRes : Bool := (List.range 4).all fun i => bitN a.cmask i == decide (res.getD i 0 ≠ 0)
  let okEnds : Bool := match elems[a.prod]?, elems[a.cons]? with
    | some p, some c => (endsOf p).2.contains a.pout && (endsOf c).1.contains a.cin
    | _, _ => false
  if bits w0 15 14 = 0 ∧ bits w0 31 30 = 0 ∧ 1 ≤ a.cap ∧ a.cap ≤ 8 ∧ 1 ≤ a.nin ∧ a.nin ≤ 8 ∧ 1 ≤ a.nout ∧ a.nout ≤ 8
      ∧ okRes ∧ okEnds ∧ res.foldl (· + ·) 0 ≤ a.cap ∧ a.cmask = 1 then some a
  else none

/-- Lanes of a 72-byte record (R318). -/
def recLanes (bs : List Byte) : Vector Lane 16 := lanesOf ((List.range 16).map fun i => fieldAt bs (8 + 4 * i) 4)

/-- An initial token record, or none where it is refused alone (R318, R319). -/
def initRec (bs : List Byte) (narc : Nat) : Option (Nat × Token) :=
  let w0 := fieldAt bs 0 4
  let t := Token.ofHdr (fieldAt bs 4 4) (recLanes bs)
  if w0 < narc ∧ t.cnt ≤ 16 ∧ !t.marker ∧ t.ctx = 0 then some (w0, t) else none

/-- A constant record, or none where it is refused (R318, R319). -/
def constRec (bs : List Byte) (elems : List (ElemKind × List (BitVec 64))) : Option (Nat × Nat × Vector Lane 16) :=
  let w0 := fieldAt bs 0 4
  let e := w0 % 4096
  if w0 / 2 ^ 17 = 0 ∧ bits w0 13 12 = 0 ∧ fieldAt bs 4 4 = 0 ∧ (elems[e]?).any (fun x => x.1 == .ce) then
    some (e, bits w0 16 14, recLanes bs)
  else none

/-- A fold variant's block: its level, its map, and its length in bytes (R320). -/
def foldRec (bs : List Byte) (elems : List (ElemKind × List (BitVec 64))) : Option ((BitVec 2 × List (Nat × BitVec 2)) × Nat) :=
  let n := elems.length
  let w0 := fieldAt bs 0 4
  let level := w0 % 4
  let nvel := bits w0 27 16
  let raw := (List.range n).map fun e => fieldAt bs (8 + 4 * e) 4
  let map := raw.map fun x => (x % 4096, BitVec.ofNat 2 (bits x 13 12))
  let pairs := List.zip map (elems.map (·.1))
  let len := (8 + 4 * n + 7) / 8 * 8
  let clash := pairs.any fun x => pairs.any fun y => x.1.1 == y.1.1 && x.2 != y.2
  if bs.length < len ∨ w0 ≠ level + nvel * 65536 ∨ level = 0 ∨ level = 3 ∨ nvel = 0 ∨ 576 < nvel ∨ fieldAt bs 4 4 ≠ 0
      ∨ raw.any (fun x => decide (16384 ≤ x)) ∨ map.any (fun x => decide (nvel ≤ x.1)) ∨ clash ∨ map.eraseDups.length ≠ n
      ∨ fieldAt bs (8 + 4 * n) (len - 8 - 4 * n) ≠ 0 then none
  else some ((BitVec.ofNat 2 level, map), len)

/-- Every element of a list through a partial function. -/
def allSome {α β : Type} (f : α → Option β) : List α → Option (List β)
  | [] => some []
  | x :: xs =>
    match f x, allSome f xs with
    | some y, some ys => some (y :: ys)
    | _, _ => none

/-! ### Whole images -/

/-- The MMA sites of an image's elements. -/
def mmaSites (elems : List (ElemKind × List (BitVec 64))) : List MmaSite :=
  (elems.filter fun x => x.1 == .ce).filterMap fun x => mmaSite x.2

/-- The accumulator store ports, in canonical order (R439). -/
def storePorts (elems : List (ElemKind × List (BitVec 64))) : List PortRec :=
  (elems.filter fun x => x.1 == .xe).map (fun x => portRecOf (x.2.headD 0)) |>.filter fun p => p.kind == 5

/-- One more than the greatest of a list. -/
def spanOf (xs : List Nat) : Nat := xs.foldl (fun m x => max m (x + 1)) 0

/-- The accumulator is wide-fixed (R444, Table 17.1). -/
def wideKind (ty : Nat) (scale : Bool) : Bool := !scale && decide (ty ∈ [5, 7, 8, 9, 0xA])

/-- The rules for a systolic image, and for the matrix forms that read its stores (R439, R457). -/
def systolicOk (im : ImageData) : Bool :=
  let sites := mmaSites im.elems
  let stores := storePorts im.elems
  let nc := spanOf (sites.map (·.j))
  let nd := spanOf (sites.map (·.i))
  let isMma (e : Nat) : Bool := (im.elems[e]?).any fun x => x.1 == .ce && (mmaSite x.2).isSome
  match sites with
  | [] => false
  | s0 :: _ =>
    decide (sites.length = nc * nd) && ((sites.map fun x => (x.j, x.i)).eraseDups.length == sites.length)
      && sites.all (fun x => x.ty == s0.ty && x.scale == s0.scale)
      && !im.arcs.any (fun a => isMma a.prod || isMma a.cons) && !im.consts.any (fun c => isMma c.1)
      && decide (stores.length = nc)
      && (match stores with
          | [] => false
          | p0 :: _ => stores.all fun p => decide (p.len = p0.len ∧ p.len % 4 = 0 ∧ p.off + 128 * p.len ≤ 0x20000))
      && im.folds.isEmpty
      && im.elems.all (fun x =>
          let st := stageOf (x.2.headD 0)
          !(x.1 == .ce && decide (st.op = 0x83 ∧ st.ty = 0xC)) || wideKind s0.ty s0.scale)

/-- A CE's stages up to the first EMIT are assigned, at most one control form among them (R312, R313, R411, R427). -/
def ceOk (disc : Nat) (arcs : List ArcRec) (e : Nat) (ws : List (BitVec 64)) : Bool :=
  let sts := stagesRun ws
  let hasOut (o : Nat) : Bool := arcs.any fun a => a.prod == e && a.pout == o
  let flow := sts.any fun st => isLastOp st.op
  (List.zip sts (List.range 6)).all (fun x => x.1.ok disc x.2 && !isMeOp x.1.op && (decide (x.1.dst < 9) || hasOut (x.1.dst - 9)))
    && (!flow || !(sts.dropLast.any fun st => decide (9 ≤ st.dst) || isLastOp st.op))
    && ((mmaSite ws).isSome || arcs.any fun a => a.cons == e)

/-- Every element's words are assigned (R313, R410). -/
def wordsOk (im : ImageData) : Bool :=
  (List.zip im.elems (List.range im.elems.length)).all fun x =>
    match x.1.1 with
    | .ce => ceOk im.disc im.arcs x.2 x.1.2
    | .me => let st := stageOf (x.1.2.headD 0); isMeOp st.op && st.ok im.disc 0
    | .xe => true

/-- Each ORDER names a STAMP of the image and no two name one (R430). -/
def ordersOk (im : ImageData) : Bool :=
  let pairs := (im.elems.filter fun x => x.1 == .me).filterMap fun x =>
    let st := stageOf (x.2.headD 0)
    if st.op = 0x6B then some (st.low % 4096) else none
  pairs.all (fun p => (im.elems[p]?).any fun x => x.1 == .me && decide ((stageOf (x.2.headD 0)).op = 0x6A))
    && decide (pairs.eraseDups.length = pairs.length)

/-- The initial tokens that an arc receives fit its capacity (R318). -/
def initsOk (im : ImageData) : Bool :=
  (List.zip im.arcs (List.range im.arcs.length)).all fun x =>
    decide ((im.inits.filter fun t => t.1 == x.2).length ≤ x.1.cap)

/-- The length an image's header gives it, or none when the header is refused (R315). -/
def imageLen (hdr : List Byte) : Option Nat :=
  let len := fieldAt hdr 0x10 4
  if fieldAt hdr 0 4 = 0x47524146 ∧ len % 8 = 0 then some (0x80 + len) else none

/-- The image in its header and body, or none where the placement engine refuses it with BADIMG (R315–R321). -/
def parseImage (bs : List Byte) : Option ImageData :=
  let w4 := fieldAt bs 4 4
  let disc := bits w4 17 16
  let foldn := bits w4 19 18
  let nelem := fieldAt bs 8 2
  let narc := fieldAt bs 10 2
  let ninit := fieldAt bs 12 2
  let nconst := fieldAt bs 14 2
  let off (i : Nat) : Nat := fieldAt bs (0x18 + 4 * i) 4
  let body := bs.drop 0x80
  let hash : BitVec 256 := BitVec.ofNat 256 (fieldAt bs 0x40 32)
  let within (i n : Nat) : Bool := decide (0x80 ≤ off i ∧ off i % 8 = 0 ∧ off i + n ≤ bs.length)
  let recs (i n size : Nat) : List (List Byte) := (List.range n).map fun k => (bs.drop (off i + k * size)).take size
  if w4 % 65536 ≠ 1 ∨ disc = 3 ∨ 2 < foldn ∨ w4 / 2 ^ 20 ≠ 0 ∨ nelem = 0 ∨ 576 < nelem ∨ 1024 < narc
      ∨ fieldAt bs 0x14 4 ≠ 0 ∨ fieldAt bs 0x2C 0x14 ≠ 0 ∨ fieldAt bs 0x60 0x20 ≠ 0
      ∨ !within 0 (64 * nelem) ∨ !within 1 (8 * narc) ∨ !within 2 (72 * ninit) ∨ !within 3 (72 * nconst) ∨ !within 4 0
      ∨ sha256 body ≠ hash then none
  else
    match allSome (fun x => elemRec x.1 x.2) (List.zip (recs 0 nelem 64) (List.range nelem)) with
    | none => none
    | some elems =>
      match allSome (fun b => arcRec b elems) (recs 1 narc 8), allSome (fun b => initRec b narc) (recs 2 ninit 72),
          allSome (fun b => constRec b elems) (recs 3 nconst 72) with
      | some arcs, some inits, some consts =>
        let fold1 : Option (List (BitVec 2 × List (Nat × BitVec 2)) × Nat) := if foldn = 0 then some ([], 0) else (foldRec (bs.drop (off 4)) elems).map fun x => ([x.1], x.2)
        let folds : Option (List (BitVec 2 × List (Nat × BitVec 2))) := match fold1 with
          | none => none
          | some (fs, n) =>
            if foldn < 2 then some fs else (foldRec (bs.drop (off 4 + n)) elems).map fun x => fs ++ [x.1]
        match folds with
        | none => none
        | some fs =>
          let im : ImageData := { disc := disc, elems := elems, arcs := arcs, inits := inits, consts := consts.reverse
                                  folds := fs, hash := hash }
          let ends1 := arcs.map fun (a : ArcRec) => (a.prod, a.pout)
          let ends2 := arcs.map fun (a : ArcRec) => (a.cons, a.cin)
          let levels := fs.map fun (x : BitVec 2 × List (Nat × BitVec 2)) => x.1.toNat
          if ends1.eraseDups.length = narc ∧ ends2.eraseDups.length = narc ∧ (levels = [] ∨ levels = [1] ∨ levels = [2] ∨ levels = [1, 2])
              ∧ wordsOk im ∧ ordersOk im ∧ initsOk im ∧ (disc ≠ 2 ∨ systolicOk im) then some im
          else none
      | _, _, _ => none

end Sys2Proof.Machine
end

