-- ==== Sys2Proof/Machine/Integer.lean ====
section
/-! DEFINITION. Integer and address arithmetic (R342–R346): the register group, the immediate forms, LUI and LEA. -/

namespace Sys2Proof.Machine

/-- The registers of a form of the register group that reads a and b (R343). -/
def formAB (f : FmtA) : Form :=
  { q := f.q, reads := [f.a, f.b], drops := dropIf f.x f.a ++ dropIf f.y f.b, dest := some f.d }
/-- The registers of CLZ and POPC, which do not read b: a drop bit of b is ignored (R298, R340). -/
def formUnary (f : FmtA) : Form := { q := f.q, reads := [f.a], drops := dropIf f.x f.a, dest := some f.d }
/-- The registers of SEL, which reads the old d as well (R343). -/
def formSel (f : FmtA) : Form :=
  { q := f.q, reads := [f.a, f.b, f.d], drops := dropIf f.x f.a ++ dropIf f.y f.b, dest := some f.d }
/-- The registers of an immediate form (R345). -/
def formI (f : FmtI) : Form := { q := f.q, reads := [f.a], drops := dropIf f.x f.a, dest := some f.d }

/-- 1 for true and 0 for false (Table 14.1). -/
def truth (b : Bool) : Word := if b then 1 else 0
/-- The high half of the signed product (Table 14.1). -/
def mulHigh (a b : Word) : Word := BitVec.ofInt 64 (a.toInt * b.toInt / 2 ^ 64)
/-- The high half of the unsigned product (Table 14.1). -/
def mulHighU (a b : Word) : Word := toWord (a.toNat * b.toNat / 2 ^ 64)
/-- The signed quotient, truncated toward zero, with the edge cases of Table 14.2. -/
def divS (a b : Word) : Word := if b = 0 then BitVec.allOnes 64 else a.sdiv b
/-- The unsigned quotient (Table 14.2). -/
def divU (a b : Word) : Word := if b = 0 then BitVec.allOnes 64 else a / b
/-- The signed remainder, with the sign of the dividend (Table 14.2). -/
def remS (a b : Word) : Word := if b = 0 then a else a.srem b
/-- The unsigned remainder (Table 14.2). -/
def remU (a b : Word) : Word := if b = 0 then a else a % b
/-- A shift count: the low six bits (Table 14.1). -/
def shiftCount (b : Word) : Nat := b.toNat % 64
/-- Leading zero bits, 0 to 64 (Table 14.1). -/
def leadingZeros (a : Word) : Word := if a = 0 then 64 else toWord (63 - Nat.log2 a.toNat)
/-- One bits among the low n bits. -/
def onesBelow : Nat → Nat → Nat
  | 0, _ => 0
  | n + 1, v => v % 2 + onesBelow n (v / 2)
/-- One bits, 0 to 64 (Table 14.1). -/
def onesCount (a : Word) : Word := toWord (onesBelow 64 a.toNat)
/-- SX(imm14, 14) (R345). -/
def immOf (f : FmtI) : Word := f.i.signExtend 64
/-- The count of an immediate shift (Table 14.3). -/
def immCount (f : FmtI) : Nat := f.i.toNat % 64

/-- ADD (Table 14.1). -/
def execAdd (f : FmtA) (s : State) : Out :=
  .next (s.runWord (formAB f) (pureForm fun x => x f.a + x f.b))

/-- SUB (Table 14.1). -/
def execSub (f : FmtA) (s : State) : Out :=
  .next (s.runWord (formAB f) (pureForm fun x => x f.a - x f.b))

/-- MUL (Table 14.1). -/
def execMul (f : FmtA) (s : State) : Out :=
  .next (s.runWord (formAB f) (pureForm fun x => x f.a * x f.b))

/-- MULH (Table 14.1). -/
def execMulh (f : FmtA) (s : State) : Out :=
  .next (s.runWord (formAB f) (pureForm fun x => mulHigh (x f.a) (x f.b)))

/-- MULHU (Table 14.1). -/
def execMulhu (f : FmtA) (s : State) : Out :=
  .next (s.runWord (formAB f) (pureForm fun x => mulHighU (x f.a) (x f.b)))

/-- DIV (R344). -/
def execDiv (f : FmtA) (s : State) : Out :=
  .next (s.runWord (formAB f) (pureForm fun x => divS (x f.a) (x f.b)))

/-- DIVU (R344). -/
def execDivu (f : FmtA) (s : State) : Out :=
  .next (s.runWord (formAB f) (pureForm fun x => divU (x f.a) (x f.b)))

/-- REM (R344). -/
def execRem (f : FmtA) (s : State) : Out :=
  .next (s.runWord (formAB f) (pureForm fun x => remS (x f.a) (x f.b)))

/-- REMU (R344). -/
def execRemu (f : FmtA) (s : State) : Out :=
  .next (s.runWord (formAB f) (pureForm fun x => remU (x f.a) (x f.b)))

/-- AND (Table 14.1). -/
def execAndR (f : FmtA) (s : State) : Out :=
  .next (s.runWord (formAB f) (pureForm fun x => x f.a &&& x f.b))

/-- OR (Table 14.1). -/
def execOrR (f : FmtA) (s : State) : Out :=
  .next (s.runWord (formAB f) (pureForm fun x => x f.a ||| x f.b))

/-- XOR (Table 14.1). -/
def execXorR (f : FmtA) (s : State) : Out :=
  .next (s.runWord (formAB f) (pureForm fun x => x f.a ^^^ x f.b))

/-- SHL (Table 14.1). -/
def execShl (f : FmtA) (s : State) : Out :=
  .next (s.runWord (formAB f) (pureForm fun x => x f.a <<< shiftCount (x f.b)))

/-- SHR (Table 14.1). -/
def execShr (f : FmtA) (s : State) : Out :=
  .next (s.runWord (formAB f) (pureForm fun x => x f.a >>> shiftCount (x f.b)))

/-- SRA (Table 14.1). -/
def execSra (f : FmtA) (s : State) : Out :=
  .next (s.runWord (formAB f) (pureForm fun x => (x f.a).sshiftRight (shiftCount (x f.b))))

/-- MIN (Table 14.1). -/
def execMinR (f : FmtA) (s : State) : Out :=
  .next (s.runWord (formAB f) (pureForm fun x => if (x f.b).slt (x f.a) then x f.b else x f.a))

/-- MAX (Table 14.1). -/
def execMaxR (f : FmtA) (s : State) : Out :=
  .next (s.runWord (formAB f) (pureForm fun x => if (x f.a).slt (x f.b) then x f.b else x f.a))

/-- MINU (Table 14.1). -/
def execMinu (f : FmtA) (s : State) : Out :=
  .next (s.runWord (formAB f) (pureForm fun x => if x f.b < x f.a then x f.b else x f.a))

/-- MAXU (Table 14.1). -/
def execMaxu (f : FmtA) (s : State) : Out :=
  .next (s.runWord (formAB f) (pureForm fun x => if x f.a < x f.b then x f.b else x f.a))

/-- CLZ (Table 14.1). -/
def execClz (f : FmtA) (s : State) : Out :=
  .next (s.runWord (formUnary f) (pureForm fun x => leadingZeros (x f.a)))

/-- POPC (Table 14.1). -/
def execPopc (f : FmtA) (s : State) : Out :=
  .next (s.runWord (formUnary f) (pureForm fun x => onesCount (x f.a)))

/-- SEL (Table 14.1). -/
def execSel (f : FmtA) (s : State) : Out :=
  .next (s.runWord (formSel f) (pureForm fun x => if x f.d ≠ 0 then x f.a else x f.b))

/-- SLT (Table 14.1). -/
def execSlt (f : FmtA) (s : State) : Out :=
  .next (s.runWord (formAB f) (pureForm fun x => truth ((x f.a).slt (x f.b))))

/-- SLTU (Table 14.1). -/
def execSltu (f : FmtA) (s : State) : Out :=
  .next (s.runWord (formAB f) (pureForm fun x => truth (decide (x f.a < x f.b))))

/-- SEQ (Table 14.1). -/
def execSeq (f : FmtA) (s : State) : Out :=
  .next (s.runWord (formAB f) (pureForm fun x => truth (decide (x f.a = x f.b))))

/-- ADDI (Table 14.3). -/
def execAddi (f : FmtI) (s : State) : Out :=
  .next (s.runWord (formI f) (pureForm fun x => x f.a + immOf f))

/-- ANDI (Table 14.3). -/
def execAndi (f : FmtI) (s : State) : Out :=
  .next (s.runWord (formI f) (pureForm fun x => x f.a &&& immOf f))

/-- ORI (Table 14.3). -/
def execOri (f : FmtI) (s : State) : Out :=
  .next (s.runWord (formI f) (pureForm fun x => x f.a ||| immOf f))

/-- XORI (Table 14.3). -/
def execXori (f : FmtI) (s : State) : Out :=
  .next (s.runWord (formI f) (pureForm fun x => x f.a ^^^ immOf f))

/-- SHLI (Table 14.3). -/
def execShli (f : FmtI) (s : State) : Out :=
  .next (s.runWord (formI f) (pureForm fun x => x f.a <<< immCount f))

/-- SHRI (Table 14.3). -/
def execShri (f : FmtI) (s : State) : Out :=
  .next (s.runWord (formI f) (pureForm fun x => x f.a >>> immCount f))

/-- SRAI (Table 14.3). -/
def execSrai (f : FmtI) (s : State) : Out :=
  .next (s.runWord (formI f) (pureForm fun x => (x f.a).sshiftRight (immCount f)))

/-- LUI: imm × 2^14; field a is not read (Table 14.3). -/
def execLui (f : FmtI) (s : State) : Out :=
  .next (s.runWord { q := f.q, reads := [], dest := some f.d } (pureForm fun _ => immOf f <<< 14))

/-- An address in slices of the executing core, or of core 0 at the row fetch unit (R346). -/
def ownSlices (m : RowId) (p : PlaceId) : Word :=
  toWord (sliceBase + dieOf m * 2 ^ 29 + rowInDie m * 2 ^ 26 + (if p.val < 8 then p.val else 0) * 2 ^ 23)

/-- LEA (R346). -/
def execLea (f : FmtI) (s : State) : Out :=
  .next (s.runWord (formI f) (pureForm fun x => ownSlices s.cur.m s.cur.p + x f.a + immOf f))

end Sys2Proof.Machine
end

