-- ==== Sys2Proof/Machine/CellRegs.lean ====
section
/-! DEFINITION. The registers of a memory cell and the core debug block (Tables 6.6 and 9.1), as the cell register window and
the control complex's aperture reach them (R47, R183, R253). -/

namespace Sys2Proof.Machine

/-- A write of a W1C field clears it when a bit of the field is written 1 (R22, DEDUCED, log entry 14). -/
def w1c {n : Nat} (old : BitVec n) (written : Nat) : BitVec n := if written % 2 ^ n ≠ 0 then 0 else old

/-- Two bits per bank, bank 0 in [1:0] (Table 6.6). -/
def bankCodes (bs : List Bank) : Nat := bs.foldr (fun b acc => b.st.code + 4 * acc) 0

/-- LIVEb: bit i is set when line i of bank b, off[16:11] = i, is live (Table 6.6). -/
def State.liveMask (s : State) (m : RowId) (c : CoreId) (mi : Fin 64) (b : Fin 16) : Nat :=
  let base := spadBase + sliceOffset m c mi 0
  (s.bankLive m c mi b).foldl (fun acc l => acc + 2 ^ ((l * 128 - base) / 2048)) 0

/-- A breakpoint's BPA register (Table 9.1). -/
def Breakpoint.bpa (b : Breakpoint) : Nat := b2n b.en * 2 ^ 63 + b2n b.hit * 2 ^ 62 + b.slot.val * 256 + b.arc

/-- An arc counter of a region slot: FULLT, EMPTT, MOVT, TOKN; zero where the slot holds no such arc (R252, R253). -/
def Core.arcCounter (k : Core) (slot : SlotId) (a j : Nat) : Nat :=
  match (k.regions[slot]).bind fun g => g.arcs[a]? with
  | none => 0
  | some x =>
    match j with
    | 0 => x.fullt
    | 1 => x.emptt
    | 2 => x.movt
    | _ => x.tokn

/-- A dword of a memory cell's registers at an offset (Tables 6.6, 9.1). The replay queue is empty between firings. -/
def State.readCell (s : State) (sl : Slice) : Nat :=
  let k := s.core sl.m sl.c
  let x := k.mcells[sl.mi]
  let o := sl.off / 8 * 8
  if o = 0 then x.hxm.toNat
  else if o = 8 then x.disc.toNat
  else if o = 0x10 then bankCodes x.banks.toList
  else if o = 0x18 then 0
  else if 0x80 ≤ o ∧ o < 0x100 then x.confl[Fin.ofNat 16 ((o - 0x80) / 8)].toNat
  else if 0x100 ≤ o ∧ o < 0x180 then s.liveMask sl.m sl.c sl.mi (Fin.ofNat 16 ((o - 0x100) / 8))
  else if 0x200 ≤ o ∧ o < 0x280 then
    let b := k.bps[Fin.ofNat 4 ((o - 0x200) / 32)]
    if o % 32 = 0 then b.bpa else b.n.toNat
  else if o = 0x300 then k.elogLost.toNat * 2 ^ 32 + k.elog.length
  else if 0x800 ≤ o ∧ o < 0x1000 then
    ((k.elog[(o - 0x800) / 32]?).getD 0).toNat / 2 ^ (64 * (o % 32 / 8)) % 2 ^ 64
  else if 0x10000 ≤ o then
    let x := o - 0x10000
    k.arcCounter (Fin.ofNat 8 (x / 0x2000)) (x % 0x2000 / 32) (x % 32 / 8)
  else 0

/-- HXM is written: every line of the cell dies, whatever the value (R180, Table 6.8). -/
def State.writeHxm (s : State) (m : RowId) (c : CoreId) (mi : Fin 64) (v : Nat) : State :=
  (s.killCell m c mi).modMem m c mi fun x => { x with hxm := BitVec.ofNat 24 v }

/-- BPGO is written: each slot named thaws (R257). -/
def State.writeBpgo (s : State) (m : RowId) (c : CoreId) (v : Nat) : State :=
  (finsN 8).foldl (fun s i => if bitN v i.val then s.thaw m c i else s) s

/-- A dword written to a memory cell's registers at an offset (Tables 6.6, 9.1). -/
def State.writeCell (s : State) (sl : Slice) (v : Nat) : State :=
  let o := sl.off / 8 * 8
  if o = 0 then s.writeHxm sl.m sl.c sl.mi v
  else if o = 8 then s.modMem sl.m sl.c sl.mi fun x => { x with disc := BitVec.ofNat 16 v }
  else if 0x80 ≤ o ∧ o < 0x100 then
    s.modMem sl.m sl.c sl.mi fun x => { x with confl := vmod x.confl (Fin.ofNat 16 ((o - 0x80) / 8)) fun n => w1c n v }
  else if 0x200 ≤ o ∧ o < 0x280 then
    s.modCore sl.m sl.c fun k =>
      { k with bps := vmod k.bps (Fin.ofNat 4 ((o - 0x200) / 32)) fun b =>
          if o % 32 = 0 then
            { b with en := bitN v 63, hit := b.hit && !bitN v 62, slot := Fin.ofNat 8 (bits v 10 8), arc := bits v 7 0 }
          else { b with n := BitVec.ofNat 48 v } }
  else if o = 0x280 then s.writeBpgo sl.m sl.c v
  else if o = 0x300 then s.modCore sl.m sl.c fun k => { k with elog := [], elogLost := 0 }
  else s

end Sys2Proof.Machine
end

