-- ==== Sys2Proof/Machine/Memory.lean ====
section
/-! DEFINITION. Loads, stores, FENCE and the atomics (R354–R360). A sequencer's access is performed at its home when it
issues (DESIGN CHOICE, log entry 15). -/

namespace Sys2Proof.Machine

/-- ea of a format-M form (R354). -/
def eaOf (f : FmtM) (x : BitVec 5 → Word) : Word := x f.b + f.i.signExtend 64
/-- w of a format-M form (R354). -/
def widthOf (f : FmtM) : Nat := 2 ^ f.s.toNat

/-- The trap of a failed access: %xaddr takes ea and %xinfo the access kind (R355). -/
def accessTrap (s : State) (c : Cause) (ea : Word) (kind : Kind) : Effect := .trap s .loc c ea (toWord kind.code)

/-- The value of w bytes at a place that an access has reached. -/
def State.fetchAt (s : State) (t : Target) (w : Nat) : Nat :=
  match t with
  | .mem pa => s.mem.num pa w
  | .regs sl => s.readCell sl

/-- A load (R356): sign-extended or not. -/
def State.loadWord (s : State) (f : FmtM) (signed : Bool) : State :=
  s.runWord { q := f.q, reads := [f.b], drops := dropIf f.x f.b, dest := some f.d } fun s x =>
    let ea := eaOf f x
    match s.checkAccess s.agentHere ea (widthOf f) .load with
    | (s', .fail c) => accessTrap s' c ea .load
    | (s', .wait) => .wait s'
    | (s', .ok t) =>
      let v := s'.fetchAt t (widthOf f)
      .load s' (if signed then sxBytes (widthOf f) v else toWord v)

/-- A store (R356): d names the data. -/
def State.storeWord (s : State) (f : FmtM) : State :=
  s.runWord { q := f.q, reads := [f.d, f.b], drops := dropIf f.x f.b } fun s x =>
    let ea := eaOf f x
    match s.checkAccess s.agentHere ea (widthOf f) .store with
    | (s', .fail c) => accessTrap s' c ea .store
    | (s', .wait) => .wait s'
    | (s', .ok (.mem pa)) => .done (s'.withMem (s'.mem.put pa (widthOf f) (x f.d).toNat)) none
    | (s', .ok (.regs sl)) => .done (s'.writeCell sl (x f.d).toNat) none

/-- LD (R356). -/
def execLd (f : FmtM) (s : State) : Out := .next (s.loadWord f true)
/-- LDU: size 3 acts as LD, which the whole dword makes the same (R356). -/
def execLdu (f : FmtM) (s : State) : Out := .next (s.loadWord f false)
/-- ST (R356). -/
def execSt (f : FmtM) (s : State) : Out := .next (s.storeWord f)
/-- LDA: an acquire at its scope; accesses are performed as they issue (R356). -/
def execLda (f : FmtM) (s : State) : Out := .next (s.loadWord f true)
/-- STL: a release at its scope; accesses are performed as they issue (R356). -/
def execStl (f : FmtM) (s : State) : Out := .next (s.storeWord f)

/-- FENCE: orders the place's own accesses, each performed when it issued; it makes no access and reads no register (R357). -/
def execFence (f : FmtM) (s : State) : Out :=
  .next (s.runWord { q := f.q, reads := [] } fun s _ => .done s none)

/-! ### Atomics -/

/-- The atomic kinds of a sequencer (Table 14.4). -/
inductive AmoKind where
  | add | and | or | xor | min | max | minu | maxu | swap | cas
  deriving DecidableEq, Repr

/-- The new value of w bytes (Table 14.4). -/
def AmoKind.new (k : AmoKind) (w old v : Nat) : Nat :=
  match k with
  | .add => (old + v) % 2 ^ (8 * w)
  | .and => old &&& v
  | .or => old ||| v
  | .xor => old ^^^ v
  | .min => if sint (8 * w) v < sint (8 * w) old then v else old
  | .max => if sint (8 * w) old < sint (8 * w) v then v else old
  | .minu => Nat.min old v
  | .maxu => Nat.max old v
  | .swap => v
  | .cas => v

/-- Bytes of an atomic (R360). -/
def amoWidth (f : FmtAmo) : Nat := if f.z then 8 else 4

/-- An atomic, one event at its home (R360). -/
def State.atomic (s : State) (f : FmtAmo) (kind : AmoKind) : State :=
  s.runWord { q := f.q, reads := if kind = .cas then [f.a, f.b, f.d] else [f.a, f.b]
              drops := dropIf f.x f.a ++ dropIf f.y f.b, dest := some f.d } fun s x =>
    let ea := x f.a
    match s.checkAccess s.agentHere ea (amoWidth f) .atomic with
    | (s', .fail c) => accessTrap s' c ea .atomic
    | (s', .ok (.mem pa)) =>
      if !s'.atomicTurn pa s'.agentHere then .wait s'
      else
        let old := s'.mem.num pa (amoWidth f)
        let swaps := decide (kind ≠ .cas) || decide (old = (x f.d).toNat % 2 ^ (8 * (amoWidth f)))
        let v := kind.new (amoWidth f) old ((x f.b).toNat % 2 ^ (8 * (amoWidth f)))
        let s'' := if swaps then s'.withMem (s'.mem.put pa (amoWidth f) v) else s'
        .load (s''.atomicAt pa s''.agentHere) (sxBytes (amoWidth f) old)
    | (s', _) => .wait s'

/-- AMOADD (Table 14.4). -/
def execAmoadd (f : FmtAmo) (s : State) : Out := .next (s.atomic f .add)
/-- AMOAND (Table 14.4). -/
def execAmoand (f : FmtAmo) (s : State) : Out := .next (s.atomic f .and)
/-- AMOOR (Table 14.4). -/
def execAmoor (f : FmtAmo) (s : State) : Out := .next (s.atomic f .or)
/-- AMOXOR (Table 14.4). -/
def execAmoxor (f : FmtAmo) (s : State) : Out := .next (s.atomic f .xor)
/-- AMOMIN (Table 14.4). -/
def execAmomin (f : FmtAmo) (s : State) : Out := .next (s.atomic f .min)
/-- AMOMAX (Table 14.4). -/
def execAmomax (f : FmtAmo) (s : State) : Out := .next (s.atomic f .max)
/-- AMOMINU (Table 14.4). -/
def execAmominu (f : FmtAmo) (s : State) : Out := .next (s.atomic f .minu)
/-- AMOMAXU (Table 14.4). -/
def execAmomaxu (f : FmtAmo) (s : State) : Out := .next (s.atomic f .maxu)
/-- AMOSWP (Table 14.4). -/
def execAmoswp (f : FmtAmo) (s : State) : Out := .next (s.atomic f .swap)
/-- AMOCAS (Table 14.4). -/
def execAmocas (f : FmtAmo) (s : State) : Out := .next (s.atomic f .cas)

end Sys2Proof.Machine
end

