-- ==== Sys2Proof/Machine/Rings.lean ====
section
/-! DEFINITION. Ring descriptors at their homes and the ring handle forms (R121–R123, R190–R192, R361–R364). -/

namespace Sys2Proof.Machine

/-- A ring descriptor (Table 6.9). -/
structure Ring where
  base : Nat
  ssz : Nat
  logn : Nat
  head : Nat
  tail : Nat
  filled : Nat
  free : Nat
  deriving DecidableEq, Repr

/-- Slots of a ring. -/
def Ring.slots (r : Ring) : Nat := 2 ^ r.logn

/-- The address names a slice (R8, R9). -/
def namesSlice (a : Nat) : Bool :=
  decide (sliceBase ≤ a ∧ a < sliceBase + 2 ^ 32) && (sliceOf (a - sliceBase)).isSome

/-- The descriptor in 64 bytes, when it is well-formed (R191). -/
def ringOf (bs : List Byte) : Option Ring :=
  let at' (o n : Nat) : Nat := natOf ((bs.drop o).take n)
  let w1 := at' 8 8
  let r : Ring := { base := at' 0 8, ssz := bits w1 31 0, logn := bits w1 36 32, head := at' 0x10 4, tail := at' 0x14 4
                    filled := at' 0x18 4, free := at' 0x1C 4 }
  let n := r.slots
  if bits w1 63 37 = 0 ∧ at' 0x20 32 = 0 ∧ r.base % 64 = 0 ∧ r.logn ≤ 16 ∧ r.ssz % 64 = 0 ∧ 64 ≤ r.ssz ∧ r.ssz ≤ 0x100000
      ∧ namesSlice r.base ∧ r.base / 2 ^ 23 = (r.base + n * r.ssz - 1) / 2 ^ 23
      ∧ r.filled + r.free = n ∧ (r.tail + n * 2 ^ 32 - r.head) % n = r.filled % n then some r
  else none

/-- The descriptor that stands at a physical address. -/
def State.ringAt (s : State) (pa : Nat) : Option Ring := ringOf (s.mem.read pa 64)

/-- The slice-window address of the slot at HEAD, or at TAIL. -/
def Ring.slotAt (r : Ring) (i : Nat) : Nat := r.base + i % r.slots * r.ssz

/-- ADVH n: head, filled and free change together (Table 4.8). -/
def State.advHead (s : State) (pa : Nat) (r : Ring) (n : Nat) : State :=
  s.ctlWrite (pa + 0x10) (bytesOf 4 ((r.head + n) % r.slots) ++ bytesOf 4 r.tail ++ bytesOf 4 (r.filled - n)
    ++ bytesOf 4 (r.free + n))
/-- ADVT n: tail, filled and free change together (Table 4.8). -/
def State.advTail (s : State) (pa : Nat) (r : Ring) (n : Nat) : State :=
  s.ctlWrite (pa + 0x10) (bytesOf 4 r.head ++ bytesOf 4 ((r.tail + n) % r.slots) ++ bytesOf 4 (r.filled + n)
    ++ bytesOf 4 (r.free - n))

/-- RINGERR of a handle: %xaddr takes the descriptor's address and %xinfo the handle (Table 8.1). -/
def ringTrap (s : State) (p : Word) (h : BitVec 4) : Effect := .trap s .loc .ringErr p (h.setWidth 64)

/-- The core at the current place. -/
def State.coreHere (s : State) : CoreId := (coreOfPlace s.cur.p).getD 0
/-- The index of a handle. -/
def handleIx (h : BitVec 4) : Fin 16 := h.toFin

/-- HSET (R362). -/
def execHset (f : FmtRing) (s : State) : Out :=
  .next (s.runWord { q := false, reads := [f.a], drops := dropIf f.x f.a } fun s x =>
    let p := x f.a
    let bind (s : State) : Effect :=
      .done (s.modCore s.cur.m s.coreHere fun k => { k with h := k.h.set (handleIx f.h) p }) none
    if p = 0 then bind s
    else if p.toNat % 64 ≠ 0 ∨ !namesSlice p.toNat then ringTrap s p f.h
    else match s.checkAccess s.agentHere p 64 .load with
    | (s', .fail c) => accessTrap s' c p .load
    | (s', .ok (.mem pa)) => if (s'.ringAt pa).isNone then ringTrap s' p f.h else bind s'
    | (s', _) => .wait s')

/-- A ring form on a bound handle: its access at the home, the checks of R363, and then its effect (Table 4.8). -/
def State.ringWord (s : State) (f : FmtRing) (form : Form) (kind : Kind) (count : (BitVec 5 → Word) → Nat)
    (act : State → Nat → Ring → Nat → Effect) : State :=
  s.runWord form fun s x =>
    let p := (s.core s.cur.m s.coreHere).h[handleIx f.h]
    if p = 0 then ringTrap s 0 f.h
    else match s.checkAccess s.agentHere p 64 kind with
    | (s', .fail c) => accessTrap s' c p kind
    | (s', .ok (.mem pa)) =>
      match s'.ringAt pa with
      | none => ringTrap s' p f.h
      | some r =>
        if r.slots < count x then ringTrap s' p f.h
        -- what the home does not grant yet waits there: no second request is made (R274)
        else match act s' pa r (count x) with
          | .wait _ => .wait s
          | e => e
    | (s', _) => .wait s'

/-- The registers of a ring form that reads its count from a (R361). -/
def ringForm (f : FmtRing) : Form := { q := false, reads := [f.a], drops := dropIf f.x f.a }

/-- WAITF (Table 4.8). -/
def execWaitf (f : FmtRing) (s : State) : Out :=
  .next (s.ringWord f (ringForm f) .load (fun x => (x f.a).toNat) fun s _ r n =>
    if n ≤ r.filled then .done s none else .wait s)

/-- WAITE (Table 4.8). -/
def execWaite (f : FmtRing) (s : State) : Out :=
  .next (s.ringWord f (ringForm f) .load (fun x => (x f.a).toNat) fun s _ r n =>
    if n ≤ r.free then .done s none else .wait s)

/-- ADVH (Table 4.8). -/
def execAdvh (f : FmtRing) (s : State) : Out :=
  .next (s.ringWord f (ringForm f) .atomic (fun x => (x f.a).toNat) fun s pa r n =>
    if r.filled < n then ringTrap s (s.core s.cur.m s.coreHere).h[handleIx f.h] f.h
    else if !s.atomicTurn pa s.agentHere then .wait s
    else .done ((if n = 0 then s else s.advHead pa r n).atomicAt pa s.agentHere) none)

/-- ADVT (Table 4.8). -/
def execAdvt (f : FmtRing) (s : State) : Out :=
  .next (s.ringWord f (ringForm f) .atomic (fun x => (x f.a).toNat) fun s pa r n =>
    if r.free < n then ringTrap s (s.core s.cur.m s.coreHere).h[handleIx f.h] f.h
    else if !s.atomicTurn pa s.agentHere then .wait s
    else .done ((if n = 0 then s else s.advTail pa r n).atomicAt pa s.agentHere) none)

/-- HCNT (Table 4.8). -/
def execHcnt (f : FmtRing) (s : State) : Out :=
  .next (s.ringWord f { q := false, reads := [], dest := some f.d } .load (fun _ => 0) fun s _ r _ =>
    .done s (some (toWord (r.filled * 2 ^ 32 + r.free))))

/-! ### Sides (R191, R192) -/

/-- What an engine's read of a ring descriptor comes to. -/
inductive RingRead where
  | wait
  /-- the descriptor is malformed, or the access to it refused (DEDUCED, log entry 24); or it lies in a dead or poisoned line
  (Tables 1.3, 6.7) -/
  | bad (st : Status)
  | ok (pa : Nat) (ring : Ring)
  deriving DecidableEq, Repr

/-- An engine or a port reads a descriptor at its home. -/
def State.readRing (s : State) (ag : Agent) (desc : Word) (kind : Kind) : State × RingRead :=
  match s.checkAddr ag desc 64 kind with
  | (s, .ok (.mem pa)) =>
    (s, if s.mem.dead pa 64 then .bad .dropRd
      else if s.mem.poisoned pa 64 then .bad .poison
      else match s.ringAt pa with
        | some ring => .ok pa ring
        | none => .bad .ringErr)
  | (s, .wait) => (s, .wait)
  | (s, _) => (s, .bad .ringErr)

/-- A ring at which its holder has nothing to do as it stands: no request is made of the home (R192, R274). -/
def State.ringRests (s : State) (ag : Agent) (desc : Word) (acts : Ring → Bool) : Bool :=
  namesSlice desc.toNat && (sliceOf (desc.toNat - sliceBase)).any fun sl =>
    let pa := spadBase + (desc.toNat - sliceBase)
    s.reach ag.lid sl.m sl.c sl.mi == .yes && !s.mem.dead pa 64 && !s.mem.poisoned pa 64 && (s.ringAt pa).any fun r => !acts r

/-- What an engine's or a port's approach to a ring comes to. -/
inductive RingGot where
  | wait (s : State)
  | stop (s : State) (st : Status)
  | ready (s : State) (pa : Nat) (ring : Ring)
  deriving DecidableEq, Repr

/-- A holder asks for a side of a ring and, holding it and having something to do there, reads the descriptor at the home (R191,
R192). -/
def State.holdRing (s : State) (ag : Agent) (h : SideHolder) (desc : Word) (producer : Bool) (acts : Ring → Bool) : RingGot :=
  match s.wantSide desc.toNat producer h with
  | (s, false) => .wait s
  | (s, true) =>
    if s.ringRests ag desc acts then .wait s
    else match s.readRing ag desc .atomic with
    | (s, .ok pa ring) => .ready s pa ring
    | (s, .wait) => .wait s
    | (s, .bad st) => .stop s st

end Sys2Proof.Machine
end

