-- ==== Sys2Proof/Machine/Flags.lean ====
section
/-! DEFINITION. Number formats, rounding and the five exception flags (R277–R295): every value is taken exactly, computed
exactly and rounded once. -/

namespace Sys2Proof.Machine

/-- The five flags in their places of STICKY: IV 0, DZ 1, OF 2, UF 3, NX 4 (Tables 5.5, 11.5). -/
abbrev Flags := BitVec 5

/-- No flag. -/
def fNone : Flags := 0
/-- Invalid. -/
def fIV : Flags := 1
/-- Division by zero. -/
def fDZ : Flags := 2
/-- Overflow. -/
def fOF : Flags := 4
/-- Underflow. -/
def fUF : Flags := 8
/-- Inexact. -/
def fNX : Flags := 16

/-- The floating-point formats (Table 11.2). -/
inductive FloatFmt where
  | b64 | b32 | b16 | bf16 | e5m2 | e4m3 | e3m2 | e2m3 | e2m1
  deriving DecidableEq, Repr

/-- Exponent bits, mantissa bits and bias (Table 11.2). -/
def FloatFmt.layout : FloatFmt → Nat × Nat × Nat
  | .b64 => (11, 52, 1023)
  | .b32 => (8, 23, 127)
  | .b16 => (5, 10, 15)
  | .bf16 => (8, 7, 127)
  | .e5m2 => (5, 2, 15)
  | .e4m3 => (4, 3, 7)
  | .e3m2 => (3, 2, 3)
  | .e2m3 => (2, 3, 1)
  | .e2m1 => (2, 1, 1)

/-- Exponent bits. -/
def FloatFmt.ebits (f : FloatFmt) : Nat := f.layout.1
/-- Mantissa bits. -/
def FloatFmt.mbits (f : FloatFmt) : Nat := f.layout.2.1
/-- The bias. -/
def FloatFmt.bias (f : FloatFmt) : Nat := f.layout.2.2
/-- Width in bits. -/
def FloatFmt.width (f : FloatFmt) : Nat := f.ebits + f.mbits + 1

/-- The formats whose all-ones exponent holds infinity and NaNs (Table 11.2). -/
def FloatFmt.ieee : FloatFmt → Bool
  | .b64 | .b32 | .b16 | .bf16 | .e5m2 => true
  | _ => false

/-- The formats in which a finite value saturates (R282). -/
def FloatFmt.narrow : FloatFmt → Bool
  | .e5m2 | .e4m3 | .e3m2 | .e2m3 | .e2m1 => true
  | _ => false

/-- The encoding of the largest finite value, sign clear (Table 11.3). -/
def FloatFmt.maxBits : FloatFmt → Nat
  | .b64 => 0x7FEFFFFFFFFFFFFF
  | .b32 => 0x7F7FFFFF
  | .b16 => 0x7BFF
  | .bf16 => 0x7F7F
  | .e5m2 => 0x7B
  | .e4m3 => 0x7E
  | .e3m2 => 0x1F
  | .e2m3 => 0x1F
  | .e2m1 => 0x7

/-- The canonical NaN (Table 11.3); zero in the formats that have none. -/
def FloatFmt.nanBits : FloatFmt → Nat
  | .b64 => 0x7FF8000000000000
  | .b32 => 0x7FC00000
  | .b16 => 0x7E00
  | .bf16 => 0x7FC0
  | .e5m2 => 0x7E
  | .e4m3 => 0x7F
  | _ => 0

/-- The sign bit as a number. -/
def FloatFmt.sign (f : FloatFmt) (neg : Bool) : Nat := if neg then 2 ^ (f.width - 1) else 0
/-- The encoding of an infinity. -/
def FloatFmt.infBits (f : FloatFmt) (neg : Bool) : Nat := f.sign neg + (2 ^ f.ebits - 1) * 2 ^ f.mbits

/-- An exact value: (−1)^neg × mag × 2^exp, or a value strictly between that and the next magnitude when `sticky` is set. -/
inductive Num where
  | nan
  | inf (neg : Bool)
  | fin (neg : Bool) (mag : Nat) (exp : Int) (sticky : Bool)
  deriving DecidableEq, Repr

/-- The value of an encoding (R278). -/
def FloatFmt.decode (f : FloatFmt) (bits : Nat) : Num :=
  let neg := bitN bits (f.width - 1)
  let e := bits / 2 ^ f.mbits % 2 ^ f.ebits
  let m := bits % 2 ^ f.mbits
  if f.ieee && decide (e = 2 ^ f.ebits - 1) then (if m = 0 then .inf neg else .nan)
  else if f = .e4m3 ∧ bits % 128 = 127 then .nan
  else if e = 0 then .fin neg m (1 - (f.bias : Int) - f.mbits) false
  else .fin neg (2 ^ f.mbits + m) ((e : Int) - f.bias - f.mbits) false

/-- The random number of R283. -/
def rstoDraw (seed index : Nat) : Nat :=
  let z : BitVec 64 := BitVec.ofNat 64 (seed + index * 0x9E3779B97F4A7C15)
  let z := (z ^^^ (z >>> 30)) * 0xBF58476D1CE4E5B9#64
  let z := (z ^^^ (z >>> 27)) * 0x94D049BB133111EB#64
  let z := z ^^^ (z >>> 31)
  (z >>> 32).toNat

/-- A rounding mode with what RSTO draws (Table 11.4, R283). -/
structure RMode where
  code : Nat
  seed : Nat := 0
  index : Nat := 0
  deriving DecidableEq, Repr

/-- Round to nearest even. -/
def rne : RMode := { code := 0 }

/-- Whether a magnitude with remainder rem of 2^sh beyond its integer t rounds away from zero (R282, R283). -/
def roundsUp (md : RMode) (neg : Bool) (t rem sh : Nat) (sticky : Bool) : Bool :=
  let inexact := decide (rem ≠ 0) || sticky
  match md.code with
  | 0 => decide (2 ^ sh < 2 * rem) || (decide (2 * rem = 2 ^ sh) && (sticky || decide (t % 2 = 1)))
  | 1 => false
  | 2 => !neg && inexact
  | 3 => neg && inexact
  | _ => decide (2 ^ 32 ≤ rem * 2 ^ 32 / 2 ^ sh + rstoDraw md.seed md.index)

/-- mag × 2^exp in whole steps of 2^q, rounded; and whether that was inexact. -/
def roundStep (md : RMode) (neg : Bool) (mag : Nat) (exp q : Int) (sticky : Bool) : Nat × Bool :=
  if q ≤ exp then
    let t := mag * 2 ^ (exp - q).toNat
    (if roundsUp md neg t 0 0 sticky then t + 1 else t, sticky)
  else
    let sh := (q - exp).toNat
    let t := mag / 2 ^ sh
    let rem := mag % 2 ^ sh
    (if roundsUp md neg t rem sh sticky then t + 1 else t, decide (rem ≠ 0) || sticky)

/-- A magnitude of t steps of 2^q in a format whose step at that size is at least 2^q. -/
def FloatFmt.pack (f : FloatFmt) (t : Nat) (q : Int) : Nat :=
  if t = 0 then 0
  else
    let qmin : Int := 1 - (f.bias : Int) - f.mbits
    -- t lies below 2^(m+1), or is 2^(m+1) after a carry
    let t' := if t = 2 ^ (f.mbits + 1) then 2 ^ f.mbits else t
    let q' := if t = 2 ^ (f.mbits + 1) then q + 1 else q
    if t' < 2 ^ f.mbits then t' else ((q' - qmin).toNat + 1) * 2 ^ f.mbits + (t' - 2 ^ f.mbits)

/-- Rounding an exact value to a floating-point format (R282, R284, R286, Table 11.6). -/
def FloatFmt.round (f : FloatFmt) (md : RMode) : Num → Nat × Flags
  | .nan => if f.ieee || decide (f = .e4m3) then (f.nanBits, fNone) else (0, fIV)
  | .inf neg =>
    if f.ieee then (f.infBits neg, fNone)
    else if f = .e4m3 then (f.nanBits, fIV)
    else (f.sign neg + f.maxBits, fIV)
  | .fin neg mag exp sticky =>
    if mag = 0 ∧ !sticky then (f.sign neg, fNone)
    else
      let top : Int := (Nat.log2 mag : Int) + exp
      let emin : Int := 1 - (f.bias : Int)
      let tiny := decide (mag = 0) || decide (top < emin)
      let q : Int := (if tiny then emin else top) - f.mbits
      let (t, inexact) := roundStep md neg mag exp q sticky
      let bits := f.pack t q
      let fl : Flags := if inexact then fNX ||| (if tiny then fUF else 0) else 0
      -- a carry out of the largest binade, or a magnitude beyond it
      if f.maxBits < bits then
        let toMax := f.narrow || decide (md.code = 1) || (decide (md.code = 2) && neg) || (decide (md.code = 3) && !neg)
        let ofl : Flags := if f.narrow && decide (md.code = 1) then fNX else fOF ||| fNX
        (if toMax then f.sign neg + f.maxBits else f.infBits neg, fl ||| ofl)
      else (f.sign neg + bits, fl)

/-- Rounding an exact value to whole steps of 2^q within lo to hi: the integer conversions and MXINT8 (R287). -/
def roundInt (md : RMode) (q lo hi : Int) : Num → Int × Flags
  | .nan => (0, fIV)
  | .inf neg => (if neg then lo else hi, fIV)
  | .fin neg mag exp sticky =>
    let (t, inexact) := roundStep md neg mag exp q sticky
    let v : Int := if neg then -(t : Int) else t
    if v < lo then (lo, fIV) else if hi < v then (hi, fIV) else (v, if inexact then fNX else 0)

/-- An integer as an exact value. -/
def Num.ofInt (v : Int) (exp : Int := 0) : Num := .fin (decide (v < 0)) v.natAbs exp false

/-- The negative of a value. -/
def Num.neg : Num → Num
  | .nan => .nan
  | .inf n => .inf (!n)
  | .fin n m e s => .fin (!n) m e s

/-- The magnitude of a value. -/
def Num.abs : Num → Num
  | .nan => .nan
  | .inf _ => .inf false
  | .fin _ m e s => .fin false m e s

/-- The signed integer a finite value is in steps of 2^e. -/
def signedAt (neg : Bool) (mag : Nat) (exp e : Int) : Int :=
  let v : Int := (mag * 2 ^ (exp - e).toNat : Nat)
  if neg then -v else v

/-- Exact sum; the sign of an exact zero depends on the mode (R282); ∞ − ∞ raises IV (R284). -/
def Num.add (md : RMode) : Num → Num → Num × Flags
  | .nan, _ => (.nan, 0)
  | _, .nan => (.nan, 0)
  | .inf a, .inf b => if a = b then (.inf a, 0) else (.nan, fIV)
  | .inf a, _ => (.inf a, 0)
  | _, .inf b => (.inf b, 0)
  | .fin na ma ea _, .fin nb mb eb _ =>
    let e := min ea eb
    let s := signedAt na ma ea e + signedAt nb mb eb e
    if s = 0 then
      if ma = 0 ∧ mb = 0 ∧ na = nb then (.fin na 0 0 false, 0) else (.fin (decide (md.code = 3)) 0 0 false, 0)
    else (.fin (decide (s < 0)) s.natAbs e false, 0)

/-- Exact product; 0 × ∞ raises IV (R284). -/
def Num.mul : Num → Num → Num × Flags
  | .nan, _ => (.nan, 0)
  | _, .nan => (.nan, 0)
  | .inf a, .inf b => (.inf (xor a b), 0)
  | .inf a, .fin nb mb _ _ => if mb = 0 then (.nan, fIV) else (.inf (xor a nb), 0)
  | .fin na ma _ _, .inf b => if ma = 0 then (.nan, fIV) else (.inf (xor na b), 0)
  | .fin na ma ea _, .fin nb mb eb _ => (.fin (xor na nb) (ma * mb) (ea + eb) false, 0)

/-- Quotient to 140 bits beyond its operands, with what is left in the sticky bit (R417). -/
def Num.div : Num → Num → Num × Flags
  | .nan, _ => (.nan, 0)
  | _, .nan => (.nan, 0)
  | .inf _, .inf _ => (.nan, fIV)
  | .inf a, .fin nb _ _ _ => (.inf (xor a nb), 0)
  | .fin na _ _ _, .inf b => (.fin (xor na b) 0 0 false, 0)
  | .fin na ma ea _, .fin nb mb eb _ =>
    if mb = 0 then (if ma = 0 then (.nan, fIV) else (.inf (xor na nb), fDZ))
    else
      let n := ma * 2 ^ 140
      (.fin (xor na nb) (n / mb) (ea - eb - 140) (decide (n % mb ≠ 0)), 0)

/-- Integer square root, bit by bit from bit k down. -/
def isqrtGo (n : Nat) : Nat → Nat → Nat
  | 0, r => r
  | k + 1, r => let r' := r + 2 ^ k; isqrtGo n k (if r' * r' ≤ n then r' else r)

/-- The integer square root of n. -/
def isqrt (n : Nat) : Nat := isqrtGo n (Nat.log2 n / 2 + 1) 0

/-- Square root to 70 bits beyond its operand (R417). -/
def Num.sqrt : Num → Num × Flags
  | .nan => (.nan, 0)
  | .inf neg => if neg then (.nan, fIV) else (.inf false, 0)
  | .fin neg mag exp _ =>
    if mag = 0 then (.fin neg 0 0 false, 0)
    else if neg then (.nan, fIV)
    else
      let odd := decide (exp % 2 ≠ 0)
      let m := (if odd then mag * 2 else mag) * 2 ^ 140
      let e := if odd then exp - 1 else exp
      let r := isqrt m
      (.fin false r (e / 2 - 70) (decide (r * r ≠ m)), 0)

/-- A total order key of a value that is no NaN, with −0 below +0 when `zeros` is set (R417, R418). -/
def Num.lt (zeros : Bool) : Num → Num → Bool
  | .nan, _ => false
  | _, .nan => false
  | .inf a, .inf b => a && !b
  | .inf a, .fin .. => a
  | .fin .., .inf b => !b
  | .fin na ma ea _, .fin nb mb eb _ =>
    let e := min ea eb
    let x := signedAt na ma ea e
    let y := signedAt nb mb eb e
    decide (x < y) || (zeros && decide (ma = 0 ∧ mb = 0) && na && !nb)

/-- The lesser or greater operand, −0 below +0, a NaN operand giving NaN (R417). -/
def Num.minMax (max : Bool) (a b : Num) : Num :=
  match a, b with
  | .nan, _ => .nan
  | _, .nan => .nan
  | _, _ => if max then (if a.lt true b then b else a) else (if b.lt true a then b else a)

/-- The truth of a comparison by its condition code (R418). -/
def fcmp (cond : Nat) (a b : Num) : Bool :=
  let un := decide (a = .nan) || decide (b = .nan)
  match cond with
  | 0 => !un && !a.lt false b && !b.lt false a
  | 1 => un || a.lt false b || b.lt false a
  | 2 => a.lt false b
  | 3 => !un && !b.lt false a
  | 4 => b.lt false a
  | 5 => !un && !a.lt false b
  | 6 => un
  | _ => !un

/-- The comparison of integers by its condition code (R416). -/
def icmp (cond : Nat) (a b : Int) : Bool :=
  match cond with
  | 0 => decide (a = b)
  | 1 => decide (a ≠ b)
  | 2 => decide (a < b)
  | 3 => decide (a ≤ b)
  | 4 => decide (b < a)
  | _ => decide (b ≤ a)

/-! ### Lane types (Table 12.14) -/

/-- The floating-point format of a lane type code. -/
def floatOf : Nat → Option FloatFmt
  | 2 => some .b32
  | 3 => some .bf16
  | 4 => some .b16
  | 5 => some .e4m3
  | 6 => some .e5m2
  | 7 => some .e3m2
  | 8 => some .e2m3
  | 9 => some .e2m1
  | 0xD => some .b64
  | _ => none

/-- The bits a value of a lane type occupies. -/
def typeWidth : Nat → Nat
  | 0 | 1 | 2 => 32
  | 3 | 4 => 16
  | 5 | 6 | 0xA | 0xB => 8
  | 7 | 8 => 6
  | 9 => 4
  | _ => 64

/-- The exact value that the bits of a lane type stand for (R277, R278, R291). -/
def valueOf (ty bits : Nat) : Num :=
  match floatOf ty with
  | some f => f.decode bits
  | none =>
    match ty with
    | 0 => Num.ofInt (sint 32 bits)
    | 1 => Num.ofInt (bits % 2 ^ 32)
    | 0xA => Num.ofInt (sint 8 bits)
    | 0xB => Num.ofInt (sint 8 bits) (-6)
    | _ => Num.ofInt (sint 64 bits) (-24)

/-- An integer in w bits of two's complement. -/
def intBits (w : Nat) (v : Int) : Nat := (BitVec.ofInt w v).toNat

/-- Rounding an exact value to a lane type (R282, R286, R287). -/
def roundTo (ty : Nat) (md : RMode) (x : Num) : Nat × Flags :=
  match floatOf ty with
  | some f => f.round md x
  | none =>
    let go (w : Nat) (q lo hi : Int) : Nat × Flags :=
      let r := roundInt md q lo hi x
      (intBits w r.1, r.2)
    match ty with
    | 0 => go 32 0 (-2147483648) 2147483647
    | 1 => go 32 0 0 4294967295
    | 0xA => go 8 0 (-128) 127
    | 0xB => go 8 (-6) (-128) 127
    | _ => go 64 (-24) (-9223372036854775808) 9223372036854775807

/-- Read an MX block element back: scale × element, a NaN scale giving NaN (R290). -/
def mxValue (ty bits scale : Nat) : Num :=
  if scale = 255 then .nan
  else match valueOf ty bits with
  | .fin n m e s => .fin n m (e + (scale : Int) - 127) s
  | v => v

/-- emax of an element format (R289). -/
def mxEmax : Nat → Int
  | 5 => 8
  | 6 => 15
  | 7 => 4
  | 8 => 2
  | 9 => 2
  | _ => 0

/-- The scale of a block from its surviving elements (R289). -/
def mxScale (ty : Nat) (xs : List Num) : Nat :=
  let logs := xs.filterMap fun x => match x with
    | .fin _ m e _ => if m = 0 then none else some ((Nat.log2 m : Int) + e)
    | _ => none
  match logs with
  | [] => 0x7F
  | l :: ls => (clampI 0 0xFE (ls.foldl max l - mxEmax ty + 127)).toNat

/-- An element converted under a scale (R290); a scale of 0xFF gives the format's NaN, or +0 with none, and IV (R422). -/
def mxCode (ty : Nat) (md : RMode) (scale : Nat) (x : Num) : Nat × Flags :=
  if scale = 255 then
    (match ty with
     | 5 => 0x7F
     | 6 => 0x7E
     | _ => 0, fIV)
  else match x with
  | .fin n m e s => roundTo ty md (.fin n m (e - ((scale : Int) - 127)) s)
  | v => roundTo ty md v

/-- Packed bytes of a block's codes (R288). -/
def mxPack (ty : Nat) (codes : List Nat) : List Byte :=
  let w := typeWidth ty
  bytesOf (codes.length * w / 8) (codes.foldr (fun c acc => c + 2 ^ w * acc) 0)

/-- Element i of a packed block (R288): elements follow one another from the lowest bit. -/
def mxElem (ty : Nat) (bs : List Byte) (i : Nat) : Nat :=
  let w := typeWidth ty
  natOf bs / 2 ^ (w * i) % 2 ^ w

/-! ### Accumulators (R291–R295) -/

/-- The four flag bits of an accumulator: SAT 0, IV 1, OF 2, NX 3 (R165). -/
abbrev AccFlags := BitVec 4

/-- The five flags of an operation as accumulator flag bits. -/
def accFlagsOf (f : Flags) : AccFlags :=
  (if f &&& fIV ≠ 0 then 2 else 0) ||| (if f &&& fOF ≠ 0 then 4 else 0) ||| (if f &&& fNX ≠ 0 then 8 else 0)

/-- The 64-bit value an 80-bit sum reads as, and whether the read saturates (R292). -/
def wideRead (x : Nat) : Int × Bool :=
  let t := sint 80 x
  if 9223372036854775807 < t then (9223372036854775807, true)
  else if t < -9223372036854775808 then (-9223372036854775808, true)
  else (t, false)

/-- A binary64 sum with one RNE rounding (R294). -/
def addB64 (acc : Nat) (p : Num) : Nat × Flags :=
  let r := (FloatFmt.b64.decode acc).add rne p
  let o := FloatFmt.b64.round rne r.1
  (o.1, r.2 ||| o.2)

end Sys2Proof.Machine
end

