-- ==== Sys2Proof/Machine/Approx.lean ====
section
/-! DEFINITION. The approximate functions of binary32 (R419, R420, Table 16.3). Beyond the special and exact inputs a result is
the implementation's own within its bound: the opaque `Config.approx`, taken where it keeps the bound. The bound of a
transcendental function is judged by a 64-bit fixed-point value, short of the bound by 2^−40, so that no admitted result lies beyond
it (DESIGN CHOICE, log entry 3). -/

namespace Sys2Proof.Machine

/-- ln 2 and π in units of 2^−64. -/
def ln2Fix : Nat := 0xB17217F7D1CF79AB
/-- See `ln2Fix`. -/
def piFix : Nat := 0x3243F6A8885A308D3
/-- One in units of 2^−64. -/
def oneFix : Nat := 2 ^ 64

/-- The sum of the series whose term k + 1 is term k times x divided by `den k`, with alternating signs when `alt` is set, all
in units of 2^−64. -/
def seriesFix (alt : Bool) (x : Nat) (den : Nat → Nat) : Nat → Nat → Nat → Int
  | 0, _, _ => 0
  | n + 1, k, t =>
    (if alt && decide (k % 2 = 1) then -(t : Int) else t) + seriesFix alt x den n (k + 1) (t * x / oneFix / den k)

/-- 2^f for a fraction f of 2^−64 units, in units of 2^−64. -/
def exp2Fix (f : Nat) : Nat := (seriesFix false (f * ln2Fix / oneFix) (fun k => k + 1) 30 0 oneFix).toNat

/-- The terms of 2·atanh z. -/
def atanhFix (z2 : Nat) : Nat → Nat → Nat → Nat
  | 0, _, _ => 0
  | n + 1, k, t => 2 * t / (2 * k + 1) + atanhFix z2 n (k + 1) (t * z2 / oneFix)

/-- log2 of m × 2^−23 for m in 2^23 to 2^24, in units of 2^−64. -/
def log2Fix (m : Nat) : Nat :=
  let z := (m - 2 ^ 23) * oneFix / (m + 2 ^ 23)
  atanhFix (z * z / oneFix) 45 0 z * oneFix / ln2Fix

/-- sin(π·x) for x in 0 to 1/2, in units of 2^−64. -/
def sinFix (x : Nat) : Int :=
  let y := x * piFix / oneFix
  let y2 := y * y / oneFix
  seriesFix true y2 (fun k => (2 * k + 2) * (2 * k + 3)) 20 0 y

/-- A finite value lies within 2^−k − 2^−40 of another, absolutely or relative to it: within the bound, whatever the error of the
other's own computation. -/
def nearNum (rel : Bool) (k : Nat) (v t : Num) : Bool :=
  match v, t with
  | .fin nv mv ev _, .fin nt mt et _ =>
    let e := min (min ev et) 0
    let x := signedAt nv mv ev e
    let y := signedAt nt mt et e
    let one : Nat := 2 ^ (-e).toNat
    decide ((x - y).natAbs * 2 ^ 40 ≤ (if rel then y.natAbs else one) * (2 ^ (40 - k) - 1))
  | .inf nv, .fin nt mt et _ =>
    -- a value within the bound lies beyond the largest finite one
    rel && decide (nv = nt) && decide (signedAt false 1 128 (min et 128) * 2 ^ 40
      ≤ signedAt false mt et (min et 128) * (2 ^ 40 + 2 ^ (40 - k) - 1))
  | _, _ => false

/-- A value is not zero, and below the least normal binary32 (R284). -/
def Num.tiny (t : Num) : Bool := (Num.fin false 0 0 false).lt false t.abs && t.abs.lt false (.fin false 1 (-126) false)

/-- A result outside the special and exact inputs, with its flags; a tiny value is flushed to zero (R284, R419). -/
def approxFlags (tiny : Bool) (v : Nat) : Nat × Flags :=
  match FloatFmt.b32.decode v with
  | .inf neg => (FloatFmt.b32.infBits neg, fOF ||| fNX)
  | .fin neg mag _ _ => if (mag ≠ 0 ∨ tiny) ∧ mag < 2 ^ 23 then (FloatFmt.b32.sign neg, fUF ||| fNX) else (v, fNX)
  | .nan => (FloatFmt.b32.nanBits, fNone)

/-- The implementation's own result where it keeps the bound, else the value itself. -/
def approxTake (op a : Nat) (ok : Num → Bool) (t : Num) : Nat × Flags :=
  let v := (Config.approx (BitVec.ofNat 8 op) (BitVec.ofNat 32 a)).toNat
  approxFlags t.tiny (if ok (FloatFmt.b32.decode v) then v else (FloatFmt.b32.round rne t).1)

/-- Twice a value, when that is a whole number. -/
def twice (mag : Nat) (exp : Int) : Option Nat :=
  if 0 ≤ exp + 1 then some (mag * 2 ^ (exp + 1).toNat)
  else if mag % 2 ^ (-(exp + 1)).toNat = 0 then some (mag / 2 ^ (-(exp + 1)).toNat)
  else none

/-- A binary32 encoding of an exact value. -/
def b32Of (x : Num) : Nat := (FloatFmt.b32.round rne x).1

/-- A magnitude in units of 2^−64, truncated; only its value modulo 2 is kept. -/
def fixOf (mag : Nat) (exp : Int) : Nat :=
  (if 0 ≤ exp + 64 then mag * 2 ^ (exp + 64).toNat else mag / 2 ^ (-(exp + 64)).toNat) % (2 * oneFix)

/-- FRCPA of a finite non-zero value. -/
def frcpa (a : Nat) (neg : Bool) (mag : Nat) (exp : Int) : Nat × Flags :=
  if mag = 2 ^ 23 ∧ exp + 23 ≤ 126 then (b32Of (.fin neg 1 (-(exp + 23)) false), fNone)
  else
    let ok (v : Num) : Bool := match v with
      | .fin nv mv ev _ =>
        -- |v·a − 1| ≤ 2^−14
        let e := min (ev + exp) (-14)
        decide (nv = neg) && decide (((signedAt false (mv * mag) (ev + exp) e - signedAt false 1 0 e).natAbs : Int)
          ≤ signedAt false 1 (-14) e)
      | _ => false
    approxTake 0x2D a ok (Num.div (.fin false 1 0 false) (.fin neg mag exp false)).1

/-- FRSQA of a finite positive value. -/
def frsqa (a : Nat) (mag : Nat) (exp : Int) : Nat × Flags :=
  if mag = 2 ^ 23 ∧ (exp + 23) % 2 = 0 then (b32Of (.fin false 1 (-((exp + 23) / 2)) false), fNone)
  else
    let ok (v : Num) : Bool := match v with
      | .fin nv mv ev _ =>
        -- (1 − 2^−14)² ≤ v²·a ≤ (1 + 2^−14)²
        let e := min (2 * ev + exp) (-28)
        let x := signedAt false (mv * mv * mag) (2 * ev + exp) e
        let at' (k : Nat) : Int := signedAt false (k * k) (-28) e
        !nv && decide (at' (2 ^ 14 - 1) ≤ x) && decide (x ≤ at' (2 ^ 14 + 1))
      | _ => false
    approxTake 0x2E a ok (Num.div (.fin false 1 0 false) (Num.sqrt (.fin false mag exp false)).1).1

/-- FEXP2 of a finite value. -/
def fexp2 (a : Nat) (neg : Bool) (mag : Nat) (exp : Int) : Nat × Flags :=
  let whole : Option Int := match twice mag exp with
    | some n => if n % 2 = 0 then some (if neg then -((n / 2 : Nat) : Int) else (n / 2 : Nat)) else none
    | none => none
  match whole.filter fun k => decide (-126 ≤ k ∧ k ≤ 127) with
  | some k => (b32Of (.fin false 1 k false), fNone)
  | none =>
    if (8 : Int) ≤ (Nat.log2 mag : Int) + exp then
      (if neg then (0, fUF ||| fNX) else (FloatFmt.b32.infBits false, fOF ||| fNX))
    else
      let fix := (if 0 ≤ exp + 64 then mag * 2 ^ (exp + 64).toNat else mag / 2 ^ (-(exp + 64)).toNat)
      let x : Int := if neg then -(fix : Int) else fix
      let k := x / oneFix
      let t : Num := .fin false (exp2Fix (x - k * oneFix).toNat) (k - 64) true
      approxTake 0x2F a (nearNum true 21 · t) t

/-- FLOG2 of a finite positive value. -/
def flog2 (a : Nat) (mag : Nat) (exp : Int) : Nat × Flags :=
  let k := exp + 23
  if mag = 2 ^ 23 then (b32Of (Num.ofInt k), fNone)
  else
    let y : Int := k * oneFix + log2Fix mag
    let t : Num := .fin (decide (y < 0)) y.natAbs (-64) true
    approxTake 0x30 a (nearNum (decide (k < -1 ∨ 0 < k)) 21 · t) t

/-- sin(π·x) with the sign folded in, x in units of 2^−64 below 2. -/
def sinPi (x : Nat) : Int :=
  let neg := decide (oneFix ≤ x)
  let y := x % oneFix
  let z := if oneFix / 2 < y then oneFix - y else y
  if neg then -(sinFix z) else sinFix z

/-- FSIN or FCOS of a finite non-zero value. -/
def fsincos (cos : Bool) (a : Nat) (neg : Bool) (mag : Nat) (exp : Int) : Nat × Flags :=
  match twice mag exp with
  | some n =>
    let whole := decide (n % 2 = 0)
    let odd := decide (n / 2 % 2 = 1)
    let one (minus : Bool) : Nat := FloatFmt.b32.sign minus + 0x3F800000
    (if whole then (if cos then one odd else FloatFmt.b32.sign neg)
     else (if cos then 0 else one (xor neg odd)), fNone)
  | none =>
    let x := fixOf mag exp
    let y := if cos then sinPi ((x + oneFix / 2) % (2 * oneFix)) else (if neg then -(sinPi x) else sinPi x)
    let t : Num := .fin (decide (y < 0)) y.natAbs (-64) true
    approxTake (if cos then 0x32 else 0x31) a (nearNum false 20 · t) t

/-- FTANH of a finite non-zero value. -/
def ftanh (a : Nat) (neg : Bool) (mag : Nat) (exp : Int) : Nat × Flags :=
  let t : Num :=
    if (5 : Int) ≤ (Nat.log2 mag : Int) + exp then .fin neg oneFix (-64) true
    else
      -- w = e^−2|x| = 2^−(2|x|/ln 2)
      let x := if 0 ≤ exp + 64 then mag * 2 ^ (exp + 64).toNat else mag / 2 ^ (-(exp + 64)).toNat
      let p := 2 * x * oneFix / ln2Fix
      let k := p / oneFix
      let f := p % oneFix
      let w := if f = 0 then oneFix / 2 ^ k else exp2Fix (oneFix - f) / 2 ^ (k + 1)
      .fin neg ((oneFix - w) * oneFix / (oneFix + w)) (-64) true
  approxTake 0x33 a (nearNum false 20 · t) t

/-- An approximate function of a binary32 encoding, with its flags (Table 16.3). -/
def approxFn (op a : Nat) : Nat × Flags :=
  let inf (neg : Bool) : Nat := FloatFmt.b32.infBits neg
  let zero (neg : Bool) : Nat := FloatFmt.b32.sign neg
  let nan : Nat := FloatFmt.b32.nanBits
  match FloatFmt.b32.decode a with
  | .nan => (nan, fNone)
  | .inf neg =>
    match op with
    | 0x2D => (zero neg, fNone)
    | 0x2E => if neg then (nan, fIV) else (zero false, fNone)
    | 0x2F => if neg then (zero false, fNone) else (inf false, fNone)
    | 0x30 => if neg then (nan, fIV) else (inf false, fNone)
    | 0x33 => (zero neg + 0x3F800000, fNone)
    | _ => (nan, fIV)
  | .fin neg mag exp _ =>
    if mag < 2 ^ 23 then
      -- a zero, or a subnormal taken as one (R285)
      match op with
      | 0x2D => (inf neg, fDZ)
      | 0x2E => (inf neg, fDZ)
      | 0x2F => (0x3F800000, fNone)
      | 0x30 => (inf true, fDZ)
      | 0x32 => (0x3F800000, fNone)
      | _ => (zero neg, fNone)
    else
      match op with
      | 0x2D => frcpa a neg mag exp
      | 0x2E => if neg then (nan, fIV) else frsqa a mag exp
      | 0x2F => fexp2 a neg mag exp
      | 0x30 => if neg then (nan, fIV) else flog2 a mag exp
      | 0x31 => fsincos false a neg mag exp
      | 0x32 => fsincos true a neg mag exp
      | _ => ftanh a neg mag exp

/-- SoftScale of two binary32 encodings (R453). -/
def softScale (x m : Nat) : Nat × Flags :=
  let vx := FloatFmt.b32.decode x
  let vm := FloatFmt.b32.decode m
  if vx ≠ .nan ∧ vm ≠ .nan ∧ !vx.lt false vm ∧ !vm.lt false vx then (0x3F800000, fNone)
  else
    let d := vx.add rne vm.neg
    let t := FloatFmt.b32.round rne d.1
    let p := (FloatFmt.b32.decode t.1).mul (FloatFmt.b32.decode 0x3FB8AA3B)
    let u := FloatFmt.b32.round rne p.1
    let e := approxFn 0x2F u.1
    (e.1, d.2 ||| t.2 ||| p.2 ||| u.2 ||| e.2)

end Sys2Proof.Machine
end

