-- ==== Sys2Proof/Machine/Compute.lean ====
section
/-! DEFINITION. What a stage word computes on a token's lanes (R310–R314, R409–R426, R452, R453, R455). -/

namespace Sys2Proof.Machine

/-! ### Operands and results -/

/-- An operand: sixteen lanes and the count of those that are active (R137, R409). -/
structure Opnd where
  lanes : Vector Lane 16
  cnt : Nat
  deriving DecidableEq, Repr

/-- Lane i as a number. -/
def Opnd.at (x : Opnd) (i : Nat) : Nat := (x.lanes[i]?.getD 0).toNat
/-- Lane pair j as a number (R314). -/
def Opnd.pair (x : Opnd) (j : Nat) : Nat := x.at (2 * j) + 2 ^ 32 * x.at (2 * j + 1)
/-- The payload bytes, those of inactive lanes reading zero (R423). -/
def Opnd.bytes (x : Opnd) : List Byte := (List.range 16).flatMap fun i => bytesOf 4 (if i < x.cnt then x.at i else 0)

/-- What a stage writes: its result, the flags of its active lanes, whether a lane saturated, elements skipped by DELTA and
whether CMPRS asks that an empty token go unsent. -/
structure Res where
  out : Opnd
  fl : Flags := 0
  sat : Bool := false
  skips : Nat := 0
  skipE : Bool := false
  deriving DecidableEq, Repr

/-- A result of n lanes, each computed with its flags; the rest read zero. -/
def eachLane (n : Nat) (f : Nat → Nat × Flags) : Res :=
  let xs := (List.range (min n 16)).map f
  { out := ⟨lanesOf (xs.map (·.1)), n⟩, fl := xs.foldl (fun a x => a ||| x.2) 0 }

/-- A result of p lane pairs, from lane 0. -/
def pairLanes (xs : List (Nat × Flags)) (cnt : Nat) : Res :=
  { out := ⟨lanesOf (xs.flatMap fun x => [x.1 % 2 ^ 32, x.1 / 2 ^ 32]), cnt⟩, fl := xs.foldl (fun a x => a ||| x.2) 0 }

/-- The bits of a lane that a type reads (R314, R412). -/
def laneBits (ty v : Nat) : Nat := v % 2 ^ typeWidth ty

/-! ### Integer lanes (R415, R416) -/

/-- A value saturated to the range of TYPE, and whether it was (R416). -/
def satLane (unsigned : Bool) (v : Int) : Nat × Bool :=
  let lo : Int := if unsigned then 0 else -(2 ^ 31)
  let hi : Int := if unsigned then 2 ^ 32 - 1 else 2 ^ 31 - 1
  (intBits 32 (clampI lo hi v), decide (v < lo ∨ hi < v))

/-- A lane as TYPE reads it. -/
def laneInt (unsigned : Bool) (v : Nat) : Int := if unsigned then (v : Int) else sint 32 v

/-- One lane of an integer form, and whether it saturates (Table 16.1). -/
def intLane (op : Nat) (unsigned : Bool) (cond a b c : Nat) : Nat × Bool :=
  let x := laneInt unsigned a
  let y := laneInt unsigned b
  let m (v : Nat) : Nat × Bool := (v % 2 ^ 32, false)
  match op with
  | 0x01 => m (a + b)
  | 0x02 => m (a + 2 ^ 32 - b)
  | 0x03 => m (a * b)
  | 0x04 => (intBits 32 (x * y / 2 ^ 32), false)
  | 0x05 => m (a * b + c)
  | 0x06 => m (a &&& b)
  | 0x07 => m (a ||| b)
  | 0x08 => m (a ^^^ b)
  | 0x09 => m (a * 2 ^ (b % 32))
  | 0x0A => m (a / 2 ^ (b % 32))
  | 0x0B => (intBits 32 (sint 32 a / 2 ^ (b % 32)), false)
  | 0x0C => m (if sint 32 b < sint 32 a then b else a)
  | 0x0D => m (if sint 32 a < sint 32 b then b else a)
  | 0x0E => m (min a b)
  | 0x0F => m (max a b)
  | 0x10 => m (if unsigned then a else (sint 32 a).natAbs)
  | 0x11 => m (if a = 0 then 32 else 31 - Nat.log2 a)
  | 0x12 => m ((List.range 32).foldl (fun n i => n + a / 2 ^ i % 2) 0)
  | 0x13 => m (if c ≠ 0 then a else b)
  | 0x14 => m (b2n (icmp cond x y))
  | 0x15 => satLane unsigned (x + y)
  | _ => satLane unsigned (x - y)

/-! ### Floating lanes (R417, R418) -/

/-- The exact result of a floating form on exact operands, with the flags its operation raises (Table 16.2). -/
def floatExact (op : Nat) (md : RMode) (a b c : Num) : Num × Flags :=
  let fma (p : Num × Flags) (c : Num) : Num × Flags :=
    if a = .nan ∨ b = .nan ∨ c = .nan then (.nan, 0)
    else if p.1 = .nan then p
    else p.1.add md c
  match op with
  | 0x20 => a.add md b
  | 0x21 => a.add md b.neg
  | 0x22 => a.mul b
  | 0x23 => fma (a.mul b) c
  | 0x24 => fma (a.mul b) c.neg
  | 0x25 => fma ((a.mul b).1.neg, (a.mul b).2) c
  | 0x26 => (Num.minMax false a b, 0)
  | 0x27 => (Num.minMax true a b, 0)
  | 0x28 => (a.abs, 0)
  | 0x29 => (a.neg, 0)
  | 0x2B => a.div b
  | _ => a.sqrt

/-- One lane of a floating form (Table 16.2). -/
def floatLane (op ty : Nat) (md : RMode) (a b c : Nat) : Nat × Flags :=
  let v (x : Nat) : Num := valueOf ty (laneBits ty x)
  let r := floatExact op md (v a) (v b) (v c)
  let o := roundTo ty md r.1
  (o.1, r.2 ||| o.2)

/-! ### Conversions (R412, R421–R423) -/

/-- A conversion between formats, lane or pair by lane or pair (R412, R421). -/
def convert (src dst half : Nat) (md : Nat → RMode) (x : Opnd) (n : Nat) : Res :=
  let one (i v : Nat) : Nat × Flags := roundTo dst (md i) (valueOf src v)
  let wide (t : Nat) : Bool := decide (t = 0xC ∨ t = 0xD)
  match wide src, wide dst with
  | false, false => eachLane n fun i => one i (laneBits src (x.at i))
  | true, true => pairLanes ((List.range (min n 16 / 2)).map fun j => one (2 * j) (x.pair j)) n
  | false, true =>
    let p := min 8 (n - 8 * half)
    pairLanes ((List.range p).map fun j => one (2 * j) (laneBits src (x.at (8 * half + j)))) (2 * p)
  | true, false =>
    let p := min n 16 / 2
    eachLane (8 * half + p) fun i => if i < 8 * half then (0, 0) else one i (x.pair (i - 8 * half))

/-- The 32 elements of an MX block in two tokens, with their activity (R422). -/
def blockElems (a b : Opnd) : List (Nat × Bool) :=
  (List.range 32).map fun j => if j < 16 then (a.at j, decide (j < a.cnt)) else (b.at (j - 16), decide (j - 16 < b.cnt))

/-- QSCALE (R422). -/
def qscale (ty : Nat) (mask : Bool) (a b c : Opnd) : Res :=
  let es := blockElems a b
  let live := (List.zip es (List.range 32)).map fun x => x.1.2 && (!mask || bitN (c.at 0) x.2)
  let vals := (List.zip es live).filterMap fun x => if x.2 then some (FloatFmt.b32.decode x.1.1) else none
  let m := (List.zip live (List.range 32)).foldl (fun acc x => acc + b2n x.1 * 2 ^ x.2) 0
  { out := ⟨lanesOf [mxScale ty vals, m], 2⟩ }

/-- CVTMX (R422): `md j` is the mode for element j. -/
def cvtmx (ty : Nat) (md : Nat → RMode) (a b c : Opnd) : Res :=
  let scale := c.at 0 % 256
  let codes := (List.zip (blockElems a b) (List.range 32)).map fun x =>
    if scale = 255 then mxCode ty (md x.2) scale .nan
    else if x.1.2 && bitN (c.at 1) x.2 then mxCode ty (md x.2) scale (FloatFmt.b32.decode x.1.1)
    else (0, 0)
  let bs := mxPack ty (codes.map (·.1))
  { out := ⟨lanesOf ((List.range 16).map fun i => natOf ((bs.drop (4 * i)).take 4)), bs.length / 4⟩
    fl := codes.foldl (fun acc x => acc ||| x.2) 0 }

/-- CVTXM (R423). -/
def cvtxm (fmt half : Nat) (md : Nat → RMode) (a b : Opnd) : Res :=
  let bs := a.bytes
  eachLane 16 fun i => FloatFmt.b32.round (md i) (mxValue fmt (mxElem fmt bs (16 * half + i)) (b.at 0 % 256))

/-! ### Lane forms (R424–R426) -/

/-- Combine of LRED, LSCAN and SEGRED: 0 add, 1 min, 2 max, 3 and, 4 or, 5 xor (R425). -/
def combine (k ty : Nat) (md : RMode) (a b : Nat) : Nat × Flags :=
  if 2 ≤ ty then
    let x := valueOf ty (laneBits ty a)
    let y := valueOf ty (laneBits ty b)
    match k with
    | 0 => let r := x.add md y; let o := roundTo ty md r.1; (o.1, r.2 ||| o.2)
    | 1 => ((roundTo ty rne (Num.minMax false x y)).1, 0)
    | _ => ((roundTo ty rne (Num.minMax true x y)).1, 0)
  else
    let u := decide (ty = 1)
    (match k with
     | 0 => (a + b) % 2 ^ 32
     | 1 => if laneInt u b < laneInt u a then b else a
     | 2 => if laneInt u a < laneInt u b then b else a
     | 3 => a &&& b
     | 4 => a ||| b
     | _ => a ^^^ b, 0)

/-- The identity for EXCL (R425). -/
def identity (k ty : Nat) : Nat :=
  match k with
  | 0 => 0
  | 1 => if 2 ≤ ty then (roundTo ty rne (.inf false)).1 else if ty = 1 then 0xFFFFFFFF else 0x7FFFFFFF
  | 2 => if 2 ≤ ty then (roundTo ty rne (.inf true)).1 else if ty = 1 then 0 else 0x80000000
  | 3 => 0xFFFFFFFF
  | _ => 0

/-- Running combinations of the active lanes, in ascending order, with their flags (R425). The first value keeps only the bits
its type reads. -/
def prefixes (k ty : Nat) (md : Nat → RMode) (a : Opnd) : List (Nat × Flags) :=
  (List.range (min a.cnt 16)).foldl (fun acc j =>
    let v := laneBits (if 2 ≤ ty then ty else 0) (a.at j)
    match acc.getLast? with
    | none => [(v, 0)]
    | some p => acc ++ [combine k ty (md j) p.1 v]) []

/-- LRED and LSCAN (R425). -/
def reduceLanes (scan excl : Bool) (k ty : Nat) (md : Nat → RMode) (a : Opnd) : Res :=
  let ps := prefixes k ty md a
  let fl := ps.foldl (fun acc x => acc ||| x.2) 0
  if scan then
    let vs := if excl then identity k ty :: ps.map (·.1) else ps.map (·.1)
    { out := ⟨lanesOf (vs.take (min a.cnt 16)), a.cnt⟩, fl := fl }
  else
    match ps.getLast? with
    | none => { out := ⟨zeroLanes, 0⟩ }
    | some p => { out := ⟨lanesOf [p.1], 1⟩, fl := fl }

/-- CMPRS (R426). -/
def compress (skipE : Bool) (a b : Opnd) : Res :=
  let xs := ((List.range (min (min a.cnt b.cnt) 16)).filter fun i => decide (b.at i ≠ 0)).map a.at
  { out := ⟨lanesOf xs, xs.length⟩, skipE := skipE && xs.isEmpty }

/-- EXPND (R426). -/
def expand (a b c : Opnd) : Res :=
  let lane (i : Nat) : Nat :=
    if b.at i ≠ 0 then
      let j := ((List.range i).filter fun k => decide (b.at k ≠ 0)).length
      if j < a.cnt then a.at j else 0
    else c.at i
  eachLane b.cnt fun i => (lane i, 0)

/-- A lane form other than LRED and LSCAN (Table 16.7). -/
def laneForm (op sub : Nat) (a b c : Opnd) : Res :=
  let flag := bitN sub 6
  let pick (i : Nat) : Nat := if i < a.cnt then a.at i else 0
  match op with
  | 0x50 => eachLane b.cnt fun i => (pick (b.at i % 16), 0)
  | 0x51 =>
    let s := b.at 0 % 16
    eachLane a.cnt fun i => (a.at ((if flag then i + 16 * a.cnt - s else i + s) % a.cnt), 0)
  | 0x52 => eachLane (if flag then 16 else a.cnt) fun _ => (pick (b.at 0 % 16), 0)
  | 0x55 => compress flag a b
  | 0x56 => expand a b c
  | _ =>
    if bits sub 5 3 = 0 then
      eachLane 1 fun _ => ((List.range (min a.cnt 16)).foldl (fun n j => if a.at j ≠ 0 then n + 2 ^ j else n) 0, 0)
    else eachLane a.cnt fun i => (if bitN (b.at 0) i then a.at i else c.at i, 0)

/-! ### Softmax and delta forms (R452, R453, R455) -/

/-- SMXUP (R452). -/
def smxup (a b : Opnd) : Res :=
  let m := (List.range (min a.cnt 16)).foldl (fun m i => Num.minMax true m (FloatFmt.b32.decode (a.at i)))
    (FloatFmt.b32.decode (b.at 0))
  eachLane 16 fun _ => (b32Of m, 0)

/-- SMXRS (R453). -/
def smxrs (a b : Opnd) : Res := eachLane a.cnt fun i => softScale (a.at i) (b.at 0)

/-- The exact magnitude of D is below QK (R166, R455). -/
def belowQk (d : Num) (qk : Nat) : Bool := d.abs.lt false (FloatFmt.b32.decode qk)

/-- One element of a delta: skipped, or D rounded with its flags (R455). -/
def deltaLane (ty : Nat) (md : RMode) (qk : Nat) (a b : Nat) : Bool × Nat × Flags :=
  let d := (valueOf ty (laneBits ty a)).add md (valueOf ty (laneBits ty b)).neg
  if belowQk d.1 qk then (true, 0, 0)
  else let o := roundTo ty md d.1; (false, o.1, d.2 ||| o.2)

/-- DELTA (R455). -/
def delta (ty : Nat) (md : Nat → RMode) (qk n : Nat) (a b : Opnd) : Res :=
  let xs := (List.range (min n 16)).map fun i => deltaLane ty (md i) qk (a.at i) (b.at i)
  { out := ⟨lanesOf (xs.map fun x => x.2.1), n⟩, fl := xs.foldl (fun acc x => acc ||| x.2.2) 0
    skips := (xs.filter fun x => x.1).length }

/-! ### A stage (R310, R311, R409, R413) -/

/-- The operands a form uses, by position a, b, c; a selector it does not use is ignored (R310). -/
def Stage.uses (st : Stage) : List Nat :=
  let op := st.op
  if op ∈ [0x05, 0x13, 0x23, 0x24, 0x25, 0x43, 0x56] then [0, 1, 2]
  else if op = 0x45 then (if bitN st.sub 3 then [0, 1, 2] else [0, 1])
  else if op = 0x57 then (if bits st.sub 5 3 = 0 then [0] else [0, 1, 2])
  else if op ∈ [0x10, 0x11, 0x12, 0x28, 0x29, 0x2C, 0x2D, 0x2E, 0x2F, 0x30, 0x31, 0x32, 0x33, 0x40, 0x41, 0x42, 0x53, 0x54] then
    [0]
  else [0, 1]

/-- The selector of an operand. -/
def Stage.sel (st : Stage) (pos : Nat) : Nat := if pos = 0 then st.sela else if pos = 1 then st.selb else st.selc

/-- The format in which a form sees the lane index as a number, if it does (R409). -/
def Stage.floatView (st : Stage) (pos : Nat) : Option Nat :=
  let op := st.op
  let ok (t : Nat) : Option Nat := if t = 2 ∨ t = 3 ∨ t = 4 then some t else none
  if 0x20 ≤ op ∧ op ≤ 0x33 ∨ op = 0x85 then ok st.ty
  else if op = 0x53 ∨ op = 0x54 then ok st.ty
  else if op = 0x81 ∨ op = 0x82 then some 2
  else if op = 0x43 ∨ op = 0x45 then (if pos < 2 then some 2 else none)
  else if op = 0x41 ∨ op = 0x42 then ok (st.sub / 16)
  else none

/-- The immediate a selector of 15 broadcasts (R311). -/
def Stage.imm (st : Stage) : Nat :=
  let v := st.low % 2 ^ 24
  if st.op < 0x20 ∧ st.op ≠ 0x14 then st.low
  else if st.ty ∈ [0, 1, 0xA] then intBits 32 (sint 24 v)
  else if st.ty = 2 then v * 256
  else v % 2 ^ min (typeWidth st.ty) 24

/-- The immediate in every lane; of a type of 64 bits, zero-extended in every pair of lanes (R311). -/
def Stage.immLanes (st : Stage) : List Nat :=
  (List.range 16).map fun i => if typeWidth st.ty = 64 ∧ i % 2 = 1 then 0 else st.imm

/-- The rounding mode code of a form that rounds, none of one that does not (R413, R455). -/
def Stage.rnd (st : Stage) : Option Nat :=
  if st.op ∈ [0x20, 0x21, 0x22, 0x23, 0x24, 0x25, 0x2B, 0x2C, 0x40, 0x41, 0x42, 0x43, 0x44] then some (st.sub % 8)
  else if (st.op = 0x53 ∨ st.op = 0x54) ∧ 2 ≤ st.ty then some (st.sub % 8)
  else if st.op = 0x85 then some (st.low % 8)
  else none

/-- What a firing gives its stages: the head tokens of its inputs, its count under R137, the number RSTO takes and QK. -/
structure Firing where
  ins : List (Nat × Token)
  base : Nat
  n : Nat
  qk : Nat
  deriving DecidableEq, Repr

/-- A firing under way: hold entries, the previous stage's result, outputs written so far, what was raised, hold entries written
and entries whose drop is due. -/
structure Run where
  holds : Vector (Option (Vector Lane 16)) 8
  prev : Opnd
  outs : List (Nat × Opnd × Bool)
  fl : Flags
  sat : Bool
  skips : Nat
  dead : Bool
  wrote : List Nat
  drops : List Nat
  deriving DecidableEq, Repr

/-- A hold entry of a firing. -/
def Run.hold (r : Run) (k : Nat) : Option (Vector Lane 16) := (r.holds[k]?).join

/-- An operand of a stage, and whether it is a dead hold entry (R168, R310, R409). -/
def readSel (f : Firing) (r : Run) (st : Stage) (pos : Nat) : Opnd × Bool :=
  let s := st.sel pos
  if s = 0 then (r.prev, false)
  else if s ≤ 4 then
    match f.ins.find? fun x => x.1 == s - 1 with
    | some x => (⟨x.2.lanes, x.2.cnt⟩, false)
    | none => (⟨zeroLanes, f.base⟩, false)
  else if s ≤ 12 then
    match r.hold (s - 5) with
    | some v => (⟨v, f.base⟩, false)
    | none => (⟨zeroLanes, f.base⟩, true)
  else if s = 13 then
    (⟨lanesOf ((List.range 16).map fun i => match st.floatView pos with
      | some t => (roundTo t rne (Num.ofInt (i : Nat))).1
      | none => i), f.base⟩, false)
  else if s = 15 then (⟨lanesOf st.immLanes, f.base⟩, false)
  else (⟨zeroLanes, f.base⟩, false)

/-- The seed of RSTO from hold entry k7 (R413). -/
def Run.seed (r : Run) : Nat × Bool :=
  match r.hold 7 with
  | some v => ((v[0]).toNat + 2 ^ 32 * (v[1]).toNat, false)
  | none => (0, true)

/-- What a computing stage makes of its operands. -/
def compute (st : Stage) (md : Nat → RMode) (mdBlock : Nat → RMode) (qk n : Nat) (a b c : Opnd) : Res :=
  let op := st.op
  let sub := st.sub
  let half := b2n (bitN sub 3)
  if op < 0x20 then
    let u := decide (st.ty = 1)
    let xs := (List.range (min n 16)).map fun i => intLane op u (sub % 8) (a.at i) (b.at i) (c.at i)
    { out := ⟨lanesOf (xs.map (·.1)), n⟩, sat := xs.any (·.2) }
  else if op = 0x2A then
    eachLane n fun i => (b2n (fcmp (sub % 8) (valueOf st.ty (laneBits st.ty (a.at i))) (valueOf st.ty (laneBits st.ty (b.at i)))), 0)
  else if op ≤ 0x2C then eachLane n fun i => floatLane op st.ty (md i) (a.at i) (b.at i) (c.at i)
  else if op ≤ 0x33 then eachLane n fun i => approxFn op (a.at i)
  else if op = 0x40 then convert (if bits sub 5 4 = 2 then 0xA else bits sub 5 4) st.ty half md a n
  else if op = 0x41 ∨ op = 0x42 then convert (sub / 16) st.ty half md a n
  else if op = 0x43 then cvtmx st.ty mdBlock a b c
  else if op = 0x44 then cvtxm (sub / 16) half md a b
  else if op = 0x45 then qscale st.ty (bitN sub 3) a b c
  else if op = 0x53 ∨ op = 0x54 then reduceLanes (decide (op = 0x54)) (bitN sub 6) (bits sub 5 3) st.ty md a
  else if op < 0x60 then laneForm op sub a b c
  else if op = 0x81 then smxup a b
  else if op = 0x82 then smxrs a b
  else delta st.ty md qk n a b

/-- A conversion with binary64 on a side: its operand's own CNT says which lanes or pairs are active (R412, R421). -/
def Stage.readsPairs (st : Stage) : Bool :=
  decide (0x40 ≤ st.op ∧ st.op ≤ 0x42 ∧ st.ty = 0xD) || decide ((st.op = 0x41 ∨ st.op = 0x42) ∧ st.sub / 16 = 0xD)

/-- One computing stage of a firing (R167, R168, R310, R409, R411, R413). -/
def runStage (f : Firing) (r : Run) (st : Stage) : Run :=
  let used := st.uses
  let a := readSel f r st 0
  let b := readSel f r st 1
  let c := readSel f r st 2
  let sd := r.seed
  let rsto := decide (st.rnd = some 4)
  let dead := (used.any fun p => (if p = 0 then a.2 else if p = 1 then b.2 else c.2)) || (rsto && sd.2)
  let md (k i : Nat) : RMode := { code := st.rnd.getD 0, seed := sd.1, index := k * f.n + i }
  let n := if used.any (fun p => decide (st.sel p = 0)) then (if st.readsPairs then r.prev.cnt else min f.base r.prev.cnt) else f.base
  let x := compute st (md 16) (md 32) f.qk n a.1 b.1 c.1
  let out : Opnd := ⟨clipLanes x.out.cnt x.out.lanes, x.out.cnt⟩
  let drop (p : Nat) (d : Bool) : List Nat :=
    if d && used.contains p && decide (5 ≤ st.sel p ∧ st.sel p ≤ 12) then [st.sel p - 5] else []
  let r := { r with prev := out, fl := r.fl ||| x.fl, sat := r.sat || x.sat, skips := r.skips + x.skips, dead := dead
                    drops := r.drops ++ drop 0 st.drpa ++ drop 1 st.drpb ++ drop 2 st.drpc }
  if 1 ≤ st.dst ∧ st.dst ≤ 8 then
    { r with holds := Vector.ofFn fun i => if i.val = st.dst - 1 then some out.lanes else r.holds[i]
             wrote := (st.dst - 1) :: r.wrote }
  else if 9 ≤ st.dst then { r with outs := (r.outs.filter fun o => o.1 != st.dst - 9) ++ [(st.dst - 9, out, x.skipE)] }
  else r

/-- The stages of a firing in turn: after one that read a dead entry no later stage runs (R168). -/
def runStages (f : Firing) : Run → List Stage → Run
  | r, [] => r
  | r, st :: rest => if r.dead then r else runStages f (runStage f r st) rest

end Sys2Proof.Machine
end

