-- ==== Sys2Proof/Machine/Stores.lean ====
section
/-! DEFINITION. Systolic geometry, accumulator row records and what an A row adds to them (R291–R295, R440–R448, R454,
R456). -/

namespace Sys2Proof.Machine

/-! ### Geometry (R440, Table 17.1) -/

/-- What the MMA elements and stores of a region fix: operand type, SCALE, columns, depths, rows, and the store elements in
order. -/
structure Geo where
  ty : Nat
  scale : Bool
  nc : Nat
  nd : Nat
  rows : Nat
  stores : List Nat
  deriving DecidableEq, Repr

/-- The geometry of a systolic region. -/
def Region.geo (g : Region) : Option Geo :=
  let es := g.elems.map fun e => (e.kind, e.words)
  let sites := mmaSites es
  let stores := (List.range g.elems.length).filter fun i => (g.elems[i]?).any fun e => e.isPort 5
  match sites, storePorts es with
  | s :: _, p :: _ =>
    if g.disc = 2 then
      some { ty := s.ty, scale := s.scale, nc := spanOf (sites.map (·.j)), nd := spanOf (sites.map (·.i)), rows := p.len / 4
             stores := stores }
    else none
  | _, _ => none

/-- Weights of a lane at one site. -/
def Geo.g (x : Geo) : Nat := if x.ty = 3 ∨ x.ty = 4 then 2 else if x.ty ∈ [7, 8, 9] then 8 else 4
/-- Kc: elements of a row at one depth. -/
def Geo.kc (x : Geo) : Nat := 6 * x.g
/-- Bc: bytes of an element's weight block. -/
def Geo.bc (x : Geo) : Nat := 2 * x.kc * typeWidth x.ty
/-- K. -/
def Geo.k (x : Geo) : Nat := x.nd * x.kc
/-- N. -/
def Geo.n (x : Geo) : Nat := 16 * x.nc
/-- NB: scale blocks of a row. -/
def Geo.nb (x : Geo) : Nat := (x.k + 31) / 32
/-- The accumulator is wide-fixed (R444). -/
def Geo.wide (x : Geo) : Bool := wideKind x.ty x.scale

/-- The element that carries MMA at a column and depth. -/
def Region.mmaElem (g : Region) (j i : Nat) : Option Nat :=
  g.elems.findIdx? fun e => e.kind == .ce && (mmaSite e.words).any fun x => decide (x.j = j ∧ x.i = i)

/-! ### Row records (R443, Table 17.2) -/

/-- The physical address of row r of a store element. -/
def storeRow (m : RowId) (c : CoreId) (e : Elem) (r : Nat) : Nat :=
  spadBase + sliceOffset m c (Fin.ofNat 64 (memIndex e.cell)) (e.port.off + 512 * r)

/-- An accumulator: its value, 80 bits when wide-fixed, and its four flag bits (R165). -/
structure Entry where
  val : Nat
  fl : AccFlags
  deriving DecidableEq, Repr

/-- The flag bits as they stand in [19:16] of an entry: IV, OF, NX, SAT. -/
def AccFlags.layout (f : AccFlags) : Nat :=
  b2n (f.getLsbD 1) + 2 * b2n (f.getLsbD 2) + 4 * b2n (f.getLsbD 3) + 8 * b2n (f.getLsbD 0)

/-- Entry q of a record's bytes. -/
def entryAt (wide : Bool) (bs : List Byte) (q : Nat) : Entry :=
  let v := fieldAt bs (16 * q) 8
  let w := fieldAt bs (16 * q + 8) 8
  { val := if wide then v + w % 65536 * 2 ^ 64 else v
    fl := BitVec.ofNat 4 (b2n (bitN w 19) + 2 * b2n (bitN w 16) + 4 * b2n (bitN w 17) + 8 * b2n (bitN w 18)) }

/-- The 16 bytes of an entry. -/
def Entry.bytes (wide : Bool) (x : Entry) : List Byte :=
  bytesOf 8 (x.val % 2 ^ 64) ++ bytesOf 8 ((if wide then x.val / 2 ^ 64 % 65536 else 0) + 65536 * AccFlags.layout x.fl)

/-- A cleared entry (R292). -/
def Entry.zero : Entry := { val := 0, fl := 0 }

/-- The bits of STICKY that an accumulator's flag bits are (R160, R448). -/
def AccFlags.sticky (f : AccFlags) : BitVec 16 :=
  (if f.getLsbD 0 then stSAT else 0) ||| (if f.getLsbD 1 then 1 else 0) ||| (if f.getLsbD 2 then 4 else 0)
    ||| (if f.getLsbD 3 then 16 else 0)

/-- The five flags as bits of STICKY (Table 5.5). -/
def flagSticky (f : Flags) : BitVec 16 := f.setWidth 16

/-- An accumulator read at a lane type: the bits, the conversion's flags, and the entry with SAT kept (R292, R293, R457). -/
def Entry.read (wide : Bool) (ty : Nat) (md : RMode) (x : Entry) : Nat × Flags × Entry :=
  if wide then
    let (v, sat) := wideRead x.val
    let x' := if sat then { x with fl := x.fl ||| 1 } else x
    if ty = 0xC then (intBits 64 v, 0, x')
    else if x.fl.getLsbD 1 then ((roundTo ty md .nan).1, 0, x')
    else let o := roundTo ty md (Num.ofInt v (-24)); (o.1, o.2, x')
  else
    let o := roundTo ty md (FloatFmt.b64.decode x.val)
    (o.1, o.2, x)

/-! ### What an A row adds (R447) -/

/-- The flag bits gain those of an operation (R444). -/
def Entry.raise (x : Entry) (v : Nat) (f : Flags) : Entry := { val := v, fl := x.fl ||| accFlagsOf f }

/-- A product in raw wide-fixed units, none with a NaN operand (R291, R293). -/
def rawProduct (a b : Num) : Option Int :=
  match a.mul b with
  | (.fin neg mag exp _, _) => some (signedAt neg mag (exp + 24) 0)
  | _ => none

/-- The wide-fixed loop (R447): products added modulo 2^80. -/
def wideLoop (x : Entry) (ab : List (Num × Num)) : Entry :=
  ab.foldl (fun x p => match rawProduct p.1 p.2 with
    | none => { x with fl := x.fl ||| 2 }
    | some v => { x with val := intBits 80 (x.val + v) }) x

/-- The binary64 loop (R294). -/
def b64Loop (x : Entry) (ab : List (Num × Num)) : Entry :=
  ab.foldl (fun x p =>
    let q := p.1.mul p.2
    let s := addB64 x.val q.1
    x.raise s.1 (q.2 ||| s.2)) x

/-- One MX block (R295, R447). -/
def mxBlock (ty : Nat) (x : Entry) (ab : List (Num × Num)) (sa sb : Nat) : Entry :=
  let scaled (v : Num) : Num := match v with
    | .fin n m e s => .fin n m (e + (sa : Int) - 127 + (sb : Int) - 127) s
    | v => v
  let add (x : Entry) (v : Num × Flags) : Entry :=
    let s := addB64 x.val v.1
    x.raise s.1 (v.2 ||| s.2)
  let rnd (v : Num) : Num × Flags := let o := FloatFmt.b64.round rne v; (FloatFmt.b64.decode o.1, o.2)
  if sa = 255 ∨ sb = 255 then add x (.nan, fIV)
  else if ty = 6 then
    let s := b64Loop { x with val := 0 } ab
    add { s with val := x.val } (rnd (scaled (FloatFmt.b64.decode s.val)))
  else
    let t := wideLoop { x with val := 0 } ab
    let (v, sat) := wideRead t.val
    add { val := x.val, fl := t.fl ||| (if sat then 1 else 0) } (rnd (scaled (Num.ofInt v (-24))))

/-- The update of one column by one A row (R447): operands by ascending k, with the block scales of the row and of the
column. -/
def Geo.column (x : Geo) (en : Entry) (a b : List Num) (sa sb : List Nat) : Entry :=
  let ab := List.zip a b
  if x.wide then wideLoop en ab
  else if !x.scale then b64Loop en ab
  else (List.range x.nb).foldl (fun en blk => mxBlock x.ty en ((ab.drop (32 * blk)).take 32) (sa.getD blk 0) (sb.getD blk 0)) en

/-- The operands of an A row from its chunks (R441). -/
def Geo.rowBits (x : Geo) (chunks : List (List Byte)) : List Nat :=
  chunks.flatMap fun c => (List.range x.kc).map fun p => mxElem x.ty c p

/-- The weights of lane l from the blocks of a column, by ascending depth (R442). -/
def Geo.laneWeights (x : Geo) (blocks : List (List Byte)) (l : Nat) : List Num :=
  blocks.flatMap fun b =>
    let lane := ((b.drop (x.bc / 16 * l)).take (x.bc / 16))
    (List.range x.kc).map fun p => valueOf x.ty (mxElem x.ty lane p)

/-- The column scales of lane l, which follow the weights of a block (R442). -/
def Geo.laneScales (x : Geo) (blocks : List (List Byte)) (l : Nat) : List Nat :=
  ((((blocks.headD []).drop (x.bc + 16 * l)).take 16)).map BitVec.toNat

/-- DeltaRow (R456): the operands, the new reference, the elements skipped and the flags for every column. -/
def deltaRow (ty qk : Nat) (a ref : List Nat) : List Nat × List Nat × Nat × Flags :=
  let xs := (List.zip a ref).map fun p => (p, deltaLane ty rne qk p.1 p.2)
  (xs.map fun x => x.2.2.1, xs.map fun x => if x.2.1 then x.1.2 else x.1.1, (xs.filter fun x => x.2.1).length
   , xs.foldl (fun f x => f ||| x.2.2.2) 0)

/-- ChainStep on a row's side registers (R454): the factor, its flags, L with its flags. -/
def chainStep (m l mnew lsum : Nat) : Nat × Flags × Nat × Flags :=
  let f := softScale m mnew
  let v (x : Nat) : Num := FloatFmt.b32.decode x
  let p := (v l).mul (v f.1)
  let t := FloatFmt.b32.round rne p.1
  let s := (v t.1).add rne (v lsum)
  let u := FloatFmt.b32.round rne s.1
  (f.1, f.2, u.1, p.2 ||| t.2 ||| s.2 ||| u.2)

/-- A column's accumulator rescaled by the factor (R454). -/
def Entry.rescale (x : Entry) (f : Nat) (more : Flags) : Entry :=
  let p := (FloatFmt.b64.decode x.val).mul (FloatFmt.b32.decode f)
  let t := FloatFmt.b64.round rne p.1
  x.raise t.1 (p.2 ||| t.2 ||| more)

/-- How an operation drives the rows. -/
inductive MxMode where
  | plain | chain | delta
  deriving DecidableEq, Repr

/-- What one A row of an operation brings: its operands, its scales, MNEW and LSUM. -/
structure ARow where
  a : List Nat
  scales : List Nat
  mnew : Nat
  lsum : Nat
  deriving DecidableEq, Repr

/-- The blocks of the weights in column j of a region, by ascending depth. -/
def Region.weightsOf (g : Region) (x : Geo) (j : Nat) : List (List Byte) :=
  (List.range x.nd).map fun i => match (g.mmaElem j i).bind fun e => g.elems[e]? with
    | some e => match e.form with
      | .mma (some w) => w
      | _ => []
    | none => []

/-- One event on row r of store j (R447, R454, R456): the record after it, and the elements that delta skipped. The flags and
operands come from store 0's record. -/
def Geo.record (x : Geo) (g : Region) (mode : MxMode) (qk : Nat) (row : ARow) (j : Nat) (rec0 recj : List Byte) : List Byte × Nat :=
  let m := fieldAt rec0 0x100 4
  let l := fieldAt rec0 0x104 4
  let ch := chainStep m l row.mnew row.lsum
  let ref := (List.range x.k).map fun p => fieldAt rec0 (0x140 + 2 * p) 2
  let dr := deltaRow x.ty qk row.a ref
  let a := if mode = .delta then dr.1 else row.a
  let av := a.map fun b => valueOf x.ty b
  let blocks := g.weightsOf x j
  let entries := (List.range 16).map fun q =>
    let en := entryAt x.wide recj q
    let en := match mode with
      | .chain => en.rescale ch.1 (ch.2.1 ||| ch.2.2.2)
      | .delta => en.raise en.val dr.2.2.2
      | .plain => en
    x.column en av (x.laneWeights blocks q) row.scales (x.laneScales blocks q)
  let side : List Byte :=
    if j ≠ 0 then recj.drop 0x100
    else match mode with
      | .plain => recj.drop 0x100
      | .chain => bytesOf 4 row.mnew ++ bytesOf 4 ch.2.2.1 ++ recj.drop 0x108
      | .delta => (recj.drop 0x100).take 0x40 ++ dr.2.1.flatMap (bytesOf 2) ++ recj.drop (0x140 + 2 * x.k)
  (entries.flatMap (Entry.bytes x.wide) ++ side, if mode = .delta then dr.2.2.1 else 0)

end Sys2Proof.Machine
end

