-- ==== Sys2Proof/Machine/Region.lean ====
section
/-! DEFINITION. Region words, the reading and placing of an image, and a region's completion (R90–R92, R157–R162, R319, R320,
R367–R369, R439, R440, R443). -/

namespace Sys2Proof.Machine

/-! ### Reading an image -/

/-- What the reading of an image comes to. -/
inductive ImageGot where
  /-- the bytes that were read, and what they hold -/
  | ok (bs : List Byte) (im : ImageData)
  | fail (st : Status)
  | wait
  deriving DecidableEq, Repr

/-- The status of a fault on an image byte (Table 5.6, R321; DEDUCED, log entry 17). -/
def imageStatus : Cause → Status
  | .poison => .poison
  | .dropRd => .badImg
  | _ => .xlate

/-- The placement engine reads an image for a launch and checks it (R315–R321). -/
def State.readImage (s : State) (m : RowId) (c : CoreId) (lid : BitVec 16) (va : Word) : State × ImageGot :=
  let ag := coreAgent m c lid
  let use (bs : List Byte) (p : Bool) (k : Unit → State × ImageGot) (s : State) : State × ImageGot :=
    if p then (s, .fail .poison) else if bs.isEmpty then (s, .fail .badImg) else k ()
  if va.toNat % 64 ≠ 0 then (s, .fail .badImg)
  else match s.readMem ag va.toNat 0x80 with
  | (s, .wait) => (s, .wait)
  | (s, .fail x) => (s, .fail (imageStatus x))
  | (s, .ok hdr p) => use hdr p (fun _ =>
    match imageLen hdr with
    | none => (s, .fail .badImg)
    | some n =>
      match s.readMem ag va.toNat n with
      | (s, .wait) => (s, .wait)
      | (s, .fail x) => (s, .fail (imageStatus x))
      | (s, .ok bs p) => use bs p (fun _ =>
        match parseImage bs with
        | none => (s, .fail .badImg)
        | some im => (s, .ok bs im)) s) s

/-! ### Placement (R90, R91, R320, R440) -/

/-- The rectangle of a region: columns x0 to x0 + w − 1, lines y0 to y0 + h − 1. -/
structure Rect where
  x0 : Nat
  y0 : Nat
  w : Nat
  h : Nat
  deriving DecidableEq, Repr

/-- The rectangle that an origin and the fields W and H name (R158). -/
def rectOf (org w h : Nat) : Rect := { x0 := org % 16, y0 := org / 16, w := w + 1, h := h + 1 }
/-- A rectangle that stays on the board (R158). -/
def Rect.fits (r : Rect) : Bool := decide (r.x0 + r.w ≤ 16 ∧ r.y0 + r.h ≤ 8)
/-- The cells of a rectangle, by line. -/
def Rect.cells (r : Rect) : List Nat :=
  (List.range r.h).flatMap fun y => (List.range r.w).map fun x => 16 * (r.y0 + y) + r.x0 + x
/-- The origin cell. -/
def Rect.origin (r : Rect) : Nat := 16 * r.y0 + r.x0
/-- SHAPE of an attic key (Table 3.8). -/
def Rect.shape (r : Rect) (var : Nat) : BitVec 16 :=
  BitVec.ofNat 16 (r.w - 1 + (r.h - 1) * 16 + (r.x0 + r.y0) % 2 * 128 + var * 256)

/-- Position i of a non-empty list, taken modulo its length. -/
def pickAt (xs : List Nat) (i : Nat) : Nat := xs.getD (i % xs.length) 0

/-- Each unit takes a cell of its own among those that remain, by the placement's choice (R91). -/
def assignCells (choice : Nat → Nat) : List Nat → List Nat → List (Nat × Nat) → Option (List (Nat × Nat))
  | [], _, acc => some acc
  | u :: us, free, acc =>
    match free with
    | [] => none
    | _ =>
      let c := pickAt free (choice u)
      assignCells choice us (free.erase c) ((u, c) :: acc)

/-- Each unit takes one of the memory cells that hold fewer than eight, by the placement's choice. -/
def assignSlots (choice : Nat → Nat) (cells : List Nat) : List Nat → List (Nat × Nat) → Option (List (Nat × Nat))
  | [], acc => some acc
  | u :: us, acc =>
    match cells.filter fun c => decide ((acc.filter fun x => x.2 == c).length < 8) with
    | [] => none
    | free => assignSlots choice cells us ((u, pickAt free (choice u)) :: acc)

/-- Stores in groups no two of which overlap within a group, taken by ascending offset (R440). -/
def groupStores : List (Nat × PortRec) → List (List (Nat × PortRec)) → List (List (Nat × PortRec))
  | [], gs => gs
  | x :: xs, gs =>
    let clash (y : Nat × PortRec) : Bool :=
      decide (x.2.off < y.2.off + 128 * y.2.len ∧ y.2.off < x.2.off + 128 * x.2.len)
    match gs.findIdx? fun g => !g.any clash with
    | some i => groupStores xs (modAt (fun g => g ++ [x]) i gs)
    | none => groupStores xs (gs ++ [[x]])

/-- Insertion by offset. -/
def insertStore (x : Nat × PortRec) : List (Nat × PortRec) → List (Nat × PortRec)
  | [] => [x]
  | y :: ys => if x.2.off < y.2.off then x :: y :: ys else y :: insertStore x ys

/-- The variant element and image context of a canonical element (R320). -/
def mapEntry (im : ImageData) (var : BitVec 2) (e : Nat) : Nat × BitVec 2 :=
  match im.folds.find? fun f => f.1 == var with
  | some f => f.2.getD e (e, 0)
  | none => (e, 0)

/-- The MMA elements of an image with their sites. -/
def ImageData.mmas (im : ImageData) : List (Nat × MmaSite) :=
  (List.range im.elems.length).filterMap fun e =>
    let x := im.elems.getD e (.ce, [])
    if x.1 = .ce then (mmaSite x.2).map fun y => (e, y) else none

/-- A rectangle suits the lattice of a systolic image (R440). -/
def sysFits (im : ImageData) (r : Rect) : Bool :=
  let ms := im.mmas
  ms.isEmpty || decide (r.x0 % 2 = 0 ∧ r.w % 2 = 0 ∧ spanOf (ms.map fun x => x.2.j) ≤ r.w / 2 ∧ spanOf (ms.map fun x => x.2.i) ≤ r.h)

/-- A placement: canonical element, image context and cell (R91). -/
def placeImage (im : ImageData) (var : BitVec 2) (r : Rect) : Option (List (Nat × Nat × Nat)) :=
  let key := r.shape var.toNat
  let choice (u : Nat) : Nat := Config.placeChoice im.hash key u
  let es := List.range im.elems.length
  let kindOf (e : Nat) : ElemKind := (im.elems.getD e (.ce, [])).1
  let wordsAt (e : Nat) : List (BitVec 64) := (im.elems.getD e (.ce, [])).2
  let unit (e : Nat) : Nat := (mapEntry im var e).1
  let mma := im.mmas
  let sys := mma.map fun x => (unit x.1, 16 * (r.y0 + x.2.i) + 2 * (r.x0 / 2 + x.2.j) + (r.y0 + x.2.i) % 2)
  let ces := ((es.filter fun e => kindOf e == .ce && !mma.any fun x => x.1 == e).map unit).eraseDups
  let comp := (r.cells.filter isCompute).filter fun c => !sys.any fun x => x.2 == c
  let mems := r.cells.filter fun c => !isCompute c
  let stores := (es.filter fun e => kindOf e == .xe && decide ((portRecOf ((wordsAt e).headD 0)).kind = 5)).map fun e =>
    (unit e, portRecOf ((wordsAt e).headD 0))
  let groups := groupStores (stores.foldl (fun acc x => insertStore x acc) []) []
  let others := ((es.filter fun e => kindOf e != .ce && !stores.any fun x => x.1 == unit e).map unit).eraseDups
  if !sysFits im r then none
  else
    match assignCells choice ces comp sys,
        assignCells (fun g => choice (1000 + g)) (List.range groups.length) mems [] with
    | some cu, some gu =>
      let su := gu.flatMap fun x => (groups.getD x.1 []).map fun y => (y.1, x.2)
      match assignSlots choice mems others su with
      | none => none
      | some mu =>
        some (es.map fun e =>
          let x := mapEntry im var e
          let all := if kindOf e = .ce then cu else mu
          (e, x.2.toNat, ((all.find? fun y => y.1 == x.1).map (·.2)).getD 0))
    | _, _ => none

/-! ### The attic (R91, Table 3.8) -/

/-- The bytes of an attic entry (Table 3.8). -/
def AtticEntry.bytes (a : AtticEntry) : List Byte :=
  bytesOf 32 a.hash.toNat ++ bytesOf 2 a.shape.toNat ++ bytesOf 2 a.drev.toNat ++ bytesOf 4 a.places.length ++ bytesOf 8 a.used
    ++ bytesOf 8 (0x40 + 8 * a.places.length) ++ bytesOf 8 0
    ++ (a.places.flatMap fun p => bytesOf 8 (p.1 * 65536 + p.2.1 * 1024 + p.2.2))

/-- The die revision (Table 2.2). -/
def dieRev : BitVec 16 := 1

/-- A controller's write in device HBM; what lies beyond its end is not written (DESIGN CHOICE, log entry 55). -/
def State.hbmWrite (s : State) (pa : Nat) (bs : List Byte) : State :=
  if hbmEnd < pa + bs.length then s else s.withMem (s.mem.write pa bs)

/-- Granules of the attic. -/
def Hub.atticRoom (h : Hub) : Nat := h.atSize.toNat * 1024

/-- The attic's entry of a key; a disabled attic has none (R91). -/
def Hub.atticEntry (h : Hub) (hash : BitVec 256) (shape : BitVec 16) : Option AtticEntry :=
  h.attic.find? fun a => decide (h.atticRoom ≠ 0) && a.hash == hash && a.shape == shape && a.drev == dieRev

/-- A look-up counts a hit or a miss and renews the entry's last use (R91). A hit uses the engine's own record of the placement, not the
bytes that now stand in HBM (DESIGN CHOICE, log entry 63). -/
def State.atticLook (s : State) (hash : BitVec 256) (shape : BitVec 16) : State × Option (List (Nat × Nat × Nat)) :=
  match s.hub.atticEntry hash shape with
  | some a =>
    let a' := { a with used := s.tb.toNat }
    let s := s.modHub fun h => { h with atHit := satInc h.atHit, attic := h.attic.map fun x => if x = a then a' else x }
    (s.hbmWrite (s.hub.atBase.toNat * 2 ^ 26 + a.granule * 65536) a'.bytes, some a.places)
  | none => (s.modHub fun h => { h with atMiss := satInc h.atMiss }, none)

/-- A placement is stored; a full attic loses the entry with the oldest last use (R91). -/
def State.atticStore (s : State) (hash : BitVec 256) (shape : BitVec 16) (places : List (Nat × Nat × Nat)) : State :=
  let room := s.hub.atticRoom
  if room = 0 then s
  else
    let g := match (List.range room).find? fun i => !s.hub.attic.any fun a => a.granule == i with
      | some i => i
      | none =>
        match s.hub.attic with
        | [] => 0
        | a :: as => (as.foldl (fun b x => if x.used < b.used then x else b) a).granule
    let a : AtticEntry := { hash := hash, shape := shape, drev := dieRev, used := s.tb.toNat, places := places, granule := g }
    let s := s.modHub fun h => { h with attic := a :: h.attic.filter fun x => x.granule != g }
    s.hbmWrite (s.hub.atBase.toNat * 2 ^ 26 + g * 65536) a.bytes

/-! ### A region comes to stand (R161, R167, R319, R443) -/

/-- The contexts of the cells that a variant of an image uses (R319). -/
def usedCtxs (im : ImageData) (var ctxn : BitVec 2) : List (BitVec 2) :=
  ((List.range im.elems.length).map fun e => ctxn + (mapEntry im var e).2).eraseDups

/-- The cells and contexts that a placed region occupies. -/
def Region.rect (g : Region) : Rect := rectOf g.org g.w g.h

/-- The contexts a region's elements use. -/
def Region.ctxs (g : Region) : List (BitVec 2) := (g.elems.map (·.ctx)).eraseDups

/-- Two regions share a cell in the same context (Table 5.6). -/
def clashes (g : Region) (r : Rect) (ctxs : List (BitVec 2)) : Bool :=
  (g.ctxs.any ctxs.contains) && g.rect.cells.any r.cells.contains

/-- Fabric ports that elements name: kind and number (R133). -/
def portsOf (elems : List (ElemKind × List (BitVec 64))) : List (Nat × Nat) :=
  (elems.filter fun x => x.1 == .xe).filterMap fun x =>
    let p := portRecOf (x.2.headD 0)
    if p.kind < 2 then some (p.kind, p.num) else none

/-- The elements that are not in a list of element numbers. -/
def unlinkedOf (linked : List Nat) (elems : List (ElemKind × List (BitVec 64))) : List (ElemKind × List (BitVec 64)) :=
  ((List.range elems.length).filter fun i => !linked.contains i).map fun i => elems.getD i (.ce, [])

/-- The other regions of a core. -/
def Core.others (k : Core) (slot : SlotId) : List Region := (k.regions.set slot none).toList.filterMap id

/-- The port elements that a flood will configure. -/
def Flood.elems (f : Flood) (g : Region) : List (ElemKind × List (BitVec 64)) :=
  match f with
  | .switch _ words _ _ _ => (g.elems.map (·.kind)).zip words
  | _ => []

/-- The fabric ports that a region binds, those too of the configurations that it has accepted and not yet reached (R133, R154). -/
def Region.boundPorts (g : Region) : List (Nat × Nat) :=
  let of_ (es : List (ElemKind × List (BitVec 64))) : List (Nat × Nat) := portsOf (unlinkedOf (g.links.map (·.elem)) es)
  of_ (g.elems.map fun e => (e.kind, e.words)) ++ (g.flood :: g.queued).flatMap fun f => of_ (f.elems g)

/-- Fabric ports that a configuration of a slot wants are free for it, each once (R133). -/
def Core.portsFree (k : Core) (slot : SlotId) (linked : List Nat) (elems : List (ElemKind × List (BitVec 64))) : Bool :=
  let ports := portsOf (unlinkedOf linked elems)
  decide (ports.eraseDups.length = ports.length) && !(k.others slot).any fun g => g.boundPorts.any ports.contains

/-- The launch has every column of a rectangle of a core (R247). -/
def State.ownsCols (s : State) (lid : BitVec 16) (m : RowId) (c : CoreId) (r : Rect) : Bool :=
  (List.range r.w).all fun dx => s.reachCol lid m c (r.x0 + dx) == .yes

/-- The rectangle and ports are free for a region; a linked element binds no port (Table 5.6, R247, R404). -/
def State.roomFor (s : State) (m : RowId) (c : CoreId) (slot : SlotId) (lid : BitVec 16) (im : ImageData) (var ctxn : BitVec 2)
    (r : Rect) (linked : List Nat := []) : Bool :=
  let k := s.core m c
  r.fits && s.ownsCols lid m c r && !(k.others slot).any (fun g => clashes g r (usedCtxs im var ctxn)) && k.portsFree slot linked im.elems

/-- The lowest free element slot of a memory cell, those of one variant element shared (R131, R320). -/
def slotFor (taken : List (Nat × Nat)) (cell : Nat) : Option Nat :=
  (List.range 8).find? fun i => !taken.contains (cell, i)

/-- Element slots for the elements of memory cells in turn: unit, cell and slot. -/
def assignESlots (taken : List (Nat × Nat)) : List (Nat × Nat) → List (Nat × Nat × Nat) → Option (List (Nat × Nat × Nat))
  | [], acc => some acc
  | (u, cell) :: rest, acc =>
    if acc.any fun x => x.1 == u then assignESlots taken rest acc
    else match slotFor taken cell with
    | none => none
    | some i => assignESlots ((cell, i) :: taken) rest ((u, cell, i) :: acc)

/-- A placed element. -/
def newElem (im : ImageData) (words : List (List (BitVec 64))) (e : Nat) (cell eslot : Nat) (ctx : BitVec 2) (now : Word)
    (idle : BitVec 24) : Elem :=
  let x := im.elems.getD e (.ce, [])
  let hs := holdsOf im.consts e
  { kind := x.1, words := x.2, cell := cell, eslot := eslot, ctx := ctx, holds := hs
    hbank := if x.1 = .ce then holdBankOf hs now idle else .off, firings := 0, matching := [], discard := 0, flooded := false
    markE := false, rot := 0, form := formInit words x.1 (x.2.headD 0) }

/-- An empty arc of a record (R139, R252). -/
def newArc (a : ArcRec) : Arc :=
  { prod := a.prod, pout := a.pout, cons := a.cons, cin := a.cin, cap := a.cap, nin := a.nin, nout := a.nout
    cmask := BitVec.ofNat 4 a.cmask, res := a.res, toks := [], emptt := 0, fullt := 0, movt := 0, tokn := 0, held := [] }

/-- An accumulator row record at configuration (Table 17.2). -/
def storeRecord (first : Bool) : List Byte :=
  List.replicate 256 0 ++ bytesOf 8 (if first then 0xFF800000 else 0) ++ List.replicate 248 0

/-- Store j's records take their initial state, and every line of a store becomes live (R443). -/
def State.clearStores (s : State) (m : RowId) (c : CoreId) (elems : List Elem) : State :=
  let stores := elems.filter fun e => e.isPort 5
  (List.zip stores (List.range stores.length)).foldl (fun s x =>
    let pa := spadBase + sliceOffset m c (Fin.ofNat 64 (memIndex x.1.cell)) x.1.port.off
    (List.range (x.1.port.len / 4)).foldl (fun s r =>
      (List.range 4).foldl (fun s q =>
        s.ctlWrite (pa + 512 * r + 128 * q) (((storeRecord (x.2 = 0)).drop (128 * q)).take 128)) s) s) s

/-- The request of the fabric manager whose region a slot is (R95). -/
def State.graphOf (s : State) (m : RowId) (c : CoreId) (slot : SlotId) : Option GraphReq :=
  (s.hub.graphs.toList.flatten).find? fun q => ((s.core q.m q.c).findOp q.op).any fun o =>
    o.phase == .waiting && o.aux.take 3 == [m.val, c.val, slot.val]

/-- A LOADING region is refused: its slot is FREE, and a GRAPH request whose region it was ends with the status (Table 5.6, R404). -/
def State.failPlace (s : State) (m : RowId) (c : CoreId) (slot : SlotId) (st : Status) : State :=
  let s := match s.graphOf m c slot with
    | some q => s.modOp q.m q.c q.op fun o => { o with aux := [st.code] }
    | none => s
  s.freeRegion m c slot st

/-- The rectangle of a LOADING region has been taken meanwhile: NOFIT, but a GRAPH request searches again (Table 5.6, R95). -/
def State.lostPlace (s : State) (m : RowId) (c : CoreId) (slot : SlotId) : State :=
  match s.graphOf m c slot with
  | some q => (s.modOp q.m q.c q.op fun o => { o with aux := [] }).freeRegion m c slot .ok
  | none => s.freeRegion m c slot .noFit

/-- Element slots for a placement of an image, none when a cell does not suit its element or element slots run out (R131, R320, R440). -/
def Core.slotsFor (k : Core) (slot : SlotId) (im : ImageData) (var : BitVec 2) (r : Rect) (places : List (Nat × Nat × Nat)) :
    Option (List (Nat × Nat × Nat)) :=
  let taken := (k.others slot).flatMap fun o => (o.elems.filter fun e => e.kind != .ce).map fun e => (e.cell, e.eslot)
  let kindOf (e : Nat) : ElemKind := (im.elems.getD e (.ce, [])).1
  let okCells := places.length == im.elems.length && sysFits im r && places.all fun p =>
    r.cells.contains p.2.2 && (isCompute p.2.2 == decide (kindOf p.1 = .ce))
  if okCells then assignESlots taken ((places.filter fun p => kindOf p.1 != .ce).map fun p => ((mapEntry im var p.1).1, p.2.2)) []
  else none

/-- The accumulator stores of a placement. -/
def storeSpans (m : RowId) (c : CoreId) (elems : List Elem) : List (Nat × Nat) :=
  (elems.filter fun e => e.isPort 5).map fun e => (storeRow m c e 0, 512 * (e.port.len / 4))

/-- A region that has been placed is READY once its stores have been written (R443, Table 5.6). -/
def State.makeReady (s : State) (m : RowId) (c : CoreId) (slot : SlotId) (g : Region) : State :=
  match s.spansServed (ctlAgent m c slot.val g.lid) true (storeSpans m c g.elems) with
  | (s, false) => s
  | (s, true) => (((s.clearStores m c g.elems).modRegion m c slot fun g => { g with copy := [] })).setRegionSt m c slot .ready .ok

/-- A placement found is put onto the board: the slot becomes READY with it, or FREE with NOFIT when element slots run out. -/
def State.finishPlace (s : State) (m : RowId) (c : CoreId) (slot : SlotId) (im : ImageData)
    (places : List (Nat × Nat × Nat)) : State :=
  match s.region m c slot with
  | none => s
  | some g =>
    let k := s.core m c
    match k.slotsFor slot im g.var g.rect places with
    | none => s.failPlace m c slot .noFit
    | some slots =>
      let elems := (List.range im.elems.length).map fun e =>
        let p := (places.find? fun p => p.1 == e).getD (e, 0, 0)
        let es := ((slots.find? fun x => x.1 == (mapEntry im g.var e).1).map fun x => x.2.2).getD 0
        newElem im (im.elems.map (·.2)) e p.2.2 (if (im.elems.getD e (.ce, [])).1 = .ce then 0 else es) (g.ctxn + BitVec.ofNat 2 p.2.1)
          s.tb k.kidle
      let s := s.modRegion m c slot fun g =>
        { g with elems := elems, arcs := im.arcs.map newArc, inits := im.inits, folds := im.folds, hash := im.hash
                 disc := BitVec.ofNat 2 im.disc, fold := g.var, sinkn := sinkCount elems }
      match s.region m c slot with
      | none => s
      | some g => s.makeReady m c slot g

/-- The image of a LOADING region is read, once: its copy is kept until it is placed (R161, R321). -/
def State.loadImage (s : State) (m : RowId) (c : CoreId) (slot : SlotId) : State :=
  match s.region m c slot with
  | none => s
  | some g =>
    if g.st ≠ .loading ∨ !g.copy.isEmpty then s
    else match s.readImage m c g.lid g.image with
    | (s, .wait) => s
    | (s, .fail st) => s.failPlace m c slot st
    | (s, .ok bs im) =>
      if g.var ≠ 0 ∧ !im.folds.any fun f => f.1 == g.var then s.failPlace m c slot .badImg
      else s.modRegion m c slot fun g => { g with copy := bs }

/-- The physical address of an image, in HBM or in a slice; none while a walk waits. -/
def State.imagePa (s : State) (m : RowId) (c : CoreId) (g : Region) : State × Option Nat :=
  let a := g.image.toNat
  if sliceBase ≤ a ∧ a < sliceBase + 2 ^ 32 then (s, some (slicePa g.image))
  else match s.translate (coreAgent m c g.lid) a with
    | (s, .ok e) => (s, some (e.pbase + (a - e.vbase)))
    | (s, .fail _) => (s, some 0)
    | (s, .wait) => (s, none)

/-- A request for software's placement of a region's image in a shape, and what waits for its answer (Table 3.9, function 0).
Word 0 carries priority 0 (DESIGN CHOICE, log entry 54). -/
def State.askPlace (s : State) (m : RowId) (c : CoreId) (slot : SlotId) (g : Region) (hash : BitVec 256) (shape : BitVec 16) : State :=
  let who := [m.val, c.val, slot.val, shape.toNat, hash.toNat]
  if s.haOpen 0 who then s
  else
    let h (i : Nat) : Word := toWord (hash.toNat / 2 ^ (64 * i))
    match s.imagePa m c g with
    | (s, none) => s
    | (s, some pa) => s.haPost 0 0 [toWord pa, toWord (shape.toNat + dieRev.toNat * 65536), h 0, h 1, h 2, h 3] who

/-- PLACEMENT (R90, R91, R161): a LOADING region whose image has been read is placed, or its slot returns to FREE. -/
def State.placeRegion (s : State) (m : RowId) (c : CoreId) (slot : SlotId) : State :=
  match s.region m c slot with
  | none => s
  | some g =>
    let shape := g.rect.shape g.var.toNat
    if g.st ≠ .loading then s
    else if !g.elems.isEmpty then s.makeReady m c slot g
    else match parseImage g.copy with
    | none => s
    | some im =>
      if s.haOpen 0 [m.val, c.val, slot.val, shape.toNat, im.hash.toNat] then s
      else if !s.roomFor m c slot g.lid im g.var g.ctxn g.rect (g.links.map (·.elem)) then s.lostPlace m c slot
      else match s.atticLook im.hash shape with
      | (s, some rel) => s.finishPlace m c slot im (rel.map fun p => (p.1, p.2.1, p.2.2 + g.rect.origin))
      | (s, none) =>
        if s.hub.assisted 0 then s.askPlace m c slot g im.hash shape
        else match placeImage im g.var g.rect with
        | none => s.failPlace m c slot .noFit
        | some places =>
          (s.atticStore im.hash shape (places.map fun p => (p.1, p.2.1, p.2.2 - g.rect.origin))).finishPlace m c slot im places

/-! ### Region words (R158, R367–R369) -/

/-- A region word's address checks (R158, R367), and its read of the RCB's line, for which RWAIT on a region that is configured has an act of
its own. -/
def State.regionWord (s : State) (f : FmtA0) (dest : Option (BitVec 5)) (act : State → Word → Nat → Effect)
    (other : State → Word → Option Effect := fun _ _ => none) : State :=
  s.runWord { q := false, reads := [f.a], drops := dropIf f.x f.a, dest := dest } fun s x =>
    let p := x f.a
    let own : Bool := namesSlice p.toNat && decide (p.toNat / 2 ^ 23 = (ownSlices s.cur.m s.cur.p).toNat / 2 ^ 23)
    if p.toNat % 128 ≠ 0 then accessTrap s .align p .load
    else if !own then accessTrap s .perm p .load
    else match other s p with
    | some e => e
    | none => match s.checkAccess s.agentHere p 8 .load with
      | (s', .fail c) => accessTrap s' c p .load
      | (s', .ok (.mem pa)) => act s' p pa
      | (s, _) => .wait s

/-- A refusal: STATUS is written, in the region configured under the RCB or in the RCB alone, and nothing else changes
(Table 5.6). -/
def State.refuse (s : State) (m : RowId) (c : CoreId) (p : Word) (st : Status) : State :=
  match (s.core m c).slotOf p with
  | some slot => (s.modRegion m c slot fun g => { g with status := st }).refuseRcb m c p st
  | none => s.refuseRcb m c p st

/-- A region that RCFG has just configured. -/
def newRegion (mem : Memory) (p : Word) (pa : Nat) (lid : BitVec 16) : Region :=
  let w1 := mem.num (pa + 8) 8
  { rcb := p, st := .loading, lid := lid, image := toWord (mem.num pa 8), org := bits w1 6 0, w := bits w1 13 10
    h := bits w1 16 14, ctxn := BitVec.ofNat 2 (bits w1 18 17), var := BitVec.ofNat 2 (bits w1 20 19), fold := 0
    donea := toWord (mem.num (pa + 0x10) 8), donev := toWord (mem.num (pa + 0x18) 8), qk := 0, sticky := 0, dskip := 0
    sinkn := 0, sinks := 0, status := .ok, hash := 0, disc := 0, elems := [], arcs := [], inits := [], folds := []
    flood := .none, queued := [], frozen := false, bpHold := false, wsource := none, chained := false, links := []
    copy := [], switches := [], given := [] }

/-- RCFG's action (Table 5.6, R368). -/
def State.rcfg (s : State) (m : RowId) (c : CoreId) (lid : BitVec 16) (p : Word) (pa : Nat) : State :=
  let w1 := s.mem.num (pa + 8) 8
  let bad : Bool := decide (bits w1 63 21 ≠ 0 ∨ bits w1 9 7 ≠ 0 ∨ bits w1 20 19 = 3 ∨ s.mem.num (pa + 0x10) 8 % 8 ≠ 0)
  let start (slot : SlotId) : State :=
    (s.modCore m c fun k => { k with regions := k.regions.set slot (some (newRegion s.mem p pa lid)) }).setRegionSt m c slot
      .loading .ok
  match (s.core m c).slotOf p with
  | some slot =>
    let ready := match s.region m c slot with
      | some g => decide (g.st = .ready)
      | none => false
    if !ready || bad then s.refuse m c p .badDesc else start slot
  | none =>
    if bad then s.refuse m c p .badDesc
    else match (finsN 8).find? fun i => ((s.core m c).regions[i]).isNone with
    | none => s.refuse m c p .noRegion
    | some slot => start slot

/-- RCFG. -/
def execRcfg (f : FmtA0) (s : State) : Out :=
  .next (s.regionWord f none fun s p pa => .done (s.rcfg s.cur.m s.coreHere s.agentHere.lid p pa) none)

/-- CNTR's parameter block: a run, with no levels when the block cannot be used (R429). -/
def State.cntrBlock (s : State) (m : RowId) (c : CoreId) (e : Elem) (tag : BitVec 16) (err poison : Bool) : CntrRun :=
  let p := e.stage0.low
  let n := bits p 14 13
  let (bs, bad) := s.readCellBytes m c (Fin.ofNat 64 (memIndex e.cell)) (16 * (p % 8192)) (16 * n)
  let lvl (j : Nat) : Lane × Lane × Nat :=
    (BitVec.ofNat 32 (fieldAt bs (16 * j) 4), BitVec.ofNat 32 (fieldAt bs (16 * j + 4) 4), fieldAt bs (16 * j + 8) 4)
  let ls := (List.range n).map lvl
  let range := ls.any fun l => decide (l.2.2 = 0 ∨ 65536 < l.2.2)
  { idx := List.replicate n 0, levels := if bad || range then [] else ls, tag := tag, e := err, p := poison }

/-- Where CNTR's parameter block lies, and its bytes (R429). -/
def Elem.blockSpan (e : Elem) (r : ElemRef) : Nat × Nat :=
  (spadBase + sliceOffset r.m r.c (Fin.ofNat 64 (memIndex e.cell)) (16 * (e.stage0.low % 8192)), 16 * bits e.stage0.low 14 13)

/-- A counter reads its block, once its lines are served, and begins a run (R187, R274, R275, R429). -/
def State.beginRun (s : State) (r : ElemRef) (e : Elem) (tag : BitVec 16) (err poison : Bool) (began : State → CntrRun → State) :
    State :=
  match s.spansServed (elemAgent r ((s.region r.m r.c r.slot).elim 0 (·.lid))) false [e.blockSpan r] with
  | (s, false) => s
  | (s, true) => began s (s.cntrBlock r.m r.c e tag err poison)

/-- An untriggered counter reads its block when the region enters RUNNING (R429); a ring port asks for its side (R467). -/
def State.startElem (s : State) (r : ElemRef) (k : Core) : State :=
  match (s.region r.m r.c r.slot).bind fun g => g.elems[r.e]? with
  | none => s
  | some e =>
    if e.kind = .me ∧ e.stage0.op = 0x69 ∧ !bitN e.stage0.low 15 then
      s.beginRun r e 0 false false fun s run => s.modElem r fun x => { x with form := .cntr (some run) false }
    else if e.isPort 2 || e.isPort 3 then
      let d := k.h[Fin.ofNat 16 e.port.num]
      let (s, has) := s.wantSide d.toNat (e.isPort 3) (.port r.m r.c r.slot r.e)
      s.modElem r fun x => { x with form := .ring d false false has none }
    else s

/-- The descriptor address of a ring port's handle, as a core binds it (R362, R467). -/
def Elem.ringDesc (e : Elem) (k : Core) : Option Word := if e.isPort 2 || e.isPort 3 then some (k.h[Fin.ofNat 16 e.port.num]) else none

/-- A ring port's handle is bound to a well-formed descriptor whose slots hold a token (R467). -/
def State.portRingOk (s : State) (d : Word) : Bool := decide (d ≠ 0) && (s.ringAt (slicePa d)).any fun r => decide (128 ≤ r.ssz)

/-- The lines of the ports' descriptors are served to the controller (R187, R274, R275). -/
def State.portRingsReady (s : State) (m : RowId) (c : CoreId) (slot : SlotId) (g : Region) (k : Core) : State × Bool :=
  s.spansServed (ctlAgent m c slot.val g.lid) false (((g.elems.filterMap fun e => e.ringDesc k).filter fun d => namesSlice d.toNat).map fun d => (slicePa d, 64))

/-- Every ring port's descriptor serves it (R467). -/
def State.portRingsOk (s : State) (g : Region) (k : Core) : Bool := g.elems.all fun e => (e.ringDesc k).all s.portRingOk

/-- RSTART's action on a READY region (Table 5.6, R318, R467). -/
def State.rstart (s : State) (m : RowId) (c : CoreId) (slot : SlotId) (g : Region) (k : Core) (qk : BitVec 32) : State :=
  if !s.portRingsOk g k then s.refuse m c g.rcb .ringErr
  else
    let s := s.modRegion m c slot fun g => { g with qk := qk }
    let s := g.inits.foldl (fun s x => s.push m c slot x.1 { x.2 with ctx := g.ctxn + x.2.ctx }) s
    let s := (List.range g.elems.length).foldl (fun s e => s.startElem { m := m, c := c, slot := slot, e := e } k) s
    s.setRegionSt m c slot .running .ok

/-- RSTART. -/
def execRstart (f : FmtA0) (s : State) : Out :=
  .next (s.regionWord f none fun s p pa =>
    let m := s.cur.m
    let c := s.coreHere
    match (s.core m c).slotOf p with
    | none => .done (s.refuse m c p .badDesc) none
    | some slot =>
      match s.region m c slot with
      | some g =>
        if g.st ≠ .ready then .done (s.refuse m c p .badDesc) none
        else match s.portRingsReady m c slot g (s.core m c) with
          | (s, false) => .wait s
          | (s, true) => .done (s.rstart m c slot g (s.core m c) (BitVec.ofNat 32 (s.mem.num (pa + 0x20) 4))) none
      | none => .done s none)

/-- What MMA sites fix together: TYPE, SCALE, NC and ND (R440). -/
def siteShape (xs : List MmaSite) : List (Nat × Bool) × Nat × Nat :=
  ((xs.map fun x => (x.ty, x.scale)).eraseDups, spanOf (xs.map (·.j)), spanOf (xs.map (·.i)))

/-- The stores of a configuration: element, OFF and LEN. -/
def storesOf (elems : List (ElemKind × List (BitVec 64))) : List (Nat × Nat × Nat) :=
  (List.range elems.length).filterMap fun i =>
    let x := elems.getD i (.ce, [])
    let p := portRecOf (x.2.headD 0)
    if x.1 = .xe ∧ p.kind = 5 then some (i, p.off, p.len) else none

/-- A new configuration keeps the element types, the arcs and, in a systolic region, the geometry and each element's store (R154,
R459). Another discipline is refused with them: the spec names no switch from one to another (DESIGN CHOICE, log entry 67). -/
def keepsShape (g : Region) (im : ImageData) : Bool :=
  let arcs := g.arcs.map fun a =>
    ({ prod := a.prod, pout := a.pout, cons := a.cons, cin := a.cin, cap := a.cap, nin := a.nin, nout := a.nout
       cmask := a.cmask.toNat, res := a.res } : ArcRec)
  let old := g.elems.map fun e => (e.kind, e.words)
  decide (im.disc = g.disc.toNat) && (im.elems.map (·.1) == old.map (·.1)) && im.arcs == arcs
    && (decide (im.disc ≠ 2) || siteShape (mmaSites old) == siteShape (mmaSites im.elems)
        && storesOf old == storesOf im.elems)

/-- RSWITCH's action on a RUNNING region as it issues: IMAGE and QK are read, its core's bindings are taken, and the image's reading is
asked for (R367, R368, R467). -/
def State.rswitch (s : State) (m : RowId) (c : CoreId) (slot : SlotId) (pa : Nat) : State :=
  s.modRegion m c slot fun g =>
    { g with switches := g.switches ++ [((s.core m c).nextOp, toWord (s.mem.num pa 8), BitVec.ofNat 32 (s.mem.num (pa + 0x20) 4)
                                        , (s.core m c).h.toList)] }

/-- The oldest RSWITCH of a RUNNING region has its image read: a new configuration is asked for, or refused with no change
(Table 5.6, R133, R154, R320, R459); NOFIT for a port that is bound elsewhere, as at RCFG (DESIGN CHOICE, log entry 67). -/
def State.loadSwitch (s : State) (m : RowId) (c : CoreId) (slot : SlotId) : State :=
  match (s.region m c slot).bind fun g => g.switches.head?.map fun x => (g, x) with
  | none => s
  | some (g, op, image, qk, binds) =>
    let next (s : State) : State := s.modRegion m c slot fun g => { g with switches := g.switches.drop 1 }
    match s.readImage m c g.lid image with
    | (s, .wait) => s
    | (s, .fail st) => ((next s).refuse m c g.rcb st).settle m c slot
    | (s, .ok _ im) =>
      let lacks := decide (g.var ≠ 0) && !im.folds.any fun f => f.1 == g.var
      if !keepsShape g im || lacks then ((next s).refuse m c g.rcb .badImg).settle m c slot
      else if !(s.core m c).portsFree slot (g.links.map (·.elem)) im.elems then
        ((next s).refuse m c g.rcb .noFit).settle m c slot
      else
        let s := (next s).modRegion m c slot fun g =>
          { g with status := .ok, hash := im.hash, queued := g.queued ++ [.switch op (im.elems.map (·.2)) im.consts qk binds] }
        (s.writeBack m c slot).settle m c slot

/-- RSWITCH. -/
def execRswitch (f : FmtA0) (s : State) : Out :=
  .next (s.regionWord f none fun s p pa =>
    let m := s.cur.m
    let c := s.coreHere
    match (s.core m c).slotOf p with
    | none => .done (s.refuse m c p .badDesc) none
    | some slot =>
      match s.region m c slot with
      | some g => .done (if g.st = .running then s.rswitch m c slot pa else s.refuse m c p .badDesc) none
      | none => .done s none)

/-- A GRAPH request's region of the launch, wherever it is placed, by the address of its request block (R404). -/
def State.graphRegion (s : State) (lid : BitVec 16) (p : Word) : Option (RowId × CoreId × SlotId) :=
  (finsN 24).findSome? fun m => (finsN 8).findSome? fun c => (finsN 8).findSome? fun slot =>
    (s.region m c slot).bind fun g => if g.rcb = p ∧ g.lid = lid then some (m, c, slot) else none

/-- The region that an RWAIT on an address waits for: the core's own, or a GRAPH request's (R369, R404). -/
def State.awaited (s : State) (p : Word) : Option (RowId × CoreId × SlotId) :=
  (((s.core s.cur.m s.coreHere).slotOf p).map fun slot => (s.cur.m, s.coreHere, slot)).or (s.graphRegion s.agentHere.lid p)

/-- A region is LOADING, RUNNING or COMPLETING: an RWAIT on it waits (R369). -/
def Region.busy (g : Region) : Bool := g.st == .loading || g.st == .running || g.st == .completing

/-- The controller writes its fields back as an RWAIT issues, which waits for the write (R159, R187, R274, R369). -/
def State.writtenBack (s : State) (m : RowId) (c : CoreId) (slot : SlotId) (g : Region) : State × Bool :=
  let pa := slicePa g.rcb + 0x28
  if s.rcbWaits g.lid g.rcb then (s, false)
  else match s.spansServed (ctlAgent m c slot.val g.lid) true [(pa, 56)] with
  | (s, true) => (s.ctlWrite pa (g.rcbBytes slot), true)
  | r => r

/-- RWAIT on a configured region waits for it, and then returns word 0x38 as it is written back (R159, R369). -/
def State.rwaitOn (s : State) (p : Word) : Option Effect :=
  match (s.awaited p).bind fun x => (s.region x.1 x.2.1 x.2.2).map fun g => (x, g) with
  | none => none
  | some (x, g) => some (
    if g.busy then .wait s
    else match s.lineAddr s.agentHere p 8 .load with
    | (s, .fail c) => accessTrap s c p .load
    | (s, .ok _) => match s.writtenBack x.1 x.2.1 x.2.2 g with
      | (s, false) => .wait s
      | (s, true) => .done (s.usedLines s.agentHere 0 [slicePa p]) (some (toWord (g.word38 x.2.2)))
    | (s, .wait) => .wait s)

/-- RWAIT: under an RCB with no region the word is read as memory holds it (R369). -/
def execRwait (f : FmtA0) (s : State) : Out :=
  .next (s.regionWord f (some f.d) (fun s _ pa => .done s (some (toWord (s.mem.num (pa + 0x38) 8)))) State.rwaitOn)

/-! ### Completion (R92, R162) -/

/-- A region's operations have joined: none that was forked on its behalf is unretired (R162, R381). -/
def Core.opsDone (k : Core) (slot : SlotId) (lid : BitVec 16) : Bool :=
  !k.ops.any fun o => o.region == some slot && o.lid == lid

/-- A row of a launch has finished: it is the launch's own, or it is kept while the launch is suspended (R76, R87). -/
def State.rowFinished (s : State) (lid : BitVec 16) (m : RowId) : Bool :=
  ((s.row m).lid == some lid && (s.row m).phase == .finished)
    || s.suspended.any fun x => x.lid == lid && x.m == m && x.row.phase == .finished

/-- The completion condition (R162): with a SINK, every sink reported and no RSWITCH in progress; without, every row of its launch
finished. -/
def State.regionDone (s : State) (m : RowId) (c : CoreId) (slot : SlotId) (g : Region) : Bool :=
  let rowsDone : Bool := match s.launch g.lid with
    | none => true
    | some l => (finsN 24).all fun i => !l.rows.getLsbD i.val || s.rowFinished g.lid i
  (s.core m c).opsDone slot g.lid
    && if g.sinkn = 0 then rowsDone else decide (g.sinkn ≤ g.sinks) && g.switches.isEmpty && !(g.flood :: g.queued).any Flood.switch?

/-- REGION_COMPLETION: RUNNING to COMPLETING with write-back, then the completion store and FREE (Table 5.6, R92, R159). -/
def execRegionCompletion (m : RowId) (c : CoreId) (slot : SlotId) (s : State) : Out :=
  .next (match s.region m c slot with
    | none => s
    | some g =>
      if g.st = .running ∧ !g.frozen ∧ (s.row m).phase ≠ .mchk ∧ s.regionDone m c slot g then
        s.setRegionSt m c slot .completing g.status
      else if g.st = .completing ∧ (s.row m).phase ≠ .mchk ∧ !s.rcbWaits g.lid g.rcb then
        if g.donea = 0 then s.freeRegion m c slot g.status
        else
          match s.completionStore (coreAgent m c g.lid) g.donea g.donev with
          | (s, .wait) => s
          | (s, .failed) => (s.setSticky m c slot stCSTF).freeRegion m c slot g.status
          | (s, .done) => s.freeRegion m c slot g.status
      else s)

end Sys2Proof.Machine
end

