-- ==== Sys2Proof/Machine/Elements.lean ====
section
/-! DEFINITION. What every firing shares: which inputs a form needs, the matching store, unequal streams, hold banks, and the
element's part in a marker flood (R134, R142–R144, R152, R154–R156, R167–R169). -/

namespace Sys2Proof.Machine

/-- A token an element has consumed: its input, its number on the arc and itself. -/
structure Taken where
  i : Nat
  n : Nat
  tok : Token
  deriving DecidableEq, Repr

/-- Of the tokens consumed that of the lowest-numbered input arc, whose TAG a result takes and which a self-log records (R259, R411). -/
def Region.loggedOf (g : Region) (e : Nat) (ins : List Taken) : Option (Nat × Token) :=
  let arc (x : Taken) : Nat := (g.inArc e x.i).getD 0
  (ins.find? fun x => ins.all fun y => decide (arc x ≤ arc y)).map fun x => (x.n, x.tok)
/-- The predicate of a token: lane 0, true when non-zero (R147). -/
def Token.pred (t : Token) : Bool := t.lanes[0] != 0
/-- PARAM[0] INV. -/
def Stage.inv (st : Stage) : Bool := bitN st.low 0

/-- The slot's region and one of its elements. -/
def State.elemAt (s : State) (r : ElemRef) : Option (Region × Elem) :=
  (s.region r.m r.c r.slot).bind fun g => (g.elems[r.e]?).map fun e => (g, e)

/-- What the element's form keeps changes. -/
def State.setForm (s : State) (r : ElemRef) (f : FormState) : State := s.modElem r fun e => { e with form := f }

/-- The element takes the head tokens of inputs, in order. -/
def State.takeAll (s : State) (r : ElemRef) (is : List Nat) : State := is.foldl (fun s i => s.take r i) s

/-- The head data tokens of inputs, as a firing consumes them. -/
def Region.heads (g : Region) (e : Nat) (is : List Nat) : List Taken :=
  is.filterMap fun i => (g.dataAt e i).map fun x => ⟨i, x.1, x.2⟩

/-- The region is tagged. -/
def Region.tagged (g : Region) : Bool := g.disc == 1

/-! ### Inputs a form needs (R134, R143, Table 5.2) -/

/-- NDMRG's turn in a lockstep region: an input at F is skipped (R149). -/
def ndmrgTurn (f1 f2 turn2 : Bool) : Nat := if f1 then 2 else if f2 then 1 else if turn2 then 2 else 1

/-- The inputs from which the next firing of a form takes a token. -/
def Region.needs (g : Region) (idx : Nat) (e : Elem) : List Nat :=
  let op := e.stage0.op
  match e.form with
  | .merge none => [0]
  | .merge (some p) => if p.pred != e.stage0.inv then [1] else [2]
  | .ndmrg _ _ f1 f2 t _ => [ndmrgTurn f1 f2 t]
  | .carry [] => [0]
  | .carry _ => [1, 2]
  | .invar none => [0]
  | .invar (some _) => [1]
  | .cntr _ _ => if bitN e.stage0.low 15 then [0] else []
  | _ => if e.kind = .ce ∧ op = 0x62 then [1, 2] else g.inputs idx

/-- The inputs that a tagged element matches by tag, when it does (R143, R428). INVAR takes its value and its triggers in arc order
(DESIGN CHOICE, log entry 65). -/
def Region.matched (g : Region) (idx : Nat) (e : Elem) : Option (List Nat) :=
  if !g.tagged then none
  else match e.form with
  | .merge _ => some [0, 1, 2]
  | .carry _ => some [1, 2]
  | .plain => if 2 ≤ (g.inputs idx).length then some (g.inputs idx) else none
  | _ => none

/-! ### Unequal streams (R152) -/

/-- Some token carries F. -/
def anyF (ins : List Taken) : Bool := ins.any fun x => x.tok.f
/-- Tokens of a firing disagree in F. -/
def unequalF (ins : List Taken) : Bool := anyF ins && ins.any fun x => !x.tok.f

/-- An unequal-length firing: LENMIS, and in a lockstep region every input whose token lacked F discards up to its next F
(R152). -/
def State.unequal (s : State) (r : ElemRef) (g : Region) (ins : List Taken) : State :=
  if !unequalF ins then s
  else
    let s := s.setSticky r.m r.c r.slot stLENMIS
    if g.tagged then s
    else s.modElem r fun e =>
      { e with discard := ins.foldl (fun d x => if x.tok.f then d else d ||| (1 <<< x.i : BitVec 4)) e.discard }

/-- A token built from those consumed: the TAG of the lowest-numbered input arc, its context, the ORs of R138, F when one carries F, E
when they disagree (R138, R152, R411). -/
def Region.tokenOf (g : Region) (idx : Nat) (ctx : BitVec 2) (ins : List Taken) (cnt : Nat) (lanes : Vector Lane 16) : Token :=
  let t : Token := { Token.blank ctx with tag := ((g.loggedOf idx ins).elim 0 fun x => x.2.tag), cnt := cnt, lanes := clipLanes cnt lanes
                                          f := anyF ins, e := unequalF ins }
  orFlags (ins.map (·.tok)) t

/-- The smallest count among the tokens consumed (R137). -/
def leastCnt (ins : List Taken) : Nat := ins.foldl (fun m x => min m x.tok.cnt) 16

/-! ### Hold banks (R169, Table 5.7) -/

/-- SEGRED's rounding mode code, and its other fields (R436). -/
def Stage.segRsto (st : Stage) : Bool := decide (st.op = 0x7A ∧ st.low % 8 = 4)

/-- A stage reads a hold entry. -/
def Stage.readsHold (st : Stage) : Bool :=
  st.segRsto || st.rnd == some 4 || decide (st.op = 0x83 ∧ st.low % 8 = 4)
    || st.uses.any fun p => decide (5 ≤ st.sel p ∧ st.sel p ≤ 12)
/-- A stage writes a hold entry. -/
def Stage.writesHold (st : Stage) : Bool := decide (1 ≤ st.dst ∧ st.dst ≤ 8)

/-- Whether a firing writes an entry of a bank that is OFF: its first stage that reads one, which is dead, is its last, and still writes
its destination (R168). -/
def writesOff : List Stage → Bool
  | [] => false
  | st :: rest => st.writesHold || !st.readsHold && writesOff rest

/-- A firing's hold bank: the state after a wake that it needs has begun, and whether it is ready (R169, Table 5.7). A firing that
writes no entry of a bank that is OFF needs no wake: the entries that it reads are dead. -/
def State.holdReady (s : State) (r : ElemRef) (e : Elem) : State × Bool :=
  if e.kind ≠ .ce then (s, true)
  else match e.hbank.st with
  | .full => (s, true)
  | .waking => (s, false)
  | .keep => (s.modElem r fun e => { e with hbank := e.hbank.wake s.osc (ns 6) }, false)
  | .off =>
    if writesOff (stagesRun e.words) then (s.modElem r fun e => { e with hbank := e.hbank.wake s.osc (ns 24) }, false) else (s, true)

/-- Hold entries as a firing leaves them; a bank with none left goes OFF (Table 5.7). -/
def Elem.withHolds (e : Elem) (hs : Vector (Option (Vector Lane 16)) 8) : Elem :=
  { e with holds := hs
           hbank := if !hs.toList.any Option.isSome && e.hbank.st == .full then { e.hbank with st := .off } else e.hbank }

/-- A completed firing counts for RSTO, and its context's hold bank starts a new idle period, under the %kidle of the launch that its row
runs even where the region is a suspended launch's (R169, R413; DESIGN CHOICE, log entry 67). -/
def State.fired (s : State) (r : ElemRef) : State :=
  let idle := (s.core r.m r.c).kidle
  s.modElem r fun e => { e with firings := e.firings + 1, hbank := e.hbank.use s.tb idle }

/-! ### Output room (R134, R427) -/

/-- The outputs that the next firing of a form may write. -/
def Region.mayWrite (g : Region) (idx : Nat) (e : Elem) : List Nat :=
  match e.form with
  | .carry [] => [0]
  | .merge none | .invar none => []
  | _ => g.outputs idx

/-- Every output that the firing may write has room. -/
def Region.roomToFire (g : Region) (idx : Nat) (e : Elem) : Bool := (g.mayWrite idx e).all (g.outReady idx)

/-! ### The matching store (R143, R144, R428) -/

/-- Which of an entry's tokens the firing takes, when the entry may fire. -/
def Elem.complete (e : Elem) (x : MatchEntry) : Option (List Taken) :=
  let all : List Taken := (List.zip x.ins (List.range x.ins.length)).filterMap fun p => p.1.map fun t => ⟨p.2, t.1, t.2⟩
  let has (i : Nat) : Bool := all.any fun t => t.i == i
  match e.form with
  | .merge _ =>
    match all.find? fun t => t.i == 0 with
    | none => none
    | some p =>
      let sel := if p.tok.pred != e.stage0.inv then 1 else 2
      if has sel then some (all.filter fun t => t.i == 0 || t.i == sel) else none
  | .carry insts => if has 1 && has 2 && insts.any fun c => c.tag == x.tag then some all else none
  | _ => some all

/-- An entry holds a token from each of the inputs a form matches. -/
def MatchEntry.full (x : MatchEntry) (is : List Nat) : Bool := is.all fun i => ((x.ins[i]?).join).isSome

/-- The first entry that may fire. -/
def Elem.readyEntry (e : Elem) (is : List Nat) : Option (MatchEntry × List Taken) :=
  e.matching.findSome? fun x =>
    let whole := match e.form with
      | .merge _ => true
      | _ => x.full is
    if whole then (e.complete x).map fun ts => (x, ts) else none

/-- Matching entries of a context (R143). -/
def matchRoom : Nat := 16

/-- Whether the head token of an input can leave its arc for the store: its tag has an entry, or an entry is free. -/
def Elem.canTake (e : Elem) (t : Token) : Bool := e.entryTags.contains t.tag || decide (e.entryTags.length < matchRoom)

/-- The inputs of a matching element in rotation, beginning after the last one served. -/
def Elem.rotation (e : Elem) (is : List Nat) : List Nat := (is.filter fun i => Nat.ble e.rot i) ++ is.filter fun i => Nat.blt i e.rot

/-- One head token enters the matching store; a second of one tag from one input is discarded, with TAGERR (R144). -/
def State.enterMatch (s : State) (r : ElemRef) (i n : Nat) (t : Token) : State :=
  let s := s.take r i
  match s.elemAt r with
  | none => s
  | some (_, e) =>
    let dup := e.matching.any fun x => x.tag == t.tag && ((x.ins[i]?).join).isSome
    let s := s.modElem r fun e => { e with rot := i + 1 }
    if dup then s.selfLog r stTAGERR (some (n, t))
    else if e.matching.any fun x => x.tag == t.tag then
      s.modElem r fun e =>
        { e with matching := e.matching.map fun x =>
            if x.tag = t.tag then { x with ins := modAt (fun _ => some (n, t)) i x.ins } else x }
    else
      s.modElem r fun e =>
        { e with matching := e.matching ++ [{ tag := t.tag, ins := modAt (fun _ => some (n, t)) i (List.replicate 4 none) }] }

/-- An entry is freed as it fires; a token that MERGE holds from the unselected input goes, with ORPHAN (R143, R428). -/
def State.freeEntry (s : State) (r : ElemRef) (x : MatchEntry) (used : List Taken) : State :=
  let s := s.modElem r fun e => { e with matching := e.matching.filter fun y => y.tag != x.tag }
  if used.length < (x.ins.filter Option.isSome).length then s.setSticky r.m r.c r.slot stORPHAN else s

/-! ### An element's event -/

/-- The element of an event may act: its region runs and is not frozen, no machine check stops the row (R156, R241). -/
def State.elemMoves (s : State) (r : ElemRef) (g : Region) : Bool :=
  g.st == .running && !g.frozen && (s.row r.m).phase != .mchk

/-- The input that discards a token now: one that R152 has doomed and that a data token heads. -/
def Region.discarding (g : Region) (idx : Nat) (e : Elem) : Option Nat :=
  [0, 1, 2, 3].find? fun i => e.discard.getLsbD i && (g.dataAt idx i).isSome

/-- One token is discarded; the discarding ends with F (R152). -/
def State.discardOne (s : State) (r : ElemRef) (g : Region) (i : Nat) : State :=
  let ends := (g.dataAt r.e i).any fun x => x.2.f
  (s.take r i).modElem r fun e => if ends then { e with discard := e.discard &&& ~~~ (1 <<< i : BitVec 4) } else e

/-- ORDER lets its marker go once it has emitted every tag issued before the marker passed its STAMP (R146). -/
def Region.orderMayPass (g : Region) (e : Elem) : Bool :=
  match e.form with
  | .order next _ =>
    match g.elems[e.stage0.low % 4096]? with
    | some x => x.flooded && match x.form with
      | .stamp _ _ mark => mark == next
      | _ => true
    | none => true
  | _ => true

/-- At a switch an element still owes what came ahead of its K: an entry that may fire, or a counter's run (R143, R150, R154;
the run DEDUCED, log entry 52). -/
def Region.owes (g : Region) (idx : Nat) (e : Elem) : Bool :=
  (g.matched idx e).any (fun is => (e.readyEntry is).isSome) || match e.form with
    | .cntr (some _) _ => true
    | _ => false

/-- An element consumes its markers and emits one on every output (R154, R156). -/
def State.passMarkers (s : State) (r : ElemRef) (g : Region) (e : Elem) : State :=
  let cut := g.flood.cut?
  let s := (s.takeAll r (g.inputs r.e)).passMark r
  let s := (g.outputs r.e).foldl (fun s o => s.give r o (Token.mark cut e.ctx e.markE)) s
  s.settle r.m r.c r.slot

/-- The inputs whose data tokens go because a marker heads an input that the configuration still needs (R154): in a tagged
element only when none of them can enter the full store. -/
def Region.doomed (g : Region) (idx : Nat) (e : Elem) : List Nat :=
  let others := (g.inputs idx).filter fun i => !g.markAt idx i && (g.dataAt idx i).isSome
  match g.matched idx e with
  | some is =>
    let stuck (i : Nat) : Bool := match g.dataAt idx i with
      | some x => if is.contains i then !e.canTake x.2 else match e.form with
        | .carry insts => insts.any (fun c => c.tag == x.2.tag) || !e.canTake x.2
        | _ => false
      | none => true
    if (g.inputs idx).any (g.markAt idx) && others.all stuck && (e.readyEntry is).isNone then others else []
  | none =>
    match e.form with
    | .ndmrg _ _ f1 f2 _ _ =>
      if g.tagged then
        (if ((if f1 then [] else [1]) ++ if f2 then [] else [2]).all (g.markAt idx) then others else [])
      else if (g.needs idx e).any (g.markAt idx) then others else []
    | _ => if (g.needs idx e).any (g.markAt idx) then others else []

/-- A token of an input goes unused: NDMRG forgets that it came (R149, R154). -/
def State.loseToken (s : State) (r : ElemRef) (i : Nat) : State :=
  (s.take r i).modElem r fun e => match e.form with
    | .ndmrg a b f g t q => { e with form := .ndmrg a b f g t (q.erase (decide (i = 2))) }
    | _ => e

/-- What every element's event does first: a token that R152 dooms goes; in a flood the element passes its markers, or loses a
token ahead of one; else it acts (R152, R154, R156). -/
def State.elemTurn (s : State) (r : ElemRef) (g : Region) (e : Elem) (act : State → Region → Elem → State) : State :=
  match g.discarding r.e e with
  | some i => s.discardOne r g i
  | none =>
    if !g.flood.isSome || e.flooded then act s g e
    else if (g.inputs r.e).all (g.markAt r.e) && g.orderMayPass e && (g.flood.cut? || !g.owes r.e e) then
      if (g.outputs r.e).all fun o => (g.outOf r.e o).all fun a => a.takesMark g.flood.cut? then s.passMarkers r g e
      else act s g e
    else match g.doomed r.e e with
    | i :: _ => ((s.loseToken r i).setSticky r.m r.c r.slot stLENMIS).modElem r fun e => { e with markE := true }
    | [] => act s g e

/-- An element's event. In a flood the ports look again after it: an arc that it has drained may take a marker (R154, R156). -/
def State.elemEvent (s : State) (r : ElemRef) (mine : Elem → Bool) (act : State → Region → Elem → State) : State :=
  match s.elemAt r with
  | none => s
  | some (g, e) =>
    if !mine e || !s.elemMoves r g then s
    else
      let t := s.elemTurn r g e act
      if g.flood.isSome then t.settle r.m r.c r.slot else t

/-- A form takes a token without firing: INVAR its value (R428). -/
def Elem.onlyTakes (e : Elem) : Bool := match e.form with
  | .invar none => true
  | _ => false

/-- A firing in arc order: the form's inputs hold their tokens, its outputs have room, its hold bank is ready (R134, R142). -/
def State.inOrder (s : State) (r : ElemRef) (g : Region) (e : Elem)
    (fire : State → Region → Elem → List Taken → State) : State :=
  let is := g.needs r.e e
  if is.all (g.inReady r.e) && g.roomToFire r.e e then
    match if e.onlyTakes then (s, true) else s.holdReady r e with
    | (s, false) => s
    | (s, true) => fire (s.takeAll r is) g e (g.heads r.e is)
  else s

/-- CARRY in a tagged region takes an init token whose tag has no open instance, into the entry of its tag or a free one (R428, R437). -/
def Region.carryInit (g : Region) (idx : Nat) (e : Elem) : Option Taken :=
  match e.form, g.dataAt idx 0 with
  | .carry insts, some x =>
    if !insts.any (fun c => c.tag == x.2.tag) && e.canTake x.2 && g.outReady idx 0 then some ⟨0, x.1, x.2⟩ else none
  | _, _ => none

/-- A firing by tag: a matched entry fires; else one head token enters the store, in rotation (R143). -/
def State.byTag (s : State) (r : ElemRef) (g : Region) (e : Elem) (is : List Nat)
    (fire : State → Region → Elem → List Taken → State) : State :=
  let enter (s : State) : State :=
    let next := (e.rotation is).findSome? fun i => (g.dataAt r.e i).bind fun x => if e.canTake x.2 then some (i, x) else none
    match g.carryInit r.e e, next with
    | some x, _ =>
      match s.holdReady r e with
      | (s, false) => s
      | (s, true) => fire (s.take r 0) g e [x]
    | none, some (i, n, t) => s.enterMatch r i n t
    | none, none => s
  match e.readyEntry is with
  | some (x, ts) =>
    if (g.outputs r.e).all (g.outReady r.e) then
      match s.holdReady r e with
      | (s, false) => s
      | (s, true) => fire (s.freeEntry r x ts) g e ts
    else enter s
  | none => enter s

/-- A firing by whichever discipline the element follows. -/
def State.fireBy (s : State) (r : ElemRef) (g : Region) (e : Elem)
    (fire : State → Region → Elem → List Taken → State) : State :=
  match g.matched r.e e with
  | some is => s.byTag r g e is fire
  | none => s.inOrder r g e fire

/-- A tag comes back to a STAMP element (R145). -/
def State.returnTag (s : State) (r : ElemRef) (stamp : Nat) (tag : BitVec 16) : State :=
  s.modElem { r with e := stamp } fun e =>
    match e.form with
    | .stamp n out last => { e with form := .stamp n (out.erase tag) last }
    | _ => e

/-- A tag that a SINK or ringout has met comes back to every STAMP that no ORDER pairs (R145). -/
def State.returnUnpaired (s : State) (r : ElemRef) (g : Region) (tag : BitVec 16) : State :=
  let isMe (e : Elem) (op : Nat) : Bool := e.kind == .me && decide (e.stage0.op = op)
  let paired (i : Nat) : Bool := g.elems.any fun e => isMe e 0x6B && decide (e.stage0.low % 4096 = i)
  (List.range g.elems.length).foldl (fun s i =>
    if (g.elems[i]?).any (fun e => isMe e 0x6A) && !paired i then s.returnTag r i tag else s) s

end Sys2Proof.Machine
end

