-- ==== Sys2Proof/Machine/Fetch.lean ====
section
/-! DEFINITION. What the next step does: which agent moves (DESIGN CHOICE, log entry 1), the fetch of a word at a place, and the fetch of an
engine's command. -/

namespace Sys2Proof.Machine

/-- What a move has found: an instruction to execute in a state whose cursor stands at it, or a move without one. -/
inductive Fetched where
  | run (i : Instr) (s : State)
  | done (s : State)
  deriving DecidableEq, Repr

/-! ### Who moves -/

/-- A row of the hub's schedule number. -/
def pickRow (k : Nat) : RowId := Fin.ofNat 24 k
/-- A core of the schedule number. -/
def pickCore (k : Nat) : CoreId := Fin.ofNat 8 (k / 24)

/-- The event inside the machine that a schedule number names; inputs from outside come by the agenda alone. -/
def internalEvent (k : Nat) : Instr :=
  let m := pickRow k
  let c := pickCore k
  let n := k / 192
  let er : ElemRef := { m := m, c := c, slot := Fin.ofNat 8 n, e := n / 8 }
  match n % 41 with
  | 0 => .handlerEntry m
  | 1 => .loadDataReturn m (Fin.ofNat 9 (n / 41))
  | 2 => .echoReturn m
  | 3 => .registerBankIdle m c (Fin.ofNat 4 (n / 41))
  | 4 => .registerBankWake m c (Fin.ofNat 4 (n / 41))
  | 5 => .scratchpadBankIdle m c (Fin.ofNat 64 (n / 41)) (Fin.ofNat 16 (n / 2624))
  | 6 => .scratchpadBankWake m c (Fin.ofNat 64 (n / 41)) (Fin.ofNat 16 (n / 2624))
  | 7 => .holdBankIdle { er with e := n / 328 }
  | 8 => .holdBankWake { er with e := n / 328 }
  | 9 => .operationCompletion m c (n / 41)
  | 10 => .kvappPublish m c (n / 41)
  | 11 => .ceFiring { er with e := n / 328 }
  | 12 => .mld { er with e := n / 328 }
  | 13 => .mst { er with e := n / 328 }
  | 14 => .mamo { er with e := n / 328 }
  | 15 => .sinkElem { er with e := n / 328 }
  | 16 => .cntr { er with e := n / 328 }
  | 17 => .stampElem { er with e := n / 328 }
  | 18 => .orderElem { er with e := n / 328 }
  | 19 => .ringin { er with e := n / 328 }
  | 20 => .ringout { er with e := n / 328 }
  | 21 => .placement m c (Fin.ofNat 8 (n / 41))
  | 22 => .regionCompletion m c (Fin.ofNat 8 (n / 41))
  | 23 => .graphRequest (Fin.ofNat 4 (n / 41))
  | 24 => .breakpoint m c (Fin.ofNat 4 (n / 41))
  | 25 => .launchStart (BitVec.ofNat 16 (n / 41))
  | 26 => .launchCompletion (BitVec.ofNat 16 (n / 41))
  | 27 => .entryFire (Fin.ofNat 256 (n / 41))
  | 28 => .checkpoint
  | 29 => .epoch
  | 30 => .excursion
  | 31 => .regulatorStep (Fin.ofNat 25 (n / 41))
  | 32 => .budgetInterval
  | 33 => .retransmitTimeout (BitVec.ofNat 16 (n / 41))
  | 34 => .circuitGiveUp (BitVec.ofNat 16 (n / 41))
  | 35 => .lockoutExpiry (Fin.ofNat 16 (n / 41))
  | 36 => .sessionTimeout (n / 41)
  | 37 => .watchdogExpiry { steps := [] }
  | 38 => .moduleRetrain (Fin.ofNat 8 (n / 41)) (Fin.ofNat 8 (n / 328))
  | 39 => .retrainingSuccess (Fin.ofNat 8 (n / 41)) (Fin.ofNat 8 (n / 328))
  | _ => .lossOfTheMaster

/-- The action of a schedule number (R107, R203; DESIGN CHOICE, log entry 1). -/
def scheduled (k : Nat) : Action :=
  match k % 4 with
  | 0 => .place (pickRow (k / 4)) (Fin.ofNat 9 (k / 96))
  | 1 => .engine (pickRow (k / 4)) (pickCore (k / 4)) (k / 768)
  | 2 => .event (internalEvent (k / 4))
  | _ => .elapse (k / 4)

/-! ### Words at a core -/

/-- The launch of a row is suspended or aborted: its places have stopped at the words they stood before (R78, R246). -/
def State.launchStops (s : State) (m : RowId) : Bool :=
  match (s.row m).lid with
  | some l => (s.launch l).any fun x => x.st == .suspended || x.st == .aborting
  | none => false

/-- The row's places may move: it runs, stops or handles, its launch runs, and no checkpoint holds it (R78, R241, R246,
R262). -/
def State.rowMoves (s : State) (m : RowId) : Bool :=
  !s.launchStops m && !(s.hub.ck.open_ && (s.hub.ck.rows.getLsbD m.val)) &&
  match (s.row m).phase with
  | .running | .stopping _ | .handler => true
  | _ => false

/-- A core stops without a trap, as a stop signal asks, or as a muted core does at the stop ordinal (R232, R233). -/
def State.stopPlace (s : State) (m : RowId) (p : PlaceId) : State :=
  let s' := s.modRow m fun r => r.stopAt p
  match coreOfPlace p with
  | some c => s'.trace m c 4 0 0 (s'.core m c).trap.xord.toNat
  | none => s'

/-- The words a core executes while muted (R113). -/
def alwaysWord (w : BitVec 32) : Bool :=
  !bit w 25 && fld w 26 6 == 0x1A#6 && decide ((fld w 2 8).toNat < 3)
    || fld w 26 6 == 0x30#6 && (fld w 2 8 == 1#8)

/-- The word of ordinal below a core's resume point is passed on with what the history holds, and is not issued (R238). -/
def State.passOld (s : State) (m : RowId) (c : CoreId) (w : VineWord) : State :=
  let k := s.core m c
  if !(s.row m).roomEast c then s else
  let (post, rel, coll) := match k.hist.find? fun h => h.1 == w.ord with
    | some h => h.2
    | none => (k.epost, k.epostRel, w.coll)
  s.modRow m fun r =>
    (r.issue c post rel coll).modCore c fun k => { k with hist := k.hist.filter fun h => h.1 != w.ord }

/-- The engine traps that wait at a core (R243). -/
def Core.dueEngTraps (k : Core) : List (Fin 4) := (finsN 4).filter fun e => (k.engTrap[e]).isSome

/-- An engine's trap is taken on a word that is not issued; which of several first is left open (R243, DESIGN CHOICE, log entry 11). -/
def State.takeEngTrap (s : State) (m : RowId) (c : CoreId) (n : WordOrd) : State :=
  let (v, s) := s.draw
  let due := (s.core m c).dueEngTraps
  let e := due[v.toNat % due.length]?.getD 0
  match (s.core m c).engTrap[e] with
  | none => s
  | some t =>
    ((s.takeTrap m (placeOfCore c) .engine t.cause n t.xaddr t.xinfo).modCore m c fun k =>
      { k with engTrap := k.engTrap.set e none }).passStop (s.row m).phase m c s.cur.word

/-- The word at the head of a core's hop is looked at (R106, R107, R233, R238, R243). -/
def State.fetchCore (s : State) (m : RowId) (c : CoreId) : Fetched :=
  let r := s.row m
  let k := r.cores[c]
  let p := placeOfCore c
  let isOld (w : VineWord) : Bool := !w.handler && k.skipBelow.any fun x => ordBelow w.ord x
  -- a core that has halted passes on the words that it has issued already (R238)
  if !s.rowMoves m || k.stopped || (k.halted && !(r.hops[c]).head?.any isOld) then .done s
  else
    let stopOrd : Option (Option WordOrd) := match r.phase with
      | .stopping u => some u
      | _ => none
    -- a stop signal arrives when it does (R232); a core past the stop ordinal stops at its next boundary (R233)
    let (v, s1) := s.draw
    let mayStop := match stopOrd with
      | some none => v.getLsbD 0
      | some (some n) => ordBelow n (r.nextOrd p) && v.getLsbD 0
      | none => false
    if mayStop then .done (s1.stopPlace m p)
    else
      let s := if stopOrd.isSome then s1 else s
      match r.hops[c] with
      | [] => .done s
      | w :: _ =>
        let s := { s with cur := { m := m, p := p, op := 0, word := w } }
        if isOld w then .done (s.passOld m c w)
        else
          let s := s.modCore m c fun k => if w.handler then k else { k with skipBelow := none }
          let runs := k.active || alwaysWord w.word
          -- the word of the stop ordinal goes on to the east whatever comes of it here (R233)
          if stopOrd = some (some w.ord) && !r.roomEast c then .done s
          else if stopOrd = some (some w.ord) && !runs then
            .done ((s.modRow m fun r =>
              (((r.modTrap p fun t => { t with xord := w.ord, trapOrd := none }).setStopped p true).moveUnissued c w.coll)).trace
                m c 4 0 0 w.ord.toNat)
          else if runs && !w.handler && !k.dueEngTraps.isEmpty then .done (s.takeEngTrap m c w.ord)
          else match decodeSeq w.word w.lit with
          | .ok i => .run i s
          | .error _ =>
            .done (if !r.roomEast c then s else if runs then s.trapHere .uniform .illop 0 s.wordInfo
                   else s.modRow m fun r => r.issue c k.epost k.epostRel w.coll)

/-! ### Words at the row fetch unit -/

/-- The instruction cache takes a line, as the latest, in place of an older copy; of more than 512 lines the earliest filled goes
(R99; DESIGN CHOICE, log entry 48). -/
def Row.cacheLine (r : Row) (line : Nat) (bs : List Byte) : Row :=
  { r with icache := ((line, bs) :: r.icache.filter fun x => x.1 != line).take 512 }

/-- What a fetch comes to: it waits for a walk, its circuit or its row's budget (R198, R274). -/
inductive FetchGot (α : Type) where
  | ok (v : α)
  | fail (c : Cause)
  | wait
  deriving DecidableEq, Repr

/-- A line filled again: each of its words is the new one or the copy's, as a free value says (R100; DESIGN CHOICE, log entry 48). -/
def mixLine (v : Word) (old new : List Byte) : List Byte :=
  new.mapIdx fun i b => if v.getLsbD (i / 4) then b else old.getD i b

/-- The row fetch unit reads the line of an address, which its instruction cache keeps, or the fault of that read (R100, R175,
R176). -/
def State.fillLine (s : State) (m : RowId) (va : Word) : State × FetchGot (List Byte) :=
  match s.checkAddr { m := m, unit := .rfu, lid := (s.row m).lid.getD 0 } va 4 .fetch with
  | (s, .ok (.mem pa)) =>
    if s.mem.poisoned pa 4 then (s, .fail .poison)
    else
      let bs := s.mem.read (pa / 128 * 128) 128
      let line := va.toNat / 128
      match (s.row m).icache.find? fun e => e.1 == line with
      | none => (s.modRow m fun r => r.cacheLine line bs, .ok bs)
      | some e =>
        let (v, s) := s.draw
        (s.modRow m fun r => r.cacheLine line (mixLine v e.2 bs), .ok bs)
  | (s, .fail c) => (s, .fail c)
  | (s, _) => (s, .wait)

/-- The word of a line at an address. -/
def wordInLine (bs : List Byte) (va : Word) : BitVec 32 := BitVec.ofNat 32 (natOf ((bs.drop (va.toNat % 128 / 4 * 4)).take 4))

/-- A fetched word, or the fault of its fetch: from the line that the cache holds or, as a free value says, from memory, which
may have changed since (R100, R175, R176). -/
def State.fetchWord (s : State) (m : RowId) (va : Word) : State × FetchGot (BitVec 32) :=
  let fresh (s : State) : State × FetchGot (BitVec 32) :=
    match s.fillLine m va with
    | (s, .ok bs) => (s, .ok (wordInLine bs va))
    | (s, .fail c) => (s, .fail c)
    | (s, .wait) => (s, .wait)
  match (s.row m).icache.find? fun e => e.1 == va.toNat / 128 with
  | none => fresh s
  | some e =>
    let (v, s) := s.draw
    if v.getLsbD 0 then (s, .ok (wordInLine e.2 va)) else fresh s

/-- The cache fills a line of the program ahead of its words, as it may at any moment while the row fetch unit fetches, so that any
word changed since may be fetched as it was (R100; DESIGN CHOICE, log entry 48). A line that faults is not filled. -/
def State.prefetch (s : State) (m : RowId) (line : Nat) : State :=
  if !s.rowMoves m || (s.row m).stopped || (s.row m).halted then s else (s.fillLine m (toWord (128 * line))).1

/-- The four literal words of a CMD; or the address of the first that faults, with the fault (R304). -/
def State.fetchLits (s : State) (m : RowId) : Nat → Word → Nat → State × FetchGot Nat × Word
  | 0, va, _ => (s, .ok 0, va)
  | n + 1, va, i =>
    match s.fetchWord m va with
    | (s, .fail c) => (s, .fail c, va)
    | (s, .wait) => (s, .wait, va)
    | (s, .ok w) =>
      match s.fetchLits m n (va + 4) (i + 1) with
      | (s, .ok rest, a) => (s, .ok (w.toNat * 2 ^ (32 * i) + rest), a)
      | e => e

/-- Whether the row fetch unit forwards a word: every Q = 0 word, and of the others the row reductions, HALT and ERET
(Table 4.1). -/
def forwards (w : BitVec 32) : Bool :=
  !bit w 25 || fld w 26 6 == 0x19#6 || (fld w 26 6 == 0x30#6 && (fld w 2 8 == 1#8 || fld w 2 8 == 2#8))

/-- The oldest word to be sent again after ERET goes onto hop 0 with its post (R238). -/
def State.resendOne (s : State) (m : RowId) : State :=
  s.modRow m fun r =>
    match r.resendQ with
    | [] => r
    | w :: rest =>
      if hopRoom ≤ (r.hops[0]).length then r
      else { r with hops := r.hops.set 0 (r.hops[0] ++ [w]), resendQ := rest }

/-- The row fetch unit's next word (R100–R102, R232, R299, R304). -/
def State.fetchRfu (s : State) (m : RowId) : Fetched :=
  let r := s.row m
  -- after HALT the words of a resumption are still to be sent again (R238, R251)
  if !s.rowMoves m || r.stopped || (r.halted && r.resendQ.isEmpty) then .done s
  else
    let stopping := match r.phase with
      | .stopping _ => true
      | _ => false
    let (v, s1) := s.draw
    if stopping && v.getLsbD 0 then .done (s1.stopPlace m rfuPlace)
    else
      let s := if stopping then s1 else s
      if !r.resendQ.isEmpty then .done (s.resendOne m)
      else
        let at' (word : BitVec 32) (lit : BitVec 128) (s : State) : State :=
          { s with cur := { m := m, p := rfuPlace, op := 0
                            word := { ord := r.ord, handler := decide (r.phase = .handler), word := word, lit := lit
                                      addr := r.pc, post := r.post, postRel := r.postRel, coll := 0 } } }
        match s.fetchWord m r.pc with
        | (s, .wait) => .done s
        | (s, .fail c) => .done ((at' 0 0 s).takeTrap m rfuPlace .loc c r.ord r.pc 3)
        | (s, .ok w) =>
          let go (lit : BitVec 128) (s : State) : Fetched :=
            let s := at' w lit s
            match decodeSeq w lit with
            | .ok i => .run i s
            | .error _ =>
              -- a reduction whose d names no q register is not forwarded (R298)
              if !bit w 25 then .done s.forward else .done (s.trapHere .loc .illop 0 s.wordInfo)
          if isCmd w then
            match s.fetchLits m 4 (r.pc + 4) 0 with
            | (s, .wait, _) => .done s
            | (s, .fail c, va) => .done ((at' w 0 s).takeTrap m rfuPlace .loc c r.ord va 3)
            | (s, .ok lit, _) => go (BitVec.ofNat 128 lit) s
          else go 0 s

/-! ### Commands at an engine -/

/-- An engine may move: no machine check holds its row (R241). During a checkpoint an engine goes on until the regions are
frozen, and its pause is the one step that writes the epoch (R262). -/
def State.engineMoves (s : State) (m : RowId) : Bool := (s.row m).phase != .mchk

/-- An engine takes its operation one unit further; an unassigned command ends with BADCMD and no access (R307, R308). -/
def State.fetchEngine (s : State) (m : RowId) (c : CoreId) (id : Nat) : Fetched :=
  if !s.engineMoves m then .done s
  else match (s.core m c).findOp id with
  | none => .done s
  | some o =>
    if o.phase = .forked ∨ o.phase = .moving then
      match decodeCommand o.cmd with
      | .ok i => .run i { s with cur := { s.cur with m := m, p := placeOfCore c, op := id } }
      | .error _ => .done (s.modOp m c id fun o => { o with phase := .ended, status := .badCmd, errInCmd := true
                                                            errAddr := o.cmdAddr })
    else .done s

/-! ### One instruction placed to be fetched next -/

/-- A launch that holds row 0, with its tables at 0x1_0000 (root), 0x2_0000, 0x3_0000 and its program at 0x1000_0000. -/
def probeLaunch : Launch :=
  { lid := 1, st := .running, prio := 0, rows := 1, entry := 0x10000000, root := 0x10000, params := .replicate 4 0
    sched := 0, ntile := 0, donea := 0, donev := 0, abortv := 0, larder := 0, hbase := 0, kidle := 0, ltEntry := none }

/-- Row 0 held and running. -/
def State.probeRow (s : State) : State :=
  { (s.modRow 0 fun r => { r with phase := .running, lid := some 1, pc := 0x10000000, stopped := false, halted := false
                                  hops := .replicate 8 [], resendQ := [], ord := 0 }) with
    launches := probeLaunch :: s.launches.filter fun l => l.lid != 1 }

/-- A sequencer word, with its literals, where core 0 of row 0 takes it next, or where the row fetch unit fetches it when it
executes there alone. -/
def State.placeWord (s : State) (w : BitVec 32) (lit : BitVec 128) : State :=
  let s := s.probeRow
  if forwards w then
    let v : VineWord := { VineWord.none with word := w, lit := lit, addr := 0x10000000 }
    { (s.modRow 0 fun r => { r with hops := r.hops.set 0 [v] }) with agenda := [.place 0 0] }
  else
    -- level 1 entry 0, level 2 entry 4: a 64 MiB leaf at physical 0x1000_0000 with X and W
    let mem := ((s.mem.put 0x10000 8 0x20001).put (0x20000 + 8 * 4) 8 0x1000000F).put 0x10000000 4 w.toNat
    { (s.withMem mem) with agenda := [.place 0 8] }

/-- A stream command as a forked operation of engine 0 of core 0 of row 0. -/
def State.placeCommand (s : State) (w : BitVec 128) : State :=
  let s := s.probeRow
  let o : Op := { id := 0, engine := 0, lid := 1, cmd := w, cmdAddr := 0x10000000, ha := none, hb := none, wa := 0, wb := 0
                  phase := .forked, status := .ok, idx := 0, buf := [], bufP := false, lanes := 0, sawF := false
                  errAddr := 0, errInCmd := false, region := none, drops := [], kvBase := none, aux := []
                  awaitSeq := [] }
  { (s.modCore 0 0 fun k => { k with ops := [o], nextOp := 1 }) with agenda := [.engine 0 0 0] }

end Sys2Proof.Machine
end

