-- ==== Sys2Proof/Machine/Issue.lean ====
section
/-! DEFINITION. The issue of stream commands to the engines and the waits on them (R124–R126, R245, R365, R366, R377, R378,
R381). -/

namespace Sys2Proof.Machine

/-- Unretired operations of an engine that one launch issued (R125, R245). -/
def Core.opCount (k : Core) (e : Fin 4) (lid : BitVec 16) : Nat :=
  (k.ops.filter fun o => o.engine == e && o.lid == lid).length

/-- The walk slots a command names (Table 15.2). -/
def walksOf (cmd : BitVec 128) : List (BitVec 5) :=
  match decodeCommand cmd with
  | .ok (.scopy c) => [c.wa, c.wb]
  | .ok (.srd c) | .ok (.swr c) | .ok (.sfill c) | .ok (.pset c) | .ok (.sgather c) | .ok (.sscatter c)
  | .ok (.sscatop c) | .ok (.signalCmd c) | .ok (.sput c) | .ok (.sget c) => [c.wa]
  | .ok (.kvapp c) | .ok (.mxdrn c) => if c.arg.getLsbD 24 then [] else [c.wa]
  | _ => []

/-- The slot that a PSET which has not completed writes (R378). -/
def Op.psetSlot (o : Op) : Option (BitVec 5) :=
  match decodeCommand o.cmd with
  | .ok (.pset c) => if o.phase = .completed then none else some c.wa
  | _ => none

/-- The region of a core to which a fabric port is bound, and the port's element: direction 0 into the region, 1 out of it
(R133). -/
def Core.portAt (k : Core) (dir num : Nat) : Option (SlotId × Nat) :=
  (finsN 8).findSome? fun slot => (k.regions[slot]).bind fun g => (g.portElem dir num).map fun i => (slot, i)

/-- The direction of the port that a command needs, when it uses one (Table 15.2). -/
def portDir (cmd : BitVec 128) : Option (Nat × Command) :=
  match decodeCommand cmd with
  | .ok (.srd c) | .ok (.sgather c) | .ok (.gathp c) => if c.arg.getLsbD 24 then none else some (0, c)
  | .ok (.swr c) | .ok (.sscatter c) => if c.arg.getLsbD 24 then none else some (1, c)
  | .ok (.sscatop c) => if c.arg.getLsbD 24 || c.sub.getLsbD 2 then none else some (1, c)
  | _ => none

/-- The region slot on whose behalf a command is forked (R381, R394). -/
def Core.forkRegion (k : Core) (cmd : BitVec 128) (lid : BitVec 16) : Option SlotId :=
  let mine (slot : SlotId) : Bool := (k.regions[slot]).any fun g => g.lid == lid
  match decodeCommand cmd with
  | .ok (.mxldw c) | .ok (.mxgo c) | .ok (.mxdrn c) => (k.slotOf c.addr).filter mine
  | _ =>
    match portDir cmd with
    | some (d, c) => if c.pdir = decide (d = 1) then ((k.portAt d c.port.toNat).map (·.1)).filter mine else none
    | none => none

/-- The fork of an operation: handles and walk slots are read now (R362, R378). -/
def Core.fork (k : Core) (e : Fin 4) (lid : BitVec 16) (cmd : BitVec 128) (addr : Word) : Core :=
  let c := commandOf cmd
  let h (x : BitVec 4) : Option Word := let v := k.h[x.toFin]; if v = 0 then none else some v
  let o : Op := { id := k.nextOp, engine := e, lid := lid, cmd := cmd, cmdAddr := addr, ha := h c.ha, hb := h c.hb
                  wa := k.w[c.wa.toFin], wb := k.w[c.wb.toFin], phase := .forked, status := .ok, idx := 0, buf := []
                  bufP := false, lanes := 0, sawF := false, errAddr := 0, errInCmd := false
                  region := k.forkRegion cmd lid, drops := [], kvBase := none, aux := [], awaitSeq := [] }
  { k with ops := k.ops ++ [o], nextOp := k.nextOp + 1 }

/-- The substitutions of the word (R365). -/
def substitute (f : FmtC) (isCmdM : Bool) (cmd : BitVec 128) (a b : Word) : BitVec 128 :=
  let c := cmd
  let put (c : BitVec 128) (lo len : Nat) (v : BitVec 128) : BitVec 128 :=
    let mask : BitVec 128 := BitVec.ofNat 128 ((2 ^ len - 1) * 2 ^ lo)
    (c &&& ~~~ mask) ||| ((v <<< lo) &&& mask)
  let c := if f.f && !isCmdM then put c 0 64 (a.setWidth 128) else c
  let c := if f.g then put c 64 25 (b.setWidth 128) else c
  if f.j then put c 108 4 (f.h.setWidth 128) else c

/-- The issue itself: it waits while the launch's queue of the engine is full and while a PSET of the core and its launch is
outstanding on a slot it names; the two launches on a row have each their own slots, and neither's commands hold back the other's (R124,
R365, R378). When an entry of the queue is free again the manual does not say: every operation that has not
retired holds one, started or completed though it be (DESIGN CHOICE, log entry 54). -/
def State.issueCommand (s : State) (e : Fin 4) (cmd : BitVec 128) (addr : Word) : Effect :=
  let m := s.cur.m
  let c := s.coreHere
  let k := s.core m c
  let lid := s.agentHere.lid
  let slots := walksOf cmd
  if 8 ≤ k.opCount e lid || k.ops.any (fun o => o.lid == lid && o.psetSlot.any slots.contains) then .wait s
  else .done (s.modCore m c fun k => k.fork e lid cmd addr) none

/-- The engine a word names. -/
def engineOf (e : BitVec 2) : Fin 4 := e.toFin

/-- CMD (R365). -/
def execCmd (f : FmtC) (lit : BitVec 128) (s : State) : Out :=
  let reads := dropIf f.f f.a ++ dropIf f.g f.b
  .next (s.runWord { q := false, reads := reads
                     drops := dropIf (f.x && f.f) f.a ++ dropIf (f.y && f.g) f.b } fun s x =>
    s.issueCommand (engineOf f.e) (substitute f false lit (x f.a) (x f.b)) s.cur.word.addr)

/-- CMDM (R365). -/
def execCmdm (f : FmtC) (s : State) : Out :=
  .next (s.runWord { q := false, reads := f.a :: dropIf f.g f.b
                     drops := dropIf f.x f.a ++ dropIf (f.y && f.g) f.b } fun s x =>
    let p := x f.a
    if p.toNat % 16 ≠ 0 then .trap s .loc .align p (toWord Kind.load.code)
    else match s.checkAccess s.agentHere p 4 .load with
    | (s, .fail c) => .trap s .loc c p (toWord Kind.load.code)
    | (s, .ok (.mem pa)) =>
      s.issueCommand (engineOf f.e) (substitute f true (BitVec.ofNat 128 (s.mem.num pa 16)) (x f.a) (x f.b)) p
    | (s, _) => .wait s)

/-- WAITC: the join of every operation retired on the engine (R125, R366). -/
def execWaitc (f : FmtW) (s : State) : Out :=
  .next (s.runWord { q := false, reads := [] } fun s _ =>
    if (s.core s.cur.m s.coreHere).opCount (engineOf f.e) s.agentHere.lid ≤ min f.n.toNat 8 then .done s none else .wait s)

/-- ECNT (R125, R366). -/
def execEcnt (f : FmtW) (s : State) : Out :=
  .next (s.runWord { q := false, reads := [], dest := some f.d } fun s _ =>
    .done s (some (toWord ((s.core s.cur.m s.coreHere).opCount (engineOf f.e) s.agentHere.lid))))

end Sys2Proof.Machine
end

