-- ==== Sys2Proof/Machine/Walks.lean ====
section
/-! DEFINITION. Walk descriptors and their elements, and what every engine operation shares: its checks, its end, its rings and
its port (R192–R195, R244, R307, R376, R379). -/

namespace Sys2Proof.Machine

/-! ### Walks (R193–R195) -/

/-- The fields of a walk descriptor (Table 6.10). -/
structure Walk where
  base : Nat
  esz : Nat
  nlev : Nat
  ind : Nat
  ish : Nat
  /-- count and stride of the levels in use, innermost first -/
  levels : List (Nat × Int)
  ibase : Nat
  /-- bits of LV4 that the IBASE form requires zero -/
  spare : Nat
  deriving DecidableEq, Repr

/-- A walk slot's descriptor (Table 6.10). -/
def walkOf (d : BitVec 256) : Walk :=
  let n := d.toNat
  let lv (i : Nat) : Nat × Int := (bits n (64 + 48 * i + 47) (64 + 48 * i + 32), sint 32 (bits n (64 + 48 * i + 31) (64 + 48 * i)))
  { base := bits n 51 0, esz := bits n 55 52, nlev := bits n 58 56, ind := bits n 60 59, ish := bits n 63 61
    levels := (List.range (bits n 58 56)).map lv, ibase := bits n 243 208 * 65536, spare := bits n 255 244 }

/-- The checks of R195 that come before any access. -/
def Walk.ok (w : Walk) : Bool :=
  decide (1 ≤ w.nlev ∧ w.nlev ≤ 4 ∧ w.ind ≠ 3 ∧ w.esz ≤ 7) && w.levels.all (fun l => decide (l.1 ≠ 0))
    && (decide (w.ind = 0) || decide (w.nlev ≠ 4 ∧ w.spare = 0))

/-- Elements of a walk. -/
def Walk.count (w : Walk) : Nat := w.levels.foldl (fun n l => n * l.1) 1
/-- Bytes of an element. -/
def Walk.size (w : Walk) : Nat := 2 ^ w.esz

/-- BASE + Σ i_j·STRIDE_j for element n (R194). -/
def Walk.affine (w : Walk) (n : Nat) : Int :=
  (w.levels.foldl (fun (acc : Int × Nat) l => (acc.1 + (acc.2 % l.1 : Nat) * l.2, acc.2 / l.1)) ((w.base : Int), n)).1

/-- Where an element lies. -/
inductive ElemAddr where
  | at_ (a : Nat)
  | fail (st : Status) (a : Int)
  | wait
  deriving DecidableEq, Repr

/-- The range and alignment of an address of w bytes (R195). -/
def checkedAddr (a : Int) (w : Nat) : ElemAddr :=
  if a < 0 ∨ 2 ^ 52 ≤ a then .fail .xlate a else if a.toNat % w ≠ 0 then .fail .align a else .at_ a.toNat

/-- The address of element n: an indirect walk reads its index first (R194, R195). The index's line stands until `State.elemDone`, or the
operation's end. -/
def State.elemAddr (s : State) (ag : Agent) (w : Walk) (n : Nat) : State × ElemAddr :=
  if w.ind = 0 then (s, checkedAddr (w.affine n) w.size)
  else
    let iw := if w.ind = 1 then 4 else 8
    match checkedAddr (w.affine n) iw with
    | .at_ a =>
      match s.readPieces ag (linePieces a iw) with
      | (s, .ok bs p) =>
        if p then (s, .fail .poison a) else (s, checkedAddr ((w.ibase + natOf bs * 2 ^ w.ish : Nat) : Int) w.size)
      | (s, .fail c) => (s, .fail c.status a)
      | (s, .wait) => (s, .wait)
    | x => (s, x)

/-! ### Operations -/

/-- The operation at the cursor. -/
def State.opHere (s : State) : Option Op := (s.core s.cur.m s.coreHere).findOp s.cur.op
/-- Change the operation at the cursor. -/
def State.modHere (s : State) (f : Op → Op) : State := s.modOp s.cur.m s.coreHere s.cur.op f
/-- The agent of an operation (R378). Its elements in one line share a request, but for those of SGATHER, SSCATTER and SSCATOP, which
ask each for itself (R196, R198, R382). -/
def State.opAgent (s : State) (o : Op) : Agent :=
  { coreAgent s.cur.m s.coreHere o.lid with op := o.id + 1, byLine := decide (bits o.cmd.toNat 127 120 < 0x10 ∨ 0x12 < bits o.cmd.toNat 127 120) }
/-- The agent of an operation's slot lines, each its own request (R192, R274). -/
def State.slotAgent (s : State) (o : Op) : Agent := { s.opAgent o with byLine := false }
/-- The holder that an operation is. -/
def State.opHolder (s : State) (o : Op) : SideHolder := .op s.cur.m s.coreHere o.id

/-- The physical lines of a virtual address span, those of scratchpad alone (R185). -/
def spadLines (a n : Nat) : List Nat :=
  if sliceBase ≤ a ∧ a < sliceBase + 2 ^ 32 then linesOf (spadBase + (a - sliceBase)) n else []

/-- Where element n of a walk lies as its index now stands, without an access (R185). -/
def State.peekElem (s : State) (ag : Agent) (w : Walk) (n : Nat) : ElemAddr :=
  if w.ind = 0 then checkedAddr (w.affine n) w.size
  else
    let iw := if w.ind = 1 then 4 else 8
    match checkedAddr (w.affine n) iw with
    | .at_ a =>
      match s.peekNum ag a iw with
      | some v => checkedAddr ((w.ibase + v * 2 ^ w.ish : Nat) : Int) w.size
      | none => .fail .dropRd a
    | x => x

/-- The scratchpad lines of the indices of elements lo to hi − 1 of a walk (R185, R194). -/
def Walk.indexLines (w : Walk) (lo hi : Nat) : List Nat :=
  if w.ind = 0 then []
  else (List.range' lo (hi - lo)).flatMap fun n => match checkedAddr (w.affine n) (if w.ind = 1 then 4 else 8) with
    | .at_ a => spadLines a (if w.ind = 1 then 4 else 8)
    | _ => []

/-- The scratchpad lines that elements lo to hi − 1 of a walk and their indices touch, as they now stand (R185). -/
def State.walkLines (s : State) (ag : Agent) (w : Walk) (lo hi : Nat) : List Nat :=
  w.indexLines lo hi ++ (List.range' lo (hi - lo)).flatMap fun n => match s.peekElem ag w n with
    | .at_ a => spadLines a w.size
    | _ => []

/-- The scratchpad lines of a ring's descriptor, which its operation reads to its end (R185, R192). -/
def descLines (h : Option Word) : List Nat := h.elim [] fun d => spadLines d.toNat 64

/-- The state as operation `id` of a core sees it; `State.backTo` puts the cursor back. -/
def State.atOp (s : State) (m : RowId) (c : CoreId) (id : Nat) : State := { s with cur := { s.cur with m := m, p := placeOfCore c, op := id } }
/-- See `State.atOp`. -/
def State.backTo (s : State) (cur : Cursor) : State := { s with cur := cur }

/-- The operation at the cursor ends with a status: its sides are let go, and what it read with `.drop` and reads no more dies
(R185, R192, R223). -/
def State.endOp (s : State) (st : Status) (inCmd : Bool) (addr : Word) : State :=
  match s.opHere with
  | none => s
  | some o =>
    ((s.killLines o.drops).dropSides (s.opHolder o)).modHere fun o =>
      { o with phase := .ended, status := st, errInCmd := inCmd, errAddr := addr, drops := [] }

/-- A check of R376 fails: the command's address is the fault's (R244). -/
def State.refuseOp (s : State) (st : Status) : State :=
  match s.opHere with
  | none => s
  | some o => s.endOp st true o.cmdAddr

/-- The operation ends OK. -/
def State.endOk (s : State) : State := s.endOp .ok false 0

/-- An element's fault that waits until the elements before it are delivered (R379, R383). -/
def State.noteFault (s : State) (st : Status) (a : Int) : State :=
  s.modHere fun o => { o with status := st, errAddr := BitVec.ofInt 64 a }

/-- What a check comes to. -/
inductive Start where
  | wait (s : State)
  | bad (s : State) (st : Status)
  | go (s : State) (f : Op → Op)

/-- An operation starts after every earlier one of its launch on its engine (R125). -/
def Core.mayStart (k : Core) (o : Op) : Bool :=
  !k.ops.any fun x => x.lid == o.lid && decide (x.id < o.id) && x.engine == o.engine && x.phase == .forked

/-- One unit of the operation at the cursor: its checks, then its moves (R125, R376). -/
def State.runOp (s : State) (check : State → Op → Start) (move : State → Op → State) : State :=
  match s.opHere with
  | none => s
  | some o =>
    match o.phase with
    | .forked =>
      if !(s.core s.cur.m s.coreHere).mayStart o then s
      else match check s o with
      | .wait s => s
      | .bad s st => s.refuseOp st
      | .go s f => s.modHere fun o => { f o with phase := .moving }
    | .moving => move s o
    | _ => s

/-! ### Checks in turn (R376) -/

/-- A check that a Bool states. -/
def Start.require (ok : Bool) (st : Status) (k : State → Start) (s : State) : Start := if ok then k s else .bad s st

/-- A handle is bound and its descriptor well-formed. -/
def Start.ring (o : Op) (h : Option Word) (k : Ring → State → Start) (s : State) : Start :=
  match h with
  | none => .bad s .ringErr
  | some p =>
    match s.readRing (s.opAgent o) p .load with
    | (s, .ok _ r) => k r s
    | (s, .wait) => .wait s
    | (s, .bad st) => .bad s st

/-- A parameter block of n bytes at an address is read: misalignment, then faults, then poison (R376 step 5). -/
def Start.block (o : Op) (a : Word) (align n : Nat) (k : List Byte → State → Start) (s : State) : Start :=
  if a.toNat % align ≠ 0 then .bad s .align
  else match s.readMem (s.opAgent o) a.toNat n with
  | (s, .ok bs p) => if p then .bad s .poison else k bs s
  | (s, .fail c) => .bad s c.status
  | (s, .wait) => .wait s

/-! ### Ports (R133, R376, R379) -/

/-- The port that an operation uses: the region bound at its fork and the port's element. -/
def State.portOf (s : State) (o : Op) (dir num : Nat) : Option ElemRef :=
  match o.region with
  | none => none
  | some slot =>
    match s.region s.cur.m s.coreHere slot with
    | none => none
    | some g =>
      if g.lid ≠ o.lid then none
      else (g.portElem dir num).map fun i =>
        { m := s.cur.m, c := s.coreHere, slot := slot, e := i }

/-- PDIR agrees, and the port is bound to a region of the launch (R376 step 4). -/
def Start.port (o : Op) (c : Command) (dir : Nat) (k : State → Start) (s : State) : Start :=
  if c.pdir ≠ decide (dir = 1) then .bad s .badCmd
  else if o.region.any fun slot => s.spilled o.lid s.cur.m s.coreHere slot then .wait s
  else if (s.portOf o dir c.port.toNat).isNone then .bad s .noPort else k s

/-- The port is this operation's: no operation whose fork reached it earlier still uses it (R379). -/
def Core.holdsPort (k : Core) (o : Op) (dir num : Nat) : Bool :=
  !k.ops.any fun x => decide (x.id < o.id) && (x.phase == .forked || x.phase == .moving)
    && (portDir x.cmd).any fun p => decide (p.1 = dir ∧ p.2.port.toNat = num)

/-- A region's port moves tokens: the region runs, and no cut has passed the port but one that a breakpoint asked for, where its
engines stop when their arcs block (R156, R256). -/
def Region.portMoves (g : Region) (e : Elem) : Bool :=
  g.st == .running && (g.bpHold || !(g.frozen || g.flood.cut? && e.flooded))

/-- Lines of the operation's `.drop` reads that no later read names die now (R185). -/
def State.settleDrops (s : State) (later : List Nat) : State :=
  match s.opHere with
  | none => s
  | some o =>
    let dead := o.drops.filter fun l => !later.contains l
    (s.killLines dead).modHere fun o => { o with drops := o.drops.filter later.contains }

/-- A read marked `.drop` is noted (R185, R377). So are reads of elements, ring slots, a PSET's source, rinds, pages, punnet entries and their
count; those of indices, descriptors and parameter blocks are not (DESIGN CHOICE, log entry 67). -/
def State.noteDrop (s : State) (c : Command) (a n : Nat) : State :=
  if c.drp then s.modHere fun o => { o with drops := (spadLines a n).foldl (fun acc l => insertNat l acc) o.drops } else s

end Sys2Proof.Machine
end

