-- ==== Sys2Proof/Machine/Complete.lean ====
section
/-! DEFINITION. The completion and retirement of engine operations (R125, R126, R243–R245, Table 4.9). -/

namespace Sys2Proof.Machine

/-- %est and the engine's trap take a completion's status (R126, R243, R244). -/
def Core.noteStatus (k : Core) (o : Op) : Core :=
  if o.status = .ok then k
  else
    let k := { k with est := vmod k.est o.engine fun e =>
      ⟨satInc e.count, if e.count = 0 then BitVec.ofNat 8 o.status.code else e.first⟩ }
    match o.status.trap with
    | none => k
    | some c =>
      if (commandOf o.cmd).t && (k.engTrap[o.engine]).isNone then
        let t : EngTrap := { cause := c, xaddr := o.errAddr, xinfo := toWord (o.engine.val * 2 ^ 48 + o.idx % 2 ^ 48) }
        { k with engTrap := k.engTrap.set o.engine (some t) }
      else k

/-- The completed operations at the front of a launch's queue on an engine retire (R125, R245). -/
def Core.retire (k : Core) (e : Fin 4) (lid : BitVec 16) : Core :=
  let mine (o : Op) : Bool := o.engine == e && o.lid == lid
  let stop := k.ops.find? fun o => mine o && o.phase != .completed
  { k with ops := k.ops.filter fun o => !(mine o && o.phase == .completed && stop.all fun x => decide (o.id < x.id)) }

/-- The regions of a core look at their floods again (R451, R459). -/
def State.settleAll (s : State) (m : RowId) (c : CoreId) : State := (finsN 8).foldl (fun s slot => s.settle m c slot) s

/-- An operation that has ended completes, and its requests have left the arbiters. -/
def State.completeOp (s : State) (m : RowId) (c : CoreId) (o : Op) : State :=
  let s := ((s.killLines o.drops).dropHeld fun x => x.ofOp m c o.id).modCoreFor o.lid m c fun k => k.noteStatus o
  (s.modCore m c fun k => (k.modOp o.id fun o => { o with phase := .completed }).retire o.engine o.lid).settleAll m c

/-- OPERATION_COMPLETION: of a cancelled operation, once the requests that arbiters have accepted are served (R276). -/
def execOperationCompletion (m : RowId) (c : CoreId) (op : Nat) (s : State) : Out :=
  .next (match (s.core m c).findOp op with
    | none => s
    | some o => if o.phase = .ended ∧ !s.hub.budgets.awaited m c op then s.completeOp m c o else s)

end Sys2Proof.Machine
end

