-- ==== Sys2Proof/Machine/Circuits.lean ====
section
/-! DEFINITION. The circuit transport of the hub die: circuits, their frames, acknowledgement, go-back-N, ports and the give-up
time (R28–R33, R398). The manual gives no number to a remote operation's OP and no layout to its payload: DESIGN CHOICE, log entry 28. -/

namespace Sys2Proof.Machine

/-! ### OP codes -/

/-- The remote operations of Table 1.4. -/
inductive RemoteOp where
  | put | getRequest | getReply | reduction | launch | signal
  deriving DecidableEq, Repr

/-- The OP code of a remote operation, which the manual leaves open (DESIGN CHOICE, log entry 28). -/
def RemoteOp.code : RemoteOp → BitVec 8
  | .put => Config.frameOp 0
  | .getRequest => Config.frameOp 1
  | .getReply => Config.frameOp 2
  | .reduction => Config.frameOp 3
  | .launch => Config.frameOp 4
  | .signal => Config.frameOp 5

/-- The remote operation of an OP code. -/
def remoteOpOf (c : BitVec 8) : Option RemoteOp :=
  [RemoteOp.put, .getRequest, .getReply, .reduction, .launch, .signal].find? fun o => o.code == c

/-! ### Ports (R32) -/

/-- The ports that are up. -/
def Hub.upPorts (h : Hub) : List Nat := (finsN 16).filterMap fun p => if (h.ports[p]).up then some p.val else none

/-- The port that the endpoints and the number hash to over the ports that are up (R32, DESIGN CHOICE, log entry 5). -/
def Hub.bindPort (h : Hub) (peer : BitVec 18) (num : BitVec 16) : Nat :=
  let ps := h.upPorts
  ps.getD (Config.portHash h.nodeId.toNat peer.toNat num.toNat ps.length % ps.length) 0

/-- The MAC address of a port: the fabric prefix, then the node identifier and the port (R28). -/
def Hub.portMac (h : Hub) (p : Nat) : BitVec 48 :=
  BitVec.ofNat 48 (h.macPrefix.toNat * 2 ^ 24 + h.nodeId.toNat * 64 + p * 4)

/-- The circuit header as it is sent, most significant byte first (Table 1.4). -/
def frameHeader (f : Frame) : List Byte :=
  let n := f.ver.toNat * 2 ^ 188 + f.kind.toNat * 2 ^ 184 + f.dst.toNat * 2 ^ 166 + f.src.toNat * 2 ^ 148 + f.cls.toNat * 2 ^ 146
    + f.circ.toNat * 2 ^ 128 + f.seq.toNat * 2 ^ 96 + f.ackseq.toNat * 2 ^ 64 + f.len.toNat * 2 ^ 48 + f.op.toNat * 2 ^ 40
    + f.win.toNat * 2 ^ 16
  (bytesOf 24 n).reverse

/-- The frame that an outgoing one is on the wire (R29). -/
def OutFrame.frame (f : OutFrame) : Frame :=
  { ethertype := 0x88B5, ver := 1, kind := f.kind, dst := f.dst, src := f.src, cls := f.cls, circ := f.circ, seq := f.seq
    ackseq := f.ackseq, len := BitVec.ofNat 16 f.payload.length, op := f.op, win := f.win, payload := f.payload }

/-- What its port adds to a frame: addresses, the tag's priority where the port carries one, and the header (R27–R29). -/
def Hub.dress (h : Hub) (f : OutFrame) : OutFrame :=
  let f := { f with src := h.nodeId, mac := h.portMac f.port
                    prio := if (h.ports[Fin.ofNat 16 f.port]).tagged then some (Config.classPriority f.cls) else none }
  { f with header := frameHeader f.frame }

/-- A frame leaves by its port; with no port up, or no node identifier, none leaves (R28). -/
def State.emit (s : State) (f : OutFrame) : State :=
  if s.hub.upPorts.isEmpty ∨ s.hub.nodeId = 0 then s else s.modHub fun h => { h with sent := h.dress f :: h.sent }

/-! ### Circuits -/

/-- A circuit of one direction with a peer and a number. -/
def Hub.circuit (h : Hub) (outgoing : Bool) (peer : BitVec 18) (num : BitVec 16) : Option Circuit :=
  h.circuits.find? fun c => c.outgoing == outgoing && c.peer == peer && c.num == num

/-- Change a circuit. -/
def State.modCircuit (s : State) (outgoing : Bool) (peer : BitVec 18) (num : BitVec 16) (f : Circuit → Circuit) : State :=
  s.modHub fun h => { h with circuits := h.circuits.map fun c =>
    if c.outgoing = outgoing ∧ c.peer = peer ∧ c.num = num then f c else c }

/-- The outgoing circuit of an issuer, a destination and a class that is not broken (R398). -/
def Hub.outCircuit (h : Hub) (issuer : Option (RowId × CoreId)) (peer : BitVec 18) (cls : BitVec 2) : Option Circuit :=
  h.circuits.find? fun c => c.outgoing && c.issuer == issuer && c.peer == peer && c.cls == cls && !c.broken

/-- The outgoing circuit of a number. -/
def Hub.outNum (h : Hub) (num : BitVec 16) : Option Circuit := h.circuits.find? fun c => c.outgoing && c.num == num

/-- The lowest number that no outgoing circuit has. -/
def Hub.freeNum (h : Hub) : BitVec 16 :=
  BitVec.ofNat 16 (((List.range (h.circuits.length + 1)).find? fun n =>
    !h.circuits.any fun c => c.outgoing && c.num.toNat == n).getD 0)

/-- The highest sequence number whose frame, with all before it, has been performed (R30, R31, R400). -/
def Circuit.acked (c : Circuit) : BitVec 32 := match c.open_ with
  | [] => c.last
  | x :: _ => x - 1

/-- A control frame on a circuit; an OPEN carries the number before its first frame's (DESIGN CHOICE, log entry 28). -/
def Circuit.control (c : Circuit) (kind : BitVec 4) (win : BitVec 16) (payload : List Byte) : OutFrame :=
  { kind := kind, dst := c.peer, circ := c.num, cls := c.cls, seq := if kind = 3 then c.start else 0
    ackseq := if c.outgoing then 0 else c.acked, op := 0, win := win, port := c.port, payload := payload }

/-- Send a control frame by the circuit's port (R32); its credit window is left open (DESIGN CHOICE, log entry 28). -/
def State.sendControl (s : State) (c : Circuit) (kind : BitVec 4) (payload : List Byte) : State :=
  let (v, s) := s.draw
  s.emit (c.control kind (v.setWidth 16) payload)

/-- The circuit of an issuer, a destination and a class, opened with OPEN at first use (R398). -/
def State.openCircuit (s : State) (issuer : Option (RowId × CoreId)) (peer : BitVec 18) (cls : BitVec 2) : State × Circuit :=
  match s.hub.outCircuit issuer peer cls with
  | some c => (s, c)
  | none =>
    let num := s.hub.freeNum
    let seq := ((s.hub.circSeq.find? fun x => x.1 == num).map (·.2)).getD 0
    let c : Circuit := { outgoing := true, num := num, peer := peer, cls := cls, issuer := issuer, broken := false
                         port := s.hub.bindPort peer num, last := seq, win := none, unacked := [], lastProgress := s.osc
                         lastSent := s.osc, refused := [], start := seq }
    ((s.modHub fun h => { h with circuits := h.circuits ++ [c] }).sendControl c 3 [], c)

/-- The circuit has a credit for another frame. -/
def Circuit.credit (c : Circuit) : Bool := c.win.all fun w => decide (c.unacked.length < w)

/-- Send one DATA frame on an open circuit; its sequence number (R30). -/
def State.sendData (s : State) (c : Circuit) (op : BitVec 8) (payload : List Byte) : State × BitVec 32 :=
  let (v, s) := s.draw
  let f : OutFrame := { kind := 0, dst := c.peer, circ := c.num, cls := c.cls, seq := c.last + 1, ackseq := 0, op := op
                        win := v.setWidth 16, port := c.port, payload := payload }
  let s := s.modCircuit true c.peer c.num fun c =>
    { c with last := c.last + 1, unacked := c.unacked ++ [f], lastSent := s.osc
             lastProgress := if c.unacked.isEmpty then s.osc else c.lastProgress }
  (s.emit f, c.last + 1)

/-- Nothing that the circuit carried has been acknowledged, so its OPEN may have been lost. -/
def Circuit.unheard (c : Circuit) : Bool := (c.unacked.head?).any fun f => f.seq == c.start + 1

/-- Go-back-N: every unacknowledged frame is sent again, in order, by the circuit's port, the OPEN ahead of them while none has
been acknowledged (R30; the OPEN: DESIGN CHOICE, log entry 28). -/
def State.resendAll (s : State) (c : Circuit) : State :=
  let s := s.modCircuit true c.peer c.num fun x => { x with port := c.port, lastSent := s.osc }
  let s := if c.unheard then s.sendControl c 3 [] else s
  c.unacked.foldl (fun s f => s.emit { f with port := c.port }) s

/-- A sequence number at or below another, compared serially. -/
def seqCovers (ack seq : BitVec 32) : Bool := ack == seq || serialBelow32 seq.toNat ack.toNat

/-! ### Operations that wait on circuits -/

/-- Change every operation of every core. -/
def State.mapOps (s : State) (f : RowId → CoreId → Op → Op) : State :=
  { s with rows := Vector.ofFn fun m => { s.rows[m] with cores := Vector.ofFn fun c =>
      let k := s.rows[m].cores[c]
      { k with ops := k.ops.map (f m c) } } }

/-- An operation that has sent its last frame ends once all its frames are acknowledged (R31, R400). -/
def Op.settleAcks (o : Op) : Op :=
  if o.phase = .waiting ∧ o.sawF ∧ o.awaitSeq.isEmpty then { o with phase := .ended } else o

/-- Acknowledgements that a circuit brings. -/
def Op.acked (num : BitVec 16) (ack : BitVec 32) (o : Op) : Op :=
  if o.awaitSeq.isEmpty then o
  else Op.settleAcks { o with awaitSeq := o.awaitSeq.filter fun x => !(x.1 == num && seqCovers ack x.2) }

/-- An operation notes that it awaits a frame's acknowledgement. -/
def Op.await (num : BitVec 16) (seq : BitVec 32) (o : Op) : Op :=
  { o with awaitSeq := o.awaitSeq.filter (fun x => x.1 != num) ++ [(num, seq)] }

/-! ### The tag of an operation on a circuit (DESIGN CHOICE, log entry 28) -/

/-- Six bytes that name an operation: row, core and number. -/
def tagBytes (m : RowId) (c : CoreId) (id : Nat) : List Byte := bytesOf 6 (m.val + 256 * c.val + 65536 * id)
/-- An operation has a tag. -/
def hasTag (t : Nat) (m : RowId) (c : CoreId) (o : Op) : Bool := decide ((m.val + 256 * c.val + 65536 * o.id) % 2 ^ 48 = t)

/-- A status by its code (Tables 3.2, 3.4, 15.1). -/
def statusOf (n : Nat) : Option Status :=
  [Status.ok, .badDesc, .xlate, .poison, .noRegion, .badImg, .full, .aborted, .rowDown, .noFit, .range, .rule, .dropRd, .align
   , .perm, .badCmd, .ringErr, .limit, .cbrk, .noPort].find? fun st => st.code == n

/-- A refusal's bytes: tag, status and offset. -/
def refusalBytes (r : Nat × Nat × Nat) : List Byte := bytesOf 6 r.1 ++ bytesOf 1 r.2.1 ++ bytesOf 6 r.2.2
/-- The refusals of a circuit that one frame has room for. -/
def Circuit.refusals (c : Circuit) : List Byte := (c.refused.take 300).flatMap refusalBytes
/-- A circuit refuses an operation, once. -/
def Circuit.refuse (c : Circuit) (r : Option (Nat × Nat × Nat)) : Circuit :=
  match r with
  | some x => if c.refused.any fun y => y.1 == x.1 then c else { c with refused := x :: c.refused }
  | none => c

/-- The operation that a tag names, while it runs. -/
def State.tagged (s : State) (tag : Nat) : Option (RowId × CoreId × Op) :=
  (finsN 24).findSome? fun m => (finsN 8).findSome? fun c =>
    ((s.core m c).ops.find? fun o => hasTag tag m c o && (o.phase == .moving || o.phase == .waiting)).map fun o => (m, c, o)

/-- The address of an element for %xaddr, of an indirect walk as its index now stands; where the index has none, its own address. -/
def State.faultAddr (s : State) (ag : Agent) (w : Walk) (n : Nat) : Word :=
  match s.peekElem ag w n with
  | .at_ a => toWord a
  | .fail _ a => BitVec.ofInt 64 a
  | .wait => BitVec.ofInt 64 (w.affine n)

/-- An operation ends refused at an element (R399). -/
def State.refuseAt (s : State) (m : RowId) (c : CoreId) (o : Op) (st : Status) (n : Nat) : State :=
  let a := s.faultAddr (coreAgent m c o.lid) (walkOf o.wa) n
  s.modOp m c o.id fun o => { o with phase := .ended, status := st, idx := n, errAddr := a, awaitSeq := [] }

/-- The element of a walk that holds an offset, and the refused operation's end (R399). -/
def State.refused (s : State) (tag status off : Nat) : State :=
  match s.tagged tag with
  | none => s
  | some (m, c, o) => s.refuseAt m c o ((statusOf status).getD .badDesc) (off / (walkOf o.wa).size)

/-- A little-endian field of a payload. -/
def payField (bs : List Byte) (o n : Nat) : Nat := natOf ((bs.drop o).take n)

/-! ### Arriving frames (R29, R30) -/

/-- Count a dropped frame: 0 EtherType or version, 1 destination, 2 kind or length. -/
def State.countDrop (s : State) (i : Fin 3) : State := s.modHub fun h => { h with drops := vmod h.drops i (· + 1) }

/-- The record is a frame's. -/
def LogRec.isFrame : LogRec → Bool
  | .frame .. => true
  | _ => false

/-- Order logging of a frame that arrives (R265). -/
def State.logFrame (s : State) (f : Frame) (taken : Bool) : State :=
  if !s.hub.ck.logen then s
  else s.modHub fun h => { h with ck := { h.ck with
    log := h.ck.log ++ [.frame f.circ f.src f.seq (h.ck.log.filter LogRec.isFrame).length f.kind taken f.op f.payload] } }

/-- The open incoming circuit on which a DATA frame comes in sequence (R30). -/
def Hub.inSequence (h : Hub) (f : Frame) : Option Circuit :=
  (h.circuit false f.src f.circ).filter fun c => !c.broken && f.seq == c.last + 1

/-- A replay drops live DATA on the circuits of its log until that is exhausted (R266). -/
def Ckpt.replays (k : Ckpt) (f : Frame) : Bool := k.replay && f.kind == 0 && k.replayCirc.contains (f.src, f.circ)

/-- A port accepts a frame of up to 4,200 bytes with at most the one 802.1Q tag that it is set for (R27). -/
def Hub.accepts (h : Hub) (f : Frame) : Bool := decide (f.octets ≤ 4200 ∧ f.tags ≤ b2n (h.ports[f.port]).tagged)

/-- The drops of R28, R29 and Table 1.4 for an event of one kind, and a replay's; else the frame is logged and has its effect. A frame that does not hold the bytes its
LEN names is dropped too (DESIGN CHOICE, log entry 28). -/
def State.frameIn (s : State) (kind : BitVec 4) (f : Frame) (k : State → State) : State :=
  if !s.hub.accepts f then s
  else if f.ethertype ≠ 0x88B5 then s.countDrop 0
  else if f.ver ≠ 1 then s.countDrop 0
  else if f.dst ≠ s.hub.nodeId ∨ f.dst = 0 ∨ f.dst = 0x3FFFF then s.countDrop 1
  else if 6 ≤ f.kind.toNat ∨ 4096 < f.len.toNat ∨ f.payload.length ≠ f.len.toNat then s.countDrop 2
  else if f.kind ≠ kind ∨ s.hub.ck.replays f then s
  else k (s.logFrame f (f.kind == 0 && (s.hub.inSequence f).isSome))

/-- What an ACK or a NAK acknowledges; the refusals it carries end their operations first (R31, R33, R399). -/
def State.ackIn (s : State) (f : Frame) : State :=
  match s.hub.circuit true f.src f.circ with
  | none => s
  | some c =>
    if c.broken then s
    else
      let left := c.unacked.filter fun x => !seqCovers f.ackseq x.seq
      let s := (List.range (f.payload.length / 13)).foldl (fun s i =>
        s.refused (payField f.payload (13 * i) 6) (payField f.payload (13 * i + 6) 1) (payField f.payload (13 * i + 7) 6)) s
      let s := s.modCircuit true f.src f.circ fun x =>
        { x with unacked := left, win := some f.win.toNat
                 lastProgress := if left.length < c.unacked.length then s.osc else x.lastProgress }
      s.mapOps fun _ _ o => o.acked f.circ f.ackseq

/-- ACK. -/
def execAckFrame (f : Frame) (s : State) : Out := .next (s.frameIn 1 f fun s => s.ackIn f)

/-- NAK: what is still unacknowledged is sent again (R30). -/
def execNakFrame (f : Frame) (s : State) : Out :=
  .next (s.frameIn 2 f fun s =>
    let s := s.ackIn f
    match s.hub.circuit true f.src f.circ with
    | some c => if c.broken then s else s.resendAll c
    | none => s)

/-- An incoming circuit as its OPEN makes it. -/
def Hub.incoming (h : Hub) (f : Frame) (now : Nat) : Circuit :=
  { outgoing := false, num := f.circ, peer := f.src, cls := f.cls, issuer := none, broken := false
    port := h.bindPort f.src f.circ, last := f.seq, win := none, unacked := [], lastProgress := now, lastSent := now
    refused := [] }

/-- OPEN: a circuit that is not open here begins (R398). One that is, its CLOSE having been lost, begins anew when the OPEN's
number is beyond what it has received; an OPEN sent again changes nothing (DESIGN CHOICE, log entry 28). -/
def execOpenFrame (f : Frame) (s : State) : Out :=
  .next (s.frameIn 3 f fun s =>
    let new := s.hub.incoming f s.osc
    match s.hub.circuit false f.src f.circ with
    | some c =>
      if c.broken || serialBelow32 c.last.toNat f.seq.toNat then s.modCircuit false f.src f.circ fun _ => new else s
    | none => s.modHub fun h => { h with circuits := h.circuits ++ [new] })

/-- CLOSE (R398). -/
def execCloseFrame (f : Frame) (s : State) : Out :=
  .next (s.frameIn 4 f fun s => s.modHub fun h =>
    { h with circuits := h.circuits.filter fun c => !(!c.outgoing && c.peer == f.src && c.num == f.circ) })

/-- PROBE: beyond the drops of R29 the manual gives it no effect. -/
def execProbeFrame (f : Frame) (s : State) : Out := .next (s.frameIn 5 f fun s => s)

/-! ### Timeouts, ports and the give-up time (R30, R32, R33) -/

/-- RETRANSMIT_TIMEOUT: 20 µs without an acknowledgement. They count from the last frame sent, which the manual leaves open
(DESIGN CHOICE, log entry 60). -/
def execRetransmitTimeout (circ : BitVec 16) (s : State) : Out :=
  .next (match s.hub.outNum circ with
    | none => s
    | some c => if c.broken ∨ c.unacked.isEmpty ∨ s.osc < c.lastSent + ns 20000 then s else s.resendAll c)

/-- A circuit is bound to a port that is up; an outgoing one sends its unacknowledged frames again (R32). -/
def State.rebind (s : State) (c : Circuit) : State :=
  let p := s.hub.bindPort c.peer c.num
  if c.outgoing then s.resendAll { c with port := p } else s.modCircuit false c.peer c.num fun x => { x with port := p }

/-- PORT_LINK_DOWN: the circuits of the port are bound to the ports that remain. -/
def execPortLinkDown (p : Fin 16) (s : State) : Out :=
  let s' := s.modHub fun h => { h with ports := vmod h.ports p fun x => { x with up := false } }
  .next (if !(s.hub.ports[p]).up then s
    else if s'.hub.upPorts.isEmpty then s'
    else (s'.hub.circuits.filter fun c => !c.broken && c.port == p.val).foldl State.rebind s')

/-- Ports stay down when the start skipped their bring-up (Table 2.7). -/
def Mgmt.portsSkipped (g : Mgmt) : Bool := decide (bits g.levels.toNat 11 10 = 2)

/-- PORT_LINK_UP: circuits that no port carried are bound to it. -/
def execPortLinkUp (p : Fin 16) (s : State) : Out :=
  let s' := s.modHub fun h => { h with ports := vmod h.ports p fun x => { x with up := true } }
  .next (if s.mgmt.portsSkipped then s
    else if s.hub.upPorts.isEmpty then (s'.hub.circuits.filter fun c => !c.broken).foldl State.rebind s'
    else s')

/-- A remote operation that sends to a node in a class: SPUT, SGET, ARED to node 0 of its list, or a remote SIGNAL. -/
def Op.sendsTo (o : Op) (peer : BitVec 18) (cls : BitVec 2) : Bool :=
  let cmd := o.cmd.toNat
  let op := cmdOp o.cmd
  let node := if op = 0x42 then o.aux.getD 5 0 else bits cmd 81 64
  (op == 0x40 || op == 0x41 || op == 0x42 || op == 0x53 && bitN cmd 88)
    && decide (node = peer.toNat ∧ bits cmd 83 82 = cls.toNat)

/-- A reduction of which this module is node 0 and the peer is another (R402). -/
def Op.rootWith (o : Op) (own peer : BitVec 18) : Bool :=
  cmdOp o.cmd == 0x42 && decide (1 ≤ o.lanes ∧ o.aux.getD 5 0 = own.toNat) && (o.aux.drop 5).any fun n => n == peer.toNat

/-- An operation has asked its circuit's other end for what it needs before it goes on: a get's reply, or a reduction's verdict and result
(R401, R402). -/
def Op.asked (o : Op) : Bool := cmdOp o.cmd == 0x41 && o.lanes == 1 || cmdOp o.cmd == 0x42 && decide (1 ≤ o.lanes)

/-- An operation waits on a circuit: for its acknowledgement or its credit, for the answer to what it sent there, or, at node 0 of a
reduction, for what comes and goes on the circuits between the engines (R33, R402). -/
def Op.waitsOn (o : Op) (c : Circuit) (own : BitVec 18) (m : RowId) (k : CoreId) : Bool :=
  o.awaitSeq.any (fun x => x.1 == c.num)
    || (o.phase == .moving && c.issuer == some (m, k) && (!c.credit || o.asked) && o.sendsTo c.peer c.cls)
    || (o.phase == .moving && c.issuer.isNone && o.rootWith own c.peer)

/-- A circuit breaks: every operation waiting on it completes with CBRK, node 0 gives up its reductions with the peer, and a CIRC
event names the node and the circuit (R33; DEDUCED, log entry 29). -/
def State.breakCircuit (s : State) (c : Circuit) : State :=
  let own := s.hub.nodeId
  let lost := if c.issuer.isSome then [] else (s.hub.areds.filter fun g => g.parts.any fun p => p.node == c.peer).map (·.group)
  let s := s.modCircuit true c.peer c.num fun c => { c with broken := true, unacked := [] }
  let s := s.modHub fun h => { h with
    areds := h.areds.filter fun g => !lost.contains g.group, aredIn := h.aredIn.filter fun x => !lost.contains x.1 }
  let s := s.mapOps fun m k o =>
    if o.waitsOn c own m k && (o.phase == .moving || o.phase == .waiting) then
      { o with phase := .ended, status := .cbrk, awaitSeq := [] }
    else o
  s.postEvent .circ 4 0xFF 0xFF 0 0 (toWord (c.peer.toNat * 65536 + c.num.toNat))

/-- CIRCUIT_GIVE_UP (R33). -/
def execCircuitGiveUp (circ : BitVec 16) (s : State) : Out :=
  .next (match s.hub.outNum circ with
    | none => s
    | some c =>
      if c.broken ∨ c.unacked.isEmpty ∨ s.osc < c.lastProgress + ns (1000000 * s.hub.cgive.toNat) then s
      else s.breakCircuit c)

/-- CGIVE is written: MS clamped (R33). -/
def State.setCgive (s : State) (v : Word) : State :=
  s.modHub fun h => { h with cgive := BitVec.ofNat 10 (clampN 1 1000 (wbits v 9 0)) }
/-- CGIVE_WRITE. -/
def execCgiveWrite (v : Word) (s : State) : Out := .next (s.setCgive v)

/-- NODEID is written, once per boot (R28, Table 2.2). -/
def State.setNode (s : State) (v : Word) : State :=
  if s.hub.nodeSet then s else s.modHub fun h => { h with nodeId := v.setWidth 18, nodeSet := true }
/-- NODEID_WRITE. -/
def execNodeidWrite (v : Word) (s : State) : Out := .next (s.setNode v)

/-- The circuits of a launch's cores close when it completes; a core that still carries operations of the launch that it
displaced keeps its circuits (R398). -/
def State.closeCircuits (s : State) (rows : List RowId) : State :=
  let mine (c : Circuit) : Bool := c.outgoing && c.issuer.any fun x =>
    rows.contains x.1 && (s.core x.1 x.2).ops.isEmpty
  let gone := s.hub.circuits.filter mine
  let s := gone.foldl (fun s c => s.sendControl c 4 []) s
  let used := gone.map fun c => (c.num, c.last)
  s.modHub fun h => { h with
    circuits := h.circuits.filter fun c => !mine c
    circSeq := used ++ h.circSeq.filter fun x => !used.any fun y => y.1 == x.1 }

end Sys2Proof.Machine
end

