-- ==== Sys2Proof/Machine/RowEvents.lean ====
section
/-! DEFINITION. Events of a row: handler entry, machine checks, the return of data and echoes, and the power states of its
register, scratchpad and hold banks (R112, R119, R169, R187, R236, R241, R341). -/

namespace Sys2Proof.Machine

/-- Every place of a row has stopped, or had halted (R236). -/
def Row.allStopped (r : Row) : Bool :=
  allPlaces.all fun p => r.isStopped p || match coreOfPlace p with
    | some c => r.cores[c].halted
    | none => r.halted

/-- A row has begun to stop. -/
def Row.isStopping (r : Row) : Bool :=
  match r.phase with
  | .stopping _ => true
  | _ => false

/-- HANDLER_ENTRY (R236): a halted place stands where it halted. -/
def execHandlerEntry (m : RowId) (s : State) : Out :=
  let r := s.row m
  .next (if r.isStopping && r.allStopped && r.firstTrap.isSome && s.rowMoves m then
      (s.modRow m fun r => allPlaces.foldl Row.stopAt r).enterHandler m
    else s)

/-- MACHINE_CHECK (R241, Table 8.4), on a row that a launch holds. -/
def execMachineCheck (m : RowId) (p : PlaceId) (k : MachineCheck) (s : State) : Out :=
  .next (if (s.row m).lid.isNone then s
    else s.takeMachineCheck m p k.addr (mchkInfo k.cls.toNat k.array.toNat k.bank.toNat k.synd.toNat))

/-- LOAD_DATA_RETURN: the oldest pending write of a place is made, its bank woken first if it is not FULL (R119, R341). -/
def execLoadDataReturn (m : RowId) (p : PlaceId) (s : State) : Out :=
  .next (if (s.row m).phase = .mchk then s
    else match coreOfPlace p with
    | none =>
      s.modRow m fun r => match r.qpend with
        | [] => r
        | x :: rest => { r.writeQ x.dest x.val with qpend := rest }
    | some c =>
      s.modCore m c fun k => match k.pend with
        | [] => k
        | x :: rest =>
          match k.wakeFor s.osc [x.dest] with
          | (k', false) => k'
          | (_, true) => { (k.touch s.tb [x.dest]).write x.dest x.val with pend := rest })

/-- ECHO_RETURN (R110, R112). -/
def execEchoReturn (m : RowId) (s : State) : Out :=
  .next (if (s.row m).phase = .mchk then s
    else s.modRow m fun r => match r.echo with
      | [] => r
      | x :: rest => { r.writeQ x.dest x.val with echo := rest })

/-! ### Register banks (Table 4.7) -/

/-- REGISTER_BANK_IDLE: a bank that an issued load has yet to write does not idle. -/
def execRegisterBankIdle (m : RowId) (c : CoreId) (b : Fin 4) (s : State) : Out :=
  .next (s.modCore m c fun k =>
    if (k.banks[b]).idled s.tb && liveInBank k.live b && !k.pend.any (fun x => sBank x.dest == b) then
      { k with banks := vmod k.banks b fun x => { x with st := .keep } }
    else k)

/-- REGISTER_BANK_WAKE. -/
def execRegisterBankWake (m : RowId) (c : CoreId) (b : Fin 4) (s : State) : Out :=
  .next (s.modCore m c fun k =>
    if (k.banks[b]).st = .waking ∧ (k.banks[b]).wakeAt ≤ s.osc then
      { k with banks := vmod k.banks b fun x => x.woken s.tb k.kidle }
    else k)

/-! ### Scratchpad banks (Table 6.8) -/

/-- SCRATCHPAD_BANK_IDLE. -/
def execScratchpadBankIdle (m : RowId) (c : CoreId) (mi : Fin 64) (b : Fin 16) (s : State) : Out :=
  .next (if (((s.core m c).mcells[mi]).banks[b]).idled s.tb && !(s.bankLive m c mi b).isEmpty then
      s.modBank m c mi b fun x => { x with st := .keep }
    else s)

/-- A scratchpad bank's wake ends when its time has come. -/
def State.bankWake (s : State) (m : RowId) (c : CoreId) (mi : Fin 64) (b : Fin 16) : State :=
  let x := ((s.core m c).mcells[mi]).banks[b]
  if x.st = .waking ∧ x.wakeAt ≤ s.osc then s.modBank m c mi b fun x => x.woken s.tb (s.core m c).kidle else s

/-- SCRATCHPAD_BANK_WAKE: the wake ends, and what waited at the bank is served (R181, R187). -/
def execScratchpadBankWake (m : RowId) (c : CoreId) (mi : Fin 64) (b : Fin 16) (s : State) : Out :=
  .next ((s.bankWake m c mi b).servePorts m c mi b)

/-! ### Hold banks (Table 5.7) -/

/-- HOLD_BANK_IDLE. -/
def execHoldBankIdle (r : ElemRef) (s : State) : Out :=
  .next (s.modElem r fun e =>
    if e.hbank.idled s.tb && e.holds.toList.any Option.isSome then { e with hbank := { e.hbank with st := .keep } } else e)

/-- HOLD_BANK_WAKE. The new idle period is under the %kidle of the row's present core (DESIGN CHOICE, log entry 67). -/
def execHoldBankWake (r : ElemRef) (s : State) : Out :=
  .next (s.modElem r fun e =>
    if e.hbank.st = .waking ∧ e.hbank.wakeAt ≤ s.osc then
      { e with hbank := e.hbank.woken s.tb (s.core r.m r.c).kidle }
    else e)

end Sys2Proof.Machine
end

