-- ==== Sys2Proof/Machine/Larder.lean ====
section
/-! DEFINITION. The larder: what a suspension and a checkpoint write of cores, row fetch units, regions and memory cells, and how
a restore reads it back (R188, R249, R263, R266, R445, R461, Table 8.7). The packing of what Table 8.7 lists together is the
model's (DESIGN CHOICE, log entry 31). -/

namespace Sys2Proof.Machine

/-! ### Places of the larder (R249) -/

/-- The larder of a core. -/
def larderCoreAt (l : Launch) (m : RowId) (c : CoreId) : Nat :=
  (l.larder.toNat + 0x20000000 * m.val + 0x2000000 * c.val) % 2 ^ 64
/-- The larder of a row fetch unit. -/
def larderRfuAt (l : Launch) (m : RowId) : Nat := (l.larder.toNat + 0x20000000 * m.val + 0x10000000) % 2 ^ 64

/-- The hub acting for a launch. -/
def hubFor (m : RowId) (lid : BitVec 16) : Agent := { m := m, unit := .hub, lid := lid }

/-- Blocks of eight-byte words, lowest byte first. -/
def wordBlock (ws : List Nat) : List Byte := ws.flatMap (bytesOf 8)

/-- A block's words as they are read back, in order. -/
def wordsOf (bs : List Byte) : List Nat := (blocks 8 (bs.length / 8) bs).map natOf

/-! ### Cores and row fetch units -/

/-- A predication stack: its depth in [35:32] and three bits an entry, outermost lowest. -/
def stackBits (st : List PredEntry) : Nat :=
  st.length * 2 ^ 32 + st.foldr (fun e acc => acc * 8 + b2n e.outer + 2 * b2n e.took + 4 * b2n e.els) 0

/-- The stack that such a word describes. -/
def stackOfBits (v : Nat) : List PredEntry :=
  (List.range (bits v 35 32)).map fun i => ⟨bitN v (3 * i), bitN v (3 * i + 1), bitN v (3 * i + 2)⟩

/-- The post history of a core: what stands frozen, or what its east neighbour has yet to issue (R237). -/
def Row.history (r : Row) (c : CoreId) : List (WordOrd × Word × Bool × Word) :=
  if r.phase = .handler then r.cores[c].hist
  else r.cores[c].hist ++ (r.eastOf c).map fun w => (w.ord, w.post, w.postRel, w.coll)

/-- The words of a core's trap and system registers and its held handler-mode state (Table 8.7, offset 0x800). -/
def Core.csrWords (k : Core) : List Nat :=
  [k.trap.xcause.toNat, k.trap.xord.toNat, k.trap.xaddr.toNat, k.trap.xinfo.toNat, k.trap.xhold.toNat, k.trap.hbase.toNat
  , k.kidle.toNat] ++ k.est.toList.map (fun e => e.count.toNat * 256 + e.first.toNat)
  ++ [k.held.post.toNat, b2n k.held.active + 2 * b2n k.held.postRel + 4 * b2n k.held.halted + 8 * b2n k.trap.xholdLive
  , stackBits k.held.stack, k.held.ord.toNat, (k.trap.trapOrd.elim 0 fun o => 2 ^ 63 + o.toNat), k.held.cursor]

/-- A core's block: offsets and bytes (Table 8.7). Of the scalar registers only the live ones are written. -/
def Core.larder (k : Core) (hist : List (WordOrd × Word × Bool × Word)) (ord : WordOrd) (tb : Word) : List (Nat × List Byte) :=
  let live (i : Nat) : Bool := i = 0 || k.live.getLsbD i
  let regs := (finsN 32).filterMap fun i => if live i.val then some (0x100 + 8 * i.val, bytesOf 8 (k.s[i]).toNat) else none
  let hs := hist.take 5
  let rels := (hs.zipIdx.map fun h => b2n h.1.2.2.1 * 2 ^ (8 + h.2)).sum
  [(0, wordBlock [0x4C41524400010000, k.live.toNat ||| 1, ord.toNat, tb.toNat])] ++ regs
    ++ [(0x200, wordBlock (k.h.toList.map BitVec.toNat))
    , (0x280, wordBlock ([k.epost.toNat, b2n k.active + 2 * b2n k.epostRel + hs.length * 16 + rels, stackBits k.stack, k.cursor]
        ++ hs.flatMap fun h => [h.1.toNat, h.2.1.toNat, h.2.2.2.toNat]))
    , (0x400, k.w.toList.flatMap fun w => bytesOf 32 w.toNat), (0x800, wordBlock k.csrWords)]

/-- A resend entry's 64 bytes (R249). -/
def VineWord.larder (w : VineWord) : List Byte :=
  let n := if isCmd w.word then 5 else 1
  bytesOf 8 (w.ord.toNat + n * 2 ^ 48) ++ bytesOf 8 w.post.toNat ++ bytesOf 4 w.word.toNat
    ++ bytesOf 16 (if isCmd w.word then w.lit.toNat else 0) ++ List.replicate 28 0

/-- The row fetch unit's block (R249). -/
def Row.larder (r : Row) : List (Nat × List Byte) :=
  [(8, wordBlock ((finsN 15).map fun i => (r.q[i.val + 1]'(by omega)).toNat)), (0x80, bytesOf 8 r.resend.length)
  , (0x100, r.resend.flatMap VineWord.larder)
  , (0xC00, wordBlock [r.post.toNat, r.pc.toNat, r.heldPc.toNat, r.held.post.toNat, r.held.ord.toNat
      , b2n r.postRel + 2 * b2n r.held.postRel + 4 * b2n r.held.halted])]

/-! ### Reading a core back (R251, R266) -/

/-- A word of a list of words, zero beyond it. -/
def wordAt (ws : List Nat) (i : Nat) : Nat := ws.getD i 0

/-- The trap registers that a block of system register words gives. -/
def TrapRegs.ofWords (t : TrapRegs) (ws : List Nat) (live : Bool) (ord : Nat) : TrapRegs :=
  let c := wordAt ws 0
  { t with cause := BitVec.ofNat 8 c, eng := bitN c 10, nest := bitN c 9, winOpen := bitN c 8, src := BitVec.ofNat 8 (bits c 31 24)
           rowc := BitVec.ofNat 8 (bits c 23 16), xord := BitVec.ofNat 48 (wordAt ws 1), xaddr := toWord (wordAt ws 2)
           xinfo := toWord (wordAt ws 3), xhold := toWord (wordAt ws 4), hbase := toWord (wordAt ws 5), xholdLive := live
           trapOrd := if bitN ord 63 then some (BitVec.ofNat 48 ord) else none }

/-- A core with what its block holds; `get off n` gives n bytes of it as a number. A register that LIVE does not name is dead
(Table 8.8). -/
def Core.ofLarder (k : Core) (get : Nat → Nat → Nat) : Core :=
  let ws (o n : Nat) : List Nat := (List.range n).map fun i => get (o + 8 * i) 8
  let live : BitVec 32 := BitVec.ofNat 32 (get 8 8)
  let p := ws 0x280 4
  let f := wordAt p 1
  let csr := ws 0x800 17
  let fl := wordAt csr 12
  { k with
    live := live ||| 1
    s := Vector.ofFn fun i => if i.val = 0 ∨ live.getLsbD i.val then toWord (get (0x100 + 8 * i.val) 8) else k.s[i]
    h := Vector.ofFn fun i => toWord (get (0x200 + 8 * i.val) 8)
    epost := toWord (wordAt p 0), active := bitN f 0, epostRel := bitN f 1, stack := stackOfBits (wordAt p 2), cursor := wordAt p 3
    hist := (List.range (bits f 6 4)).map fun i =>
      let h := ws (0x2A0 + 24 * i) 3
      (BitVec.ofNat 48 (wordAt h 0), toWord (wordAt h 1), bitN f (8 + i), toWord (wordAt h 2))
    w := Vector.ofFn fun i => BitVec.ofNat 256 (get (0x400 + 32 * i.val) 32)
    trap := k.trap.ofWords csr (bitN fl 3) (wordAt csr 15)
    kidle := BitVec.ofNat 24 (wordAt csr 6)
    est := Vector.ofFn fun i => let e := wordAt csr (7 + i.val); ⟨BitVec.ofNat 8 (e / 256), BitVec.ofNat 8 e⟩
    held := { active := bitN fl 0, stack := stackOfBits (wordAt csr 13), post := toWord (wordAt csr 11), postRel := bitN fl 1
              ord := BitVec.ofNat 48 (wordAt csr 14), halted := bitN fl 2, cursor := wordAt csr 16 } }

/-- The vine word of a resend entry. -/
def VineWord.ofLarder (get : Nat → Nat → Nat) (o : Nat) : VineWord :=
  { VineWord.none with ord := BitVec.ofNat 48 (get o 8), post := toWord (get (o + 8) 8), word := BitVec.ofNat 32 (get (o + 16) 4)
                       lit := BitVec.ofNat 128 (get (o + 20) 16) }

/-- A row fetch unit with what its block holds. The virtual address and the order of the post of a resend entry have no place in
R249 and stay those of the entry that the row kept. -/
def Row.ofLarder (r : Row) (get : Nat → Nat → Nat) : Row :=
  let ws := (List.range 6).map fun i => get (0xC00 + 8 * i) 8
  let fl := wordAt ws 5
  let entry (i : Nat) : VineWord :=
    let w := VineWord.ofLarder get (0x100 + 64 * i)
    match r.resend.find? fun e => e.ord == w.ord with
    | some e => { w with addr := e.addr, postRel := e.postRel }
    | none => w
  { r with
    q := Vector.ofFn fun i => if i.val = 0 then 0 else toWord (get (8 * i.val) 8)
    resend := (List.range (min 40 (get 0x80 8))).map entry
    post := toWord (wordAt ws 0), pc := toWord (wordAt ws 1), heldPc := toWord (wordAt ws 2), postRel := bitN fl 0
    held := { r.held with post := toWord (wordAt ws 3), ord := BitVec.ofNat 48 (wordAt ws 4), postRel := bitN fl 1
                          halted := bitN fl 2 } }

/-! ### Regions (R248, R249, R461) -/

/-- A token with its number as ten words. -/
def tokenWords (x : Nat × Token) : List Nat :=
  [x.1, x.2.hdr] ++ (List.range 8).map fun i => (x.2.lanes.toList.getD (2 * i) 0).toNat + 2 ^ 32 * (x.2.lanes.toList.getD (2 * i + 1) 0).toNat

/-- The token of ten words. -/
def tokenOfWords (ws : List Nat) : Nat × Token :=
  (wordAt ws 0, Token.ofHdr (wordAt ws 1) (Vector.ofFn fun i => BitVec.ofNat 32 (wordAt ws (2 + i.val / 2) / 2 ^ (32 * (i.val % 2)))))

/-- Tokens, preceded by their count. -/
def tokensWords (xs : List (Nat × Token)) : List Nat := xs.length :: xs.flatMap tokenWords
/-- A token that may be absent. -/
def optWords (x : Option Token) : List Nat := tokensWords (x.toList.map fun t => (0, t))

/-- What a reader of words takes: a value and the words that are left. -/
abbrev Take (α : Type) := List Nat → α × List Nat

/-- One word. -/
def takeWord : Take Nat := fun ws => (ws.headD 0, ws.drop 1)
/-- n words. -/
def takeWords (n : Nat) : Take (List Nat) := fun ws => ((List.range n).map (wordAt ws), ws.drop n)
/-- n items of one kind. -/
def takeMany {α : Type} (item : Take α) : Nat → Take (List α)
  | 0, ws => ([], ws)
  | n + 1, ws =>
    let (x, ws) := item ws
    let (xs, ws) := takeMany item n ws
    (x :: xs, ws)
/-- Items preceded by their count, 65,536 at most. -/
def takeCounted {α : Type} (item : Take α) : Take (List α) := fun ws =>
  let (n, ws) := takeWord ws
  takeMany item (min n 65536) ws
/-- A token. -/
def takeToken : Take (Nat × Token) := fun ws => let (x, ws) := takeWords 10 ws; (tokenOfWords x, ws)
/-- A token that may be absent. -/
def takeOpt : Take (Option Token) := fun ws => let (x, ws) := takeCounted takeToken ws; (x.head?.map (·.2), ws)

/-- The words of a matching entry: its tag, and its token from each input. -/
def MatchEntry.larder (x : MatchEntry) : List Nat :=
  [x.tag.toNat, x.ins.length] ++ x.ins.flatMap fun t => tokensWords t.toList
/-- A matching entry. -/
def takeMatch : Take MatchEntry := fun ws =>
  let (tag, ws) := takeWord ws
  let (ins, ws) := takeCounted (takeCounted takeToken) ws
  ({ tag := BitVec.ofNat 16 tag, ins := ins.map List.head? }, ws)

/-- A counter run. -/
def CntrRun.larder (x : CntrRun) : List Nat :=
  [x.tag.toNat + b2n x.e * 2 ^ 16 + b2n x.p * 2 ^ 17, x.idx.length] ++ x.idx ++ [x.levels.length]
    ++ x.levels.flatMap fun l => [l.1.toNat, l.2.1.toNat, l.2.2]
/-- A counter run. -/
def takeRun : Take CntrRun := fun ws =>
  let (f, ws) := takeWord ws
  let (idx, ws) := takeCounted takeWord ws
  let (ls, ws) := takeCounted (takeWords 3) ws
  ({ idx := idx, levels := ls.map fun l => (BitVec.ofNat 32 (wordAt l 0), BitVec.ofNat 32 (wordAt l 1), wordAt l 2)
     tag := BitVec.ofNat 16 f, e := bitN f 16, p := bitN f 17 }, ws)

/-- What a form keeps, in words. Stationary weights are not saved (R248). -/
def FormState.larder : FormState → List Nat
  | .plain | .mma _ => []
  | .carry is => is.length :: is.map fun i => i.tag.toNat + b2n i.f * 2 ^ 16 + i.count * 2 ^ 17
  | .ndmrg a b f g t q => [a, b, b2n f + 2 * b2n g + 4 * b2n t, q.length] ++ q.map b2n
  | .merge p => optWords p
  | .invar v => optWords v
  | .stamp n out k => [n.toNat, k.toNat, out.length] ++ out.map BitVec.toNat
  | .order n held => n.toNat :: tokensWords held
  | .sink n r => [n, b2n r]
  | .cntr run done => [b2n done, run.toList.length] ++ run.toList.flatMap CntrRun.larder
  | .sparse ca cb pa pb bad la lb =>
    [ca, cb, pa.toNat, pb.toNat, b2n bad, la.elim 0 fun x => 2 ^ 32 + x.toNat, lb.elim 0 fun x => 2 ^ 32 + x.toNat]
  | .segred o k a n fl x y => [b2n o + 2 * b2n x + 4 * b2n y + 8 * fl.toNat, k.toNat, a.toNat, n]
  | .ring d st rp hs pe => [d.toNat, b2n st + 2 * b2n rp + 4 * b2n hs] ++ optWords pe

/-- What a form keeps, read back. -/
def takeForm : FormState → Take FormState
  | .plain, ws => (.plain, ws)
  | .mma _, ws => (.mma none, ws)
  | .carry _, ws =>
    let (is, ws) := takeCounted takeWord ws
    (.carry (is.map fun v => ⟨BitVec.ofNat 16 v, v / 2 ^ 17, bitN v 16⟩), ws)
  | .ndmrg .., ws =>
    let (x, ws) := takeWords 3 ws
    let f := wordAt x 2
    let (q, ws) := takeCounted takeWord ws
    (.ndmrg (wordAt x 0) (wordAt x 1) (bitN f 0) (bitN f 1) (bitN f 2) (q.map fun v => v == 1), ws)
  | .merge _, ws => let (p, ws) := takeOpt ws; (.merge p, ws)
  | .invar _, ws => let (p, ws) := takeOpt ws; (.invar p, ws)
  | .stamp .., ws =>
    let (x, ws) := takeWords 2 ws
    let (out, ws) := takeCounted takeWord ws
    (.stamp (BitVec.ofNat 16 (wordAt x 0)) (out.map (BitVec.ofNat 16)) (BitVec.ofNat 16 (wordAt x 1)), ws)
  | .order .., ws =>
    let (n, ws) := takeWord ws
    let (held, ws) := takeCounted takeToken ws
    (.order (BitVec.ofNat 16 n) held, ws)
  | .sink .., ws => let (x, ws) := takeWords 2 ws; (.sink (wordAt x 0) (wordAt x 1 == 1), ws)
  | .cntr .., ws =>
    let (d, ws) := takeWord ws
    let (runs, ws) := takeCounted takeRun ws
    (.cntr runs.head? (d == 1), ws)
  | .sparse .., ws =>
    let (x, ws) := takeWords 7 ws
    let opt (v : Nat) : Option Lane := if bitN v 32 then some (BitVec.ofNat 32 v) else none
    (.sparse (wordAt x 0) (wordAt x 1) (BitVec.ofNat 32 (wordAt x 2)) (BitVec.ofNat 32 (wordAt x 3)) (wordAt x 4 == 1)
      (opt (wordAt x 5)) (opt (wordAt x 6)), ws)
  | .segred .., ws =>
    let (x, ws) := takeWords 4 ws
    let f := wordAt x 0
    (.segred (bitN f 0) (BitVec.ofNat 32 (wordAt x 1)) (BitVec.ofNat 32 (wordAt x 2)) (wordAt x 3) (BitVec.ofNat 5 (f / 8))
      (bitN f 1) (bitN f 2), ws)
  | .ring .., ws =>
    let (x, ws) := takeWords 2 ws
    let (pe, ws) := takeOpt ws
    let f := wordAt x 1
    (.ring (toWord (wordAt x 0)) (bitN f 0) (bitN f 1) (bitN f 2) pe, ws)

/-- The live mask of an element's hold entries. -/
def Elem.liveHolds (e : Elem) : Nat := ((finsN 8).map fun k => b2n (e.holds[k]).isSome * 2 ^ k.val).sum

/-- An element's state: its firing count, flags, matching entries and form, then its live hold entries under their mask. -/
def Elem.larder (e : Elem) : List Nat :=
  [e.firings, e.discard.toNat + 16 * e.rot, e.matching.length] ++ e.matching.flatMap MatchEntry.larder ++ e.form.larder
    ++ e.liveHolds :: (e.holds.toList.filterMap id).flatMap fun v => (tokenWords (0, Token.ofHdr 0 v)).drop 2

/-- An element with the state read back; an entry that the mask does not name is dead. -/
def takeElem (e : Elem) : Take Elem := fun ws =>
  let (x, ws) := takeWords 2 ws
  let (ms, ws) := takeCounted takeMatch ws
  let (f, ws) := takeForm e.form ws
  let (mask, ws) := takeWord ws
  let n := (finsN 8).countP fun k => bitN mask k.val
  let (hs, ws) := takeMany (takeWords 8) n ws
  let at' (k : Fin 8) : Option (Vector Lane 16) :=
    if bitN mask k.val then (hs[(finsN 8).countP fun j => decide (j < k) && bitN mask j.val]?).map fun v => (tokenOfWords (0 :: 0 :: v)).2.lanes
    else none
  ({ e with firings := wordAt x 0, discard := BitVec.ofNat 4 (wordAt x 1), rot := wordAt x 1 / 16, matching := ms, form := f
            holds := Vector.ofFn at' }, ws)

/-- The elements of a list, each with its state read back. -/
def takeElems : List Elem → Take (List Elem)
  | [], ws => ([], ws)
  | e :: es, ws =>
    let (x, ws) := takeElem e ws
    let (xs, ws) := takeElems es ws
    (x :: xs, ws)

/-- An arc's tokens, and those that a breakpoint holds back. -/
def Arc.larder (a : Arc) : List Nat := a.tokn :: (tokensWords a.toks ++ tokensWords a.held)
/-- The arcs of a list, each with its tokens read back. -/
def takeArcs : List Arc → Take (List Arc)
  | [], ws => ([], ws)
  | a :: as, ws =>
    let (n, ws) := takeWord ws
    let (ts, ws) := takeCounted takeToken ws
    let (hs, ws) := takeCounted takeToken ws
    let (xs, ws) := takeArcs as ws
    ({ a with tokn := n, toks := ts, held := hs } :: xs, ws)

/-- The cut tag of a systolic region: the lowest row tag not yet injected by the MXGO in progress, 0 for an MXLDW and when none
is (R248, R450). -/
def Core.cutTag (k : Core) (slot : SlotId) (lid : BitVec 16) : Nat :=
  match k.ops.find? fun o => o.drives slot lid && decide (cmdOp o.cmd = 0x31) && o.phase == .moving with
  | some o => o.idx
  | none => 0

/-- The physical lines of a region's accumulator stores (R443). -/
def Region.storeLines (g : Region) (m : RowId) (c : CoreId) : List Nat :=
  (g.elems.filter fun e => e.isPort 5).flatMap fun e => (List.range e.port.len).map fun q => (storeRow m c e 0) / 128 + q

/-- The region record (Table 8.7): the RCB copy, then the cut tag and weight source, the arcs' tokens, the elements' states with
their live hold entries, and the accumulator records whole, with flags, m, l and REF (R461). -/
def State.regionLarder (s : State) (m : RowId) (c : CoreId) (slot : SlotId) : List (Nat × List Byte) :=
  match s.region m c slot with
  | some g =>
    let ws := [(s.core m c).cutTag slot g.lid, g.wsource.elim 0 BitVec.toNat, b2n g.wsource.isSome + 2 * b2n g.chained
      , g.sticky.toNat, g.dskip.toNat, g.sinks, g.arcs.length]
      ++ g.arcs.flatMap Arc.larder ++ [g.elems.length] ++ g.elems.flatMap Elem.larder
    let accs := (g.storeLines m c).flatMap fun l => s.mem.read (l * 128) 128
    [(0x10000 + 0x100000 * slot.val, s.mem.read (slicePa g.rcb) 128 ++ bytesOf 8 (8 * ws.length) ++ wordBlock ws ++ accs)]
  | none => []

/-- A region with what its record holds after the RCB copy; `ws` are the record's words from offset 0x88. -/
def Region.ofLarder (g : Region) (ws : List Nat) : Region :=
  let (x, ws) := takeWords 7 ws
  let (arcs, ws) := takeArcs g.arcs ws
  let (_, ws) := takeWord ws
  let (elems, _) := takeElems g.elems ws
  { g with wsource := if bitN (wordAt x 2) 0 then some (toWord (wordAt x 1)) else none, chained := bitN (wordAt x 2) 1
           sticky := BitVec.ofNat 16 (wordAt x 3), dskip := BitVec.ofNat 48 (wordAt x 4), sinks := wordAt x 5, arcs := arcs, elems := elems }

/-- A region without its stationary weights, which are read again from the weight source (R248, R450). -/
def Region.dropWeights (g : Region) : Region :=
  { g with elems := g.elems.map fun e => match e.form with
      | .mma _ => { e with form := .mma none }
      | _ => e }

/-! ### Memory cells (R188, R445) -/

/-- The cells of a core whose columns lie from `lo` below `hi`. -/
def cellsIn (lo hi : Nat) : List (Fin 64) := (finsN 64).filter fun mi => decide (lo ≤ colOfMem mi.val ∧ colOfMem mi.val < hi)

/-- The accumulator store lines of the regions of a core, placed or spilled; they are never discarded (R445). -/
def State.keptLines (s : State) (m : RowId) (c : CoreId) : List Nat :=
  ((s.core m c).regions.toList.filterMap id).flatMap (fun g => g.storeLines m c)
    ++ (s.suspended.filter fun x => decide (x.m = m)).flatMap fun x =>
      (x.spilled.filter fun y => decide (y.1 = c)).flatMap fun y => y.2.2.storeLines m c

/-- The live lines of a bank that a spill saves: all of them, or the accumulator stores alone when the bank is discardable (R188,
R445). -/
def State.savedInBank (s : State) (m : RowId) (c : CoreId) (mi : Fin 64) (b : Fin 16) : List Nat :=
  if ((s.core m c).mcells[mi]).disc.getLsbD b.val then (s.bankLive m c mi b).filter (s.keptLines m c).contains
  else s.bankLive m c mi b

/-- The live lines of a memory cell that a spill saves, with their offsets. -/
def State.savedLines (s : State) (m : RowId) (c : CoreId) (mi : Fin 64) : List (Nat × Nat) :=
  let base := spadBase + sliceOffset m c mi 0
  (finsN 16).flatMap fun b => (s.savedInBank m c mi b).map fun l => (l, l * 128 - base)

/-- The LIVE mask of a bank as it is saved. -/
def State.savedMask (s : State) (m : RowId) (c : CoreId) (mi : Fin 64) (b : Fin 16) : Nat :=
  let base := spadBase + sliceOffset m c mi 0
  (s.savedInBank m c mi b).foldl (fun acc l => acc + 2 ^ ((l * 128 - base) / 2048)) 0

/-- The LIVE masks of a cell's banks (Table 8.7). -/
def State.cellMasks (s : State) (m : RowId) (c : CoreId) (mi : Fin 64) : List (Nat × List Byte) :=
  (finsN 16).map fun b => (0x1800000 + 0x80 * mi.val + 8 * b.val, bytesOf 8 (s.savedMask m c mi b))

/-- A cell's scratchpad in the larder (Table 8.7). -/
def State.cellLarder (s : State) (m : RowId) (c : CoreId) (mi : Fin 64) : List (Nat × List Byte) :=
  (s.savedLines m c mi).map (fun x => (0x1000000 + 0x20000 * mi.val + x.2, s.mem.read (x.1 * 128) 128)) ++ s.cellMasks m c mi

/-! ### Writing and reading it -/

/-- Every page from `va` below `top` translates with W = 1, by fuel. -/
def State.pagesOk (s : State) (ag : Agent) : Nat → Nat → Nat → Bool
  | 0, va, top => decide (top ≤ va)
  | n + 1, va, top =>
    if top ≤ va then true
    else if 2 ^ 52 ≤ va ∨ (sliceBase ≤ va ∧ va < sliceBase + 2 ^ 32) ∨ (cellRegBase ≤ va ∧ va < cellRegBase + 2 ^ 32) then false
    else match s.translate ag va with
    | (_, .ok e) => e.w && s.pagesOk ag n (e.vbase + e.size) top
    | _ => false

/-- The larder areas of a launch in a row may be written (R246). -/
def State.larderOk (s : State) (l : Launch) (m : RowId) : Bool :=
  let ag := hubFor m l.lid
  let a := larderCoreAt l m 0
  s.pagesOk ag 4096 a (a + 0x10000000) && s.pagesOk ag 1 (larderRfuAt l m) (larderRfuAt l m + 0x1000)

/-- Write blocks of a larder; whether every write was accepted. -/
def State.larderPut (s : State) (ag : Agent) (base : Nat) (bs : List (Nat × List Byte)) : State × Bool :=
  bs.foldl (fun x b =>
    if !x.2 || b.2.isEmpty then x
    else match x.1.writeMem ag (base + b.1) b.2 with
    | (s, .ok) => (s, true)
    | (s, _) => (s, false)) (s, true)

/-- n bytes of a larder as they are read back, or why they cannot be. -/
def State.larderBytes (s : State) (ag : Agent) (a n : Nat) : Except Status (List Byte) :=
  match (s.readMem ag a n).2 with
  | .ok bs false => .ok bs
  | .ok _ true => .error .poison
  | .fail c => .error c.status
  | .wait => .error .xlate

/-- n bytes of a larder as a number, zero where they cannot be read. -/
def State.larderNum (s : State) (ag : Agent) (base o n : Nat) : Nat :=
  match s.larderBytes ag (base + o) n with
  | .ok bs => natOf bs
  | .error _ => 0

/-- Why a row's core and row fetch unit blocks cannot be read back, if they cannot (R266). -/
def State.larderUnread (s : State) (l : Launch) (m : RowId) : Option Status :=
  let ag := hubFor m l.lid
  let bad (a n : Nat) : Option Status := match s.larderBytes ag a n with
    | .ok _ => none
    | .error e => some e
  (bad (larderRfuAt l m) 0xC30).or ((finsN 8).findSome? fun c => bad (larderCoreAt l m c) 0x880)

/-- The record of a region slot as it is read back: its words, and its accumulator bytes. -/
def State.regionRecord (s : State) (l : Launch) (m : RowId) (c : CoreId) (slot : SlotId) (accs : Nat) : List Nat × List Byte :=
  let ag := hubFor m l.lid
  let a := larderCoreAt l m c + 0x10000 + 0x100000 * slot.val
  let n := min 0x100000 (s.larderNum ag a 0x80 8)
  let get (o n : Nat) : List Byte := match s.larderBytes ag (a + o) n with
    | .ok bs => bs
    | .error _ => []
  (wordsOf (get 0x88 n), get (0x88 + n) accs)

end Sys2Proof.Machine
end

