-- ==== Sys2Proof/Machine/Suspend.lean ====
section
/-! DEFINITION. Suspension and resumption: the vacating of columns, the spill and the return (R86, R87, R188, R246–R251, Tables
8.6–8.8). What comes back to a suspended launch is what the state kept, beside what the larder was written: DEDUCED, log entry
31. -/

namespace Sys2Proof.Machine

/-! ### Vacating columns (R247, R248, Table 8.6) -/

/-- Change the record of a suspended launch in a row. -/
def State.modSusp (s : State) (lid : BitVec 16) (m : RowId) (f : Suspended → Suspended) : State :=
  { s with suspended := s.suspended.map fun x => if x.lid = lid ∧ x.m = m then f x else x }

/-- The slots of a launch's regions on a core that reach into columns from `col`. -/
def Core.reaching (k : Core) (lid : BitVec 16) (col : Nat) : List SlotId :=
  (finsN 8).filter fun i => (k.regions[i]).any fun g => g.lid == lid && decide (col < g.rect.x0 + g.rect.w)

/-- A region may leave its cells: frozen, or not yet started. -/
def Region.mayLeave (g : Region) : Bool := g.st == .ready || g.st == .loading || (g.st == .running && g.frozen)

/-- The rectangle of a region brought into the columns below `col`: its own, cut to their number and moved west as far as it
must (DEDUCED, log entry 31). -/
def foldRect (g : Region) (col : Nat) : Nat × Nat :=
  let w := min (g.w + 1) col
  let x0 := min (g.org % 16) (col - w)
  (16 * (g.org / 16) + x0, w - 1)

/-- A region's parts as the image they came from. -/
def Region.asImage (g : Region) : ImageData :=
  { disc := g.disc.toNat, elems := g.elems.map fun e => (e.kind, e.words), arcs := [], inits := [], consts := [], folds := g.folds
    hash := g.hash }

/-- A placement of a variant in a rectangle, from the attic, from software or made now (R91, R97). -/
def State.findPlace (s : State) (g : Region) (im : ImageData) (var : BitVec 2) (r : Rect) : State × Option (List (Nat × Nat × Nat)) :=
  let shape := r.shape var.toNat
  let at' (rel : List (Nat × Nat × Nat)) : List (Nat × Nat × Nat) := rel.map fun p => (p.1, p.2.1, p.2.2 + r.origin)
  match g.given.find? fun x => x.1 == shape with
  | some x => (s, x.2.map at')
  | none =>
    match s.atticLook im.hash shape with
    | (s, some rel) => (s, some (at' rel))
    | (s, none) =>
      match placeImage im var r with
      | none => (s, none)
      | some ps => (s.atticStore im.hash shape (ps.map fun p => (p.1, p.2.1, p.2.2 - r.origin)), some ps)

/-- In host-assisted mode software is asked for the placement of a fold that the attic lacks; whether the fold can be made now
(R97). -/
def State.foldKnown (s : State) (m : RowId) (c : CoreId) (slot : SlotId) (g : Region) (var : BitVec 2) (col : Nat) : State × Bool :=
  let (org, w) := foldRect g col
  let shape := (rectOf org w g.h).shape var.toNat
  let known := g.given.any (fun x => x.1 == shape) || (s.hub.atticEntry g.hash shape).isSome
  if !s.hub.assisted 0 || known || decide (g.disc = 2) || !g.folds.any (fun f => f.1 == var) then (s, true)
  else (s.askPlace m c slot g g.hash shape, false)

/-- The variant of a shrink to columns below `col` (R86). -/
def foldLevel (col : Nat) : BitVec 2 := if col = 8 then 1 else 2

/-- Every region that must leave the columns may, or cuts and placements are asked for (R97, R247, R248). -/
def State.clearing (s : State) (lid : BitVec 16) (m : RowId) (c : CoreId) (col : Nat) : State × Bool :=
  ((s.core m c).reaching lid col).foldl (fun x slot =>
    match x.1.region m c slot with
    | none => x
    | some g =>
      if g.mayLeave then let y := x.1.foldKnown m c slot g (foldLevel col) col; (y.1, x.2 && y.2)
      else if g.st = .running then (x.1.askCut m c slot, false)
      else (x.1, false)) (s, true)

/-- A hold bank where an element's state is loaded again: FULL with a live entry, OFF without (Table 5.7, R170). -/
def Elem.returned (e : Elem) (tb : Word) (idle : BitVec 24) : Elem :=
  if e.kind = .ce then { e with hbank := holdBankOf e.holds tb idle } else e

/-- A frozen region is placed as a variant in columns below `col`, its tokens and states with it; none when it does not fit
(Table 8.6). The hold banks of its elements idle under its own launch's %kidle from then (DESIGN CHOICE, log entry 67). -/
def State.foldRegion (s : State) (m : RowId) (c : CoreId) (slot : SlotId) (g : Region) (var : BitVec 2) (col : Nat) :
    Option State :=
  let im := g.asImage
  let (org, w) := foldRect g col
  let r := rectOf org w g.h
  if col ≤ g.rect.x0 ∧ col < g.rect.w then none
  else if !g.folds.any (fun f => f.1 == var) || !s.roomFor m c slot g.lid im var g.ctxn r (g.links.map (·.elem)) then none
  else
    match s.findPlace g im var r with
    | (_, none) => none
    | (s, some places) =>
      let unit (e : Nat) : Nat := (mapEntry im var e).1
      let isMem (e : Nat) : Bool := (im.elems.getD e (.ce, [])).1 != .ce
      let taken := ((s.core m c).others slot).flatMap fun o => (o.elems.filter fun e => e.kind != .ce).map fun e => (e.cell, e.eslot)
      match assignESlots taken ((places.filter fun p => isMem p.1).map fun p => (unit p.1, p.2.2)) [] with
      | none => none
      | some slots =>
        let elems := g.elems.mapIdx fun i e =>
          let p := (places.find? fun p => p.1 == i).getD (i, 0, e.cell)
          let es := ((slots.find? fun x => x.1 == unit i).map fun x => x.2.2).getD 0
          Elem.returned { e with cell := p.2.2, eslot := if isMem i then es else 0, ctx := g.ctxn + BitVec.ofNat 2 p.2.1 } s.tb
            (s.coreFor g.lid m c).kidle
        let s := s.modRegion m c slot fun g => { g with elems := elems, org := org, w := w, fold := var }
        some (s.writeBack m c slot)

/-- What a region returns to. -/
def Region.foldBack (g : Region) (c : CoreId) (slot : SlotId) : FoldBack :=
  { c := c, slot := slot, org := g.org, w := g.w, h := g.h, fold := g.fold, places := g.elems.map fun e => (e.cell, e.eslot, e.ctx) }

/-- What a spill of a region's accumulators raises in STICKY (R160, R448, R461). -/
def State.storeSticky (s : State) (m : RowId) (c : CoreId) (g : Region) : BitVec 16 :=
  match g.geo with
  | none => 0
  | some x => (x.stores.filterMap fun i => g.elems[i]?).foldl (fun acc e => (List.range x.rows).foldl (fun acc r =>
      let bs := s.mem.read (storeRow m c e r) 256
      (List.range 16).foldl (fun acc q => acc ||| AccFlags.sticky (entryAt x.wide bs q).fl) acc) acc) 0

/-- A line as it is kept: its bytes and whether it is poisoned. -/
def State.keepLine (s : State) (l : Nat) : Nat × List Byte × Bool := (l, s.mem.read (l * 128) 128, s.mem.poison.contains l)

/-- A region that goes to the larder raises its accumulators' flags in STICKY first, and its RCB shows them (R160, R461). -/
def State.spillSticky (s : State) (m : RowId) (c : CoreId) (slot : SlotId) : State :=
  match s.region m c slot with
  | some g => (s.setSticky m c slot (s.storeSticky m c g)).writeBack m c slot
  | none => s

/-- A region goes to the larder whole and its slot is free (Table 8.6); its accumulator records go with it, those lines of them that are
live, and its stationary weights are discarded (R188, R248, R445, R461). -/
def State.spillRegion (s : State) (lid : BitVec 16) (m : RowId) (c : CoreId) (slot : SlotId) (g : Region) : State :=
  let s := (List.range g.elems.length).foldl (fun s e => s.dropSides (.port m c slot e)) s
  let lines := ((g.storeLines m c).filter fun l => !s.mem.dead (l * 128) 128).map s.keepLine
  (s.modSusp lid m fun x => { x with spilled := x.spilled ++ [(c, slot, g.dropWeights)], lines := x.lines ++ lines }).modCore m c
    fun k => { k with regions := k.regions.set slot none }

/-- A frozen region goes on, but for one that a breakpoint froze (R257). -/
def State.goOn (s : State) (m : RowId) (c : CoreId) (slot : SlotId) : State :=
  match s.region m c slot with
  | some g => if g.bpHold then s else s.thaw m c slot
  | none => s

/-- A region may be folded: lockstep or tagged, and on the board (Table 8.6). -/
def Region.foldable (g : Region) : Bool := decide (g.disc ≠ 2) && (g.st == .running || g.st == .ready)

/-- A region leaves the columns from `col`: folded to the variant of the level, or spilled (Table 8.6). -/
def State.shrinkRegion (s : State) (lid : BitVec 16) (m : RowId) (c : CoreId) (col : Nat) (slot : SlotId) : State :=
  match s.region m c slot with
  | none => s
  | some g =>
    match if g.foldable then s.foldRegion m c slot g (foldLevel col) col else none with
    | some s =>
      let s := s.modSusp lid m fun x =>
        if x.folded.any fun f => f.c == c && f.slot == slot then x else { x with folded := x.folded ++ [g.foldBack c slot] }
      s.goOn m c slot
    | none => s.spillRegion lid m c slot g

/-- The larder blocks of the columns that a core gives up. -/
def State.columnsLarder (s : State) (lid : BitVec 16) (m : RowId) (c : CoreId) (lo hi : Nat) : List (Nat × List Byte) :=
  (((s.core m c).reaching lid lo).flatMap fun slot => s.regionLarder m c slot)
    ++ (cellsIn lo hi).flatMap fun mi => s.cellLarder m c mi

/-- Controllers' writes that wait for a bank of cells which a launch gives up wait for its return instead (R172, R247). -/
def State.holdWrites (s : State) (lid : BitVec 16) (m : RowId) (c : CoreId) (lo hi : Nat) : State :=
  let mine (x : PortWrite) : Bool := decide (spadBase ≤ x.pa) && (sliceOf (x.pa - spadBase)).any fun sl =>
    decide (sl.m = m ∧ sl.c = c) && (cellsIn lo hi).contains sl.mi
  let held := s.portQ.filter mine
  { s.modSusp lid m fun x => { x with later := x.later ++ held } with portQ := s.portQ.filter fun x => !mine x }

/-- The barriers of a launch that wait at words of cells wait anew once the cells are its own again (R247, R408). -/
def State.dropBars (s : State) (lid : BitVec 16) (m : RowId) (c : CoreId) (cells : List (Fin 64)) : State :=
  let in_ (pa : Nat) : Bool := cells.any fun mi => decide (spadBase ≤ pa ∧ (pa - spadBase) / 0x20000 = sliceOffset m c mi 0 / 0x20000)
  s.withMem { s.mem with bars := s.mem.bars.filter fun b => b.met || b.lid != lid || !in_ b.pa }

/-- A core gives up its columns from `lo` below `hi`: regions leave, lines are kept and then die (R247, R250). -/
def State.vacate (s : State) (lid : BitVec 16) (m : RowId) (c : CoreId) (lo hi : Nat) : State :=
  let lines := (cellsIn lo hi).flatMap fun mi => (s.savedLines m c mi).map fun x => s.keepLine x.1
  let s := s.modSusp lid m fun x => { x with lines := x.lines ++ lines }
  let s := ((s.core m c).reaching lid lo).foldl (fun s slot => s.shrinkRegion lid m c lo slot) s
  let s := (s.modSusp lid m fun x => { x with column := x.column.set c lo }).holdWrites lid m c lo hi
  ((cellsIn lo hi).foldl (fun s mi => s.killCell m c mi) s).dropBars lid m c (cellsIn lo hi)

/-- The accumulators of every region that will go to the larder from the columns from `lo` are read into STICKY (R160). -/
def State.stickyCols (s : State) (lid : BitVec 16) (m : RowId) (c : CoreId) (lo : Nat) : State :=
  ((s.core m c).reaching lid lo).foldl (fun s slot => s.spillSticky m c slot) s

/-- A victim row's larder is written (R249); whether every write was accepted. -/
def State.spillRow (s : State) (l : Launch) (m : RowId) : State × Bool :=
  let ag := hubFor m l.lid
  let r := s.row m
  let (s, ok) := s.larderPut ag (larderRfuAt l m) r.larder
  (finsN 8).foldl (fun x c =>
    if !x.2 then x
    else
      let base := larderCoreAt l m c
      match x.1.larderPut ag base ((r.cores[c]).larder (r.history c) (r.cores[c]).trap.xord s.tb) with
      | (s, false) => (s, false)
      | (s, true) => let s := s.stickyCols l.lid m c 8; s.larderPut ag base (s.columnsLarder l.lid m c 8 16)) (s, ok)

/-- The row as it is kept: its post histories whole, its operations and regions staying with the core. -/
def Row.kept (r : Row) : Row :=
  { r with cores := Vector.ofFn fun c =>
      { r.cores[c] with hist := if r.phase = .running then r.history c else r.cores[c].hist, ops := [], regions := .replicate 8 none } }

/-- A victim row gives up half of each core (R247). -/
def State.shrinkRow (s : State) (lid : BitVec 16) (m : RowId) : State :=
  let rec0 : Suspended := { lid := lid, m := m, row := (s.row m).kept, column := .replicate 8 16, spilled := [], folded := []
                            lines := [] }
  let s := { s with suspended := s.suspended ++ [rec0] }
  let s := (finsN 8).foldl (fun s c => s.vacate lid m c 8 16) s
  s.modRow m fun r => { r with suspended := some lid, lid := none, phase := .idle }

/-! ### The quarter split (R247) -/

/-- An RCFG of the new instance that fits only in the quarter split: the victim's regions leave columns 4 to 7, once they are
frozen, and those columns pass. -/
def State.quarterSplit (s : State) (m : RowId) (c : CoreId) : State :=
  match (s.row m).suspended with
  | none => s
  | some v =>
    match s.launch v with
    | none => s
    | some l =>
      match s.clearing v m c 4 with
      | (s, false) => s
      | (s, true) =>
        let s := s.stickyCols v m c 4
        match s.larderPut (hubFor m v) (larderCoreAt l m c) (s.columnsLarder v m c 4 8) with
        | (s, false) => (finsN 24).foldl (fun s i => if l.rows.getLsbD i.val ∧ (s.row i).suspended = some v then
            s.takeMachineCheck i rfuPlace 0 (mchkInfo 5 0 0 0) else s) s
        | (s, true) => s.vacate v m c 4 8

/-- The image of a region fits the board once the launch has the columns from 4 (R247): the variant is there, the rectangle and
ports are free of the launch's own regions, and the placement engine finds cells. -/
def State.fitsQuarter (s : State) (m : RowId) (c : CoreId) (slot : SlotId) (g : Region) (im : ImageData) : Bool :=
  let s' := (s.row m).suspended.elim s fun v =>
    (s.modSusp v m fun x => { x with column := x.column.set c 4 }).modCore m c fun k =>
      { k with regions := k.regions.map fun o => o.filter fun o => o.lid != v }
  (g.var == 0 || im.folds.any fun f => f.1 == g.var)
    && s'.roomFor m c slot g.lid im g.var g.ctxn g.rect (g.links.map (·.elem)) && (placeImage im g.var g.rect).isSome

/-- The new instance's region asks for columns that only the quarter split frees, and would fit there (R247). -/
def State.wantsQuarter (s : State) (m : RowId) (c : CoreId) (slot : SlotId) (g : Region) : Bool :=
  (s.row m).suspended.any (fun v => decide (s.vacatedFrom v m c = 8)) && decide ((s.row m).lid = some g.lid)
    && decide (g.st = .loading ∧ 4 ≤ g.rect.x0 ∧ g.rect.x0 < 8)
    && (parseImage g.copy).any fun im => s.fitsQuarter m c slot g im

/-- PLACEMENT (R161, R247): a LOADING region's image is read and placed, or a RUNNING region's new configuration read. -/
def execPlacement (m : RowId) (c : CoreId) (slot : SlotId) (s : State) : Out :=
  .next (if (s.region m c slot).any fun g => g.st == .running then s.loadSwitch m c slot
    else
      let s := s.loadImage m c slot
      if (s.region m c slot).any fun g => s.wantsQuarter m c slot g then s.quarterSplit m c else s.placeRegion m c slot)

/-! ### Resumption (R251, Table 8.8) -/

/-- A folded region is frozen, or a cut is asked for. -/
def State.foldsFrozen (s : State) (x : Suspended) : State × Bool :=
  x.folded.foldl (fun acc f =>
    match acc.1.region x.m f.c f.slot with
    | some g =>
      if g.lid ≠ x.lid ∨ g.mayLeave then acc
      else if g.st = .running then (acc.1.askCut x.m f.c f.slot, false)
      else (acc.1, false)
    | none => acc) (s, true)

/-- A folded region returns to its full placement. -/
def State.unfold (s : State) (m : RowId) (lid : BitVec 16) (f : FoldBack) : State :=
  match s.region m f.c f.slot with
  | none => s
  | some g =>
    if g.lid ≠ lid then s
    else
      let s := s.modRegion m f.c f.slot fun g =>
        { g with org := f.org, w := f.w, h := f.h, fold := f.fold
                 elems := (List.zip g.elems f.places).map fun x =>
                   Elem.returned { x.1 with cell := x.2.1, eslot := x.2.2.1, ctx := x.2.2.2 } s.tb (s.coreFor lid m f.c).kidle }
      (s.writeBack m f.c f.slot).goOn m f.c f.slot

/-- The bank of a scratchpad line is FULL, from now (R188). -/
def State.fillBank (s : State) (pa : Nat) : State :=
  match sliceOf (pa - spadBase) with
  | none => s
  | some sl =>
    let k := s.core sl.m sl.c
    s.modBank sl.m sl.c sl.mi (bankOf k.mcells[sl.mi].hxm sl.off) fun b => b.woken s.tb k.kidle

/-- Saved lines come back, and a bank with a live line is FULL (R188). -/
def State.restoreLines (s : State) (lines : List (Nat × List Byte × Bool)) : State :=
  lines.foldl (fun s x =>
    let s := (s.withMem (s.mem.write (x.1 * 128) x.2.1)).fillBank (x.1 * 128)
    if x.2.2 then s.withMem (s.mem.poisonLines [x.1]) else s) s

/-- Every line of a discardable bank of the victim dies, but for accumulator stores (R251, R445). -/
def State.discard (s : State) (m : RowId) (c : CoreId) (mi : Fin 64) (disc : BitVec 16) : State :=
  let kept := s.keptLines m c
  (finsN 16).foldl (fun s b =>
    if disc.getLsbD b.val then s.killLines ((s.bankLive m c mi b).filter fun l => !kept.contains l) else s) s

/-- A core takes back the sequencer state that was kept; its operations, regions, memory cells and debug units are the present
ones (Table 8.8). A restore brings operations of its own, numbered after those (R266). -/
def Core.takeBack (now : Core) (old : Core) (tb : Word) : Core :=
  let ops := old.ops.map fun o => { o with id := o.id + now.nextOp }
  { old with ops := now.ops ++ ops, nextOp := if ops.isEmpty then now.nextOp else now.nextOp + old.nextOp, regions := now.regions
             mcells := now.mcells, tlb := now.tlb, bps := now.bps, elog := now.elog, elogLost := now.elogLost, trace := now.trace
             banks := Vector.ofFn fun b =>
               if liveInBank old.live b then { Bank.full with lastUse := tb, idle := old.kidle } else Bank.off }

/-- A spilled region stands in its slot again (R170, R251); an edge that its circuits cross may have gone down meanwhile (R21, R229). -/
def State.bringBack (s : State) (m : RowId) (y : CoreId × SlotId × Region) : State :=
  let g := { y.2.2 with elems := y.2.2.elems.map fun e => e.returned s.tb (s.core m y.1).kidle }
  ((s.modCore m y.1 fun k => { k with regions := k.regions.set y.2.1 (some g) }).writeBack m y.1 y.2.1).breakLinks m y.1 g

/-- The row takes back what was kept of it and fetches with an empty instruction cache; a row program that was running goes on
from its resume ordinals (R238, R251). -/
def Row.takeBack (r : Row) (x : Suspended) (tb : Word) : Row :=
  let r : Row := { x.row with lid := some x.lid, suspended := none, icache := []
                              cores := Vector.ofFn fun c => (r.cores[c]).takeBack (x.row.cores[c]) tb }
  if r.phase = .running then r.resendFrom else r

/-- A row of a suspended launch whose columns are free again resumes (R87, R251): the vacated cells are made dead with the bank map
and DISC that they had, lines come back and discardable ones die, the controllers' writes that waited for them are made, regions return to
their full placement, and the row goes on. -/
def State.resumeRow (s : State) (x : Suspended) : State :=
  let m := x.m
  let s := (finsN 8).foldl (fun s c => (cellsIn x.column[c] 16).foldl (fun s mi =>
    let old := (x.row.cores[c]).mcells[mi]
    (s.killCell m c mi).modMem m c mi fun y => { y with hxm := old.hxm, disc := old.disc }) s) s
  let s := s.restoreLines x.lines
  let s := (finsN 8).foldl (fun s c => (finsN 64).foldl (fun s mi => s.discard m c mi ((s.core m c).mcells[mi]).disc) s) s
  let later := (s.suspended.filter fun y => y.lid == x.lid && y.m == m).flatMap (·.later)
  let s := { s with suspended := s.suspended.filter fun y => !(y.lid == x.lid && y.m == m) }
  let s := s.modRow m fun r => r.takeBack x s.tb
  let s := later.foldl State.portWrite s
  let s := x.spilled.foldl (fun s y => s.bringBack m y) s
  let s := x.folded.foldl (fun s f => s.unfold m x.lid f) s
  x.spilled.foldl (fun s y => s.goOn m y.1 y.2.1) s

end Sys2Proof.Machine
end

