-- ==== Sys2Proof/Machine/Launch.lean ====
section
/-! DEFINITION. Launches: descriptors, arbitration, start, completion, abort and the launch table (R70–R87, R97). -/

namespace Sys2Proof.Machine

/-! ### Descriptors (R72, R73) -/

/-- An edge has no module in service and none in training (R21). -/
def Edge.down (e : Edge) : Bool := decide (e.modup = 0) && decide (e.training = 0)

/-- A row is on a die that is switched off, or behind a down edge (R73). -/
def State.rowDown (s : State) (m : RowId) : Bool :=
  (s.hub.supply[m.val]).off || (s.hub.edges[dieOf m]'(by unfold dieOf; omega)).down

/-- The launch that a descriptor in memory describes, without an identifier (Table 3.1). -/
def launchAt (mem : Memory) (pa : Nat) : Launch :=
  let d (o : Nat) : Nat := mem.num (pa + o) 8
  { lid := 0, st := .pending, prio := bits (d 8) 25 24, rows := BitVec.ofNat 24 (d 8), entry := toWord (d 0)
    root := toWord (d 0x10), params := Vector.ofFn fun i => toWord (d (0x18 + 8 * i.val)), sched := toWord (d 0x38)
    ntile := bits (d 0x40) 10 0, donea := toWord (d 0x48), donev := toWord (d 0x50), abortv := toWord (d 0x58)
    larder := toWord (d 0x60), hbase := toWord (d 0x68), kidle := toWord (d 0x70), ltEntry := none }

/-- The fields of a descriptor that R73 refuses. -/
def badDescriptor (mem : Memory) (pa : Nat) : Bool :=
  let d (o : Nat) : Nat := mem.num (pa + o) 8
  decide (bits (d 8) 23 0 = 0 ∨ bits (d 8) 63 26 ≠ 0 ∨ bits (d 0x40) 63 11 ≠ 0 ∨ d 0x78 ≠ 0 ∨ d 0 % 4 ≠ 0
    ∨ d 0x38 % 0x8000 ≠ 0 ∨ 1024 < bits (d 0x40) 10 0 ∨ d 0x48 % 8 ≠ 0)

/-- Read and check a descriptor (R73). The manual ranks neither of BADDESC and ROWDOWN: a descriptor with both faults gets BADDESC
(DESIGN CHOICE, log entry 54). -/
def State.readDesc (s : State) (pa : Nat) : Except Status Launch :=
  let pa := pa / 128 * 128
  if hbmEnd ≤ pa then .error .xlate
  else if s.mem.poisoned pa 128 then .error .poison
  else if badDescriptor s.mem pa then .error .badDesc
  else
    let l := launchAt s.mem pa
    if (finsN 24).any (fun m => l.rows.getLsbD m.val && s.rowDown m) then .error .rowDown else .ok l

/-! ### Pending launches and arbitration (R80, R81) -/

/-- The pending launches. -/
def State.pendings (s : State) : List Launch := s.launches.filter fun l => l.st == .pending

/-- A level of a priority number. -/
def levelOf (p : Nat) : Fin 4 := Fin.ofNat 4 p

/-- A launch becomes pending: its group joins its level's order as the last to be served (R81). -/
def State.joinGroup (s : State) (l : Launch) : State :=
  s.modHub fun h => { h with turns := vmod h.turns (levelOf l.prio) fun t => if t.contains l.rows then t else t ++ [l.rows] }

/-- Groups without a pending launch leave their orders (R81). -/
def State.pruneGroups (s : State) : State :=
  let keep (p : Fin 4) (g : BitVec 24) : Bool := s.pendings.any fun l => decide (l.prio = p.val) && l.rows == g
  s.modHub fun h => { h with turns := Vector.ofFn fun p => (h.turns[p]).filter (keep p) }

/-- Rows held, or carrying a suspended launch (R81). -/
def State.heldRows (s : State) : BitVec 24 :=
  s.launches.foldl (fun acc l => if l.st = .pending then acc else acc ||| l.rows) 0

/-- One pass over a level's groups: the launches started, the rows then held and reserved, and the last group started. -/
def State.passLevel (s : State) (p : Fin 4) (held reserved : BitVec 24) : List (BitVec 16) × BitVec 24 × BitVec 24 × Option (BitVec 24) :=
  (s.hub.turns[p]).foldl (fun acc g =>
    match s.pendings.find? fun l => decide (l.prio = p.val) && l.rows == g with
    | none => acc
    | some l =>
      if l.rows &&& (acc.2.1 ||| acc.2.2.1) = 0 then (acc.1 ++ [l.lid], acc.2.1 ||| l.rows, acc.2.2.1, some g)
      else if acc.2.2.1 = 0 then (acc.1, acc.2.1, l.rows, acc.2.2.2)
      else acc) ([], held, reserved, none)

/-- The order of a level after a pass that last started from a group: the next pass starts after it. -/
def turnAfter (t : List (BitVec 24)) : Option (BitVec 24) → List (BitVec 24)
  | none => t
  | some g => ((t.dropWhile (· != g)).drop 1) ++ t.takeWhile (· != g) ++ [g]

/-- An arbitration pass (R81): the launches that it starts take their rows; LAUNCH_START sets them up. -/
def State.arbitrate (s : State) : State :=
  let r := [3, 2, 1, 0].foldl (fun (acc : State × BitVec 24 × BitVec 24) p =>
    let x := acc.1.passLevel p acc.2.1 acc.2.2
    let s := x.1.foldl (fun s lid => s.modLaunch lid fun l => { l with st := .starting }) acc.1
    (s.modHub fun h => { h with turns := vmod h.turns p fun t => turnAfter t x.2.2.2 }, x.2.1, x.2.2.1)) (s, s.heldRows, 0)
  r.1.pruneGroups

/-- The next identifier (R71). -/
def nextLid (l : BitVec 16) : BitVec 16 := if l = 0xFFFF then 1 else l + 1

/-- A launch is accepted: its identifier, and its place in the machine. The next identifier is given though a launch of the last round
should still hold it: whether one that is live is passed over the manual leaves open (DESIGN CHOICE, log entry 63). -/
def State.accept (s : State) (l : Launch) (st : LaunchSt) (entry : Option (Fin 256)) : State × BitVec 16 :=
  let lid := s.hub.nextLid
  let l := { l with lid := lid, st := st, ltEntry := entry }
  let s := { (s.modHub fun h => { h with nextLid := nextLid lid }) with launches := s.launches ++ [l] }
  (if st = .pending then s.joinGroup l else s, lid)

/-- A submission: its status and, when accepted, its identifier (R73, R80). -/
def State.submit (s : State) (pa : Nat) (entry : Option (Fin 256)) : State × Status × BitVec 16 :=
  match s.readDesc pa with
  | .error st => (s, st, 0)
  | .ok l =>
    if 1024 ≤ s.pendings.length then (s, .full, 0)
    else
      let (s, lid) := s.accept l .pending entry
      (s.arbitrate, .ok, lid)

/-- The layout of LSUBST (Table 3.3). -/
def lsubstWord (st : Status) (lid : BitVec 16) : Word := toWord (lid.toNat * 65536 + st.code)

/-- An application core writes LSUBMIT (R80). -/
def State.lsubmit (s : State) (ac : Fin 24) (v : Word) : State :=
  let (s, st, lid) := s.submit (wbits v 39 7 * 128) none
  s.modHub fun h => { h with lsubst := h.lsubst.set ac (lsubstWord st lid) }

/-! ### Start and resumption (R74, R87, R250, R251) -/

/-- A core at a launch start: its operations of other launches, their regions, its memory cells and its TLB stay (R74, R189,
R259). Its engine status counts from here (R480; DEDUCED, log entry 43). -/
def Core.started (k : Core) (l : Launch) (now : Word) : Core :=
  { Core.reset with
    banks := .replicate 4 { Bank.full with lastUse := now, idle := l.kidle.setWidth 24 }
    kidle := l.kidle.setWidth 24, trap := { TrapRegs.reset with hbase := l.hbase, xord := k.trap.xord, xaddr := k.trap.xaddr
                                                                xinfo := k.trap.xinfo, xhold := k.trap.xhold
                                                                xholdLive := k.trap.xholdLive }
    ops := k.ops, nextOp := k.nextOp, regions := k.regions, mcells := k.mcells, tlb := k.tlb, trace := k.trace
    bps := k.bps.map fun b => { Breakpoint.reset with n := b.n } }

/-- A row at a launch start (R74). -/
def Row.started (r : Row) (l : Launch) (now : Word) : Row :=
  let q (i : Fin 16) : Word :=
    if h : 1 ≤ i.val ∧ i.val ≤ 4 then l.params[i.val - 1] else if i.val = 5 then l.lid.setWidth 64 else 0
  { Row.reset with
    phase := .running, lid := some l.lid, suspended := r.suspended, q := Vector.ofFn q, pc := l.entry
    trap := { TrapRegs.reset with hbase := l.hbase, xord := r.trap.xord, xaddr := r.trap.xaddr, xinfo := r.trap.xinfo
                                  xhold := r.trap.xhold, xholdLive := r.trap.xholdLive }
    rtrap := r.rtrap, cores := r.cores.map fun k => k.started l now }

/-- The memory cells that the launch is given: DISC is cleared (R189, R250), and their banks idle anew under the launch's %kidle (R74, R187,
R463; DEDUCED, log entry 43). -/
def State.giveCells (s : State) (m : RowId) (idle : BitVec 24) : State :=
  let from_ (c : CoreId) : Nat := match (s.row m).suspended with
    | some v => s.vacatedFrom v m c
    | none => 0
  (finsN 8).foldl (fun s c => (cellsIn (from_ c) 16).foldl (fun s mi => s.modMem m c mi fun x =>
    { x with disc := 0, banks := x.banks.map fun b => b.use s.tb idle }) s) s

/-- The rows of a launch. -/
def Launch.rowList (l : Launch) : List RowId := (finsN 24).filter fun m => l.rows.getLsbD m.val

/-- The launch whose suspension makes room on a row. -/
def State.victimOf (s : State) (m : RowId) (lid : BitVec 16) : Option Launch :=
  match (s.row m).lid with
  | some v => if v = lid then none else s.launch v
  | none => none

/-- Every victim row is ready to give up its columns, or cuts are asked for. -/
def State.victimsReady (s : State) (rows : List RowId) (lid : BitVec 16) : State × Bool :=
  rows.foldl (fun x m =>
    match x.1.victimOf m lid with
    | none => x
    | some v => (finsN 8).foldl (fun x c => let y := x.1.clearing v.lid m c 8; (y.1, x.2 && y.2)) (x.1, x.2 && x.1.portsIdle m))
    (s, true)

/-- The victims' larders are written; whether all were. -/
def State.spillAll (s : State) (rows : List RowId) (lid : BitVec 16) : State × Bool :=
  rows.foldl (fun x m =>
    if !x.2 then x
    else match x.1.victimOf m lid with
    | none => x
    | some v => x.1.spillRow v m) (s, true)

/-- The victim rows give up their columns. -/
def State.shrinkAll (s : State) (rows : List RowId) (lid : BitVec 16) : State :=
  rows.foldl (fun s m => match s.victimOf m lid with
    | none => s
    | some v => s.shrinkRow v.lid m) s

/-- An instance of a launch-table entry finds the pending queue full: it is refused, and its entry names the last instance (R80, R85,
R246). -/
def State.refuseFull (s : State) (l : Launch) (last : Option Launch) : State :=
  let s := { s with launches := s.launches.filter fun x => x.lid != l.lid }
  match l.ltEntry with
  | some e => s.modHub fun h => { h with lt := vmod h.lt e fun x =>
      { x with err := BitVec.ofNat 8 Status.full.code, lid := (last.map (·.lid)).getD x.lid } }
  | none => s

/-- A spill failed: each victim row takes a machine check of class INTERNAL, its launch runs again unless it has been aborted, and the new
instance waits as under QUEUE (R246); a pass runs, as a launch has become pending (R81). -/
def State.spillFailed (s : State) (l : Launch) : State :=
  let vs := l.rowList.filterMap fun m => s.victimOf m l.lid
  let s := l.rowList.foldl (fun s m =>
    if (s.victimOf m l.lid).isSome then s.takeMachineCheck m rfuPlace 0 (mchkInfo 5 0 0 0) else s) s
  let s := vs.foldl (fun s v => s.modLaunch v.lid fun x => if x.st = .suspended then { x with st := .running } else x) s
  if 1024 ≤ s.pendings.length then (s.refuseFull l vs.head?).arbitrate
  else ((s.modLaunch l.lid fun x => { x with st := .pending }).joinGroup l).arbitrate

/-- A launch that has its rows starts on them (R74). -/
def State.startLaunch (s : State) (l : Launch) : State :=
  let s := l.rowList.foldl (fun s m => (s.modRow m fun r => r.started l s.tb).giveCells m (l.kidle.setWidth 24)) s
  s.modLaunch l.lid fun x => { x with st := .running }

/-- Every region of a launch on every core. -/
def State.regionsOf (s : State) (lid : BitVec 16) : List (RowId × CoreId × SlotId × Region) :=
  (finsN 24).flatMap fun m => (finsN 8).flatMap fun c => (finsN 8).filterMap fun slot =>
    (s.region m c slot).bind fun g => if g.lid = lid then some (m, c, slot, g) else none

/-- A cut asked for by a suspension that was then given up has not ended (R78, R98). -/
def Region.cutting (g : Region) : Bool := g.st == .running && (g.flood.cut? || g.queued.any Flood.cut?)

/-- A suspended launch resumes once its rows are free of the launch that displaced it (R87, R251). Regions that a cut froze go on,
those too that no row of the larder holds: the displacing launch was aborted before it took a column. -/
def State.resumeLaunch (s : State) (l : Launch) : State :=
  let xs := s.suspended.filter fun x => x.lid == l.lid
  if xs.any (fun x => (s.row x.m).lid.isSome || (s.row x.m).suspended.any (· != l.lid)) then s
  else
    let (s, ok) := xs.foldl (fun acc x => let y := acc.1.foldsFrozen x; (y.1, acc.2 && y.2)) (s, true)
    if !ok || (s.regionsOf l.lid).any fun x => x.2.2.2.cutting then s
    else
      let s := (s.suspended.filter fun x => x.lid == l.lid).foldl (fun s x => s.resumeRow x) s
      let s := (s.regionsOf l.lid).foldl (fun s x => s.goOn x.1 x.2.1 x.2.2.1) s
      (s.modLaunch l.lid fun x => { x with st := .running }).arbitrate

/-- The launch was suspended for one that has not yet taken its rows. A new instance whose rows meet none of the last one's displaces it
from nothing, and it goes on at its next turn, which the manual leaves open (DESIGN CHOICE, log entry 63). -/
def State.displacing (s : State) (l : Launch) : Bool :=
  s.launches.any fun x => x.st == .starting && decide (x.rows &&& l.rows ≠ 0)

/-- LAUNCH_START: a launch given its rows starts, on a victim's rows once those have given up their columns; a suspended launch
whose rows are free again resumes. While a row of it is on a die that is switched off, or behind a down edge, it does neither: no program
runs there (R63, R64, R73). -/
def execLaunchStart (lid : BitVec 16) (s : State) : Out :=
  .next (match s.launch lid with
    | none => s
    | some l =>
      if s.hub.ck.open_ || l.rowList.any s.rowDown then s
      else match l.st with
      | .starting =>
        match s.victimsReady l.rowList lid with
        | (s, false) => s
        | (s, true) =>
          match s.spillAll l.rowList lid with
          | (s, false) => s.spillFailed l
          | (s, true) => (s.shrinkAll l.rowList lid).startLaunch l
      | .suspended => if s.displacing l then s else s.resumeLaunch l
      | _ => s)

/-! ### Completion and abort (R76–R78) -/

/-- A launch has an operation that has not retired. -/
def State.hasOps (s : State) (lid : BitVec 16) : Bool :=
  s.rows.toList.any fun r => r.cores.toList.any fun k => k.ops.any fun o => o.lid == lid

/-- Every row has finished, every started region has completed and every operation has joined (R76). -/
def State.launchDone (s : State) (l : Launch) : Bool :=
  l.rowList.all (fun m => decide ((s.row m).phase = .finished ∧ (s.row m).lid = some l.lid))
    && !(s.regionsOf l.lid).any (fun x => x.2.2.2.st == .running || x.2.2.2.st == .completing) && !s.hasOps l.lid

/-- A launch's completion store, and what follows it; one that is not performed is counted in LSTERR (R76, R77). While its
bank wakes the launch stays as `waiting` leaves it (R187). -/
def State.storeDone (s : State) (l : Launch) (v : Word) (waiting next : State → State) : State :=
  if l.donea = 0 then next s
  else match s.completionStore (hubFor (l.rowList.headD 0) l.lid) l.donea v with
  | (s, .wait) => waiting s
  | (s, .done) => next s
  | (s, .failed) => next (s.modHub fun h => { h with lsterr := satInc h.lsterr })

/-- A row is free of a launch. -/
def Row.release (r : Row) (lid : BitVec 16) : Row :=
  if r.lid = some lid then
    { r with lid := none, phase := .idle, hops := .replicate 8 [], resendQ := [], stopped := false
             cores := r.cores.map fun k => { k with stopped := false } }
  else if r.suspended = some lid then { r with suspended := none }
  else r

/-- The join nodes over circuits of a launch's regions end with those regions, the spilled ones too (R229). -/
def State.dropJoins (s : State) (lid : BitVec 16) : State :=
  s.modHub fun h => { h with joins := h.joins.filter fun j => !j.members.any fun x => x.lid == lid }

/-- The rows become free, the identifier lapses and an arbitration pass runs (R76, R81). -/
def State.freeLaunch (s : State) (l : Launch) : State :=
  let s := (s.regionsOf l.lid).foldl (fun s x => s.freeRegion x.1 x.2.1 x.2.2.1 x.2.2.2.status) s
  let held := l.rowList.filter fun m => ((s.row m).lid.or (s.row m).suspended) == some l.lid
  let s := s.closeCircuits held
  let s := (s.dropJoins l.lid).modHub fun h => { h with memCircuits := h.memCircuits.filter fun x => !held.contains x.1 }
  let s := l.rowList.foldl (fun s m => s.modRow m fun r => r.release l.lid) s
  let s := { s with launches := s.launches.filter (fun x => x.lid != l.lid)
                    suspended := s.suspended.filter fun x => x.lid != l.lid }
  s.pruneGroups.arbitrate

/-- LAUNCH_COMPLETION: DONEV, or ABORTV once every cancelled operation has joined (R76, R78). -/
def execLaunchCompletion (lid : BitVec 16) (s : State) : Out :=
  .next (match s.launch lid with
    | none => s
    | some l =>
      if l.st = .running ∧ s.launchDone l then s.storeDone l l.donev id fun s => s.freeLaunch l
      else if l.st = .aborting ∧ !s.hasOps lid then s.storeDone l l.abortv id fun s => s.freeLaunch l
      else s)

/-- An operation of an aborted launch is cancelled; a KVAPP that has reserved still publishes its positions (R78, R201). -/
def Op.cancel (o : Op) : Op :=
  if o.phase = .completed ∨ o.phase = .ended then o
  else if o.kvBase.isSome && decide (cmdOp o.cmd = 0x20) then { o with phase := .waiting, status := .aborted }
  else { o with phase := .ended, status := .aborted, awaitSeq := [] }

/-- Every region of a launch is torn down, every operation cancelled and every place stopped with its resume ordinal (R78,
R364). -/
def State.tearDown (s : State) (lid : BitVec 16) : State :=
  let s := ((s.regionsOf lid).foldl (fun s x => s.freeRegion x.1 x.2.1 x.2.2.1 .aborted) s).dropJoins lid
  let gone := s.rows.toList.zip (finsN 24) |>.flatMap fun r => r.1.cores.toList.zip (finsN 8) |>.flatMap fun k =>
    (k.1.ops.filter fun o => o.lid == lid && o.phase != .completed).map fun o => (r.2, k.2, o.id)
  let s := gone.foldl (fun s x => s.dropSides (.op x.1 x.2.1 x.2.2)) s
  let s := s.mapOps fun _ _ o => if o.lid = lid then o.cancel else o
  (finsN 24).foldl (fun s m => if (s.row m).lid = some lid then s.modRow m Row.noteOrds else s) s

/-- A pending launch, or one given rows that it has not started on, leaves its queue; a victim that made room for it returns
(R78, R81). -/
def State.dropPending (s : State) (l : Launch) : State :=
  ({ s with launches := s.launches.filter fun x => x.lid != l.lid } : State).pruneGroups.arbitrate

/-- A launch is aborted (R78). -/
def State.abort (s : State) (lid : BitVec 16) : State :=
  match s.launch lid with
  | none => s
  | some l =>
    match l.st with
    | .pending | .starting =>
      s.storeDone l l.abortv (fun s => s.modLaunch lid fun x => { x with st := .aborting }) fun s => s.dropPending l
    | .running | .suspended => (s.tearDown lid).modLaunch lid fun x => { x with st := .aborting }
    | .aborting => s
/-- LABORT_WRITE. -/
def execLabortWrite (v : Word) (s : State) : Out := .next (s.abort (v.setWidth 16))

/-! ### The launch table (R82–R86) -/

/-- STATE of an entry (Table 3.5), which names no state of an instance that is being aborted: it reads running until its identifier lapses
(DESIGN CHOICE, log entry 67). -/
def State.entryState (s : State) (e : Fin 256) : Nat :=
  match s.launches.find? fun l => l.ltEntry == some e && l.lid == (s.hub.lt[e]).lid with
  | none => 0
  | some l => match l.st with
    | .pending => 1
    | .suspended => 3
    | _ => 2

/-- ERR as it reads (R83). -/
def State.entryErr (s : State) (e : Fin 256) : Nat :=
  let x := s.hub.lt[e]
  if x.v ∧ s.hub.ltFrame ≤ x.offs then 0x0A else if x.v ∧ x.rule = 3 then 0x0B else x.err.toNat

/-- Change an entry. -/
def State.modEntry (s : State) (e : Fin 256) (f : LtEntry → LtEntry) : State :=
  s.modHub fun h => { h with lt := vmod h.lt e f }

/-- The first slot of an entry at or after a timebase value (R82). -/
def Hub.slotFrom (h : Hub) (x : LtEntry) (t : Nat) : Nat :=
  let first := h.ltEpoch.toNat + x.offs.toNat
  let f := max h.ltFrame.toNat 1
  if t ≤ first then first else first + (t - first + f - 1) / f * f

/-- An entry fires at its slots (R83). -/
def Hub.fires (h : Hub) (x : LtEntry) : Bool :=
  h.ltEn && x.v && decide (x.rule ≠ 3) && decide (x.offs.toNat < h.ltFrame.toNat)

/-- The first slot that an entry has not fired: at or after what enabling, a write or a backward step leaves (R82, R84). -/
def Hub.nextSlot (h : Hub) (x : LtEntry) : Nat := h.slotFrom x (max (max h.ltFrom h.ltHold) (x.lastSlot.elim 0 (· + 1)))

/-- The slots of an entry that have begun are noted, for they fire whatever is written or stepped now (R82, R84). -/
def LtEntry.noteBegun (x : LtEntry) (h : Hub) (tb : Nat) : LtEntry :=
  let first := h.nextSlot x
  if !h.fires x ∨ tb < first then x
  else
    let f := max h.ltFrame.toNat 1
    let n := (tb - first) / f
    { x with begun := x.begun ++ (List.range (n + 1)).map (fun i => first + f * i), lastSlot := some (first + f * n) }

/-- The slots of every entry that have begun by a timebase value are noted. -/
def Hub.noteBegun (h : Hub) (tb : Nat) : Hub := { h with lt := h.lt.map fun x => x.noteBegun h tb }

/-- The slot of an entry that has begun and has not fired (R82). -/
def State.dueSlot (s : State) (e : Fin 256) : Option Nat :=
  let x := s.hub.lt[e]
  match x.begun with
  | t :: _ => some t
  | [] =>
    if !s.hub.fires x then none
    else
      let t := s.hub.nextSlot x
      if t ≤ s.tb.toNat then some t else none

/-- An entry has fired at a slot. -/
def LtEntry.firedAt (x : LtEntry) (t : Nat) : LtEntry :=
  match x.begun with
  | _ :: rest => { x with begun := rest }
  | [] => { x with lastSlot := some t }

/-- No other entry's slot comes first: ascending time, then ascending entry (R82). -/
def State.firstDue (s : State) (e : Fin 256) (t : Nat) : Bool :=
  (finsN 256).all fun i => match s.dueSlot i with
    | none => true
    | some u => decide (t < u) || (decide (t = u) && decide (e.val ≤ i.val))

/-- A new instance of an entry is made pending, or its refusal recorded (R83, R85). -/
def State.newInstance (s : State) (e : Fin 256) : State :=
  let (s, st, lid) := s.submit ((s.hub.lt[e]).desc.toNat * 128) (some e)
  s.modEntry e fun x =>
    match st with
    | .ok => { x with lid := lid }
    | .full => { x with err := BitVec.ofNat 8 Status.full.code }
    | st => { x with err := BitVec.ofNat 8 st.code, v := false }

/-- Suspension of a launch for a new instance is allowed (R86, R246). -/
def State.maySuspend (s : State) (l new : Launch) : Bool :=
  decide (l.larder ≠ 0 ∧ l.larder.toNat % 0x10000 = 0)
    && l.rowList.all (fun m => decide ((s.row m).suspended = none ∧ (s.row m).phase ≠ .double ∧ (s.row m).phase ≠ .mchk
      ∧ (s.row m).phase ≠ .doubleMchk))
    && decide (new.rows &&& s.heldRows &&& ~~~ l.rows = 0)
    && new.rowList.all fun m => !l.rows.getLsbD m.val || s.larderOk l m

/-- The last instance is suspended: its row program stops on every row and records its resume ordinals, the rows that the new
instance needs take the SHRINK notice, and the new instance takes its rows ahead of every pending launch (R86, R246; DEDUCED, log
entry 30). -/
def State.suspendFor (s : State) (e : Fin 256) (l new : Launch) : State :=
  let s := s.modLaunch l.lid fun x => { x with st := .suspended }
  let s := l.rowList.foldl (fun s m => s.modRow m Row.noteOrds) s
  let s := l.rowList.foldl (fun s m => if new.rows.getLsbD m.val then s.shrinkNotice m else s) s
  let (s, lid) := s.accept new .starting (some e)
  s.modEntry e fun x => { x with lid := lid }

/-- SHRINK on a last instance that is running (R86): a launch that has its rows and no victim on them has started, so it starts
first if LAUNCH_START has not yet come. -/
def State.shrinkAction (s : State) (e : Fin 256) : State :=
  match s.readDesc ((s.hub.lt[e]).desc.toNat * 128), s.launch (s.hub.lt[e]).lid with
  | .ok new, some l =>
    let fresh := l.st == .starting && l.rowList.all fun m => (s.victimOf m l.lid).isNone && ((s.row m).suspended).isNone && !s.rowDown m
    let s := if fresh then s.startLaunch l else s
    if (l.st = .running ∨ fresh) ∧ s.maySuspend l new then s.suspendFor e l new else s.newInstance e
  | _, _ => s.newInstance e

/-- What a firing does: 0 SKIP, 1 START, 2 QUEUE, 3 SHRINK; one that the entry's state does not permit is SKIP (R85, R97,
Table 3.6). A suspension that comes due during a checkpoint waits until that has resumed (R262). -/
def State.fireAction (s : State) (e : Fin 256) (action : Nat) : State :=
  let countOverrun (s : State) : State := s.modEntry e fun x => { x with ovrn := satInc x.ovrn }
  match s.entryState e with
  | 0 => if action = 1 then s.newInstance e else s
  | 2 =>
    let s := countOverrun s
    match action with
    | 2 => s.newInstance e
    | 3 => if s.hub.ck.open_ then s.modHub fun h => { h with ltWait := h.ltWait ++ [e] } else s.shrinkAction e
    | _ => s
  | _ => countOverrun s

/-- The action of an entry in hardware mode (R85). -/
def State.ruleAction (s : State) (e : Fin 256) : Nat :=
  if s.entryState e = 0 then 1
  else match (s.hub.lt[e]).rule.toNat with
    | 1 => 2
    | 2 => 3
    | _ => 0

/-- The suspensions that waited for a checkpoint take place; one whose last instance has ended starts a new one (R85, R262). -/
def State.fireWaiting (s : State) : State :=
  let es := s.hub.ltWait
  es.foldl (fun s e => match s.entryState e with
    | 0 => s.newInstance e
    | 2 => s.shrinkAction e
    | _ => s) (s.modHub fun h => { h with ltWait := [] })

/-- ENTRY_FIRE (R82, R85, R97). -/
def execEntryFire (e : Fin 256) (s : State) : Out :=
  .next (match s.dueSlot e with
    | none => s
    | some t =>
      if !s.firstDue e t then s
      else
        let st := s.entryState e
        let s := s.modEntry e fun x => x.firedAt t
        if s.hub.assisted 2 then s.haPost 2 0 [toWord (e.val + st * 65536), toWord t] [e.val]
        else s.fireAction e (s.ruleAction e))

/-- LTCTL is written; enabling takes effect at the present timebase (R82). R82 lets every slot from that value fire and R84 lets
none fire before the timebase exceeds what it stepped back from: here the enabling ends that hold (DESIGN CHOICE, log entry 50). -/
def State.setLtctl (s : State) (v : Word) : State :=
  let en := v.getLsbD 63
  s.modHub fun h =>
    let h := h.noteBegun s.tb.toNat
    if en ∧ !h.ltEn then
      { h with ltEn := true, ltFrom := s.tb.toNat, ltHold := 0, lt := h.lt.map fun x => { x with lastSlot := none } }
    else { h with ltEn := en }
/-- LTCTL_WRITE. -/
def execLtctlWrite (v : Word) (s : State) : Out := .next (s.setLtctl v)

/-- A word of an entry is written: its writable fields (Table 3.5). -/
def State.setLtent (s : State) (e : Fin 256) (w : Fin 4) (v : Word) : State :=
  s.modEntry e fun x =>
    match w.val with
    | 0 =>
      let x := x.noteBegun s.hub s.tb.toNat
      { x with v := v.getLsbD 63, rule := BitVec.ofNat 2 (wbits v 62 61), offs := v.setWidth 40
               err := if v.getLsbD 63 then 0 else x.err
               lastSlot := some (max s.tb.toNat (x.lastSlot.getD 0)) }
    | 1 => { x with desc := BitVec.ofNat 33 (wbits v 39 7) }
    | 2 => { x with miss := w1c x.miss (wbits v 31 16), ovrn := w1c x.ovrn (wbits v 15 0) }
    | _ => x
/-- LTENT_WRITE. -/
def execLtentWrite (e : Fin 256) (w : Fin 4) (v : Word) (s : State) : Out := .next (s.setLtent e w v)

/-- A timebase step acts on the table (R84): slots that have begun still fire; forward, the slots passed over are counted; backward,
none fires until the timebase exceeds what it was. -/
def State.stepTable (s : State) (t1 t2 : Nat) : State :=
  s.modHub fun h =>
    let h := h.noteBegun t1
    if t2 ≤ t1 then { h with ltHold := max h.ltHold (t1 + 1) }
    else
      let pass (x : LtEntry) : LtEntry :=
        let first := max (h.nextSlot x) (h.slotFrom x (t1 + 1))
        if !h.fires x ∨ t2 < first then x
        else { x with miss := BitVec.ofNat 16 (satAdd 16 x.miss.toNat ((t2 - first) / max h.ltFrame.toNat 1 + 1)), lastSlot := some t2 }
      { h with lt := h.lt.map pass }

end Sys2Proof.Machine
end

