-- ==== Sys2Proof/Machine/Streams.lean ====
section
/-! DEFINITION. The stream commands that move elements: SRD, SWR, SGATHER, SSCATTER, SSCATOP, SCOPY, SFILL and PSET (R379–R386).
One unit of an operation is one element, one token or one line of a ring slot. -/

namespace Sys2Proof.Machine

/-- ARG[24] RING. -/
def ringBit (c : Command) : Bool := c.arg.getLsbD 24
/-- ARG[23]. -/
def arg23 (c : Command) : Bool := c.arg.getLsbD 23
/-- Bytes that an element takes in a feed's or drain's stream (R379, R380). -/
def Walk.unit (w : Walk) : Nat := if w.esz ≤ 2 then 4 else w.size

/-! ### Feeding (R379) -/

/-- Bytes join an operation's buffer, with the poison of each. -/
def Op.gain (o : Op) (bs : List Byte) (z : List Bool) : Op := { o with buf := o.buf ++ bs, bufZ := o.bufZ ++ z }

/-- The next element of a feed is read into the stream; a fault waits until what comes before it is delivered. -/
def State.feedRead (s : State) (c : Command) (o : Op) (w : Walk) : State :=
  let ag := (s.opAgent o).forElem o.idx
  match s.elemAddr ag w o.idx with
  | (s, .wait) => s
  | (s, .fail st a) => s.noteFault st a
  | (s, .at_ a) =>
    match s.readMem ag a w.size with
    | (s, .wait) => s
    | (s, .fail x) => s.noteFault x.status a
    | (s, .ok bs _) =>
      let pad := w.unit - w.size
      let s := ((s.elemDone ag).noteDrop c a w.size).modHere fun o =>
        { o.gain (bs ++ List.replicate pad 0) (s.marks ag a w.size ++ List.replicate pad false) with idx := o.idx + 1 }
      if c.drp then s.settleDrops (s.walkLines ag w (o.idx + 1) w.count ++ if ringBit c then descLines o.ha else []) else s

/-- Bytes leave the front of an operation's buffer. -/
def Op.shift (o : Op) (n : Nat) : Op := { o with buf := o.buf.drop n, bufZ := o.bufZ.drop n }

/-- The token that stream bytes make at a port (R379). -/
def feedToken (ctx : BitVec 2) (bs : List Byte) (p f : Bool) : Token :=
  { Token.blank ctx with cnt := (bs.length + 3) / 4, lanes := lanesOf ((List.range 16).map fun i => fieldAt bs (4 * i) 4), p := p, f := f }

/-- A token of stream bytes enters the port's arc, when the port moves and the arc has room; the operation after it. -/
def State.feedPort (s : State) (o : Op) (r : ElemRef) (f : Bool) : State :=
  match s.elemAt r with
  | none => s
  | some (g, e) =>
    if !g.portMoves e || !g.outReady r.e 0 then s
    else (s.give r 0 (feedToken e.ctx (o.buf.take 64) ((o.bufZ.take 64).any id) f)).modHere fun o => o.shift 64

/-- Where a feed's next line of the slot at TAIL begins, and how many bytes it has. -/
def Ring.tailLine (r : Ring) (off : Nat) : Nat × Nat :=
  let a := r.slotAt r.tail + off
  (a, min (128 - a % 128) (r.ssz - off))

/-- A feed's next line of a ring slot: `all` when the stream is over and the slot is padded. A fault of the slot is that of its
first element: `unit` bytes of the stream are an element, and `part` of the next one have been read (R244). -/
def State.feedRing (s : State) (o : Op) (all : Bool) (unit part : Nat) (more : State → State) : State :=
  let gives (r : Ring) : Bool := decide ((r.tailLine o.lanes).2 ≤ o.buf.length) || (all && (!o.buf.isEmpty || decide (o.lanes ≠ 0)))
  match o.ha with
  | none => s.endOp .ringErr false 0
  | some d =>
    match s.wantSide d.toNat true (s.opHolder o) with
    | (s, false) => s
    | (s, true) =>
    if s.ringRests (s.opAgent o) d gives then more s
    else match s.holdRing (s.opAgent o) (s.opHolder o) d true fun r => decide (0 < r.free) with
    | .wait s => s
    | .stop s st => s.endOp st false d
    | .ready s pa r =>
      let (a, n) := r.tailLine o.lanes
      let last := decide (o.lanes + n = r.ssz)
      if r.free = 0 ∨ (last && !s.atomicTurn pa (s.opAgent o)) then s
      else
        let bs := o.buf.take n
        match s.writeMem (s.slotAgent o) a (bs ++ List.replicate (n - bs.length) 0) ((o.bufZ.take n).any id) with
        | (s, .wait) => s
        | (s, .fail x) =>
          let first := (o.idx * unit + part - o.buf.length - o.lanes) / max unit 1
          (s.modHere fun o => { o with idx := first }).endOp x.status false (toWord a)
        | (s, .ok) =>
          let s := if last then (s.advTail pa r 1).atomicAt pa (s.opAgent o) else s
          s.modHere fun o => { o.shift n with lanes := if last then 0 else o.lanes + n }

/-- One unit of a feed: `over` when nothing is left to read, `fibre` at a token boundary, `slot` at a slot boundary, `f` the F of
the token that empties the stream. -/
def State.feedMove (s : State) (c : Command) (o : Op) (atEnd fibre slot f : Bool) (unit part : Nat) (read : State → State) : State :=
  let fault := decide (o.status ≠ .ok)
  let finish (s : State) : State := if fault then s.endOp o.status false o.errAddr else s.endOk
  let next (s : State) : State := if atEnd || fault then finish s else read s
  if ringBit c then s.feedRing o (atEnd || fault || slot) unit part next
  else if !(s.core s.cur.m s.coreHere).holdsPort o 0 c.port.toNat then s
  else if 64 ≤ o.buf.length || (!o.buf.isEmpty && (fibre || atEnd || fault)) then
    match s.portOf o 0 c.port.toNat with
    | some r => s.feedPort o r (f && !fault && (o.buf.drop 64).isEmpty)
    | none => s
  else next s

/-- SRD and SGATHER (R382). -/
def State.feed (s : State) (c : Command) : State :=
  s.runOp (fun s o =>
    let w := walkOf o.wa
    Start.require (c.sub == 0 && c.arg.toNat / 2 ^ 16 % 128 == 0) .badCmd (Start.require w.ok .badCmd
      (if ringBit c then Start.ring o o.ha fun _ s => .go s id else Start.port o c 0 fun s => .go s id)) s)
    fun s o =>
      let w := walkOf o.wa
      let fib := c.arg.toNat % 65536
      let fibre := decide (fib ≠ 0) && decide (o.idx ≠ 0 ∧ o.idx % fib = 0)
      let atEnd := decide (o.idx = w.count)
      s.feedMove c o atEnd fibre false (fibre || (arg23 c && atEnd)) w.unit 0 fun s => s.feedRead c o w

/-- SRD (R382). -/
def execSrd (c : Command) (s : State) : Out := .next (s.feed c)
/-- SGATHER (R382): its path through the partition network shows in budgets alone. -/
def execSgather (c : Command) (s : State) : Out := .next (s.feed c)

/-! ### Draining (R380) and scatter-atomics (R386) -/

/-- What a drain does with an element's bytes: it stores them, or combines them at their home. -/
inductive DrainKind where
  | store
  | combine (k ty : Nat)
  deriving DecidableEq, Repr

/-- Combine of Table 15.4 on w bytes: 0 add, 1 or, 2 min, 3 max. -/
def scatCombine (k ty old v : Nat) : Nat :=
  if ty = 2 ∨ ty = 0xD then
    let x := valueOf ty old
    let y := valueOf ty v
    (roundTo ty rne (match k with
      | 0 => (x.add rne y).1
      | 2 => Num.minMax false x y
      | _ => Num.minMax true x y)).1
  else match k with
  | 0 => (old + v) % 2 ^ 32
  | 1 => old ||| v
  | 2 => if laneInt (decide (ty = 1)) v < laneInt (decide (ty = 1)) old then v else old
  | _ => if laneInt (decide (ty = 1)) old < laneInt (decide (ty = 1)) v then v else old

/-- An element's effect at its address. -/
def State.drainPut (s : State) (ag : Agent) (kind : DrainKind) (a : Nat) (bs : List Byte) (poison : Bool) : State × Put :=
  match kind with
  | .store => s.writeMem ag a bs poison
  | .combine k ty =>
    if poison then (s, .fail .poison)
    else match s.engCheck ag a .atomic with
    | (s, .fail c) => (s, .fail c)
    | (s, .ok (.mem pa)) =>
      let w := bs.length
      if s.mem.dead pa w then (s, .fail .dropRd)
      else if s.mem.poisoned pa w then (s, .fail .poison)
      else if !s.atomicTurn pa ag then (s, .wait)
      else ((s.withMem (s.mem.put pa w (scatCombine k ty (s.mem.num pa w) (natOf bs)))).atomicAt pa ag, .ok)
    | (s, _) => (s, .wait)

/-- An element to be drained: its bytes, whether it is passed over, and whether it is poisoned. -/
structure Drained where
  bs : List Byte
  skip : Bool
  poison : Bool
  deriving DecidableEq, Repr

/-- How far a run of elements got. -/
inductive DrainEnd where
  | done
  | fail (n : Nat) (st : Status) (a : Int)
  | wait
  deriving DecidableEq, Repr

/-- Elements take effect in walk order from index n; the first fault ends them (R223). -/
def State.drainElems (s : State) (ag : Agent) (kind : DrainKind) (w : Walk) : Nat → List Drained → State × DrainEnd
  | _, [] => (s, .done)
  | n, x :: rest =>
    if x.skip then s.drainElems ag kind w (n + 1) rest
    else match s.elemAddr (ag.forElem n) w n with
    | (s, .wait) => (s, .wait)
    | (s, .fail st a) => (s, .fail n st a)
    | (s, .at_ a) =>
      match s.drainPut (ag.forElem n) kind a (x.bs.take w.size) x.poison with
      | (s, .ok) => (s.elemDone (ag.forElem n)).drainElems ag kind w (n + 1) rest
      | (s, .fail c) => (s, .fail n c.status a)
      | (s, .wait) => (s, .wait)

/-- The lines that elements need are served, and stand for them, or some wait: the state, and whether all serve (R187, R274). -/
def State.drainReady (s : State) (ag : Agent) (kind : DrainKind) (w : Walk) (n : Nat) (xs : List Drained) : State × Bool :=
  (List.zip xs (List.range xs.length)).foldl (fun acc x =>
    let ag := ag.forElem (n + x.2)
    if x.1.skip then acc
    else match acc.1.elemAddr ag w (n + x.2) with
    | (s, .at_ a) =>
      match s.pieceCheck ag a (if kind = .store then .store else .atomic) with
      | (s, .wait) => (s, false)
      | (s, .ok (.mem pa)) => (s, acc.2 && (decide (kind = .store) || s.atomicTurn pa ag))
      | (s, _) => (s, acc.2)
    | (s, .wait) => (s, false)
    | (s, _) => (s, acc.2)) (s, true)

/-- What arrives from a port or a slot: stream bytes, whether they are poisoned, and how the operation goes on. -/
structure Chunk where
  bs : List Byte
  poison : Bool
  /-- a token with F arrived and FSTOP is set -/
  stop : Bool
  port : Bool
  deriving DecidableEq, Repr

/-- A chunk's whole elements with the bytes left over: a token that carries P writes none of its elements, a slot's poison goes
with the bytes (R153, R380). -/
def Chunk.elems (x : Chunk) (o : Op) (unit most : Nat) : List Drained × List Byte × Bool :=
  let stream := o.buf ++ x.bs
  let k := min (stream.length / unit) most
  let pz (j : Nat) : Bool := x.poison || (decide (j = 0) && !o.buf.isEmpty && o.bufP)
  let xs := (List.range k).map fun j =>
    { bs := (stream.drop (unit * j)).take unit, skip := x.port && pz j, poison := !x.port && pz j : Drained }
  let rest := stream.drop (unit * k)
  (xs, rest, !rest.isEmpty && (if k = 0 then (x.poison && !x.bs.isEmpty) || (!o.buf.isEmpty && o.bufP) else x.poison))

/-- The operation takes a chunk: `read` is what reading it leaves, and `took` consumes the token or advances past the line, told
whether the slot ends early. -/
def State.drainChunk (s : State) (o : Op) (kind : DrainKind) (w : Walk) (x : Chunk) (read : State → State)
    (took : State → Bool → State) : State :=
  let ag := s.opAgent o
  let (xs, rest, restP) := x.elems o w.unit (w.count - o.idx)
  match s.drainReady ag kind w o.idx xs with
  | (s, false) => s
  | (s0, true) =>
    match (read s0).drainElems ag kind w o.idx xs with
    | (_, .wait) => s0
    | (s, .fail n st a) =>
      ((took s true).modHere fun o => { o with idx := n }).endOp st false (BitVec.ofInt 64 a)
    | (s, .done) =>
      let n := o.idx + xs.length
      let full := decide (n = w.count)
      let s := (took s full).modHere fun o => { o with idx := n, buf := rest, bufP := restP }
      if full then (if x.port && !rest.isEmpty then s.endOp .limit false 0 else s.endOk)
      else if x.stop then s.endOk
      else s

/-- One token is drained from an output port (R380, R259). -/
def State.drainPort (s : State) (c : Command) (o : Op) (kind : DrainKind) (w : Walk) : State :=
  match s.portOf o 1 c.port.toNat with
  | none => s
  | some r =>
    match s.elemAt r with
    | none => s
    | some (g, e) =>
      if !(s.core s.cur.m s.coreHere).holdsPort o 1 c.port.toNat || !(g.st == .running) || (g.frozen && !g.bpHold) then s
      else match g.dataAt r.e 0 with
      | none => s
      | some (n, t) =>
        let bs := ((lanesNat t.lanes).take t.cnt).flatMap (bytesOf 4)
        s.drainChunk o kind w { bs := bs, poison := t.p, stop := t.f && arg23 c, port := true } id fun s _ =>
          let s := if g.flood.isSome then (s.take r 0).settle r.m r.c r.slot else s.take r 0
          let s := if t.e then s.logEntry r 1 e.port.num t.tag.toNat 0 n t.hdr else s
          if t.p then s.setSticky r.m r.c r.slot stPSTORE else s

/-- Lines of a ring slot that later slot reads of the operation still touch, when it needs `more` bytes beyond this line (R185). -/
def slotLines (r : Ring) (off more : Nat) : List Nat :=
  let this := spadLines (r.slotAt r.head + off) (min more (r.ssz - off))
  let later := (List.range (min r.slots ((more - min more (r.ssz - off) + r.ssz - 1) / r.ssz))).flatMap fun i =>
    spadLines (r.slotAt (r.head + 1 + i)) r.ssz
  this ++ later

/-- The lines that a drain has still to read at its targets from element n on: their indices, and what its atomics read (R185, R386). -/
def State.targetLines (s : State) (ag : Agent) (kind : DrainKind) (w : Walk) (n : Nat) : List Nat :=
  match kind with
  | .store => w.indexLines n w.count
  | .combine _ _ => s.walkLines ag w n w.count

/-- One line of the slot at HEAD is drained (R192, R380). -/
def State.drainRing (s : State) (c : Command) (o : Op) (kind : DrainKind) (w : Walk) : State :=
  let ag := s.opAgent o
  match o.ha with
  | none => s.endOp .ringErr false 0
  | some d =>
    match s.holdRing ag (s.opHolder o) d false fun r => decide (0 < r.filled) with
    | .wait s => s
    | .stop s st => s.endOp st false d
    | .ready s pa r =>
      let off := o.lanes
      let a := r.slotAt r.head + off
      let n := min (128 - a % 128) (r.ssz - off)
      if r.filled = 0 || !s.atomicTurn pa ag then s
      else match s.readMem (s.slotAgent o) a n with
      | (s, .wait) => s
      | (s, .fail x) => s.endOp x.status false (toWord a)
      | (s, .ok bs p) =>
        let later := slotLines r (off + n) ((w.count - o.idx) * w.unit - o.buf.length - n) ++ descLines o.ha ++ s.targetLines ag kind w o.idx
        let read (s : State) : State := if c.drp then (s.noteDrop c a n).settleDrops later else s
        s.drainChunk o kind w { bs := bs, poison := p, stop := false, port := false } read fun s ends =>
          let whole := ends || decide (off + n = r.ssz)
          let s := if whole then (s.advHead pa r 1).atomicAt pa ag else s
          s.modHere fun o => { o with lanes := if whole then 0 else off + n }

/-- SWR and SSCATTER (R382). -/
def State.drain (s : State) (c : Command) : State :=
  s.runOp (fun s o =>
    let w := walkOf o.wa
    Start.require (c.sub == 0 && c.arg.toNat % 2 ^ 23 == 0) .badCmd (Start.require w.ok .badCmd
      (if ringBit c then Start.ring o o.ha fun _ s => .go s id else Start.port o c 1 fun s => .go s id)) s)
    fun s o => if ringBit c then s.drainRing c o .store (walkOf o.wa) else s.drainPort c o .store (walkOf o.wa)

/-- SWR (R382). -/
def execSwr (c : Command) (s : State) : Out := .next (s.drain c)
/-- SSCATTER (R382). -/
def execSscatter (c : Command) (s : State) : Out := .next (s.drain c)

/-- TYPE with its element size and combination (R386). -/
def scatOk (k ty esz : Nat) : Bool :=
  (decide (ty < 3 ∧ esz = 2) || decide (ty = 0xD ∧ esz = 3)) && !(decide (k = 1) && decide (2 ≤ ty))

/-- SSCATOP (R386). -/
def execSscatop (c : Command) (s : State) : Out :=
  let ty := c.arg.toNat % 16
  let k := c.sub.toNat % 4
  let imm := c.sub.getLsbD 2
  .next (s.runOp (fun s o =>
    let w := walkOf o.wa
    Start.require (c.arg.toNat / 16 % 2 ^ 19 == 0) .badCmd (Start.require (w.ok && scatOk k ty w.esz) .badCmd
      (if imm then fun s => .go s id
       else if ringBit c then Start.ring o o.ha fun _ s => .go s id
       else Start.port o c 1 fun s => .go s id)) s)
    fun s o =>
      let w := walkOf o.wa
      if imm then
        s.drainChunk { o with buf := [] } (.combine k ty) w
          { bs := bytesOf w.unit c.addr.toNat, poison := false, stop := false, port := false } id fun s _ => s
      else if ringBit c then s.drainRing c o (.combine k ty) w
      else s.drainPort c o (.combine k ty) w)

/-! ### Moving memory (R383–R385) -/

/-- SCOPY reads its next source element; a fault waits until the elements before it are written. -/
def State.copyRead (s : State) (c : Command) (o : Op) (w : Walk) : State :=
  match s.elemAddr (s.opAgent o) w o.lanes with
  | (s, .wait) => s
  | (s, .fail st a) => s.noteFault st a
  | (s, .at_ a) =>
    match s.readMem (s.opAgent o) a w.size with
    | (s, .wait) => s
    | (s, .fail x) => s.noteFault x.status a
    | (s, .ok bs p) =>
      let s := (s.noteDrop c a w.size).modHere fun o =>
        { o with buf := o.buf ++ bs, lanes := o.lanes + 1, aux := o.aux ++ [b2n p] }
      let later := s.walkLines (s.opAgent o) w (o.lanes + 1) w.count ++ (walkOf o.wb).indexLines o.idx w.count
      if c.drp then s.settleDrops later else s

/-- SCOPY writes the oldest element it has read. -/
def State.copyWrite (s : State) (o : Op) (w : Walk) : State :=
  match s.elemAddr (s.opAgent o) w o.idx with
  | (s, .wait) => s
  | (s, .fail st a) => s.endOp st false (BitVec.ofInt 64 a)
  | (s, .at_ a) =>
    match s.writeMem (s.opAgent o) a (o.buf.take w.size) (decide (o.aux.headD 0 ≠ 0)) with
    | (s, .wait) => s
    | (s, .fail x) => s.endOp x.status false (toWord a)
    | (s, .ok) => s.modHere fun o => { o with buf := o.buf.drop w.size, aux := o.aux.drop 1, idx := o.idx + 1 }

/-- SCOPY (R383): how far reading runs ahead of writing is free, so an overlapped source reads its old or its copied value. -/
def execScopy (c : Command) (s : State) : Out :=
  .next (s.runOp (fun s o =>
    let w := walkOf o.wa
    let v := walkOf o.wb
    Start.require (c.sub == 0) .badCmd (Start.require (w.ok && v.ok && w.esz == v.esz && w.count == v.count) .badCmd
      fun s => .go s id) s)
    fun s o =>
      let w := walkOf o.wa
      let atEnd := decide (o.status ≠ .ok) || decide (o.lanes = w.count)
      let (v, s) := s.draw
      if o.idx < o.lanes && (atEnd || v.getLsbD 0) then s.copyWrite o (walkOf o.wb)
      else if !atEnd then s.copyRead c o w
      else if o.status ≠ .ok then s.endOp o.status false o.errAddr
      else s.endOk)

/-- SFILL (R384). -/
def execSfill (c : Command) (s : State) : Out :=
  .next (s.runOp (fun s o =>
    Start.require (c.sub == 0) .badCmd (Start.require (walkOf o.wa).ok .badCmd fun s => .go s id) s)
    fun s o =>
      let w := walkOf o.wa
      if o.idx = w.count then s.endOk
      else match s.elemAddr (s.opAgent o) w o.idx with
      | (s, .wait) => s
      | (s, .fail st a) => s.endOp st false (BitVec.ofInt 64 a)
      | (s, .at_ a) =>
        let bs := (List.range w.size).map fun i => (bytesOf 8 c.addr.toNat).getD (i % 8) 0
        match s.writeMem (s.opAgent o) a bs with
        | (s, .wait) => s
        | (s, .fail x) => s.endOp x.status false (toWord a)
        | (s, .ok) => s.modHere fun o => { o with idx := o.idx + 1 })

/-- A PSET's descriptor becomes the slot's value in its launch's core state; operations already forked keep what they read (R378,
R385). -/
def State.setSlot (s : State) (o : Op) (c : Command) (v : BitVec 256) : State :=
  s.modCoreFor o.lid s.cur.m s.coreHere fun k => { k with w := k.w.set (reg32 c.wa) v }

/-- PSET (R385): a fault leaves the slot unchanged; with DRP its source's lines die as it is read (R185, R377). -/
def execPset (c : Command) (s : State) : Out :=
  .next (s.runOp (fun s o =>
    Start.require (c.sub == 0) .badCmd
      (Start.block o c.addr 32 32 fun bs s =>
        .go (if c.drp then s.killLines (spadLines c.addr.toNat 32) else s) fun o => { o with buf := bs }) s)
    fun s o => (s.setSlot o c (BitVec.ofNat 256 (natOf o.buf))).endOk)

end Sys2Proof.Machine
end

