-- ==== Sys2Proof/Machine/Remote.lean ====
section
/-! DEFINITION. Remote and collective operations: what a frame does at its destination, SPUT, SGET, ARED, SIGNAL and the
host-assisted collective engine (R222–R224, R398–R402, R407). Payload layouts are the model's own: DESIGN CHOICE, log entry 28. -/

namespace Sys2Proof.Machine

/-! ### Accesses at the destination (R399) -/

/-- Translate a remote address of this module through RROOT (Table 15.7). -/
def State.remoteAddr (s : State) (va : Nat) (kind : Kind) : Except Cause Nat :=
  if !s.hub.rrootEn then .error .perm
  else if 2 ^ 52 ≤ va then .error .xlate
  else if (sliceBase ≤ va ∧ va < sliceBase + 2 ^ 32) ∨ (cellRegBase ≤ va ∧ va < cellRegBase + 2 ^ 32) then .error .perm
  else match walk s.mem s.hub.rroot.toNat va levels (s.hub.rroot.toNat * 65536) with
  | .error c => .error c
  | .ok e => if kind ≠ .load ∧ !e.w then .error .perm else .ok (e.pbase + (va - e.vbase))

/-- A refusal at the destination: the status and the offset of the first byte not performed. -/
abbrev Refused := Option (Status × Nat)

/-- Write the pieces of a put in order, up to the first byte that faults; a put that carries poison poisons the lines it
writes (Table 1.3). -/
def State.remotePut (s : State) (poison : Bool) (off : Nat) : List (Nat × Nat) → List Byte → State × Refused
  | [], _ => (s, none)
  | (va, n) :: rest, bs =>
    match s.remoteAddr va .store with
    | .error c => (s, some (c.status, off))
    | .ok pa =>
      let mem := s.mem.write pa (bs.take n)
      (s.withMem (if poison then mem.poisonLines (linesOf pa n) else mem)).remotePut poison (off + n) rest (bs.drop n)

/-- Read the pieces of a get in order, up to the first byte that faults: the bytes, and whether one came from a poisoned line
(Table 1.3). -/
def State.remoteGet (s : State) (off : Nat) : List (Nat × Nat) → Except (Status × Nat) (List Byte × Bool)
  | [] => .ok ([], false)
  | (va, n) :: rest =>
    match s.remoteAddr va .load with
    | .error c => .error (c.status, off)
    | .ok pa =>
      match s.remoteGet (off + n) rest with
      | .ok more => .ok (s.mem.read pa n ++ more.1, s.mem.poisoned pa n || more.2)
      | e => e

/-- The hub as the agent of what a remote module asks. -/
def hubAgent : Agent := { m := 0, unit := .hub, lid := 0 }

/-- A remote signal's store or add (R407). -/
def State.remoteSignal (s : State) (off va v : Nat) (add : Bool) : State × Refused :=
  if va % 8 ≠ 0 then (s, some (.align, off))
  else match s.remoteAddr va .store with
  | .error c => (s, some (c.status, off))
  | .ok pa =>
    if add ∧ s.mem.poisoned pa 8 then (s, some (.poison, off))
    else if add then ((s.withMem (s.mem.put pa 8 ((s.mem.num pa 8 + v) % 2 ^ 64))).atomicAt pa hubAgent, none)
    else (s.withMem (s.mem.put pa 8 v), none)

/-- A remote signal's add may go: during a replay it waits at its home for its logged turn (R266). -/
def State.remoteTurn (s : State) (va : Nat) : Bool :=
  match s.remoteAddr va .store with
  | .ok pa => decide (va % 8 ≠ 0) || s.mem.poisoned pa 8 || s.atomicTurn pa hubAgent
  | .error _ => true

/-! ### Reductions (R402) -/

/-- The fields of a reduction block after its checks. -/
structure Ared where
  src : Nat
  dst : Nat
  len : Nat
  ty : Nat
  group : Nat
  nodes : List Nat
  deriving DecidableEq, Repr

/-- Bytes of an element. -/
def Ared.w (a : Ared) : Nat := if a.ty = 0xD then 8 else 4
/-- Bytes of an element in a message: its own, then one that tells whether it came from a poisoned line (Table 1.3). -/
def Ared.rec_ (a : Ared) : Nat := a.w + 1
/-- As an operation keeps it. -/
def Ared.aux (a : Ared) : List Nat := [a.src, a.dst, a.len, a.ty, a.group] ++ a.nodes
/-- As an operation kept it. -/
def aredOf (o : Op) : Ared :=
  let g (i : Nat) : Nat := o.aux.getD i 0
  { src := g 0, dst := g 1, len := g 2, ty := g 3, group := g 4, nodes := o.aux.drop 5 }
/-- What the participants' engines compare. -/
def Ared.params (a : Ared) (sub : Nat) : List Byte :=
  bytesOf 1 sub ++ bytesOf 1 a.ty ++ bytesOf 4 a.len ++ a.nodes.flatMap fun n => bytesOf 4 n
/-- The comparison's fields again. -/
def aredParams (bs : List Byte) : Nat × Ared :=
  let f (o n : Nat) : Nat := natOf ((bs.drop o).take n)
  (f 0 1, { src := 0, dst := 0, len := f 2 4, ty := f 1 1, group := 0
            nodes := (blocks 4 bs.length (bs.drop 6)).map natOf })

/-- A message of node 0 to a participant: kind 1 the verdict, kind 3 a part of the result. -/
def State.toMember (s : State) (node : BitVec 18) (cls : BitVec 2) (group : BitVec 16) (kind : Nat) (body : List Byte) : State :=
  let msg := bytesOf 1 kind ++ bytesOf 2 group.toNat ++ body
  if node = s.hub.nodeId then s.modHub fun h => { h with aredIn := h.aredIn ++ [(group, msg)] }
  else
    let (s, c) := s.openCircuit none node cls
    (s.sendData c RemoteOp.reduction.code msg).1

/-- The combination of the participants' element i in list order, poisoned when any of them is (R402, Table 1.3). -/
def aredElem (sub : Nat) (a : Ared) (datas : List (List Byte)) (i : Nat) : List Byte :=
  let k := match sub with
    | 0 => 0
    | 1 => 2
    | _ => 3
  let recs := datas.map fun d => (d.drop (i * a.rec_)).take a.rec_
  let poison := recs.any fun r => r.getD a.w 0 != 0
  match recs.map fun r => natOf (r.take a.w) with
  | [] => []
  | x :: rest => bytesOf a.w (rest.foldl (fun acc y => scatCombine k a.ty acc y) x) ++ bytesOf 1 (b2n poison)

/-- Node 0 answers every participant it has heard from with a verdict. -/
def State.aredVerdict (s : State) (g : AredGroup) (ok : Bool) : State :=
  g.parts.foldl (fun s p => s.toMember p.node p.cls g.group 1 [if ok then 0 else 1]) s

/-- The group runs: its participants have agreed. -/
def AredGroup.running (g : AredGroup) : Bool := g.verdict == some true

/-- Node 0's group of a number, the one that runs or the one that gathers beside it, is replaced, or goes when none is given. -/
def State.setAred (s : State) (group : BitVec 16) (running : Bool) (g : Option AredGroup) : State :=
  s.modHub fun h => { h with areds := h.areds.filter (fun x => x.group != group || x.running != running) ++ g.toList }

/-- Node 0 hears a participant's fields (R402): any difference, or a group in progress, which goes on, refuses every participant. -/
def State.aredParam (s : State) (node : BitVec 18) (cls : BitVec 2) (group : BitVec 16) (busy : Bool) (params : List Byte) :
    State :=
  let inProgress := s.hub.areds.any fun g => g.group == group && g.running
  let p : AredPart := { node := node, cls := cls, params := params, busy := busy || inProgress, data := [] }
  let old : AredGroup := (s.hub.areds.find? fun g => g.group == group && !g.running).getD { group := group, parts := [], verdict := none }
  let g : AredGroup := { old with parts := old.parts ++ [p] }
  let n := (aredParams ((g.parts.headD p).params)).2.nodes.length
  let same := g.parts.all fun x => x.params == (g.parts.headD p).params && !x.busy
  let twice := decide ((g.parts.map fun (p : AredPart) => p.node).eraseDups.length < g.parts.length)
  let keep (g : AredGroup) : Option AredGroup := if n ≤ g.parts.length then none else some g
  if old.verdict.isSome then (s.toMember node cls group 1 [1]).setAred group false (keep g)
  else if !same || twice then (s.aredVerdict g false).setAred group false (keep { g with verdict := some false })
  else if n ≤ g.parts.length then ((s.aredVerdict g true).setAred group false none).setAred group true (some { g with verdict := some true })
  else s.setAred group false (some g)

/-- Node 0 takes a participant's data; with all of it, every participant is sent the result. -/
def State.aredData (s : State) (node : BitVec 18) (group : BitVec 16) (body : List Byte) : State :=
  match s.hub.areds.find? fun g => g.group == group && g.running with
  | none => s
  | some g =>
    let g : AredGroup := { g with parts := g.parts.map fun (p : AredPart) => if p.node = node then { p with data := p.data ++ body } else p }
    match g.parts with
    | [] => s
    | p :: _ =>
      let (sub, a) := aredParams p.params
      if g.parts.any fun p => p.data.length < a.len * a.rec_ then s.setAred group true (some g)
      else
        let datas := a.nodes.map fun n => ((g.parts.find? fun p => p.node.toNat == n).map (·.data)).getD []
        let r := (List.range a.len).flatMap (aredElem sub a datas)
        let chunks := blocks 4000 r.length r
        let s := s.setAred group true none
        g.parts.foldl (fun s p => chunks.foldl (fun s b => s.toMember p.node p.cls group 3 b) s) s

/-- A reduction message arrives from a node: kinds 0 and 2 at node 0 of the list, 1 and 3 at a participant. -/
def State.aredIn (s : State) (node : BitVec 18) (cls : BitVec 2) (msg : List Byte) : State :=
  let group := BitVec.ofNat 16 (natOf ((msg.drop 1).take 2))
  let body := msg.drop 3
  match (msg.headD 0).toNat with
  | 0 => s.aredParam node cls group (body.headD 0 != 0) (body.drop 1)
  | 2 => s.aredData node group body
  | _ => s.modHub fun h => { h with aredIn := h.aredIn ++ [(group, msg)] }

/-! ### Frames at the destination -/

/-- The reply of a get reaches its operation, which waits for it. -/
def State.getReply (s : State) (p : List Byte) : State :=
  let st := (statusOf (payField p 6 1)).getD .badDesc
  match s.tagged (payField p 0 6) with
  | none => s
  | some (m, c, o) =>
    if o.lanes ≠ 1 then s
    else if st = .ok then
      s.modOp m c o.id fun o => { o with buf := p.drop 14, bufP := true, lanes := if payField p 13 1 = 0 then 0 else 2 }
    else s.refuseAt m c o st o.idx

/-- The operation of a frame that its destination performs: tag, offset in the operation, then its own fields. An operation
once refused performs no more. -/
def State.performFrame (s : State) (c : Circuit) (op : BitVec 8) (p : List Byte) : State × Option (Nat × Nat × Nat) :=
  let tag := payField p 0 6
  let off := payField p 6 6
  let addr := payField p 12 8
  let after (r : State × Refused) : State × Option (Nat × Nat × Nat) := (r.1, r.2.map fun x => (tag, x.1.code, x.2))
  let once (k : State × Option (Nat × Nat × Nat)) : State × Option (Nat × Nat × Nat) :=
    match c.refused.find? fun r => r.1 == tag with
    | some r => (s, some r)
    | none => k
  match remoteOpOf op with
  | some .put => once (after (s.remotePut (decide (payField p 20 1 ≠ 0)) off (linePieces addr (p.length - 21)) (p.drop 21)))
  | some .signal => once (after (s.remoteSignal off addr (payField p 20 8) (decide (payField p 28 1 ≠ 0))))
  | some .getRequest =>
    let body := match s.remoteGet 0 (linePieces addr (payField p 20 2)) with
      | .ok bs => bytesOf 1 0 ++ bytesOf 6 off ++ bytesOf 1 (b2n bs.2) ++ bs.1
      | .error x => bytesOf 1 x.1.code ++ bytesOf 6 (off + x.2)
    let (s, back) := s.openCircuit none c.peer c.cls
    ((s.sendData back RemoteOp.getReply.code (bytesOf 6 tag ++ body)).1, none)
  | some .getReply => (s.getReply p, none)
  | some .reduction => (s.aredIn c.peer c.cls p, none)
  | some .launch | none => (s, none)

/-- The payload of one frame of an operation. -/
def opPayload (m : RowId) (c : CoreId) (o : Op) (off addr : Nat) (body : List Byte) : List Byte :=
  tagBytes m c o.id ++ bytesOf 6 off ++ bytesOf 8 addr ++ body

/-- A frame's atomic may go: during a replay it waits at its home for its logged turn (R266). -/
def State.frameTurn (s : State) (op : BitVec 8) (p : List Byte) : Bool :=
  decide (remoteOpOf op ≠ some .signal ∨ payField p 28 1 = 0) || s.remoteTurn (payField p 12 8)

/-- An accepted frame is performed and acknowledged, or passed to software (R30, R31, R400). -/
def State.acceptFrame (s : State) (c : Circuit) (f : Frame) : State :=
  let s := s.modCircuit false f.src f.circ fun x => { x with last := f.seq }
  if s.hub.assisted 3 then
    let s := s.modCircuit false f.src f.circ fun x => { x with open_ := x.open_ ++ [f.seq] }
    s.haPost 3 0 [toWord (2 ^ 56 + f.src.toNat), toWord (f.seq.toNat * 65536 + f.circ.toNat), toWord f.payload.length]
      [1, f.src.toNat, f.circ.toNat, f.seq.toNat, payField f.payload 0 6] (frameHeader f ++ f.payload)
  else
    let (s, r) := s.performFrame c f.op f.payload
    let s := s.modCircuit false f.src f.circ fun x => x.refuse r
    match s.hub.circuit false f.src f.circ with
    | some c => s.sendControl c 1 c.refusals
    | none => s

/-- DATA: accepted in sequence, else dropped and answered with NAK (R30). One whose atomic waits for its logged turn is not
received yet: it comes again (R266; DESIGN CHOICE, log entry 32). -/
def execDataFrame (f : Frame) (s : State) : Out :=
  .next (s.frameIn 0 f fun t =>
    match t.hub.circuit false f.src f.circ with
    | none => t
    | some c =>
      if c.broken then t
      else if (t.hub.inSequence f).isNone then t.sendControl c 2 c.refusals
      else if t.frameTurn f.op f.payload then t.acceptFrame c f
      else s)

/-- The first frame of a log. -/
def nextFrame (q : List LogRec) : Option LogRec := q.find? LogRec.isFrame

/-- A replay delivers the next frame of its log, in arrival order, once its atomic may go: DATA that came in sequence has its
effect again, and nothing else had one on memory (R266). -/
def State.deliverLogged (s : State) : State :=
  let k := s.hub.ck
  if !k.replay then s
  else match nextFrame k.replayQ with
  | some (.frame circ src seq i kind taken op p) =>
    if taken ∧ !s.frameTurn op p then s
    else
      let q := k.replayQ.erase (.frame circ src seq i kind taken op p)
      let s := s.modHub fun h => { h with ck := { h.ck with replayQ := q, replay := !q.isEmpty } }
      let c : Circuit := (s.hub.circuit false src circ).getD
        { outgoing := false, num := circ, peer := src, cls := 0, issuer := none, broken := false, port := 0, start := seq
          open_ := [], last := 0, win := none, unacked := [], lastProgress := 0, lastSent := 0, refused := [] }
      if taken then (s.performFrame c op p).1 else s
  | _ => s

/-! ### SPUT, SGET and SIGNAL (R398, R401, R407) -/

/-- The node a remote command names. -/
def nodeOf (c : Command) : BitVec 18 := c.arg.setWidth 18
/-- The class a remote command names. -/
def classOf (c : Command) : BitVec 2 := (c.arg >>> 18).setWidth 2

/-- R398's conditions for CBRK. -/
def State.circuitsUsable (s : State) (node : BitVec 18) : Bool :=
  decide (node ≠ 0 ∧ node ≠ 0x3FFFF ∧ s.hub.nodeId ≠ 0) && !s.hub.upPorts.isEmpty

/-- A host-assisted collective engine passes the command to software (R400). -/
def State.issueAssisted (s : State) (o : Op) : State :=
  let m := s.cur.m
  let c := s.coreHere
  let root := ((s.launch o.lid).map fun l => l.root.toNat / 65536 * 65536).getD 0
  let w := toWord (dieOf m * 2 ^ 32 + rowInDie m * 2 ^ 24 + c.val * 2 ^ 16 + o.engine.val)
  (s.haPost 3 0 [w, o.cmd.setWidth 64, (o.cmd >>> 64).setWidth 64, toWord o.lid.toNat, toWord (root % 2 ^ 40)]
    [0, m.val, c.val, o.id] (bytesOf 32 o.wa.toNat)).modHere fun o => { o with phase := .waiting }

/-- A checked remote command starts: in software, or here. -/
def Start.remote (node : BitVec 18) (s : State) : Start :=
  if s.circuitsUsable node then .go s id else .bad s .cbrk

/-- The operation has sent its last frame, or met a local fault: it waits for the acknowledgement of what it sent. -/
def State.sentAll (s : State) : State :=
  (s.settleDrops []).modHere fun o => Op.settleAcks { o with phase := .waiting, sawF := true }

/-- A local fault at the current element. -/
def State.localFault (s : State) (st : Status) (a : Int) : State := (s.noteFault st a).sentAll

/-- One frame of the operation at the cursor on its circuit; the operation waits while it has no credit. -/
def State.sendOp (s : State) (node : BitVec 18) (cls : BitVec 2) (op : RemoteOp) (payload : List Byte) (f : Op → Op) : State :=
  let (s, c) := s.openCircuit (some (s.cur.m, s.coreHere)) node cls
  if !c.credit then s
  else
    let (s, seq) := s.sendData c op.code payload
    s.modHere fun o => (f o).await c.num seq

/-- A frame of the operation at the cursor would find credit on its circuit. -/
def State.maySend (s : State) (node : BitVec 18) (cls : BitVec 2) : Bool :=
  decide (node = s.hub.nodeId) || (s.hub.outCircuit (some (s.cur.m, s.coreHere)) node cls).all Circuit.credit

/-- The refusal of a local remote command at an element (R399). -/
def State.refuseHere (s : State) (w : Walk) (o : Op) (st : Status) : State := s.endOp st false (s.faultAddr (s.opAgent o) w o.idx)

/-- SPUT's next element, read once its frame may go. -/
def State.putElem (s : State) (c : Command) (o : Op) (w : Walk) : State :=
  if w.count ≤ o.idx then s.sentAll
  else if !s.maySend (nodeOf c) (classOf c) then s
  else
    let ag := s.opAgent o
    match s.elemAddr ag w o.idx with
    | (s, .wait) => s
    | (s, .fail st a) => s.localFault st a
    | (s, .at_ a) =>
      match s.readMem ag a w.size with
      | (s, .wait) => s
      | (s, .fail x) => s.localFault x.status a
      | (s, .ok bs p) =>
        let s := s.noteDrop c a w.size
        let s := if c.drp then s.settleDrops (s.walkLines ag w (o.idx + 1) w.count) else s
        let off := o.idx * w.size
        let next (o : Op) : Op := { o with idx := o.idx + 1 }
        if nodeOf c = s.hub.nodeId then
          match s.remotePut p off (linePieces (c.addr.toNat + off) w.size) bs with
          | (s, none) => s.modHere next
          | (s, some x) => s.endOp x.1 false (toWord a)
        else s.sendOp (nodeOf c) (classOf c) .put
          (opPayload s.cur.m s.coreHere o off (c.addr.toNat + off) (bytesOf 1 (b2n p) ++ bs)) next

/-- SPUT (R401). -/
def execSput (c : Command) (s : State) : Out :=
  .next (s.runOp (fun s o =>
      Start.require (c.sub == 0 && decide (bits c.arg.toNat 24 20 = 0)) .badCmd
        (Start.require (walkOf o.wa).ok .badCmd (Start.remote (nodeOf c))) s)
    fun s o =>
      if s.hub.assisted 3 ∧ o.idx = 0 ∧ o.awaitSeq = [] then s.issueAssisted o else s.putElem c o (walkOf o.wa))

/-- SGET writes what its reply brought to the element; a fault ends it there (R401). -/
def State.getWrite (s : State) (o : Op) (w : Walk) : State :=
  let ag := s.opAgent o
  match s.elemAddr ag w o.idx with
  | (s, .wait) => s
  | (s, .fail st a) => s.endOp st false (BitVec.ofInt 64 a)
  | (s, .at_ a) =>
    match s.writeMem ag a o.buf (decide (o.lanes = 2)) with
    | (s, .wait) => s
    | (s, .fail x) => s.endOp x.status false (toWord a)
    | (s, .ok) => s.modHere fun o => { o with idx := o.idx + 1, buf := [], bufP := false, lanes := 0 }

/-- SGET has written its last reply, which completes it (R31). -/
def State.gotAll (s : State) : State := (s.modHere fun o => { o with awaitSeq := [] }).sentAll

/-- SGET's next element: its request, its reply, and its write (R401). -/
def State.getElem (s : State) (c : Command) (o : Op) (w : Walk) : State :=
  if w.count ≤ o.idx then s.gotAll
  else if o.bufP then s.getWrite o w
  else if o.lanes = 1 then s
  else
    let off := o.idx * w.size
    if nodeOf c = s.hub.nodeId then
      match s.remoteGet off (linePieces (c.addr.toNat + off) w.size) with
      | .error x => s.refuseHere w o x.1
      | .ok bs => s.modHere fun o => { o with buf := bs.1, bufP := true, lanes := if bs.2 then 2 else 0 }
    else s.sendOp (nodeOf c) (classOf c) .getRequest
      (opPayload s.cur.m s.coreHere o off (c.addr.toNat + off) (bytesOf 2 w.size)) fun o => { o with lanes := 1 }

/-- SGET (R401). -/
def execSget (c : Command) (s : State) : Out :=
  .next (s.runOp (fun s o =>
      Start.require (c.sub == 0 && decide (bits c.arg.toNat 24 20 = 0)) .badCmd
        (Start.require (walkOf o.wa).ok .badCmd (Start.remote (nodeOf c))) s)
    fun s o =>
      if s.hub.assisted 3 ∧ o.idx = 0 ∧ o.lanes = 0 ∧ !o.bufP then s.issueAssisted o else s.getElem c o (walkOf o.wa))

/-- SIGNAL's store or add at a local element (R407). -/
def State.signalLocal (s : State) (c : Command) (o : Op) (a : Nat) : State :=
  let ag := s.opAgent o
  let add := c.arg.getLsbD 20
  let kind : Kind := if add then .atomic else .store
  match s.pieceCheck ag a kind with
  | (s, .fail x) => s.localFault x.status a
  | (s, .ok (.mem pa)) =>
    let next (s : State) : State := (s.usedLines ag kind.code [pa]).modHere fun o => { o with idx := o.idx + 1 }
    if !add then next (s.withMem (s.mem.put pa 8 c.addr.toNat))
    else if s.mem.dead pa 8 then s.localFault .dropRd a
    else if s.mem.poisoned pa 8 then s.localFault .poison a
    else if !s.atomicTurn pa ag then s
    else next ((s.withMem (s.mem.put pa 8 ((s.mem.num pa 8 + c.addr.toNat) % 2 ^ 64))).atomicAt pa ag)
  | (s, _) => s

/-- SIGNAL's next element. -/
def State.signalElem (s : State) (c : Command) (o : Op) (w : Walk) : State :=
  if w.count ≤ o.idx then s.sentAll
  else if c.arg.getLsbD 24 then
    let off := o.idx * 8
    let addr := match s.elemAddr (s.opAgent o) w o.idx with
      | (s, .at_ a) => (s, some a)
      | (s, .fail st a) => (s.localFault st a, none)
      | (s, .wait) => (s, none)
    match addr with
    | (s, none) => s
    | (s, some a) =>
      let next (o : Op) : Op := { o with idx := o.idx + 1 }
      if nodeOf c = s.hub.nodeId then
        if c.arg.getLsbD 20 ∧ !s.remoteTurn a then s
        else match s.remoteSignal off a c.addr.toNat (c.arg.getLsbD 20) with
        | (s, none) => s.modHere next
        | (s, some x) => s.endOp x.1 false (toWord a)
      else s.sendOp (nodeOf c) (classOf c) .signal
        (opPayload s.cur.m s.coreHere o off a (bytesOf 8 c.addr.toNat ++ bytesOf 1 (b2n (c.arg.getLsbD 20)))) next
  else match s.elemAddr (s.opAgent o) w o.idx with
  | (s, .wait) => s
  | (s, .fail st a) => s.localFault st a
  | (s, .at_ a) => s.signalLocal c o a

/-- Every earlier operation of the launch on the engine has completed (R407). -/
def Core.earlierDone (k : Core) (o : Op) : Bool :=
  !k.ops.any fun x => x.engine == o.engine && x.lid == o.lid && decide (x.id < o.id) && x.phase != .completed

/-- SIGNAL (R407). -/
def execSignalCmd (c : Command) (s : State) : Out :=
  let remote := c.arg.getLsbD 24
  .next (s.runOp (fun s o =>
      if !(s.core s.cur.m s.coreHere).earlierDone o then .wait s
      else Start.require (c.sub == 0 && decide (c.scp.toNat < 6) && decide (bits c.arg.toNat 23 21 = 0)) .badCmd
        (Start.require ((walkOf o.wa).ok && decide ((walkOf o.wa).esz = 3)) .badCmd
          (if remote then Start.remote (nodeOf c) else fun s => .go s id)) s)
    fun s o =>
      if remote ∧ s.hub.assisted 3 ∧ o.idx = 0 ∧ o.awaitSeq = [] then s.issueAssisted o else s.signalElem c o (walkOf o.wa))

/-! ### ARED (R402) -/

/-- A participant's message to node 0 of the list. -/
def State.toRoot (s : State) (c : Command) (a : Ared) (kind : Nat) (body : List Byte) (f : Op → Op) : State :=
  let root := BitVec.ofNat 18 (a.nodes.headD 0)
  let msg := bytesOf 1 kind ++ bytesOf 2 a.group ++ body
  if root = s.hub.nodeId then (s.modHere f).aredIn root (classOf c) msg
  else s.sendOp root (classOf c) .reduction msg f

/-- Take the oldest message of a kind for a group. -/
def State.pollAred (s : State) (group kind : Nat) : Option (List Byte × State) :=
  let mine (x : BitVec 16 × List Byte) : Bool := x.1.toNat == group && (x.2.headD 0).toNat == kind
  (s.hub.aredIn.find? mine).map fun x => (x.2.drop 3, s.modHub fun h => { h with aredIn := h.aredIn.eraseP mine })

/-- Another reduction of this module has the group in progress. -/
def State.groupBusy (s : State) (o : Op) (group : Nat) : Bool :=
  s.rows.toList.any fun r => r.cores.toList.any fun k => k.ops.any fun x =>
    decide (cmdOp x.cmd = 0x42 ∧ x.phase = .moving ∧ 1 ≤ x.lanes ∧ (aredOf x).group = group) && x != o

/-- What an earlier reduction of the group left unread here is dropped. -/
def State.forgetAred (s : State) (o : Op) (group : Nat) : State :=
  if s.groupBusy o group then s
  else s.modHub fun h => { h with aredIn := h.aredIn.filter fun x => x.1.toNat != group }

/-- ARED reads its next source element, once what it then has may go. -/
def State.aredRead (s : State) (c : Command) (o : Op) (a : Ared) : State :=
  let va := a.src + o.idx * a.w
  if !s.maySend (BitVec.ofNat 18 (a.nodes.headD 0)) (classOf c) then s
  else if va % a.w ≠ 0 then s.localFault .align va
  else match s.readMem (s.opAgent o) va a.w with
  | (s, .wait) => s
  | (s, .fail x) => s.localFault x.status va
  | (s, .ok bs p) =>
    let s := s.noteDrop c va a.w
    let s := if c.drp then s.settleDrops (if o.idx + 1 = a.len then [] else spadLines (va + a.w) a.w) else s
    let buf := o.buf ++ bs ++ bytesOf 1 (b2n p)
    if o.idx + 1 = a.len ∨ 4000 ≤ buf.length then
      s.toRoot c a 2 buf fun o =>
        { o with buf := [], idx := if o.idx + 1 = a.len then 0 else o.idx + 1, lanes := if o.idx + 1 = a.len then 3 else o.lanes }
    else s.modHere fun o => { o with idx := o.idx + 1, buf := buf }

/-- ARED writes its next result element. -/
def State.aredWrite (s : State) (o : Op) (a : Ared) : State :=
  if a.len ≤ o.idx then s.sentAll
  else if o.buf.length < a.rec_ then
    match s.pollAred a.group 3 with
    | none => s
    | some (bs, s) => s.modHere fun o => { o with buf := o.buf ++ bs }
  else
    let va := a.dst + o.idx * a.w
    if va % a.w ≠ 0 then s.localFault .align va
    else match s.writeMem (s.opAgent o) va (o.buf.take a.w) (decide (o.buf.getD a.w 0 ≠ 0)) with
    | (s, .wait) => s
    | (s, .fail x) => s.localFault x.status va
    | (s, .ok) => s.modHere fun o => { o with idx := o.idx + 1, buf := o.buf.drop a.rec_ }

/-- The reduction block's values (R402). -/
def aredBlock (own : Nat) (hdr list : List Byte) : Option Ared :=
  let f (o n : Nat) : Nat := payField hdr o n
  let nodes := (blocks 4 list.length list).map natOf
  let a : Ared := { src := f 0 8, dst := f 8 8, len := f 0x10 4, ty := bits (f 0x10 8) 35 32, group := f 0x18 2, nodes := nodes }
  if 1 ≤ a.len ∧ a.len ≤ 2 ^ 24 ∧ (a.ty ≤ 2 ∨ a.ty = 0xD)
      ∧ nodes.all (fun n => decide (n < 2 ^ 18)) ∧ (nodes.filter fun n => n == own).length = 1 then some a
  else none

/-- ARED (R402). -/
def execAred (c : Command) (s : State) : Out :=
  .next (s.runOp (fun s o =>
      Start.require (decide (c.sub.toNat ≤ 2 ∧ bits c.arg.toNat 24 20 = 0 ∧ bits c.arg.toNat 17 0 = 0)) .badCmd
        (Start.require (decide (s.hub.nodeId ≠ 0) && !s.hub.upPorts.isEmpty) .cbrk
          (Start.block o c.addr 64 0x40 fun hdr s =>
            let n := bits (payField hdr 0x18 8) 23 16
            if n < 2 ∨ 64 < n then .bad s .badDesc
            else Start.block o (c.addr + 0x40) 64 (4 * n) (fun list s =>
              match aredBlock s.hub.nodeId.toNat hdr list with
              | none => .bad s .badDesc
              | some a =>
                if a.nodes.any fun n => n == 0 || n == 0x3FFFF then .bad s .cbrk
                else .go s fun o => { o with aux := a.aux }) s)) s)
    fun s o =>
      let a := aredOf o
      match o.lanes with
      | 0 =>
        if s.hub.assisted 3 then s.issueAssisted o
        else (s.forgetAred o a.group).toRoot c a 0 ([if s.groupBusy o a.group then 1 else 0] ++ a.params c.sub.toNat) fun o => { o with lanes := 1 }
      | 1 =>
        match s.pollAred a.group 1 with
        | none => s
        | some (v, s) => if v.headD 1 = 0 then s.modHere fun o => { o with lanes := 2 } else s.refuseOp .badDesc
      | 2 => s.aredRead c o a
      | _ => s.aredWrite o a)

/-! ### Responses of a host-assisted collective engine (R400) -/

/-- DONE for ISSUE: the operation ends once every frame sent for it is acknowledged. -/
def State.issueDone (s : State) (m : RowId) (c : CoreId) (id : Nat) (st : Status) : State :=
  s.modOp m c id fun o => if o.phase = .waiting then Op.settleAcks { o with status := st, sawF := true } else o

/-- DONE for ARRIVE: the frame is acknowledged, with the refusal if it was refused. -/
def State.arriveDone (s : State) (src : BitVec 18) (circ : BitVec 16) (seq : BitVec 32) (tag st off : Nat) : State :=
  let r : Option (Nat × Nat × Nat) := if st = 0 then none else some (tag, st, off)
  let s := s.modCircuit false src circ fun x => { x.refuse r with open_ := x.open_.filter fun q => q != seq }
  match s.hub.circuit false src circ with
  | some c => s.sendControl c 1 c.refusals
  | none => s

/-- SEND: one DATA frame on the circuit it names; the request stays open. -/
def State.assistSend (s : State) (issuer : Option (RowId × CoreId × Nat)) (w2 w3 : Word) : State :=
  let node : BitVec 18 := w2.setWidth 18
  let cls := BitVec.ofNat 2 (wbits w2 19 18)
  let len := min (wbits w2 40 28) 4096
  let bytes := s.mem.read w3.toNat len
  let (s, c) := s.openCircuit (issuer.map fun x => (x.1, x.2.1)) node cls
  let (s, seq) := s.sendData c (BitVec.ofNat 8 (wbits w2 27 20)) bytes
  match issuer with
  | some (m, k, id) => s.modOp m k id fun o => o.await c.num seq
  | none => s

/-- The response of function 3 to what waits under `who` (Table 15.11); whether the request closes. -/
def State.assistCollective (s : State) (who : List Nat) (w : Nat → Word) : State × Bool :=
  let g (i : Nat) : Nat := who.getD i 0
  let action := wbits (w 1) 1 0
  let st := if 2 ≤ action then Status.badDesc else (statusOf (wbits (w 0) 7 0)).getD .badDesc
  let m : RowId := Fin.ofNat 24 (g 1)
  let c : CoreId := Fin.ofNat 8 (g 2)
  if g 0 = 0 then
    if action = 1 then (s.assistSend (some (m, c, g 3)) (w 2) (w 3), false) else (s.issueDone m c (g 3) st, true)
  else if action = 1 then (s.assistSend none (w 2) (w 3), false)
  else (s.arriveDone (BitVec.ofNat 18 (g 1)) (BitVec.ofNat 16 (g 2)) (BitVec.ofNat 32 (g 3)) (g 4) st.code (wbits (w 2) 47 0), true)

end Sys2Proof.Machine
end

