-- ==== Sys2Proof/Machine/Signals.lean ====
section
/-! DEFINITION. Marks, barriers, join nodes and the links of GRAPH regions, and the request for a checkpoint (R96, R229, R403,
R405, R406, R408). -/

namespace Sys2Proof.Machine

/-! ### MARK (R406) -/

/-- MARK: the record is written as the operation starts. -/
def execMarkCmd (c : Command) (s : State) : Out :=
  .next (s.runOp (fun s _ =>
      Start.require (c.sub == 0 && decide (bits c.arg.toNat 24 16 = 0)) .badCmd
        (fun s => .go (s.trace s.cur.m s.coreHere 2 0 (bits c.arg.toNat 15 0) c.addr.toNat) id) s)
    fun s _ => s.endOk)

/-! ### BAR (R408) -/

/-- The target of a barrier command. -/
def barTarget (c : Command) : Nat := bits c.arg.toNat 23 0

/-- The operation at the cursor waits at its word's home, under a number of its own. -/
def State.barWaits (s : State) (o : Op) (pa goal : Nat) : State :=
  let no := s.mem.barNo
  let b : BarWait := { no := no, lid := o.lid, pa := pa, goal := goal, met := decide (goal ≤ s.mem.num pa 8) }
  (s.withMem { s.mem with bars := s.mem.bars ++ [b], barNo := no + 1 }).modHere fun o => { o with aux := [goal, pa, no] }

/-- BAR's add at the word's home. -/
def State.barAdd (s : State) (c : Command) (o : Op) : State :=
  match s.pieceCheck (s.opAgent o) c.addr.toNat .atomic with
  | (s, .fail x) => s.endOp x.status false c.addr
  | (s, .ok (.mem pa)) =>
    if s.mem.dead pa 8 then s.endOp .dropRd false c.addr
    else if s.mem.poisoned pa 8 then s.endOp .poison false c.addr
    else if !s.atomicTurn pa (s.opAgent o) then s
    else
        let v := s.mem.num pa 8
        let s := (s.withMem (s.mem.put pa 8 ((v + 1) % 2 ^ 64))).atomicAt pa (s.opAgent o)
        let goal := (v / barTarget c + 1) * barTarget c
        if 2 ^ 64 ≤ goal then s.endOp .limit false c.addr else s.barWaits o pa goal
  | (s, _) => s

/-- BAR: the add at the home, then the wait there until a write has met its generation, with no further request (R408). A restored
operation waits anew, and one whose word's cell its launch has given up once it has it back (R247, R266). -/
def execBarCmd (c : Command) (s : State) : Out :=
  .next (s.runOp (fun s _ =>
      Start.require (c.sub == 0 && decide (c.scp.toNat < 6 ∧ bits c.arg.toNat 24 24 = 0 ∧ barTarget c ≠ 0)) .badCmd
        (Start.require (decide (c.addr.toNat % 8 = 0)) .align fun s => .go s id) s)
    fun s o =>
      match o.aux with
      | goal :: pa :: rest => match s.mem.bars.find? fun b => rest.head? == some b.no with
        | some b => if b.met then State.endOk (s.withMem { s.mem with bars := s.mem.bars.filter (· != b) }) else s
        | none =>
          if spadBase ≤ pa ∧ s.vacated o.lid (sliceBase + (pa - spadBase)) then s else s.barWaits o pa goal
      | _ => s.barAdd c o)

/-! ### CKPT (R405) -/

/-- CKPT: the operation waits for its checkpoint; one that has begun does not meet it. -/
def execCkpt (c : Command) (s : State) : Out :=
  .next (s.runOp (fun s _ =>
      Start.require (c.sub == 0) .badCmd
        (Start.require (decide (s.hub.ck.size ≠ 0) && s.hub.ck.en && s.hub.ck.rows.getLsbD s.cur.m.val) .badDesc
          fun s => .go s id) s)
    fun s _ => s.modHere fun o => { o with phase := .waiting })

/-! ### Links (R96, R229) -/

/-- A link's circuit: the arc its tokens leave and the arc they enter, each with its region. -/
structure LinkPath where
  sm : RowId
  sc : CoreId
  sslot : SlotId
  sarc : Nat
  selem : Nat
  dm : RowId
  dc : CoreId
  dslot : SlotId
  darc : Nat
  delem : Nat
  deriving DecidableEq, Repr

/-- An edge of the circuit's path between dies has gone down (R20, R21). -/
def State.pathCut (s : State) (p : LinkPath) : Bool := (s.hub.cutEdge (dieOf p.sm) (dieOf p.dm)).isSome

/-- The circuit of a region's link, once the requester's port is bound. -/
def State.linkPath (s : State) (m : RowId) (c : CoreId) (slot : SlotId) (g : Region) (l : PortLink) : Option LinkPath :=
  match (s.core l.m l.c).portAt (if l.toRequester then 0 else 1) l.port with
  | none => none
  | some (rs, re) =>
    match s.region l.m l.c rs with
    | none => none
    | some r =>
      if l.toRequester then
        match g.inArc l.elem 0, r.outArc re 0 with
        | some a, some b => some { sm := m, sc := c, sslot := slot, sarc := a, selem := l.elem, dm := l.m, dc := l.c, dslot := rs
                                   darc := b, delem := re }
        | _, _ => none
      else
        match r.inArc re 0, g.outArc l.elem 0 with
        | some a, some b => some { sm := l.m, sc := l.c, sslot := rs, sarc := a, selem := re, dm := m, dc := c, dslot := slot
                                   darc := b, delem := l.elem }
        | _, _ => none

/-- The join node that holds a circuit of a launch's region, with the member's number. -/
def Hub.joinOf (h : Hub) (p : LinkPath) (lid : BitVec 16) : Option (JoinNode × Nat) :=
  h.joins.findSome? fun j =>
    (j.members.findIdx? fun x => decide (x.m = p.sm ∧ x.c = p.sc ∧ x.slot = p.sslot ∧ x.lid = lid ∧ x.src = p.sarc)).map fun i => (j, i)

/-- A joined circuit presents a token when it is an unstamped one, or its stamp is the lowest not yet presented. -/
def JoinNode.mayPresent (j : JoinNode) (i : Nat) : Bool :=
  !j.broken && ((j.members[i]?).any (fun x => decide (x.plain ≠ 0)) || j.order.head? == some i)

/-- A token of member i has been presented. -/
def JoinNode.present (j : JoinNode) (i : Nat) : JoinNode :=
  if (j.members[i]?).any fun x => decide (x.plain ≠ 0) then
    { j with members := modAt (fun x => { x with plain := x.plain - 1 }) i j.members }
  else { j with order := j.order.drop 1 }

/-- A link carries the token at the head of its source to its destination, when there is room and the regions run. -/
def State.moveLink (s : State) (m : RowId) (c : CoreId) (slot : SlotId) (i : Nat) : State :=
  match (s.region m c slot).bind fun g => (g.links[i]?).bind fun l => s.linkPath m c slot g l with
  | none => s
  | some p =>
    match s.region p.sm p.sc p.sslot, s.region p.dm p.dc p.dslot with
    | some a, some b =>
      match (a.arcs[p.sarc]?).bind Arc.dataHead, b.arcs[p.darc]?, a.elems[p.selem]?, b.elems[p.delem]? with
      | some t, some arc, some ae, some be =>
        let join := s.hub.joinOf p a.lid
        if arc.room = 0 || !a.portMoves ae || !b.portMoves be || !s.engineMoves p.sm || !s.engineMoves p.dm
            || join.any (fun x => !x.1.mayPresent x.2) || s.pathCut p then s
        else
          let s := match join with
            | some (j, k) => s.modHub fun h => { h with joins := h.joins.map fun x => if x = j then x.present k else x }
            | none => s
          let s := (s.popArc p.sm p.sc p.sslot p.sarc).push p.dm p.dc p.dslot p.darc { t.2 with ctx := be.ctx }
          (s.settle p.sm p.sc p.sslot).settle p.dm p.dc p.dslot
      | _, _, _, _ => s
    | _, _ => s

/-! ### CJOIN (R229, R403) -/

/-- The circuits of every link that stands. -/
def State.allPaths (s : State) : List LinkPath :=
  (finsN 24).flatMap fun m => (finsN 8).flatMap fun c => (finsN 8).flatMap fun slot =>
    match s.region m c slot with
    | none => []
    | some g => g.links.filterMap fun l => s.linkPath m c slot g l

/-- The cross-die circuit that an entry of a join block names, with its owner's RCB and arc. -/
def State.joinEntry (s : State) (lid : BitVec 16) (rcb : Word) (arc : Nat) : Option LinkPath :=
  match s.graphRegion lid rcb with
  | none => none
  | some (m, c, slot) =>
    s.allPaths.find? fun p =>
      decide ((p.sm = m ∧ p.sc = c ∧ p.sslot = slot ∧ p.sarc = arc) ∨ (p.dm = m ∧ p.dc = c ∧ p.dslot = slot ∧ p.darc = arc))
        && decide (dieOf p.sm ≠ dieOf p.dm)

/-- Data tokens that stand on an arc, or that a breakpoint holds back from it. -/
def State.tokensOn (s : State) (p : LinkPath) : Nat :=
  (((s.region p.sm p.sc p.sslot).bind fun g => g.arcs[p.sarc]?).map fun a =>
    ((a.toks ++ a.held).filter fun t => !t.2.marker).length).getD 0

/-- CJOIN's action on the entries of its block. -/
def State.joinCircuits (s : State) (o : Op) (entries : List (Word × Nat)) : State :=
  let ps := entries.filterMap fun e => (s.joinEntry o.lid e.1 e.2).map fun p => (e, p)
  match ps with
  | [] => s.refuseOp .badDesc
  | (_, p0) :: _ =>
    let oneWay := ps.all fun x => decide (dieOf x.2.sm = dieOf p0.sm ∧ dieOf x.2.dm = dieOf p0.dm)
    let twice := decide ((ps.map (·.2)).eraseDups.length < ps.length) || ps.any fun x => (s.hub.joinOf x.2 o.lid).isSome
    if ps.length ≠ entries.length || !oneWay || twice then s.refuseOp .badDesc
    else if 16 ≤ (s.hub.joins.filter fun j => j.dstDie == dieOf p0.dm).length then s.refuseOp .limit
    else
      let ms := ps.map fun x =>
        ({ rcb := x.1.1, arc := x.1.2, m := x.2.sm, c := x.2.sc, slot := x.2.sslot, src := x.2.sarc, lid := o.lid
           plain := s.tokensOn x.2 } : JoinMember)
      State.endOk (s.modHub fun h => { h with joins := h.joins ++
        [{ srcDie := dieOf p0.sm, dstDie := dieOf p0.dm, members := ms, order := [], broken := ps.any fun x => s.pathCut x.2 }] })

/-- CJOIN (R403). -/
def execCjoin (c : Command) (s : State) : Out :=
  .next (s.runOp (fun s o =>
      Start.require (c.sub == 0) .badCmd
        (Start.block o c.addr 64 8 fun hdr s =>
          let n := payField hdr 0 8 % 16
          if n < 2 ∨ 8 < n then .bad s .badDesc
          else Start.block o (c.addr + 0x10) 16 (16 * n) (fun bs s =>
            .go s fun o => { o with aux := (List.range (2 * n)).map fun i => payField bs (8 * i) 8 }) s) s)
    fun s o => s.joinCircuits o ((blocks 2 o.aux.length o.aux).map fun x => (toWord (x.getD 0 0), x.getD 1 0 % 4096)))

end Sys2Proof.Machine
end

