-- ==== Sys2Proof/Machine/Graph.lean ====
section
/-! DEFINITION. LAUNCH, the fabric manager's service of GRAPH requests and the firing of breakpoints (R93–R97, R256, R404). -/

namespace Sys2Proof.Machine

/-! ### LAUNCH (R404) -/

/-- The fields of a GRAPH request (Tables 5.4 and 15.8) in its block's 256 bytes. -/
structure GraphBlock where
  image : Word
  w : Nat
  h : Nat
  ctxn : BitVec 2
  donea : Word
  donev : Word
  qk : BitVec 32
  prio : Nat
  scope : Nat
  fold : Bool
  wait : Bool
  resa : Word
  /-- direction, element and port -/
  links : List (Bool × Nat × Nat)
  deriving DecidableEq, Repr

/-- The fields of a block. -/
def graphBlock (bs : List Byte) : GraphBlock :=
  let d (o : Nat) : Nat := payField bs o 8
  let w1 := d 8
  let x := d 0x80
  { image := toWord (d 0), w := bits w1 13 10, h := bits w1 16 14, ctxn := BitVec.ofNat 2 (bits w1 18 17)
    donea := toWord (d 0x10), donev := toWord (d 0x18), qk := BitVec.ofNat 32 (payField bs 0x20 4), prio := bits x 1 0
    scope := bits x 3 2, fold := bitN x 4, wait := bitN x 5, resa := toWord (d 0x88)
    links := (List.range (bits x 8 6)).map fun i => let l := d (0x90 + 8 * i); (bitN l 16, bits l 15 4, bits l 3 0) }

/-- The fields of a block that are refused (R404, Table 5.6). -/
def badGraphBlock (bs : List Byte) : Bool :=
  let x := payField bs 0x80 8
  decide (bits x 63 9 ≠ 0 ∨ 4 < bits x 8 6 ∨ payField bs 0x88 8 % 8 ≠ 0 ∨ payField bs 0x10 8 % 8 ≠ 0)

/-- Every port that a link names is bound to a region of the requester's launch (R404). -/
def State.linksBound (s : State) (o : Op) (b : GraphBlock) : Bool :=
  b.links.all fun l =>
    ((s.core s.cur.m s.coreHere).portAt (if l.1 then 0 else 1) l.2.2).any fun x =>
      (s.region s.cur.m s.coreHere x.1).any fun g => g.lid == o.lid

/-- The checks of a GRAPH request. -/
def Start.graph (c : Command) (o : Op) (s : State) : Start :=
  let own := (ownSlices s.cur.m s.cur.p).toNat
  let inside (a : Nat) : Bool := namesSlice a && decide (a / 2 ^ 23 = own / 2 ^ 23)
  if c.addr.toNat % 128 ≠ 0 then .bad s .align
  else if !inside c.addr.toNat || !inside (c.addr.toNat + 255) then .bad s .perm
  else Start.block o c.addr 128 256 (fun bs s =>
    if badGraphBlock bs then .bad s .badDesc
    else if !s.linksBound o (graphBlock bs) then .bad s .noPort
    else .go s fun o => { o with buf := bs }) s

/-- LAUNCH of a ROWS request: the descriptor's address is translated and the launch submitted. -/
def State.submitRows (s : State) (o : Op) (desc : Nat) : State :=
  let ag := s.opAgent o
  let window := (sliceBase ≤ desc ∧ desc < sliceBase + 2 ^ 32) ∨ (cellRegBase ≤ desc ∧ desc < cellRegBase + 2 ^ 32)
  if desc % 128 ≠ 0 then s.endOp .align true o.cmdAddr
  else if 2 ^ 52 ≤ desc ∨ window then s.endOp .xlate true o.cmdAddr
  else match s.translate ag desc with
  | (s, .wait) => s
  | (s, .fail _) => s.endOp .xlate true o.cmdAddr
  | (s, .ok e) =>
    let (s, st, lid) := s.submit (e.pbase + (desc - e.vbase)) none
    s.modHere fun o => { o with status := st, aux := o.aux ++ [(lsubstWord st lid).toNat] }

/-- The result word is written before the operation completes. -/
def State.launchResult (s : State) (o : Op) (resa w : Nat) : State :=
  if resa = 0 then s.endOp o.status true o.cmdAddr
  else match s.writeMem (s.opAgent o) resa (bytesOf 8 w) with
  | (s, .ok) => s.endOp o.status true o.cmdAddr
  | (s, .fail c) => s.endOp c.status true (toWord resa)
  | (s, .wait) => s

/-- A request's place in a queue: behind those that came before it (R94). -/
def GraphReq.enter (r : GraphReq) (q : List GraphReq) : List GraphReq :=
  q.takeWhile (fun x => decide (x.no < r.no)) ++ r :: q.dropWhile fun x => decide (x.no < r.no)

/-- A GRAPH request enters the queue of its priority, or waits while that is full (R94). -/
def State.queueGraph (s : State) (o : Op) : State :=
  let p := levelOf (graphBlock o.buf).prio
  if 256 ≤ (s.hub.graphs[p]).length then s
  else
    let r : GraphReq := { m := s.cur.m, c := s.coreHere, op := o.id, no := s.hub.graphNo }
    (s.modHub fun h => { h with graphs := vmod h.graphs p fun q => q ++ [r], graphNo := h.graphNo + 1 }).modHere fun o =>
      { o with phase := .waiting }

/-- LAUNCH (R404). -/
def execLaunchCmd (c : Command) (s : State) : Out :=
  .next (s.runOp (fun s o =>
      Start.require (decide (c.sub.toNat ≤ 1)) .badCmd
        (if c.sub = 1 then Start.graph c o
         else Start.block o c.addr 128 16 fun bs s =>
          if payField bs 8 8 % 8 ≠ 0 then .bad s .badDesc
          else .go s fun o => { o with aux := [payField bs 0 8, payField bs 8 8] }) s)
    fun s o =>
      if c.sub = 1 then s.queueGraph o
      else match o.aux with
        | [desc, _] => s.submitRows o desc
        | [_, resa, w] => s.launchResult o resa w
        | _ => s)

/-! ### The fabric manager (R94–R96) -/

/-- The cores that a request may use, those of rows that its launch holds, in the order of the search (R95); within another row from core 0 eastward, which the manual
leaves open (DESIGN CHOICE, log entry 54). -/
def State.graphCores (s : State) (lid : BitVec 16) (m : RowId) (c : CoreId) (scope : Nat) : List (RowId × CoreId) :=
  let held (x : RowId × CoreId) : Bool := (s.row x.1).lid == some lid
  let row (i : RowId) : List (RowId × CoreId) := (finsN 8).map fun k => (i, k)
  let east := (List.range 7).map fun d => (m, (Fin.ofNat 8 (c.val + 1 + d) : CoreId))
  let onDie := ((finsN 24).filter fun i => decide (i ≠ m ∧ dieOf i = dieOf m)).flatMap row
  let off := ((finsN 24).filter fun i => decide (dieOf i ≠ dieOf m)).flatMap row
  ([(m, c)] ++ (if 1 ≤ scope then east else []) ++ (if 2 ≤ scope then onDie else []) ++ (if 3 ≤ scope then off else [])).filter held

/-- A region that is still LOADING has been given cells of a rectangle in one of the contexts (R95). -/
def Core.loadingClash (k : Core) (r : Rect) (ctxs : List (BitVec 2)) : Bool :=
  k.regions.toList.any fun g => g.any fun g =>
    let own := (parseImage g.copy).elim [g.ctxn] fun im => usedCtxs im g.var g.ctxn
    g.st == .loading && own.any ctxs.contains && g.rect.cells.any r.cells.contains

/-- The attic's placement of an image in a rectangle, or the placement engine's own (R90, R91). -/
def Hub.placesIn (h : Hub) (im : ImageData) (var : BitVec 2) (r : Rect) : Option (List (Nat × Nat × Nat)) :=
  match h.atticEntry im.hash (r.shape var.toNat) with
  | some a => some (a.places.map fun p => (p.1, p.2.1, p.2.2 + r.origin))
  | none => placeImage im var r

/-- Software is to place an image in a rectangle, and what it will answer is not known (R97). -/
def Hub.asksPlace (h : Hub) (im : ImageData) (var : BitVec 2) (r : Rect) : Bool :=
  (h.atticEntry im.hash (r.shape var.toNat)).isNone && h.assisted 0

/-- The placement engine would find cells and element slots in a rectangle (R90, R91, R97, R131). -/
def State.wouldPlace (s : State) (x : RowId × CoreId) (slot : SlotId) (im : ImageData) (var : BitVec 2) (r : Rect) : Bool :=
  s.hub.asksPlace im var r || (s.hub.placesIn im var r).any fun ps => ((s.core x.1 x.2).slotsFor slot im var r ps).isSome

/-- The variants that a request may have, in the order of the search (R95). -/
def GraphBlock.vars (b : GraphBlock) (im : ImageData) : List (BitVec 2) :=
  0 :: if b.fold then [1, 2].filter fun v => im.folds.any fun f => f.1 == v else []

/-- Some rectangle of the board would take the image, were every core free; where none would, the image does not fit the rectangle
that the request states (Table 3.2). -/
def State.fitsBoard (s : State) (b : GraphBlock) (im : ImageData) : Bool :=
  (b.vars im).any fun v => (List.range 128).any fun org =>
    let r := rectOf org b.w b.h
    r.fits && (s.hub.asksPlace im v r || (s.hub.placesIn im v r).isSome)

/-- The lowest free slot and the lowest free origin of a core for an image, where it fits (R90, R95). -/
def State.roomOn (s : State) (lid : BitVec 16) (b : GraphBlock) (im : ImageData) (var : BitVec 2) (x : RowId × CoreId) :
    Option (SlotId × Nat) :=
  match (finsN 8).find? fun i => ((s.core x.1 x.2).regions[i]).isNone with
  | none => none
  | some slot =>
    ((List.range 128).find? fun org =>
      let r := rectOf org b.w b.h
      s.roomFor x.1 x.2 slot lid im var b.ctxn r (b.links.map fun l => l.2.1)
        && !(s.core x.1 x.2).loadingClash r (usedCtxs im var b.ctxn) && s.wouldPlace x slot im var r).map fun org => (slot, org)

/-- Where a request's region goes: variant, core, slot and origin. -/
def State.graphTarget (s : State) (lid : BitVec 16) (b : GraphBlock) (im : ImageData) (cores : List (RowId × CoreId)) :
    Option (BitVec 2 × (RowId × CoreId) × SlotId × Nat) :=
  (b.vars im).findSome? fun v => cores.findSome? fun x => (s.roomOn lid b im v x).map fun y => (v, x, y.1, y.2)

/-- The region of a request begins to be placed, with the image as the request's service has read it (R321). -/
def State.beginGraph (s : State) (req : GraphReq) (o : Op) (b : GraphBlock) (copy : List Byte) (var : BitVec 2)
    (x : RowId × CoreId) (slot : SlotId) (org : Nat) : State :=
  let c := commandOf o.cmd
  let links := b.links.map fun l =>
    ({ m := req.m, c := req.c, port := l.2.2, toRequester := l.1, elem := l.2.1 } : PortLink)
  let g : Region := { newRegion s.mem c.addr (slicePa c.addr) o.lid with
    org := org, var := var, w := b.w, h := b.h, ctxn := b.ctxn, image := b.image, donea := b.donea, donev := b.donev
    qk := b.qk, links := links, copy := copy }
  let s := (s.modCore x.1 x.2 fun k => { k with regions := k.regions.set slot (some g) }).setRegionSt x.1 x.2 slot .loading .ok
  s.modOp req.m req.c o.id fun o => { o with aux := [x.1.val, x.2.val, slot.val, org] }

/-- A request leaves its queue and its operation ends. -/
def State.endGraph (s : State) (req : GraphReq) (st : Status) : State :=
  let s := s.modHub fun h => { h with graphs := h.graphs.map fun q => q.erase req }
  s.modOp req.m req.c req.op fun o =>
    if o.phase = .waiting then { o with phase := .ended, status := st, errInCmd := true, errAddr := o.cmdAddr } else o

/-- The target in the layout of Table 3.9. -/
def targetWord (m : RowId) (c : CoreId) (slot org : Nat) : Nat :=
  dieOf m * 2 ^ 32 + rowInDie m * 2 ^ 24 + c.val * 2 ^ 16 + slot * 256 + org

/-- The core and row that a target or a requester names, if the module has them (Table 3.9, R4). -/
def targetCore (w : Word) : Option (RowId × CoreId) :=
  if h : wbits w 39 32 < 4 ∧ wbits w 31 24 < 6 ∧ wbits w 23 16 < 8 then
    some (⟨6 * wbits w 39 32 + wbits w 31 24, by omega⟩, ⟨wbits w 23 16, h.2.2⟩)
  else none

/-- A region that is READY starts with its links made and its ring ports resolved by the requester's bindings, the result is written and
the request ends (R96, R467). -/
def State.startGraph (s : State) (req : GraphReq) (o : Op) (b : GraphBlock) (x : RowId × CoreId) (slot : SlotId) (g : Region) :
    State :=
  let k := s.coreFor o.lid req.m req.c
  match s.portRingsReady x.1 x.2 slot g k with
  | (s, false) => s
  | (s, true) =>
  if !s.portRingsOk g k then (s.freeRegion x.1 x.2 slot .ringErr).endGraph req .ringErr
  else
    let write : State × Put := if b.resa = 0 then (s, .ok)
      else s.writeMem (coreAgent req.m req.c o.lid) b.resa.toNat (bytesOf 8 (targetWord x.1 x.2 slot.val g.org))
    match write with
    | (s, .wait) => s
    | (s, .fail c) => (s.freeRegion x.1 x.2 slot c.status).endGraph req c.status
    | (s, .ok) => ((s.rstart x.1 x.2 slot g k b.qk).breakLinks x.1 x.2 g).endGraph req .ok

/-- The elements that links name are ports of the image of the right direction (Table 15.8). -/
def linksFit (b : GraphBlock) (im : ImageData) : Bool :=
  b.links.all fun l =>
    match im.elems[l.2.1]? with
    | some (.xe, w :: _) => decide ((portRecOf w).kind = if l.1 then 1 else 0)
    | _ => false

/-- The placement in an attic-format entry at a physical address (Table 3.8). -/
def placementAt (mem : Memory) (pa : Nat) : List (Nat × Nat × Nat) :=
  (List.range (min (mem.num (pa + 0x24) 4) 4096)).map fun i =>
    let w := mem.num (pa + 0x40 + 8 * i) 8
    (bits w 31 16, bits w 11 10, bits w 6 0)

/-- A request's image, read once: its bytes stand in the operation after its block (R321). -/
def State.graphImage (s : State) (req : GraphReq) (o : Op) (b : GraphBlock) (k : State → List Byte → ImageData → State) : State :=
  let copy := o.buf.drop 256
  match parseImage copy with
  | some im => k s copy im
  | none =>
    match s.readImage req.m req.c o.lid b.image with
    | (s, .wait) => s
    | (s, .fail st) => s.endGraph req st
    | (s, .ok bs im) => k (s.modOp req.m req.c o.id fun o => { o with buf := o.buf.take 256 ++ bs }) bs im

/-- Software's target and placement are taken: its entry's SHAPE names the variant (R97, Tables 3.8, 3.9). -/
def State.placeAnswer (s : State) (req : GraphReq) (o : Op) (b : GraphBlock) (target entry : Nat) : State :=
  let slot : SlotId := Fin.ofNat 8 (bits target 10 8)
  let org := bits target 6 0
  let var := BitVec.ofNat 2 (bits (s.mem.num (entry + 0x20) 2) 9 8)
  match targetCore (toWord target) with
  | none => s.endGraph req .noRegion
  | some x =>
    if (s.region x.1 x.2 slot).isSome ∨ (s.row x.1).lid ≠ some o.lid then s.endGraph req .noRegion
    else s.graphImage req o b fun s bs im =>
      let r := rectOf org b.w b.h
      if !linksFit b im then s.endGraph req .badDesc
      else if var ≠ 0 ∧ !im.folds.any fun f => f.1 == var then s.endGraph req .badImg
      else if !s.roomFor x.1 x.2 slot o.lid im var b.ctxn r (b.links.map fun l => l.2.1) then s.endGraph req .noFit
      else
        let places := placementAt s.mem entry
        let s := s.beginGraph req o b bs var x slot org
        -- five numbers tell a place that software gave from the manager's own four
        let s := (s.modOp req.m req.c o.id fun o => { o with aux := o.aux ++ [1] }).atticStore im.hash (r.shape var.toNat) places
        s.finishPlace x.1 x.2 slot im (places.map fun p => (p.1, p.2.1, p.2.2 + r.origin))

/-- One request at the head of its queue is served (R95, R97): it stands there with its place once it has one, with software's
target and entry once those have come, with the status of a placement refused, and with nothing before. -/
def State.serveGraph (s : State) (req : GraphReq) (o : Op) : State :=
  let b := graphBlock o.buf
  match o.aux with
  | m :: c :: slot :: _ :: _ =>
    let x : RowId × CoreId := (Fin.ofNat 24 m, Fin.ofNat 8 c)
    let slot : SlotId := Fin.ofNat 8 slot
    match s.region x.1 x.2 slot with
    | none => if s.spilled o.lid x.1 x.2 slot then s else s.endGraph req .noFit
    | some g => if g.st = .ready then s.startGraph req o b x slot g else s
  | [target, entry] => s.placeAnswer req o b target entry
  | [st] => s.endGraph req ((statusOf st).getD .noFit)
  | _ =>
    if s.hub.assisted 1 then
      let s := s.modHub fun h => { h with graphs := h.graphs.map fun q => q.erase req }
      s.haPost 1 b.prio [toWord (targetWord req.m req.c 0 o.engine.val), o.cmd.setWidth 64, (o.cmd >>> 64).setWidth 64
        , toWord o.lid.toNat] [req.m.val, req.c.val, req.op, req.no]
    else s.graphImage req o b fun s bs im =>
      if !linksFit b im then s.endGraph req .badDesc
      else match s.graphTarget o.lid b im (s.graphCores o.lid req.m req.c b.scope) with
      | some (v, x, slot, org) => s.beginGraph req o b bs v x slot org
      | none => if !s.fitsBoard b im then s.endGraph req .noFit else if b.wait then s else s.endGraph req .noRegion

/-- GRAPH_REQUEST: the head of a priority's queue is served; a cancelled request leaves (R94, R95). -/
def execGraphRequest (prio : Fin 4) (s : State) : Out :=
  .next (match s.hub.graphs[prio] with
    | [] => s
    | req :: _ =>
      match ((s.core req.m req.c).findOp req.op).filter fun o => o.phase == .waiting with
      | none => s.modHub fun h => { h with graphs := vmod h.graphs prio fun q => q.drop 1 }
      | some o => s.serveGraph req o)

/-- The GRAPH request that a request of function 1 names. -/
def graphReqOf (who : List Nat) : GraphReq :=
  { m := Fin.ofNat 24 (who.getD 0 0), c := Fin.ofNat 8 (who.getD 1 0), op := who.getD 2 0, no := who.getD 3 0 }

/-- Software's answer to a GRAPH request (R97, Table 3.9): the request stands in its queue again with it, at its place in the order of
arrival (R94). -/
def State.assistGraph (s : State) (req : GraphReq) (st : Status) (target entry : Word) : State :=
  match ((s.core req.m req.c).findOp req.op).filter fun o => o.phase == .waiting with
  | none => s
  | some o =>
    if st ≠ .ok then s.endGraph req st
    else
      (s.modOp req.m req.c req.op fun o => { o with aux := [target.toNat, entry.toNat] }).modHub fun h =>
        { h with graphs := vmod h.graphs (levelOf (graphBlock o.buf).prio) req.enter }

/-! ### Breakpoints (R256) -/

/-- BREAKPOINT: the arc has held back its N-th token; the cut begins. -/
def execBreakpoint (m : RowId) (c : CoreId) (i : Fin 4) (s : State) : Out := .next (s.fireBreak m c i)

end Sys2Proof.Machine
end

