-- ==== Sys2Proof/Machine/Dataflow.lean ====
section
/-! DEFINITION. The firings of compute elements: the stages of a plain CE with STEER and GATE, the other control forms, ISECT,
UNION and SEGRED, and ACCRD and ACCCLR (R146–R149, R168, R409–R413, R427, R428, R434–R436, R457, R458). -/

namespace Sys2Proof.Machine

/-! ### Stages, STEER and GATE (R168, R410, R411, R427, R428) -/

/-- The number a firing gives RSTO: the tag in a tagged region, else the firings so far (R413). -/
def firingNo (g : Region) (e : Elem) (ins : List Taken) : Nat :=
  if g.tagged then ins.head?.elim 0 fun x => x.tok.tag.toNat else e.firings

/-- The stages of a firing and the STEER or GATE that ends it, if one does (R427). -/
def splitStages (sts : List Stage) : List Stage × Option Stage :=
  match sts.getLast? with
  | some st => if isLastOp st.op then (sts.dropLast, some st) else (sts, none)
  | none => (sts, none)

/-- What a STEER or GATE emits: outputs with tokens (R428, Table 5.2). -/
def steerOut (st : Stage) (t : Token) (pred : Bool) : List (Nat × Token) :=
  let empty : Token := { t with cnt := 0, lanes := zeroLanes }
  if st.op = 0x60 then
    let o := if pred then 0 else 1
    (o, t) :: if t.f then [(1 - o, empty)] else []
  else if pred then [(0, t)]
  else if t.f then [(0, empty)] else []

/-- A firing of a CE whose stages compute, with a STEER or GATE in its last stage or none (R168, R409–R413). -/
def State.fireStages (s : State) (r : ElemRef) (g : Region) (e : Elem) (ins : List Taken) : State :=
  let base := leastCnt ins
  let (sts, ctl) := splitStages (stagesRun e.words)
  let f : Firing := { ins := ins.map fun x => (x.i, x.tok), base := base, n := firingNo g e ins, qk := (g.qkOf e).toNat }
  let start : Run := { holds := e.holds, prev := ⟨zeroLanes, base⟩, outs := [], fl := 0, sat := false, skips := 0, dead := false
                       wrote := [], drops := [] }
  let run := runStages f start sts
  let tok (dead : Bool) (x : Opnd) : Token :=
    let t := g.tokenOf r.e e.ctx ins x.cnt x.lanes
    { t with e := t.e || decide (run.fl ≠ 0) || dead, p := t.p || dead }
  -- the control stage, its own dead reads and its drops
  let sel (pos : Nat) (st : Stage) := readSel f run st pos
  let ctlDead := match ctl with
    | some st => (sel 0 st).2 || (sel 1 st).2
    | none => false
  let dead := run.dead || ctlDead
  let emits : List (Nat × Token) := match ctl with
    | some st =>
      let a := (sel 0 st).1
      let b := (sel 1 st).1
      let n := if st.sela = 0 then min base a.cnt else base
      steerOut st (tok dead ⟨a.lanes, n⟩) (decide (b.at 0 ≠ 0) != st.inv)
    | none =>
      let named := ((sts.filter fun st => decide (9 ≤ st.dst)).map fun st => st.dst - 9).eraseDups
      named.filterMap fun o =>
        match run.outs.find? fun x => x.1 == o with
        | some x =>
          let t := tok dead x.2.1
          if x.2.2 && !dead && !(t.f || t.l1 || t.l2 || t.l3) then none else some (o, t)
        | none => if dead then some (o, tok true ⟨zeroLanes, base⟩) else none
  let ctlDrops := match ctl with
    | some st =>
      let d (on : Bool) (v : Nat) : List Nat := if on && decide (5 ≤ v ∧ v ≤ 12) then [v - 5] else []
      d st.drpa st.sela ++ d st.drpb st.selb
    | none => []
  let drops := if anyF ins then (run.drops ++ ctlDrops).filter fun k => !run.wrote.contains k else []
  let holds : Vector (Option (Vector Lane 16)) 8 := Vector.ofFn fun k => if drops.contains k.val then none else run.holds[k]
  let s := s.modElem r fun e => e.withHolds holds
  let s := s.unequal r g ins
  let s := s.setSticky r.m r.c r.slot (flagSticky run.fl ||| (if run.sat then stSAT else 0))
  let s := if run.skips = 0 then s
    else s.modRegion r.m r.c r.slot fun g => { g with dskip := BitVec.ofNat 48 (sat48 (g.dskip.toNat + run.skips)) }
  let s := if dead then s.selfLog r stDEADH (g.loggedOf r.e ins) else s
  emits.foldl (fun s x => s.give r x.1 x.2) (s.fired r)

/-! ### MERGE, CARRY, INVAR, SYNC, DUP (R428) -/

/-- MERGE's token, with bits of STICKY and a discard raised for two streams that disagree in F. R428 gives it the predicate's E and P; that it
takes no L flag from the predicate is the model's reading beside R138 (DESIGN CHOICE, log entry 67). -/
def State.mergeOut (s : State) (r : ElemRef) (g : Region) (e : Elem) (p v : Taken) : State :=
  let un := unequalF [p, v]
  let t : Token := { v.tok with ctx := e.ctx, e := v.tok.e || p.tok.e || un, p := v.tok.p || p.tok.p, f := v.tok.f || p.tok.f }
  let s := (s.unequal r g [p, v]).setForm r (.merge none)
  -- the unselected input is consumed up to its F when the predicate carries F (Table 5.2)
  let s := if p.tok.f && !g.tagged then
      s.modElem r fun e => { e with discard := e.discard ||| (1 <<< (3 - v.i) : BitVec 4) }
    else s
  (s.fired r).give r 0 t

/-- MERGE (R428). -/
def State.fireMerge (s : State) (r : ElemRef) (g : Region) (e : Elem) (ins : List Taken) : State :=
  match e.form, ins with
  | .merge none, [p] => s.setForm r (.merge (some p.tok))
  | .merge (some p), [v] => s.mergeOut r g e ⟨0, 0, p⟩ v
  | _, p :: v :: _ => s.mergeOut r g e p v
  | _, _ => s

/-- The limit on recirculations, 0 for none (R148). -/
def Stage.limit (st : Stage) : Nat := st.low

/-- CARRY (R148, R428): an init token opens an instance; a back token and its predicate recirculate or leave. -/
def State.fireCarry (s : State) (r : ElemRef) (g : Region) (e : Elem) (ins : List Taken) : State :=
  match e.form, ins with
  | .carry insts, [x] =>
    let t : Token := { x.tok with f := false, ctx := e.ctx }
    ((s.setForm r (.carry (insts ++ [{ tag := x.tok.tag, count := 0, f := x.tok.f }]))).fired r).give r 0 t
  | .carry insts, b :: p :: _ =>
    match if g.tagged then insts.find? fun c => c.tag == b.tok.tag else insts.head? with
    | none => s
    | some c =>
      let full := decide (e.stage0.limit ≠ 0 ∧ e.stage0.limit ≤ c.count)
      let un := unequalF [b, p]
      let base : Token := { orFlags [p.tok] b.tok with ctx := e.ctx, f := anyF [b, p] }
      let t : Token := { base with e := base.e || un }
      let s := (s.unequal r g [b, p]).fired r
      if p.tok.pred && !full then
        (s.setForm r (.carry (insts.map fun x => if x = c then { x with count := x.count + 1 } else x))).give r 0 t
      else
        let s := s.setForm r (.carry (insts.filter fun x => x != c))
        let s := if full then s.setSticky r.m r.c r.slot stLOOPLIM else s
        s.give r 1 { t with f := t.f || c.f, p := t.p || full }
  | _, _ => s

/-- INVAR (R428). -/
def State.fireInvar (s : State) (r : ElemRef) (e : Elem) (ins : List Taken) : State :=
  match e.form, ins with
  | .invar none, [v] => s.setForm r (.invar (some v.tok))
  | .invar (some v), [t] =>
    let out : Token := { t.tok with cnt := v.cnt, lanes := v.lanes, ctx := e.ctx, e := v.e || t.tok.e, p := v.p || t.tok.p }
    ((s.setForm r (.invar (if t.tok.f then none else some v))).fired r).give r 0 out
  | _, _ => s

/-- SYNC: each token on its own output unchanged; streams that disagree in F act under R152 (DEDUCED, log entry 25). -/
def State.fireSync (s : State) (r : ElemRef) (g : Region) (ins : List Taken) : State :=
  ins.foldl (fun s x => s.give r x.i x.tok) ((s.unequal r g ins).fired r)

/-- DUP. -/
def State.fireDup (s : State) (r : ElemRef) (e : Elem) (ins : List Taken) : State :=
  match ins with
  | x :: _ => (List.range (e.stage0.low % 4 + 2)).foldl (fun s o => s.give r o x.tok) (s.fired r)
  | [] => s

/-! ### NDMRG (R149, R265, R266) -/

/-- NDMRG takes the head of an input: the first F of the pair is stripped, the second goes out with F (Table 5.2). After the pair's second
F a lockstep region's turn starts again at in1 (DESIGN CHOICE, log entry 67). -/
def State.ndmrgTake (s : State) (r : ElemRef) (g : Region) (e : Elem) (i : Nat) : State :=
  match e.form, g.dataAt r.e i with
  | .ndmrg p1 p2 f1 f2 _ came, some (_, t) =>
    let other := if i = 1 then f2 else f1
    let both := (g.dataAt r.e (3 - i)).isSome && !(if i = 1 then f2 else f1)
    let q1 := if i = 1 then 0 else if both then p1 + 1 else p1
    let q2 := if i = 2 then 0 else if both then p2 + 1 else p2
    let left := came.erase (decide (i = 2))
    let s := (s.take r i).fired r
    if t.f && other then (s.setForm r (.ndmrg q1 q2 false false false left)).give r 0 { t with ctx := e.ctx }
    else
      let s := s.setForm r (.ndmrg q1 q2 (f1 || (i = 1 && t.f)) (f2 || (i = 2 && t.f)) (decide (i = 1)) left)
      if t.f && t.cnt = 0 then s else s.give r 0 { t with f := false, ctx := e.ctx }
  | _, _ => s

/-- The logged input of a replay, with the queue after it (R266). -/
def loggedInput (r : ElemRef) : List LogRec → Option (Bool × List LogRec)
  | [] => none
  | x :: rest =>
    match x with
    | .ndmrg m c slot e second =>
      if m = r.m ∧ c = r.c ∧ slot = r.slot ∧ e = r.e then some (second, rest)
      else (loggedInput r rest).map fun y => (y.1, x :: y.2)
    | _ => (loggedInput r rest).map fun y => (y.1, x :: y.2)

/-- A choice is recorded while order logging is on (R265). -/
def State.logChoice (s : State) (r : ElemRef) (i : Nat) : State :=
  if s.hub.ck.logen then
    s.modHub fun h => { h with ck := { h.ck with log := h.ck.log ++ [.ndmrg r.m r.c r.slot r.e (decide (i = 2))] } }
  else s

/-- The input that NDMRG takes next, when it holds a token to take: in turn in a lockstep region; in a tagged one the log's in a replay,
else of two heads the earlier to arrive, unless the other has been passed over eight times (R149, R266). -/
def State.ndmrgNext (s : State) (r : ElemRef) (g : Region) (e : Elem) : Option Nat :=
  if !g.tagged then (g.needs r.e e).head?.bind fun i => if g.inReady r.e i then some i else none
  else match e.form with
  | .ndmrg p1 p2 f1 f2 _ came =>
    let has (i : Nat) : Bool := (g.dataAt r.e i).isSome && !(if i = 1 then f1 else f2)
    match if s.hub.ck.replay then loggedInput r s.hub.ck.replayQ else none with
    | some (second, _) => let i := if second then 2 else 1; if has i then some i else none
    | none =>
      if has 1 && has 2 then some (if 8 ≤ p1 then 1 else if 8 ≤ p2 then 2 else if came.headD false then 2 else 1)
      else if has 1 then some 1
      else if has 2 then some 2
      else none
  | _ => none

/-- A logged choice of a replay is used up (R266). -/
def State.usedChoice (s : State) (r : ElemRef) : State :=
  match if s.hub.ck.replay then loggedInput r s.hub.ck.replayQ else none with
  | some (_, q) => s.modHub fun h => { h with ck := { h.ck with replayQ := q, replay := !q.isEmpty } }
  | none => s

/-- NDMRG (R149). -/
def State.fireNdmrg (s : State) (r : ElemRef) (g : Region) (e : Elem) : State :=
  match if g.roomToFire r.e e then s.ndmrgNext r g e else none with
  | none => s
  | some i =>
    match s.holdReady r e with
    | (s, false) => s
    | (s, true) => (if g.tagged then (s.usedChoice r).logChoice r i else s).ndmrgTake r g e i

/-! ### ISECT and UNION (R434, R435) -/

/-- The merge of two fibres under way: results, cursors, positions, coordinates last taken, violations met and tokens touched. -/
structure Joined where
  out : List (Nat × Nat × Nat)
  ca : Nat
  cb : Nat
  pa : Lane
  pb : Lane
  bad : Bool
  lastA : Option Lane
  lastB : Option Lane
  viols : Nat
  tookA : Bool
  tookB : Bool
  deriving DecidableEq, Repr

/-- How a firing of the loop ends: the tokens it consumes, and whether the fibre ends. -/
inductive JoinEnd where
  | consumeA | consumeB | fibre | full
  deriving DecidableEq, Repr

/-- The order of coordinates by TYPE (R434). -/
def coordLt (unsigned : Bool) (a b : Lane) : Bool := if unsigned then BitVec.ult a b else BitVec.slt a b

/-- Step(A) or Step(B): the coordinate is checked under R435. -/
def Joined.stepA (u : Bool) (j : Joined) (x : Lane) : Joined :=
  let v := match j.lastA with
    | some l => !coordLt u l x
    | none => false
  { j with ca := j.ca + 1, pa := j.pa + 1, lastA := some x, bad := j.bad || v, viols := j.viols + b2n v, tookA := true }
/-- See `Joined.stepA`. -/
def Joined.stepB (u : Bool) (j : Joined) (x : Lane) : Joined :=
  let v := match j.lastB with
    | some l => !coordLt u l x
    | none => false
  { j with cb := j.cb + 1, pb := j.pb + 1, lastB := some x, bad := j.bad || v, viols := j.viols + b2n v, tookB := true }

/-- NONE (R434). -/
def noPos : Nat := 0xFFFFFFFF

/-- The loop of R434, by fuel: each turn steps a cursor or ends. -/
def joinLoop (union u : Bool) (a b : Token) : Nat → Joined → Joined × JoinEnd
  | 0, j => (j, .full)
  | k + 1, j =>
    let xa := decide (j.ca < a.cnt)
    let xb := decide (j.cb < b.cnt)
    let la := a.lanes[j.ca]?.getD 0
    let lb := b.lanes[j.cb]?.getD 0
    if !xa && !a.f then (j, .consumeA)
    else if !xb && !b.f then (j, .consumeB)
    else if !xa && !xb then (j, .fibre)
    else if j.out.length = 16 then (j, .full)
    else if xa && (!xb || coordLt u la lb) then
      joinLoop union u a b k
        ({ j with out := if union then j.out ++ [(la.toNat, j.pa.toNat, noPos)] else j.out }.stepA u la)
    else if xb && (!xa || coordLt u lb la) then
      joinLoop union u a b k
        ({ j with out := if union then j.out ++ [(lb.toNat, noPos, j.pb.toNat)] else j.out }.stepB u lb)
    else
      joinLoop union u a b k
        (({ j with out := j.out ++ [(la.toNat, j.pa.toNat, j.pb.toNat)] }.stepA u la).stepB u lb)

/-- ISECT and UNION (R434, R435). -/
def State.fireJoin (s : State) (r : ElemRef) (g : Region) (e : Elem) : State :=
  match e.form, g.dataAt r.e 0, g.dataAt r.e 1 with
  | .sparse ca cb pa pb bad la lb, some a, some b =>
    if !g.inReady r.e 0 || !g.inReady r.e 1 || !g.roomToFire r.e e then s
    else match s.holdReady r e with
    | (s, false) => s
    | (s, true) =>
      let (j, fin) := joinLoop (decide (e.stage0.op = 0x79)) (decide (e.stage0.ty = 1)) a.2 b.2 40
        { out := [], ca := ca, cb := cb, pa := pa, pb := pb, bad := bad, lastA := la, lastB := lb, viols := 0, tookA := false
          tookB := false }
      let n := j.out.length
      let ends := decide (fin = .fibre)
      let s := s.fired r
      let s := if fin = .consumeA ∨ ends then s.take r 0 else s
      let s := if fin = .consumeB ∨ ends then s.take r 1 else s
      let went : List Taken := (if fin = .consumeA ∨ ends then [⟨0, a.1, a.2⟩] else [])
        ++ if fin = .consumeB ∨ ends then [⟨1, b.1, b.2⟩] else []
      let touched : List Taken := (if j.tookA then [⟨0, a.1, a.2⟩] else []) ++ if j.tookB then [⟨1, b.1, b.2⟩] else []
      -- a firing that consumed no token logs one of those it read (DEDUCED, log entry 53)
      let log := g.loggedOf r.e (if went.isEmpty then touched else went)
      let s := (List.range j.viols).foldl (fun s _ => s.selfLog r stORDERV log) s
      let taken := (if j.tookA || decide (fin = .consumeA) || ends then [a.2] else [])
        ++ (if j.tookB || decide (fin = .consumeB) || ends then [b.2] else [])
      let hd : Token := { Token.blank e.ctx with tag := a.2.tag, cnt := n, f := ends, e := taken.any (·.e)
                                                 p := taken.any (·.p) || j.bad }
      let col (f : Nat × Nat × Nat → Nat) : Token := { hd with lanes := lanesOf (j.out.map f) }
      let s := if ends || decide (n ≠ 0) then
          [(0, col (·.1)), (1, col (·.2.1)), (2, col (·.2.2))].foldl (fun s x => s.give r x.1 x.2) s
        else s
      s.setForm r (if ends then .sparse 0 0 0 0 false none none
        else .sparse (if fin = .consumeA then 0 else j.ca) (if fin = .consumeB then 0 else j.cb) j.pa j.pb j.bad j.lastA j.lastB)
  | _, _, _ => s

/-! ### SEGRED (R436) -/

/-- A segmented reduction under way: the open segment with what it has collected, results, and what they carry. -/
structure Seg where
  isOpen : Bool
  key : Lane
  acc : Lane
  fl : Flags
  e : Bool
  p : Bool
  out : List (Lane × Lane)
  outE : Bool
  outP : Bool
  raised : Flags
  deriving DecidableEq, Repr

/-- Put(key, acc): the token gains the segment's collections. -/
def Seg.put (x : Seg) : Seg :=
  { x with out := x.out ++ [(x.key, x.acc)], outE := x.outE || x.e || decide (x.fl ≠ 0), outP := x.outP || x.p }

/-- The loop of R436 from lane `cur`, by fuel; each turn takes a lane. -/
def segLoop (k ty : Nat) (md : Nat → RMode) (v key : Token) (c : Nat) : Nat → Nat → Seg → Nat × Seg
  | 0, cur, x => (cur, x)
  | fuel + 1, cur, x =>
    if c ≤ cur ∨ x.out.length = 16 then (cur, x)
    else
      let a := v.lanes[cur]?.getD 0
      let kk := key.lanes[cur]?.getD 0
      let e := v.e || key.e
      let p := v.p || key.p
      if x.isOpen && kk == x.key then
        let o := combine k ty (md cur) x.acc.toNat a.toNat
        segLoop k ty md v key c fuel (cur + 1)
          { x with acc := BitVec.ofNat 32 o.1, fl := x.fl ||| o.2, raised := x.raised ||| o.2, e := x.e || e, p := x.p || p }
      else
        let x := if x.isOpen then x.put else x
        segLoop k ty md v key c fuel (cur + 1)
          { x with isOpen := true, key := kk, acc := BitVec.ofNat 32 (laneBits (if 2 ≤ ty then ty else 0) a.toNat), fl := 0
                   e := e, p := p }

/-- LClose (R436). -/
def lclose (code : Nat) (t : Token) : Bool :=
  match code with
  | 1 => t.l1
  | 2 => t.l2
  | 3 => t.l3
  | _ => false

/-- SEGRED (R436); its RSTO seed is k7, whose dead read acts under R168. -/
def State.fireSegred (s : State) (r : ElemRef) (g : Region) (e : Elem) : State :=
  match e.form, g.dataAt r.e 0, g.dataAt r.e 1 with
  | .segred o key acc cur fl ee pp, some v, some k =>
    if !g.inReady r.e 0 || !g.inReady r.e 1 || !g.roomToFire r.e e then s
    else match s.holdReady r e with
    | (s, false) => s
    | (s, true) =>
      let st := e.stage0
      let rsto := st.segRsto
      let seed := e.holds[7].elim 0 fun x => (x[0]).toNat + 2 ^ 32 * (x[1]).toNat
      let dead := rsto && (e.holds[7]).isNone
      let md (i : Nat) : RMode := { code := st.low % 8, seed := seed, index := 16 * e.firings + i }
      let c := min (min v.2.cnt k.2.cnt) 16
      let start : Seg := { isOpen := o, key := key, acc := acc, fl := fl, e := ee, p := pp, out := [], outE := false, outP := false
                           raised := 0 }
      let (cur, x) := segLoop (bits st.low 4 3) st.ty md v.2 k.2 c 17 cur start
      let ins : List Taken := [⟨0, v.1, v.2⟩, ⟨1, k.1, k.2⟩]
      let code := bits st.low 6 5
      let whole := decide (cur = c)
      let close := anyF ins || lclose code v.2 || lclose code k.2
      let keep := !whole || (close && x.isOpen && decide (x.out.length = 16))
      let x := if !keep && close && x.isOpen then { x.put with isOpen := false } else x
      let f := !keep && anyF ins
      let un := !keep && unequalF ins
      let hd : Token :=
        { Token.blank e.ctx with
          tag := v.2.tag, cnt := x.out.length, f := f, e := x.outE || un || dead, p := x.outP || dead
          l1 := !keep && (v.2.l1 || k.2.l1), l2 := !keep && (v.2.l2 || k.2.l2), l3 := !keep && (v.2.l3 || k.2.l3) }
      let s := if keep then s else (s.takeAll r [0, 1]).unequal r g ins
      let s := s.setForm r (.segred x.isOpen x.key x.acc (if keep then cur else 0) x.fl x.e x.p)
      let s := (s.setSticky r.m r.c r.slot (flagSticky x.raised)).fired r
      let s := if dead then s.selfLog r stDEADH (g.loggedOf r.e ins) else s
      if x.out.isEmpty && !f then s
      else (s.give r 0 { hd with lanes := lanesOf (x.out.map fun y => y.1.toNat) }).give r 1
        { hd with lanes := lanesOf (x.out.map fun y => y.2.toNat) }
  | _, _, _ => s

/-! ### ACCRD and ACCCLR (R457, R458) -/

/-- A refused ACCRD or ACCCLR, or one that met a dead line: the token carries P and E and the element logs itself. -/
def State.accRefused (s : State) (r : ElemRef) (g : Region) (e : Elem) (ins : List Taken) (t : Token) : State :=
  (((s.unequal r g ins).selfLog r 0 (g.loggedOf r.e ins)).fired r).give r (e.stage0.dst - 9) { t with p := true, e := true }

/-- The physical address of record `row` of store j, when there is one and n of its bytes, from `off` on, are live. -/
def State.accRecord (s : State) (r : ElemRef) (g : Region) (x : Geo) (j row : Nat) (span : Nat × Nat) : Option Nat :=
  if x.rows ≤ row ∨ x.nc ≤ j then none
  else ((x.stores[j]?).bind fun e => g.elems[e]?).bind fun e =>
    let pa := storeRow r.m r.c e row
    if s.mem.dead (pa + span.1) span.2 then none else some pa

/-- The bytes of a record that ACCRD reads: its side registers, the entries of half a group, or all of them (R443, R457). -/
def accrdSpan (st : Stage) : Nat × Nat :=
  if bitN st.low 5 then (0x100, 8) else if st.ty = 0xC ∨ st.ty = 0xD then (128 * b2n (bitN st.low 3), 128) else (0, 256)

/-- The record that an ACCRD reads, none when it is refused (R457). -/
def State.accrdRecord (s : State) (r : ElemRef) (g : Region) (x : Geo) (st : Stage) (t : Token) : Option Nat :=
  let j := (t.lanes[1]).toNat % 8
  if x.nc ≤ j then none else s.accRecord r g x (if bitN st.low 5 then 0 else j) (t.lanes[0]).toNat (accrdSpan st)

/-- ACCRD (R457); a poisoned line gives its token P (R153; DEDUCED, log entry 23). -/
def State.fireAccrd (s : State) (r : ElemRef) (g : Region) (e : Elem) (ins : List Taken) : State :=
  match g.geo, ins with
  | some x, i :: _ =>
    let st := e.stage0
    let side := bitN st.low 5
    let pairs := decide (st.ty = 0xC ∨ st.ty = 0xD)
    let tok (n : Nat) (xs : List Nat) : Token := g.tokenOf r.e e.ctx ins n (lanesOf xs)
    match s.accrdRecord r g x st i.tok with
    | none => s.accRefused r g e ins (tok (if side then 2 else 16) [])
    | some pa =>
      let old := s.mem.read pa 512
      let bad := s.mem.poisoned (pa + (accrdSpan st).1) (accrdSpan st).2
      let s := s.unequal r g ins
      if side then
        let t := tok 2 [fieldAt old 0x100 4, fieldAt old 0x104 4]
        (s.fired r).give r (st.dst - 9) { t with p := t.p || bad }
      else
        let rsto := decide (st.low % 8 = 4)
        let dead := rsto && (e.holds[7]).isNone
        let seed := e.holds[7].elim 0 fun x => (x[0]).toNat + 2 ^ 32 * (x[1]).toNat
        let qs := if pairs then (List.range 8).map fun q => 8 * b2n (bitN st.low 3) + q else List.range 16
        let md (q : Nat) : RMode :=
          { code := st.low % 8, seed := seed, index := 16 * firingNo g e ins + if pairs then 2 * (q % 8) else q }
        let read := qs.map fun q => (q, (entryAt x.wide old q), (entryAt x.wide old q).read x.wide st.ty (md q))
        let fl := read.foldl (fun f y => f ||| y.2.2.2.1) (0 : Flags)
        let acc := read.foldl (fun f y => f ||| y.2.2.2.2.fl) (0 : AccFlags)
        let clr := bitN st.low 4
        let mem := read.foldl (fun (m : Memory) y =>
          let en := if clr then Entry.zero else y.2.2.2.2
          if en = y.2.1 then m else m.write (pa + 16 * y.1) (en.bytes x.wide)) s.mem
        let lanes := if pairs then read.flatMap fun y => [y.2.2.1 % 2 ^ 32, y.2.2.1 / 2 ^ 32] else read.map fun y => y.2.2.1
        let t := tok 16 lanes
        let t : Token := { t with e := t.e || decide (fl ≠ 0) || decide (acc &&& 0xE ≠ 0) || dead, p := t.p || dead || bad }
        let s := (s.withMem mem).setSticky r.m r.c r.slot (flagSticky fl ||| AccFlags.sticky acc)
        let s := if dead then s.selfLog r stDEADH (g.loggedOf r.e ins) else s
        (s.fired r).give r (st.dst - 9) t
  | _, _ => s

/-- What ACCCLR writes of one record: a masked store's entries and, in store 0 with SIDE, M, L and a 16-bit region's REF (R443, R458). -/
def clearParts (x : Geo) (entries side : Bool) : List (Nat × List Byte) :=
  (if entries then [(0, List.replicate 256 0)] else [])
    ++ if side then (0x100, bytesOf 8 0xFF800000) :: if x.g = 2 then [(0x140, List.replicate 192 0)] else [] else []

/-- All that an ACCCLR writes, none when it is refused (R458). -/
def State.accclrWrites (s : State) (r : ElemRef) (g : Region) (x : Geo) (st : Stage) (t : Token) : Option (List (Nat × List Byte)) :=
  let r0 := (t.lanes[0]).toNat
  let c := (t.lanes[1]).toNat
  let mask := (t.lanes[2]).toNat % 256
  if 256 < c ∨ x.rows < r0 + c ∨ (List.range 8).any (fun j => bitN mask j && decide (x.nc ≤ j)) then none
  else
    let parts := (List.range' r0 c).flatMap fun q => (List.range 8).flatMap fun j =>
      (clearParts x (bitN mask j) (bitN st.low 0 && decide (j = 0))).map fun y =>
        (s.accRecord r g x j q (y.1, y.2.length)).map fun pa => (pa + y.1, y.2)
    if parts.any Option.isNone then none else some (parts.filterMap id)

/-- The token that ACCCLR emits: the one consumed, with the flags of the others and those of streams that disagree in F (R138, R152,
R458). -/
def clearedToken (e : Elem) (ins : List Taken) (t : Token) : Token :=
  orFlags (ins.map (·.tok)) { t with ctx := e.ctx, f := anyF ins, e := t.e || unequalF ins }

/-- ACCCLR (R458). -/
def State.fireAccclr (s : State) (r : ElemRef) (g : Region) (e : Elem) (ins : List Taken) : State :=
  match g.geo, ins with
  | some x, i :: _ =>
    match s.accclrWrites r g x e.stage0 i.tok with
    | none => s.accRefused r g e ins (clearedToken e ins i.tok)
    | some ws =>
      (((s.withMem (ws.foldl (fun (m : Memory) y => m.write y.1 y.2) s.mem)).unequal r g ins).fired r).give r 0 (clearedToken e ins i.tok)
  | _, _ => s

/-- The spans that an ACCRD or ACCCLR reaches with the token at its head (R457, R458). -/
def State.accSpans (s : State) (r : ElemRef) (g : Region) (e : Elem) : List (Nat × Nat) :=
  match g.geo, g.dataAt r.e 0 with
  | some x, some (_, t) =>
    let st := e.stage0
    if st.op = 0x83 then ((s.accrdRecord r g x st t).toList.map fun pa => (pa + (accrdSpan st).1, (accrdSpan st).2))
    else ((s.accclrWrites r g x st t).getD []).map fun y => (y.1, y.2.length)
  | _, _ => []

/-- The lines that an ACCRD or ACCCLR reaches are served: their banks are awake and the row's budget lets them pass (R187, R274). -/
def State.accReady (s : State) (r : ElemRef) (g : Region) (e : Elem) : State × Bool :=
  s.spansServed (elemAgent r g.lid) (decide (e.stage0.op ≠ 0x83)) (s.accSpans r g e)

/-! ### CE_FIRING -/

/-- The firing of a compute element by its form. -/
def State.fireCe (s : State) (r : ElemRef) (g : Region) (e : Elem) (ins : List Taken) : State :=
  let op := e.stage0.op
  if op = 0x61 then s.fireMerge r g e ins
  else if op = 0x63 then s.fireCarry r g e ins
  else if op = 0x64 then s.fireInvar r e ins
  else if op = 0x66 then s.fireSync r g ins
  else if op = 0x67 then s.fireDup r e ins
  else if op = 0x83 then s.fireAccrd r g e ins
  else if op = 0x84 then s.fireAccclr r g e ins
  else s.fireStages r g e ins

/-- A compute element acts. -/
def State.ceAct (s : State) (r : ElemRef) (g : Region) (e : Elem) : State :=
  let op := e.stage0.op
  if op = 0x62 then s.fireNdmrg r g e
  else if op = 0x78 ∨ op = 0x79 then s.fireJoin r g e
  else if op = 0x7A then s.fireSegred r g e
  else if op = 0x83 ∨ op = 0x84 then
    match if (g.needs r.e e).all (g.inReady r.e) && g.roomToFire r.e e then s.holdReady r e else (s, false) with
    | (s, false) => s
    | (s, true) => match s.accReady r g e with
    | (s, false) => s
    | (s, true) => s.fireBy r g e fun s g e ins => s.fireCe r g e ins
  else s.fireBy r g e fun s g e ins => s.fireCe r g e ins

/-- CE_FIRING (R134, R135, R410). -/
def execCeFiring (r : ElemRef) (s : State) : Out :=
  .next (s.elemEvent r (fun e => e.kind == .ce && !e.passive) fun s g e => s.ceAct r g e)

end Sys2Proof.Machine
end

