-- ==== Sys2Proof/Machine/Keys.lean ====
section
/-! DEFINITION. Key sets, rinds and the picker: KVAPP with its publication, PICK and GATHP (R199–R202, R387–R393). -/

namespace Sys2Proof.Machine

/-! ### Key sets (Table 6.11) -/

/-- A key set descriptor. -/
structure KeySet where
  kb : Nat
  rb : Nat
  npage : Nat
  e4m3 : Bool
  d : Nat
  nres : Nat
  nkey : Nat
  deriving DecidableEq, Repr

/-- The key set in 64 bytes, when the checks of R387 hold. -/
def keySetOf (bs : List Byte) : Option KeySet :=
  let f (o n : Nat) : Nat := fieldAt bs o n
  let w := f 0x14 4
  if w / 8 ≠ 0 ∨ w % 4 = 3 ∨ f 0x20 32 ≠ 0 ∨ f 0x10 4 = 0 ∨ 2 ^ 24 < f 0x10 4 then none
  else some { kb := f 0 8, rb := f 8 8, npage := f 0x10 4, e4m3 := bitN w 2, d := 64 * 2 ^ (w % 4), nres := f 0x18 4, nkey := f 0x1C 4 }

/-- Bytes of a key. -/
def KeySet.keyBytes (k : KeySet) : Nat := k.d * if k.e4m3 then 1 else 2
/-- KSZ. -/
def KeySet.ksz (k : KeySet) : Nat := 64 * k.keyBytes

/-- The empty rind (R200). -/
def emptyRind (d : Nat) : List Byte :=
  (List.range d).flatMap (fun _ => bytesOf 2 0x7F80) ++ (List.range d).flatMap (fun _ => bytesOf 2 0xFF80) ++ List.replicate (4 * d) 0

/-- A rind channel widened by a key value: BF16 bits of MIN or MAX (R200). -/
def widen (max : Bool) (old : Nat) (v : Num) : Nat :=
  if v = .nan then old else (FloatFmt.bf16.round rne (Num.minMax max (FloatFmt.bf16.decode old) v)).1

/-- A rind's channels widened by one key, and NaN met in it (R200). -/
def widenKey (k : KeySet) (rind : List Byte) (key : List Byte) : List Byte × Bool :=
  let val (c : Nat) : Num :=
    if k.e4m3 then FloatFmt.e4m3.decode (fieldAt key c 1) else FloatFmt.bf16.decode (fieldAt key (2 * c) 2)
  let cs := List.range k.d
  (cs.flatMap (fun c => bytesOf 2 (widen false (fieldAt rind (2 * c) 2) (val c)))
    ++ cs.flatMap (fun c => bytesOf 2 (widen true (fieldAt rind (2 * k.d + 2 * c) 2) (val c))) ++ rind.drop (4 * k.d)
   , cs.any fun c => val c == .nan)

/-- The dword of NAN and NVAL (Table 6.12). -/
def rindTail (nan : Bool) (nval : Nat) : List Byte := bytesOf 8 (b2n nan * 128 + nval)

/-! ### KVAPP (R201, R387, R388) -/

/-- What a KVAPP keeps: the key set it has checked, the physical address of the descriptor, the order of its reservation and the
pages with poisoned keys. -/
structure Appending where
  ks : KeySet
  pa : Nat
  order : Nat
  bad : List Nat
  deriving DecidableEq, Repr

/-- The fields of a KVAPP in its operation. -/
def appendingOf (o : Op) : Appending :=
  let x (i : Nat) : Nat := o.aux.getD i 0
  { ks := { kb := x 0, rb := x 1, npage := x 2, e4m3 := decide (x 3 ≠ 0), d := x 4, nres := 0, nkey := 0 }, pa := x 5, order := x 6
    bad := o.aux.drop 7 }

/-- The aux of a KVAPP. -/
def Appending.aux (a : Appending) : List Nat :=
  [a.ks.kb, a.ks.rb, a.ks.npage, b2n a.ks.e4m3, a.ks.d, a.pa, a.order] ++ a.bad

/-- Keys of the command. -/
def kvCount (c : Command) : Nat := c.arg.toNat % 65536

/-- The checks of KVAPP (R376, R387). -/
def kvCheck (c : Command) (s : State) (o : Op) : Start :=
  let n := kvCount c
  let w := walkOf o.wa
  let block (slot : Option Nat) : State → Start :=
    Start.block o c.addr 64 64 fun bs s =>
      match keySetOf bs with
      | none => .bad s .badDesc
      | some ks =>
        let ok := match slot with
          | some z => decide (ks.keyBytes ≤ z)
          | none => decide (w.count * w.size = n * ks.keyBytes)
        Start.require ok .badCmd (fun s => .go s fun o => { o with aux := ({ ks := ks, pa := 0, order := 0, bad := [] } : Appending).aux }) s
  Start.require (c.sub == 0 && decide (c.scp.toNat < 6) && c.arg.toNat / 2 ^ 16 % 256 == 0) .badCmd
    (Start.require (ringBit c || w.ok) .badCmd fun s =>
      if n = 0 then .go s id
      else if ringBit c then Start.ring o o.ha (fun r s => block (some r.ssz) s) s
      else block none s) s

/-- The reservation, one atomic at the descriptor's home (R201, R219). -/
def State.kvReserve (s : State) (c : Command) (o : Op) : State :=
  let ag := s.opAgent o
  match s.engCheck ag c.addr.toNat .atomic with
  | (s, .fail x) => s.refuseOp x.status
  | (s, .ok (.mem pa)) =>
    if s.mem.dead pa 64 then s.refuseOp .dropRd
    else if s.mem.poisoned pa 64 then s.refuseOp .poison
    else if !s.atomicTurn pa ag then s
    else
      let nres := s.mem.num (pa + 0x18) 4
      let n := kvCount c
      if 64 * s.mem.num (pa + 0x10) 4 < nres + n then (s.atomicAt pa ag).refuseOp .limit
      else
        ((s.withMem (s.mem.put (pa + 0x18) 4 (nres + n))).atomicAt pa ag).modHere fun o =>
          { o with kvBase := some nres, aux := { appendingOf o with pa := pa, order := s.ticks }.aux }
  | (s, _) => s

/-- Pages that hold bytes lo to hi − 1 of a command's keys. -/
def kvPages (ks : KeySet) (base lo hi : Nat) : List Nat :=
  if hi ≤ lo then []
  else let p := (base * ks.keyBytes + lo) / ks.ksz; List.range' p ((base * ks.keyBytes + hi - 1) / ks.ksz - p + 1)

/-- Key bytes read are written to their positions, as read (R387). -/
def State.kvPut (s : State) (o : Op) (a : Appending) (base : Nat) (bs : List Byte) (z : List Bool) (took : State → State) : State :=
  let off := o.buf.length
  match s.writeMarked (s.opAgent o) (a.ks.kb + base * a.ks.keyBytes + off) bs z with
  | (s, .wait) => s
  | (s, .fail x) =>
    (s.noteFault x.status ((a.ks.kb + base * a.ks.keyBytes + off : Nat) : Int)).modHere fun o => { o with phase := .waiting }
  | (s, .ok) =>
    let bad := if z.any id then kvPages a.ks base off (off + bs.length) else []
    (took s).modHere fun o =>
      { o with buf := o.buf ++ bs, idx := o.idx + 1, aux := { a with bad := a.bad ++ bad }.aux }

/-- A read fault after the reservation: the publication follows (R388). -/
def State.kvFault (s : State) (st : Status) (a : Int) : State :=
  (s.noteFault st a).modHere fun o => { o with phase := .waiting }

/-- The lines that a KVAPP's publication reads: the record of a page that it does not begin, and its key set's NKEY (R185, R201). -/
def kvLines (a : Appending) (base : Nat) : List Nat :=
  (a.pa + 0x1C) / 128 :: if base % 64 = 0 then [] else spadLines (a.ks.rb + base / 64 * 8 * a.ks.d) (8 * a.ks.d)

/-- One element, or one slot, of a KVAPP's keys. -/
def State.kvKey (s : State) (c : Command) (o : Op) (base : Nat) : State :=
  let a := appendingOf o
  let ag := s.opAgent o
  if ringBit c then
    match o.ha with
    | none => s.kvFault .ringErr 0
    | some d =>
      match s.holdRing ag (s.opHolder o) d false fun r => decide (0 < r.filled) with
      | .wait s => s
      | .stop s st => s.kvFault st d.toNat
      | .ready s pa r =>
        if r.filled = 0 || !s.atomicTurn pa ag then s
        else
          let x := r.slotAt r.head
          match s.readMem (s.slotAgent o) x a.ks.keyBytes with
          | (s, .wait) => s
          | (s, .fail e) => s.kvFault e.status x
          | (s, .ok bs _) =>
            s.kvPut o a base bs (s.marks ag x a.ks.keyBytes) fun s =>
              let s := (s.noteDrop c x a.ks.keyBytes).settleDrops
                (slotLines r r.ssz ((kvCount c - o.idx - 1) * r.ssz) ++ descLines o.ha ++ kvLines a base)
              (s.advHead pa r 1).atomicAt pa ag
  else
    let w := walkOf o.wa
    match s.elemAddr ag w o.idx with
    | (s, .wait) => s
    | (s, .fail st x) => s.kvFault st x
    | (s, .at_ x) =>
      match s.readMem ag x w.size with
      | (s, .wait) => s
      | (s, .fail e) => s.kvFault e.status x
      | (s, .ok bs _) =>
        s.kvPut o a base bs (s.marks ag x w.size) fun s =>
          let s := s.noteDrop c x w.size
          if c.drp then s.settleDrops (s.walkLines ag w (o.idx + 1) w.count ++ kvLines a base) else s

/-- KVAPP (R201, R387): once its keys are written it waits for its publication. -/
def execKvapp (c : Command) (s : State) : Out :=
  .next (s.runOp (kvCheck c) fun s o =>
    if kvCount c = 0 then s.endOk
    else match o.kvBase with
    | none => s.kvReserve c o
    | some base =>
      if kvCount c * (appendingOf o).ks.keyBytes ≤ o.buf.length then s.modHere fun o => { o with phase := .waiting }
      else s.kvKey c o base)

/-- The command of an operation is a KVAPP that has reserved and not yet ended. -/
def Op.reserved (o : Op) : Bool := o.kvBase.isSome && (o.phase == .moving || o.phase == .waiting)

/-- Every operation of the module. -/
def State.allOps (s : State) : List Op := s.rows.toList.flatMap fun r => r.cores.toList.flatMap fun k => k.ops

/-- Every earlier reservation on the set has published (R201). -/
def State.kvTurn (s : State) (a : Appending) : Bool :=
  !s.allOps.any fun x => x.reserved && decide ((appendingOf x).pa = a.pa) && decide ((appendingOf x).order < a.order)

/-- A rind record as publication finds it: empty when the command holds the page's position 0. -/
inductive RindGot where
  | rind (bs : List Byte)
  | fault (st : Status)
  | wait
  deriving DecidableEq, Repr

/-- The record of one page is read, unless it is emptied (R201, R387). -/
def State.rindFor (s : State) (ag : Agent) (a : Appending) (base page : Nat) : State × RindGot :=
  if base ≤ 64 * page then (s, .rind (emptyRind a.ks.d))
  else match s.readMem ag (a.ks.rb + page * 8 * a.ks.d) (8 * a.ks.d) with
  | (s, .wait) => (s, .wait)
  | (s, .fail x) => (s, .fault x.status)
  | (s, .ok bs p) => (s, if p then .fault .poison else .rind bs)

/-- A page's record after the command, when nothing failed (R200, R201). -/
def publishedRind (a : Appending) (base n : Nat) (buf : List Byte) (page : Nat) (rind : List Byte) : List Byte :=
  let js := (List.range n).filter fun j => decide ((base + j) / 64 = page)
  let nan0 := bitN (fieldAt rind (4 * a.ks.d) 1) 7 || a.bad.contains page
  let (r, nan) := js.foldl (fun (x : List Byte × Bool) j =>
    let y := widenKey a.ks x.1 ((buf.drop (j * a.ks.keyBytes)).take a.ks.keyBytes)
    (y.1, x.2 || y.2)) (rind, nan0)
  r.take (4 * a.ks.d) ++ rindTail nan (min 64 (base + n - 64 * page)) ++ r.drop (4 * a.ks.d + 8)

/-- A page's record after a command that failed: emptied if it holds position 0; NAN and NVAL alone are written else (R388). -/
def failedRind (a : Appending) (base n page : Nat) : Nat × List Byte :=
  let tail := rindTail true (min 64 (base + n - 64 * page))
  if base ≤ 64 * page then (0, (emptyRind a.ks.d).take (4 * a.ks.d) ++ tail ++ List.replicate (4 * a.ks.d - 8) 0)
  else (4 * a.ks.d, tail)

/-- Rind writes in page order; one that faults is not performed, and the first fault is kept with its address (R388). -/
def State.putRinds (s : State) (ag : Agent) (st : Status × Word) : List (Nat × List Byte) → State × (Status × Word) × Bool
  | [] => (s, st, true)
  | (va, bs) :: rest =>
    match s.writeMem ag va bs with
    | (s, .ok) => s.putRinds ag st rest
    | (s, .fail x) => s.putRinds ag (if st.1 = .ok then (x.status, toWord va) else st) rest
    | (s, .wait) => (s, st, false)

/-- The lines that the publication reads and writes are served, and stand for it, or some wait (R187, R274). -/
def State.rindsReady (s : State) (ag : Agent) (a : Appending) (base : Nat) (pages : List Nat) : State × Bool :=
  let need := pages.flatMap fun p => (if base ≤ 64 * p then [Kind.store] else [.load, .store]).flatMap fun k =>
    (linePieces (a.ks.rb + p * 8 * a.ks.d) (8 * a.ks.d)).map fun y => (k, y.1)
  need.foldl (fun x y =>
    match x.1.pieceCheck ag y.2 y.1 with
    | (s, .wait) => (s, false)
    | (s, _) => (s, x.2)) (s, true)

/-- KVAPP_PUBLISH (R201, R388): the rinds of the command's pages, NVAL, and NKEY at the home; a command that has failed
publishes NAN for its pages. -/
def State.kvPublish (s : State) (o : Op) (base n : Nat) : State :=
  let a := appendingOf o
  let ag := s.opAgent o
  let pages := kvPages a.ks base 0 (n * a.ks.keyBytes)
  let (s, home) := s.lineAddr ag (toWord (sliceBase + (a.pa + 0x1C - spadBase))) 4 .store
  match s.rindsReady ag a base pages with
  | (s, false) => s
  | (s, true) =>
    if home = .wait then s else
    let got := pages.map fun p => (p, (s.rindFor ag a base p).2)
    let addr (p off : Nat) : Nat := a.ks.rb + p * 8 * a.ks.d + off
    let fault := got.findSome? fun x => match x.2 with
      | .fault st => some (st, toWord (addr x.1 0))
      | _ => none
    let st := if o.status ≠ .ok then (o.status, o.errAddr) else fault.getD (.ok, 0)
    let writes : List (Nat × List Byte) :=
      if st.1 = .ok then got.map fun x => match x.2 with
        | .rind bs => (addr x.1 0, publishedRind a base n o.buf x.1 bs)
        | _ => (addr x.1 0, [])
      else pages.map fun p => let y := failedRind a base n p; (addr p y.1, y.2)
    let read := pages.filter fun p => !decide (base ≤ 64 * p)
    let drp := (commandOf o.cmd).drp
    let s := if drp then s.killLines (read.flatMap fun p => spadLines (addr p 0) (8 * a.ks.d)) else s
    match s.putRinds ag st writes with
    | (_, _, false) => s
    | (s, st, true) =>
      let s := (s.usedLines ag Kind.store.code [a.pa + 0x1C]).ctlWrite (a.pa + 0x1C) (bytesOf 4 (s.mem.num (a.pa + 0x1C) 4 + n))
      s.endOp st.1 false st.2

/-- KVAPP_PUBLISH. -/
def execKvappPublish (m : RowId) (c : CoreId) (op : Nat) (s : State) : Out :=
  .next (match (s.core m c).findOp op with
    | none => s
    | some o =>
      match o.kvBase with
      | some base =>
        if o.phase = .waiting ∧ (s.engineMoves m ∨ o.status = .aborted) ∧ s.kvTurn (appendingOf o) then
          ((s.atOp m c op).kvPublish o base ((commandOf o.cmd).arg.toNat % 65536)).backTo s.cur
        else s
      | none => s)

/-! ### Pick block (Table 15.5) -/

/-- A pick block. -/
structure PickBlock where
  ksd : Nat
  qa : Nat
  pun : Nat
  ntop : Nat
  win : Nat
  thr : Nat
  mode : Nat
  cap : Nat
  vb : Nat
  deriving DecidableEq, Repr

/-- The pick block in 64 bytes, when the checks of R389 on its own fields hold; GATHP does not examine QA. -/
def pickBlockOf (gath : Bool) (bs : List Byte) : Option PickBlock :=
  let f (o n : Nat) : Nat := fieldAt bs o n
  if f 0x24 4 / 2 ≠ 0 ∨ f 0x2C 4 ≠ 0 ∨ f 0x38 8 ≠ 0 ∨ f 0x28 4 = 0 ∨ 2 ^ 24 < f 0x28 4 ∨ f 0 8 % 64 ≠ 0
      ∨ f 0x10 8 % 8 ≠ 0 ∨ (!gath ∧ f 8 8 % 4 ≠ 0) then none
  else some { ksd := f 0 8, qa := f 8 8, pun := f 0x10 8, ntop := f 0x18 4, win := f 0x1C 4, thr := f 0x20 4, mode := f 0x24 4 % 2
              cap := f 0x28 4, vb := f 0x30 8 }

/-- The pick block and its key set are read and checked. -/
def Start.pick (o : Op) (c : Command) (gath : Bool) (k : PickBlock → KeySet → State → Start) : State → Start :=
  Start.block o c.addr 64 64 fun bs s =>
    match pickBlockOf gath bs with
    | none => .bad s .badDesc
    | some b =>
      match s.readMem (s.opAgent o) b.ksd 64 with
      | (s, .wait) => .wait s
      | (s, .fail x) => .bad s x.status
      | (s, .ok bs p) =>
        if p then .bad s .poison
        else match keySetOf bs with
        | none => .bad s .badDesc
        | some ks => k b ks s

/-- The fields of a block and key set in an operation's aux. -/
def pickAux (b : PickBlock) (ks : KeySet) : List Nat :=
  [b.qa, b.pun, b.ntop, b.win, b.thr, b.mode, b.cap, b.vb, b.ksd, ks.kb, ks.rb, ks.npage, b2n ks.e4m3, ks.d]

/-- See `pickAux`. -/
def pickOf (o : Op) : PickBlock × KeySet :=
  let x (i : Nat) : Nat := o.aux.getD i 0
  ({ qa := x 0, pun := x 1, ntop := x 2, win := x 3, thr := x 4, mode := x 5, cap := x 6, vb := x 7, ksd := x 8 }
   , { kb := x 9, rb := x 10, npage := x 11, e4m3 := decide (x 12 ≠ 0), d := x 13, nres := 0, nkey := 0 })

/-! ### PICK (R391, R392) -/

/-- A page considered: its index, its bound and whether it belongs to E. -/
structure Page where
  p : Nat
  bound : Nat
  inE : Bool
  deriving DecidableEq, Repr

/-- The bound of a page from its rind (R391). -/
def pickBound (d : Nat) (q rind : List Byte) : Nat :=
  let up : RMode := { code := 2 }
  let rup (x : Num) : Num := FloatFmt.b32.decode (FloatFmt.b32.round up x).1
  let qs := (List.range d).map fun c => FloatFmt.b32.decode (fieldAt q (4 * c) 4)
  let inf : Nat := FloatFmt.b32.infBits false
  if bitN (fieldAt rind (4 * d) 1) 7 || qs.any (· == .nan) then inf
  else
    let bf (o : Nat) : Num := FloatFmt.bf16.decode (fieldAt rind o 2)
    let isZero (x : Num) : Bool := match x with
      | .fin _ mag _ _ => mag == 0
      | _ => false
    let term (c : Nat) (x : Num) : Num :=
      if isZero x then Num.ofInt 0
      else
        let u := rup (x.mul (bf (2 * c))).1
        let v := rup (x.mul (bf (2 * d + 2 * c))).1
        if u == .nan || v == .nan then .inf false else Num.minMax true u v
    let sum := (List.zip qs (List.range d)).foldl (fun b x =>
      let t := term x.2 x.1
      match b, t with
      | .inf false, .inf true => .inf false
      | .inf true, .inf false => .inf false
      | _, _ => rup (b.add up t).1) (Num.ofInt 0)
    (FloatFmt.b32.round up sum).1

/-- Insertion by higher bound, ties to the lower index. -/
def insertPage (x : Page) : List Page → List Page
  | [] => [x]
  | y :: ys =>
    if (FloatFmt.b32.decode y.bound).lt false (FloatFmt.b32.decode x.bound) then x :: y :: ys else y :: insertPage x ys

/-- Pages by bound, the highest first (R392). -/
def byBound (xs : List Page) : List Page := xs.foldl (fun acc x => insertPage x acc) []

/-- The selection of R392 from the pages in ascending order: the pages chosen in ascending order, and TRUNC. -/
def pickSelect (b : PickBlock) (pages : List Page) : List Page × Bool :=
  let e := pages.filter (·.inE)
  let k := min b.win e.length
  let wn := e.drop (e.length - k)
  let rest := e.take (e.length - k)
  let ge (x : Page) : Bool := fcmp 5 (FloatFmt.b32.decode x.bound) (FloatFmt.b32.decode b.thr)
  let more := if b.mode = 0 then (byBound rest).take b.ntop else rest.filter ge
  let asc (xs : List Page) : List Page := pages.filter xs.contains
  if b.cap < wn.length + more.length then (asc ((wn.reverse ++ byBound (asc more)).take b.cap), true)
  else (asc (wn ++ more), false)

/-- The picker runs one PICK at a time, in the order of issue to it (R127): the order in which the core forked them, so that one held back
on its engine holds back later ones of other engines (DESIGN CHOICE, log entry 64). -/
def Core.pickerFree (k : Core) (o : Op) : Bool :=
  !k.ops.any fun x => decide (x.id < o.id) && (x.phase == .forked || x.phase == .moving) && fld x.cmd 120 8 == 0x21#8

/-- A PICK's pages so far, after its aux of the block. -/
def pagesOf (o : Op) : List Page :=
  (blocks 2 (o.aux.length) (o.aux.drop 15)).mapIdx fun i x => { p := i, bound := x.getD 0 0, inE := decide (x.getD 1 0 ≠ 0) }

/-- The lines of the rind records that a PICK has still to read, of `count` keys from page `lo` on (R185, R377). -/
def rindLines (ks : KeySet) (lo count : Nat) : List Nat :=
  (List.range' lo ((count + 63) / 64 - lo)).flatMap fun p => spadLines (ks.rb + p * 8 * ks.d) (8 * ks.d)

/-- PICK reads one rind record. -/
def State.pickPage (s : State) (c : Command) (o : Op) (ks : KeySet) : State :=
  let va := ks.rb + o.idx * 8 * ks.d
  match s.readMem (s.opAgent o) va (8 * ks.d) with
  | (s, .wait) => s
  | (s, .fail x) => s.endOp x.status false (toWord va)
  | (s, .ok bs p) =>
    let x := if p then (FloatFmt.b32.infBits false, 1) else (pickBound ks.d o.buf bs, b2n (decide (fieldAt bs (4 * ks.d) 1 % 128 ≠ 0)))
    let s := (s.noteDrop c va (8 * ks.d)).modHere fun o => { o with idx := o.idx + 1, aux := o.aux ++ [x.1, x.2] }
    if c.drp then s.settleDrops (rindLines ks (o.idx + 1) (o.aux.getD 14 0)) else s

/-- PICK acquires NKEY and reads the query. -/
def State.pickBegin (s : State) (c : Command) (o : Op) (b : PickBlock) (ks : KeySet) : State :=
  let ag := s.opAgent o
  let got (va n : Nat) (k : State → List Byte → State) (s : State) : State :=
    match s.readMem ag va n with
    | (s, .wait) => s
    | (s, .fail x) => s.endOp x.status true (toWord va)
    | (s, .ok bs p) => if p then s.endOp .poison true (toWord va) else k s bs
  got (b.ksd + 0x1C) 4 (fun s bs =>
    got b.qa (4 * ks.d) (fun s q =>
      let s := (s.noteDrop c b.qa (4 * ks.d)).modHere fun o => { o with buf := q, aux := o.aux ++ [natOf bs] }
      if c.drp then s.settleDrops (rindLines ks 0 (natOf bs)) else s) s) s

/-- PICK writes its next entry, or the count word (R390). -/
def State.pickWrite (s : State) (o : Op) (b : PickBlock) : State :=
  let (sel, trunc) := pickSelect b (pagesOf o)
  let put (va : Nat) (v : Nat) (k : State → State) : State :=
    match s.writeMem (s.opAgent o) va (bytesOf 8 v) with
    | (s, .wait) => s
    | (s, .fail x) => (s.modHere fun o => { o with idx := o.lanes }).endOp x.status false (toWord va)
    | (s, .ok) => k s
  match sel[o.lanes]? with
  | some x => put (b.pun + 8 * o.lanes) (x.bound * 2 ^ 32 + x.p) fun s => s.modHere fun o => { o with lanes := o.lanes + 1 }
  | none => put (b.pun + 8 * b.cap) (b2n trunc * 2 ^ 32 + sel.length) fun s => s.endOk

/-- PICK (R127, R391, R392). -/
def execPick (c : Command) (s : State) : Out :=
  .next (s.runOp (fun s _ =>
    Start.require (c.sub == 0 && decide (c.scp.toNat < 6)) .badCmd (fun s => .go s id) s)
    fun s o =>
      let (b, ks) := pickOf o
      if o.aux.isEmpty then
        if !(s.core s.cur.m s.coreHere).pickerFree o then s
        else match Start.pick o c false (fun b ks s => .go s fun o => { o with aux := pickAux b ks }) s with
          | .wait s => s
          | .bad s st => s.refuseOp st
          | .go s f => s.modHere f
      else
      if o.aux.length ≤ 14 then s.pickBegin c o b ks
      else if o.idx < (o.aux.getD 14 0 + 63) / 64 then s.pickPage c o ks
      else s.pickWrite o b)

/-! ### GATHP (R393) -/

/-- Where the pages of a GATHP lie. -/
def gathBase (c : Command) (o : Op) : Nat := if c.sub = 0 then (pickOf o).2.kb else (pickOf o).1.vb

/-- The lines that a GATHP has still to read once it has read `off` bytes of its page: the rest of the page, the entries from `next` on
with the pages that they name as the punnet now stands, and its ring's descriptor (R185, R393). -/
def State.gathLater (s : State) (c : Command) (o : Op) (count next : Nat) (page : Option Nat) (off : Nat) : List Nat :=
  let (b, ks) := pickOf o
  let base := gathBase c o
  page.elim [] (fun p => spadLines (base + p * ks.ksz + off) (ks.ksz - off)) ++ (if ringBit c then descLines o.ha else [])
    ++ (List.range' next (count - next)).flatMap fun i =>
      let va := b.pun + 8 * i
      spadLines va 8 ++ (s.peekNum (s.opAgent o) va 4).elim [] fun p => spadLines (base + p * ks.ksz) ks.ksz

/-- GATHP reads the count word. -/
def State.gathCount (s : State) (c : Command) (o : Op) (b : PickBlock) : State :=
  let va := b.pun + 8 * b.cap
  match s.readMem (s.opAgent o) va 8 with
  | (s, .wait) => s
  | (s, .fail x) => s.endOp x.status true (toWord va)
  | (s, .ok bs p) =>
    if p then s.endOp .poison true (toWord va)
    else if b.cap < fieldAt bs 0 4 then s.endOp .badDesc true (toWord va)
    else
      let s := (s.noteDrop c va 8).modHere fun o => { o with aux := o.aux ++ [fieldAt bs 0 4, 0, 0] }
      if c.drp then s.settleDrops (s.gathLater c o (fieldAt bs 0 4) 0 none 0) else s

/-- A fault on entry or page n: none of element n is delivered (R223, R379, R393). -/
def State.gathFault (s : State) (st : Status) (a : Nat) : State :=
  (s.noteFault st a).modHere fun o => { o with buf := [], bufZ := [], aux := (o.aux.set 15 0).set 16 0 }

/-- GATHP reads its next entry, once: the page that it names stands in the operation, from 1. -/
def State.gathEntry (s : State) (c : Command) (o : Op) : State :=
  let (b, ks) := pickOf o
  let entry := b.pun + 8 * o.idx
  match s.readMem (s.opAgent o) entry 8 with
  | (s, .wait) => s
  | (s, .fail x) => s.gathFault x.status entry
  | (s, .ok bs p) =>
    let page := fieldAt bs 0 4
    if p then s.gathFault .poison entry
    else if ks.npage ≤ page then s.gathFault .limit entry
    else
      let s := (s.noteDrop c entry 8).modHere fun o => { o with aux := o.aux.set 16 (page + 1) }
      if c.drp then s.settleDrops (s.gathLater c o (o.aux.getD 14 0) (o.idx + 1) (some page) 0) else s

/-- GATHP reads the next line of its entry's page. -/
def State.gathLine (s : State) (c : Command) (o : Op) (page : Nat) : State :=
  let ks := (pickOf o).2
  let ag := s.opAgent o
  let off := o.aux.getD 15 0
  let va := gathBase c o + page * ks.ksz + off
  match s.readMem ag va 128 with
  | (s, .wait) => s
  | (s, .fail x) => s.gathFault x.status va
  | (s, .ok data _) =>
    let done := decide (off + 128 = ks.ksz)
    let s := (s.noteDrop c va 128).modHere fun o =>
      { o.gain data (s.marks ag va 128) with idx := if done then o.idx + 1 else o.idx
                                             aux := (o.aux.set 15 (if done then 0 else off + 128)).set 16 (if done then 0 else page + 1) }
    if c.drp then s.settleDrops (s.gathLater c o (o.aux.getD 14 0) (o.idx + 1) (some page) (off + 128)) else s

/-- GATHP's next read: an entry, or a line of the page that it names. -/
def State.gathRead (s : State) (c : Command) (o : Op) : State :=
  match o.aux.getD 16 0 with
  | 0 => s.gathEntry c o
  | page + 1 => s.gathLine c o page

/-- GATHP (R393): a page is one element, read whole before any of it is delivered. -/
def execGathp (c : Command) (s : State) : Out :=
  .next (s.runOp (fun s o =>
    let block (slot : Option Nat) : State → Start := Start.pick o c true fun b ks s =>
      Start.require (slot.all fun z => decide (ks.ksz ≤ z)) .badCmd (fun s => .go s fun o => { o with aux := pickAux b ks }) s
    Start.require (decide (c.sub.toNat < 2) && c.arg.toNat % 2 ^ 24 == 0) .badCmd
      (if ringBit c then Start.ring o o.ha fun r s => block (some r.ssz) s else Start.port o c 0 (block none)) s)
    fun s o =>
      if o.aux.length ≤ 14 then s.gathCount c o (pickOf o).1
      else if o.aux.getD 16 0 ≠ 0 then s.gathRead c o
      else
        let atEnd := decide (o.idx = o.aux.getD 14 0)
        let pageEnd := decide (o.idx ≠ 0)
        s.feedMove c o atEnd pageEnd pageEnd pageEnd (pickOf o).2.ksz 0 fun s => s.gathRead c o)

end Sys2Proof.Machine
end

