-- ==== Sys2Proof/Machine/Systolic.lean ====
section
/-! DEFINITION. The systolic commands MXLDW, MXGO and MXDRN (R163–R166, R394–R397, R441–R451, R454, R456, R459, R460). -/

namespace Sys2Proof.Machine

/-- The lane-type codes of the operands and stores fix a geometry; a systolic region always has one (R440). -/
structure Driven where
  slot : SlotId
  g : Region
  x : Geo
  deriving DecidableEq, Repr

/-- What the approach to the region comes to. -/
inductive RegionGot where
  | wait
  | bad (st : Status)
  | ready (d : Driven)
  deriving DecidableEq, Repr

/-- Operations on one region go one at a time in the order of their forks, and those forked after a switch was asked for wait
for it (R394, R459). -/
def State.mxTurn (s : State) (o : Op) (slot : SlotId) : Bool :=
  let k := s.core s.cur.m s.coreHere
  let early := k.ops.any fun x => decide (x.id < o.id) && x.drives slot o.lid
  let after (f : Flood) : Bool := match f with
    | .switch op _ _ _ _ => decide (op ≤ o.id)
    | _ => false
  let switching := (k.regions[slot]).any fun g => (g.flood :: g.queued).any after || g.switches.any fun x => decide (x.1 ≤ o.id)
  !early && !switching

/-- The region that a systolic command names (R394). -/
def State.mxRegion (s : State) (c : Command) (o : Op) : RegionGot :=
  let own := (ownSlices s.cur.m s.cur.p).toNat
  if c.addr.toNat % 128 ≠ 0 then .bad .align
  else if !namesSlice c.addr.toNat || decide (c.addr.toNat / 2 ^ 23 ≠ own / 2 ^ 23) then .bad .perm
  else match o.region with
  | none => .bad .badDesc
  | some slot =>
    if !s.mxTurn o slot || s.spilled o.lid s.cur.m s.coreHere slot then .wait
    else match s.region s.cur.m s.coreHere slot with
    | none => .bad .badDesc
    | some g =>
      match g.geo with
      | none => .bad .badDesc
      | some x =>
        if g.st ≠ .running ∨ g.lid ≠ o.lid ∨ g.rcb ≠ c.addr then .bad .badDesc
        else if g.frozen || g.flood.cut? then .wait
        else .ready { slot := slot, g := g, x := x }

/-! ### Weights (R442, R450) -/

/-- Bytes of a B tile (R442, R449). -/
def Geo.bTile (x : Geo) : Nat := x.bc * x.nd * x.nc + if x.scale then 16 * x.n else 0
/-- Bytes of an A tile of n rows (R441, R449). -/
def Geo.aTile (x : Geo) (n : Nat) (side : Bool) : Nat := 64 * x.nd * n + if side then 32 * n else 0

/-- The weights of each MMA element from a tile: its block, and with SCALE the scales of its columns (R442). -/
def Geo.share (x : Geo) (tile : List Byte) (j i : Nat) : List Byte :=
  ((tile.drop (x.bc * (x.nd * j + i))).take x.bc)
    ++ if x.scale then (tile.drop (x.bc * x.nd * x.nc + 256 * j)).take 256 else []

/-- Every MMA element takes its share as stationary weights. -/
def State.loadWeights (s : State) (d : Driven) (tile : List Byte) (source : Word) : State :=
  s.modRegion s.cur.m s.coreHere d.slot fun g =>
    { g with wsource := some source
             elems := g.elems.map fun e => match e.kind, mmaSite e.words with
               | .ce, some site => { e with form := .mma (some (d.x.share tile site.j site.i)) }
               | _, _ => e }

/-- Free bytes (DESIGN CHOICE, log entry 2). -/
def State.drawBytes (s : State) : Nat → State × List Byte
  | 0 => (s, [])
  | n + 1 => let (v, s) := s.draw; let (s, bs) := s.drawBytes n; (s, bytesOf 8 v.toNat ++ bs)

/-- The weights are undefined after a fault: free bytes (R449). -/
def State.freeWeights (s : State) (d : Driven) : State :=
  let (s, tile) := s.drawBytes (d.x.bTile / 8 + 1)
  match d.g.wsource with
  | some w => s.loadWeights d tile w
  | none => s

/-- A region's MMA elements hold weights. -/
def Region.hasWeights (g : Region) : Bool :=
  g.elems.all fun e => match e.form with
    | .mma none => false
    | _ => true

/-! ### Rings of MXLDW and MXGO -/

/-- A head slot that may be read. -/
inductive SlotGot where
  | wait (s : State)
  | bad (s : State) (st : Status)
  | ready (s : State) (pa : Nat) (r : Ring)
  deriving DecidableEq, Repr

/-- A ring's descriptor, which the operation has asked its home for at its start, as it now stands once its bank serves (R187, R376,
R449). -/
def State.lookRing (s : State) (o : Op) (h : Option Word) : SlotGot :=
  match h with
  | none => .bad s .ringErr
  | some d =>
    match s.peekPa (s.opAgent o) d.toNat with
    | none => .wait s
    | some pa => match s.spadReady pa false with
      | (s, false) => .wait s
      | (s, true) =>
        if s.mem.dead pa 64 then .bad s .dropRd
        else if s.mem.poisoned pa 64 then .bad s .poison
        else match s.ringAt pa with
          | some r => .ready s pa r
          | none => .bad s .ringErr

/-- The consumer side of a ring is held and its head slot is filled; at a ring with none the operation rests (R449). -/
def State.headSlot (s : State) (o : Op) (h : Option Word) : SlotGot :=
  match h with
  | none => .bad s .ringErr
  | some d =>
    match s.wantSide d.toNat false (s.opHolder o) with
    | (s, false) => .wait s
    | (s, true) => if s.ringRests (s.opAgent o) d fun r => decide (0 < r.filled) then .wait s else s.lookRing o (some d)

/-- An operation's end lets a flood that waited for it begin. -/
def State.endMx (s : State) (slot : SlotId) (st : Status) (addr : Word) : State :=
  (s.endOp st false addr).settle s.cur.m s.coreHere slot

/-- A check of R394 or R449 fails. -/
def State.refuseMx (s : State) (o : Op) (st : Status) : State :=
  match o.region with
  | some slot => (s.refuseOp st).settle s.cur.m s.coreHere slot
  | none => s.refuseOp st

/-- A slot is popped; with DRP its lines die (R449). -/
def State.popSlot (s : State) (c : Command) (o : Op) (h : Option Word) : State :=
  match s.lookRing o h with
  | .ready s pa r =>
    let s := (s.advHead pa r 1).atomicAt pa (s.opAgent o)
    if c.drp then s.killLines (spadLines (r.slotAt r.head) r.ssz) else s
  | .wait s => s
  | .bad s _ => s

/-- The pops of slots are granted together at their homes, and wait for their logged turns in a replay (R266, R274). -/
def State.popTurn (s : State) (o : Op) (hs : List (Option Word)) : State × Bool :=
  hs.foldl (fun x h => match h with
    | none => x
    | some d => match x.1.lineAddr (s.opAgent o) d 64 .atomic with
      | (s, .ok (.mem pa)) => (s, x.2 && s.atomicTurn pa (s.opAgent o))
      | (s, _) => (s, false)) (s, true)

/-- The K sweep: the weights are read from the slot at the head of HB, or from the weight source at a resume. -/
def State.sweep (s : State) (o : Op) (d : Driven) (source : Word) (stage : Nat) : State :=
  match s.readMem (s.slotAgent o) source.toNat d.x.bTile with
  | (s, .wait) => s
  | (s, .fail x) => (s.freeWeights d).endMx d.slot x.status source
  | (s, .ok bs p) =>
    if p then (s.freeWeights d).endMx d.slot .poison source
    else (s.loadWeights d bs source).modHere fun o => { o with aux := [stage] }

/-- Weights that a cut has dropped are read again from the weight source, at whatever point the operation stood (R248, R450). -/
def State.reload (s : State) (o : Op) (d : Driven) : State :=
  d.g.wsource.elim s fun w => s.sweep o d w (o.aux.headD 0)

/-! ### MXLDW (R395) -/

/-- MXLDW: its checks (stage 0), the sweep (1) and its retirement. -/
def State.mxldw (s : State) (c : Command) (o : Op) : State :=
  match s.mxRegion c o with
  | .wait => s
  | .bad st => s.refuseMx o st
  | .ready d =>
    match if o.aux.isEmpty then s.lookRing o o.hb else s.headSlot o o.hb with
    | .wait s => s
    | .bad s st => s.endMx d.slot st (o.hb.getD 0)
    | .ready s _ r =>
      match o.aux.headD 0 with
      | 0 => if r.ssz < d.x.bTile then s.refuseMx o .limit else s.modHere fun o => { o with aux := [1] }
      | 1 => s.sweep o d (toWord (r.slotAt r.head)) 2
      | _ =>
        if !d.g.hasWeights then s.reload o d
        else match s.popTurn o [o.hb] with
        | (s, true) => (s.popSlot c o o.hb).endMx d.slot .ok 0
        | (s, false) => s

/-- MXLDW. -/
def execMxldw (c : Command) (s : State) : Out :=
  .next (s.runOp (fun s o => Start.require (c.sub == 0) .badCmd (Start.ring o o.hb fun _ s => .go s id) s)
    fun s o => s.mxldw c o)

/-! ### MXGO (R396) -/

/-- NROW, KEEPW, CLR. -/
def mxRows (c : Command) : Nat := c.arg.toNat % 65536
/-- See `mxRows`. -/
def keepW (c : Command) : Bool := c.arg.getLsbD 24
/-- SUB: the mode (R396). -/
def mxMode (c : Command) : MxMode := if c.sub = 1 then .chain else if c.sub = 2 then .delta else .plain

/-- The checks of R449, in order. -/
def mxCheck (c : Command) (o : Op) (d : Driven) (a : Ring) (b : Option Ring) : Option Status :=
  let mode := mxMode c
  let side := d.x.scale || decide (mode = .chain)
  if (mode = .chain ∧ d.x.wide) ∨ (mode = .delta ∧ d.x.ty ≠ 3 ∧ d.x.ty ≠ 4) then some .badDesc
  else if keepW c ∧ d.g.wsource.isNone then some .badDesc
  else if o.ha = o.hb then some .badDesc
  else if d.x.rows < mxRows c then some .limit
  else if a.ssz < d.x.aTile (mxRows c) side then some .limit
  else if b.any (fun r => decide (r.ssz < d.x.bTile)) then some .limit
  else none

/-- Row r's accumulators are cleared, and in chain mode its side registers (R396). -/
def State.clearRow (s : State) (d : Driven) (mode : MxMode) (row : Nat) : State :=
  let m := s.cur.m
  let c := s.coreHere
  (List.zip d.x.stores (List.range d.x.stores.length)).foldl (fun s y =>
    match d.g.elems[y.1]? with
    | none => s
    | some e =>
      let pa := storeRow m c e row
      let s := (List.range 16).foldl (fun s q => s.ctlWrite (pa + 16 * q) (List.replicate 16 0)) s
      if mode = .chain ∧ y.2 = 0 then s.ctlWrite (pa + 0x100) (bytesOf 8 0xFF800000) else s) s

/-- The chunks and side area of row r from the slot's tile (R441). -/
def Geo.aRow (x : Geo) (bytes side : List Byte) : ARow :=
  { a := x.rowBits ((List.range x.nd).map fun i => (bytes.drop (64 * i)).take 64)
    scales := (side.take 16).map BitVec.toNat, mnew := fieldAt side 16 4, lsum := fieldAt side 20 4 }

/-- The elements of an A row that take the exact path of delta mode, and so renew their reference (R456). -/
def Geo.exact (x : Geo) (qk : Nat) (a : ARow) (rec0 : List Byte) : List Nat :=
  (List.range x.k).filter fun p => !(deltaLane x.ty rne qk (a.a.getD p 0) (fieldAt rec0 (0x140 + 2 * p) 2)).1

/-- What an A row updates of store j's record: the entries, and in store 0 what the mode keeps there, M and L in chain mode and the
renewed references in delta mode (R447, R454, R456). -/
def MxMode.updates (mode : MxMode) (j : Nat) (exact : List Nat) : List (Nat × Nat) :=
  (List.range 16).map (fun q => (16 * q, 16)) ++ if j ≠ 0 then [] else match mode with
    | .plain => []
    | .chain => [(0x100, 8)]
    | .delta => exact.map fun p => (0x140 + 2 * p, 2)

/-- The update of row r at every store; a dead line's bytes read zero, and a write revives it; a poisoned line's poison stays
(DEDUCED, log entry 26). -/
def State.updateRow (s : State) (d : Driven) (mode : MxMode) (row : Nat) (a : ARow) : State :=
  let m := s.cur.m
  let c := s.coreHere
  let rec0 := match (d.x.stores.head?).bind fun e => d.g.elems[e]? with
    | some e => s.mem.read (storeRow m c e row) 512
    | none => []
  let recs := (List.zip d.x.stores (List.range d.x.stores.length)).filterMap fun y => (d.g.elems[y.1]?).map fun e =>
    let pa := storeRow m c e row
    (y.2, pa, d.x.record d.g mode d.g.qk.toNat a y.2 rec0 (s.mem.read pa 512))
  let skips := recs.foldl (fun n y => max n y.2.2.2) 0
  let s := recs.foldl (fun s y =>
    (mode.updates y.1 (d.x.exact d.g.qk.toNat a rec0)).foldl (fun s u => s.ctlWrite (y.2.1 + u.1) ((y.2.2.1.drop u.1).take u.2)) s) s
  s.modRegion m c d.slot fun g =>
    { g with dskip := BitVec.ofNat 48 (sat48 (g.dskip.toNat + skips)), chained := g.chained || decide (mode = .chain) }

/-- One A row is read and driven through the region; a fault ends the operation at that row and leaves the weights undefined
(R449). -/
def State.driveRow (s : State) (c : Command) (o : Op) (d : Driven) (slot : Nat) : State :=
  let ag := s.opAgent o
  let mode := mxMode c
  let side := d.x.scale || decide (mode = .chain)
  let fault (s : State) (st : Status) (a : Nat) : State := (s.freeWeights d).endMx d.slot st (toWord a)
  let a0 := slot + 64 * d.x.nd * o.idx
  let a1 := slot + 64 * d.x.nd * mxRows c + 32 * o.idx
  match s.readMem ag a0 (64 * d.x.nd) with
  | (s, .wait) => s
  | (s, .fail x) => fault s x.status a0
  | (s, .ok bs p) =>
    if p then fault s .poison a0
    else
      match if side then s.readMem ag a1 32 else (s, .ok [] false) with
      | (s, .wait) => s
      | (s, .fail x) => fault s x.status a1
      | (s, .ok sd q) =>
        if q then fault s .poison a1
        else (s.updateRow d mode o.idx (d.x.aRow bs sd)).modHere fun o => { o with idx := o.idx + 1 }

/-- What a mode reads and writes of store j's record: its entries, and in store 0 the side registers or the reference. -/
def Geo.rowParts (x : Geo) (mode : MxMode) (j : Nat) : List (Nat × Nat) :=
  (0, 256) :: if j ≠ 0 then [] else match mode with
    | .plain => []
    | .chain => [(0x100, 8)]
    | .delta => [(0x140, 2 * x.k)]

/-- The accumulator lines of row r are served to the controller, in one event for the row (R187, R274, R449). -/
def State.rowReady (s : State) (ag : Agent) (d : Driven) (mode : MxMode) (row : Nat) : State × Bool :=
  s.spansServed ag true ((List.zip d.x.stores (List.range d.x.stores.length)).flatMap fun y =>
    ((d.g.elems[y.1]?).toList.flatMap fun e => (d.x.rowParts mode y.2).map fun z => (storeRow s.cur.m s.coreHere e row + z.1, z.2)))

/-- MXGO: checks (stage 0), the K sweep (1), the clear of every row (2, `lanes` counting), the rows (3) and retirement. -/
def State.mxgo (s : State) (c : Command) (o : Op) : State :=
  match s.mxRegion c o with
  | .wait => s
  | .bad st => s.refuseMx o st
  | .ready d =>
    let slot (s : State) (h : Option Word) : SlotGot := if o.aux.isEmpty then s.lookRing o h else s.headSlot o h
    match slot s o.ha with
    | .wait s => s
    | .bad s st => s.endMx d.slot st (o.ha.getD 0)
    | .ready s _ ra =>
      match if keepW c then SlotGot.ready s 0 ra else slot s o.hb with
      | .wait s => s
      | .bad s st => s.endMx d.slot st (o.hb.getD 0)
      | .ready s _ rb =>
        match o.aux.headD 0 with
        | 0 =>
          match mxCheck c o d ra (if keepW c then none else some rb) with
          | some st => s.refuseMx o st
          | none => s.modHere fun o => { o with aux := [if keepW c then 2 else 1] }
        | 1 => s.sweep o d (toWord (rb.slotAt rb.head)) 2
        | 2 =>
          if !arg23 c || decide (o.lanes = mxRows c) then s.modHere fun o => { o with aux := [3] }
          else match s.rowReady (s.slotAgent o) d (mxMode c) o.lanes with
          | (s, false) => s
          | (s, true) => (s.clearRow d (mxMode c) o.lanes).modHere fun o => { o with lanes := o.lanes + 1 }
        | _ =>
          if !d.g.hasWeights then s.reload o d
          else if o.idx = mxRows c then
            match s.popTurn o (if keepW c then [o.ha] else [o.ha, o.hb]) with
            | (s, true) =>
              let s := s.popSlot c o o.ha
              (if keepW c then s else s.popSlot c o o.hb).endMx d.slot .ok 0
            | (s, false) => s
          else match s.rowReady (s.opAgent o) d (mxMode c) o.idx with
          | (s, false) => s
          | (s, true) => s.driveRow c o d (ra.slotAt ra.head)

/-- MXGO. -/
def execMxgo (c : Command) (s : State) : Out :=
  .next (s.runOp (fun s o =>
    Start.require (decide (c.sub.toNat < 3) && c.arg.toNat / 2 ^ 16 % 128 == 0 && decide (mxRows c ≠ 0)) .badCmd
      (Start.ring o o.ha fun _ s => if keepW c then .go s id else Start.ring o o.hb (fun _ s => .go s id) s) s)
    fun s o => s.mxgo c o)

/-! ### MXDRN (R397, R451) -/

/-- TYPE of a drain. -/
def drnType (c : Command) : Nat := c.arg.toNat % 16
/-- NORM and CLR (R397). -/
def drnNorm (c : Command) : Bool := c.arg.getLsbD 23
/-- See `drnNorm`. -/
def drnClr (c : Command) : Bool := c.arg.getLsbD 22

/-- The checks of MXDRN on its fields (R376, R397, R451). -/
def drnFields (c : Command) (w : Walk) : Bool :=
  let ty := drnType c
  let esz := if ty = 2 then 2 else if ty = 3 ∨ ty = 4 then 1 else 3
  decide (c.sub.toNat < 5) && c.arg.toNat / 16 % 2 ^ 18 == 0 && decide (ty ∈ [2, 3, 4, 0xC, 0xD])
    && !(decide (ty = 0xC) && (drnNorm c || decide (c.sub ≠ 0))) && (ringBit c || (w.ok && decide (w.esz = esz)))

/-- Value v of a drain: its store record's address, its entry's place, and store 0's record of the row. -/
def State.drnPlace (s : State) (d : Driven) (v : Nat) : Nat × Nat × Nat :=
  let at' (j row : Nat) : Nat := match (d.x.stores[j]?).bind fun e => d.g.elems[e]? with
    | some e => storeRow s.cur.m s.coreHere e row
    | none => 0
  let row := v / d.x.n
  let col := v % d.x.n
  (at' (col / 16) row, col % 16, at' 0 row)

/-- A value converted, its flags and the entry with SAT kept (R293, R397). -/
def drnRead (x : Geo) (ty : Nat) (md : RMode) (norm : Option Nat) (en : Entry) : Nat × Flags × Entry :=
  match norm with
  | none => en.read x.wide ty md
  | some l =>
    let q := (FloatFmt.b64.decode en.val).div (FloatFmt.b32.decode l)
    let o := roundTo ty md q.1
    (o.1, q.2 ||| o.2, en)

/-- One value is read, its flags go to STICKY, and it is handed on with the state in which its accumulator is settled; a dead or
poisoned line ends the drain (R397, R451). -/
def State.drnValue (s : State) (c : Command) (o : Op) (d : Driven) (give : State → (State → State) → List Byte → State) : State :=
  let (pa, q, pa0) := s.drnPlace d o.idx
  let a := sliceBase + (pa + 16 * q - spadBase)
  -- in a ring what was read before the fault is still delivered (R379)
  let fault (st : Status) : State := if ringBit c then s.noteFault st (a : Int) else s.endMx d.slot st (toWord a)
  match s.spansServed (s.opAgent o) false ((pa + 16 * q, 16) :: if drnNorm c then [(pa0 + 0x104, 4)] else []) with
  | (s, false) => s
  | (s, true) =>
    if s.mem.dead (pa + 16 * q) 16 || (drnNorm c && s.mem.dead (pa0 + 0x104) 4) then fault .dropRd
    else if s.mem.poisoned (pa + 16 * q) 16 || (drnNorm c && s.mem.poisoned (pa0 + 0x104) 4) then fault .poison
    else
      let en := entryAt d.x.wide (s.mem.read pa 512) q
      let ty := drnType c
      let md : RMode := { code := c.sub.toNat, seed := 0, index := o.idx }
      let (v, fl, en') := drnRead d.x ty md (if drnNorm c then some (s.mem.num (pa0 + 0x104) 4) else none) en
      let new := if drnClr c then Entry.zero else en'
      match if new = en then (s, true) else s.spansServed (s.opAgent o) true [(pa + 16 * q, 16)] with
      | (s, false) => s
      | (s, true) =>
        let s := s.setSticky s.cur.m s.coreHere d.slot (flagSticky fl ||| AccFlags.sticky en'.fl)
        give s (fun s => if new = en then s else s.ctlWrite (pa + 16 * q) (new.bytes d.x.wide)) (bytesOf (typeWidth ty / 8) v)

/-- MXDRN: checks (stage 0), then one value a unit. -/
def State.mxdrn (s : State) (c : Command) (o : Op) : State :=
  let w := walkOf o.wa
  let total (x : Geo) : Nat := x.rows * x.n
  match s.mxRegion c o with
  | .wait => s
  | .bad st => s.refuseMx o st
  | .ready d =>
    if o.aux.isEmpty then
      if drnNorm c && !d.g.chained then s.refuseMx o .badCmd
      else if drnType c = 0xC ∧ !d.x.wide then s.refuseMx o .badDesc
      else s.modHere fun o => { o with aux := [1] }
    else
      let atEnd := decide (o.idx = total d.x)
      if ringBit c then
        s.feedRing o (atEnd || decide (o.status ≠ .ok)) (typeWidth (drnType c) / 8) 0 fun s =>
          if o.status ≠ .ok then s.endMx d.slot o.status o.errAddr
          else if atEnd then s.endMx d.slot .ok 0
          else s.drnValue c o d fun s keep bs => (keep s).modHere fun o => { o.gain bs (bs.map fun _ => false) with idx := o.idx + 1 }
      else if atEnd then s.endMx d.slot .ok 0
      else if o.idx = w.count then s.endMx d.slot .limit 0
      else match s.elemAddr (s.opAgent o) w o.idx with
      | (s, .wait) => s
      | (s, .fail st a) => s.drnValue c o d fun s _ _ => s.endMx d.slot st (BitVec.ofInt 64 a)
      | (s, .at_ a) =>
        match s.pieceCheck (s.opAgent o) a .store with
        | (s, .wait) => s
        | (s, .fail x) => s.drnValue c o d fun s _ _ => s.endMx d.slot x.status (toWord a)
        | (s, _) =>
          s.drnValue c o d fun s keep bs =>
            match s.writeMem (s.opAgent o) a bs with
            | (s, .ok) => (keep s).modHere fun o => { o with idx := o.idx + 1 }
            | (_, _) => s

/-- MXDRN. -/
def execMxdrn (c : Command) (s : State) : Out :=
  .next (s.runOp (fun s o =>
    Start.require (drnFields c (walkOf o.wa)) .badCmd
      (if ringBit c then Start.ring o o.ha fun _ s => .go s id else fun s => .go s id) s)
    fun s o => s.mxdrn c o)

end Sys2Proof.Machine
end

