-- ==== Sys2Proof/Machine/Checkpoint.lean ====
section
/-! DEFINITION. Checkpoints, epochs in the cellar, restore and replay (R262–R266, Tables 9.8, 8.7). The places of the rows stand
still while a checkpoint is open; the epoch is written in the one step in which the engines pause. Layouts that the manual
leaves to the hub: DESIGN CHOICE, log entry 32. -/

namespace Sys2Proof.Machine

/-! ### The start of a checkpoint (R262) -/

/-- The rows of a checkpoint that it does not leave out. -/
def State.ckRows (s : State) : List RowId :=
  (finsN 24).filter fun m => s.hub.ck.rows.getLsbD m.val
    && decide ((s.row m).phase ≠ .double ∧ (s.row m).phase ≠ .mchk ∧ (s.row m).phase ≠ .doubleMchk)

/-- A CKPT operation that waits: for a checkpoint to start, or, once idx is 1, for the one in progress. -/
def Op.waitsCkpt (o : Op) (started : Nat) : Bool :=
  o.phase == .waiting && decide (cmdOp o.cmd = 0x51) && o.idx == started

/-- Some CKPT operation waits for a checkpoint to start. -/
def State.ckAsked (s : State) : Bool :=
  s.rows.toList.any fun r => r.cores.toList.any fun k => k.ops.any fun o => o.waitsCkpt 0

/-- The slots of a row whose regions run and are not frozen. -/
def State.unfrozen (s : State) (m : RowId) : List (CoreId × SlotId) :=
  (finsN 8).flatMap fun c => (finsN 8).filterMap fun slot =>
    match s.region m c slot with
    | some g => if g.st = .running ∧ !g.frozen then some (c, slot) else none
    | none => none

/-- The places of a row stop, and write their resume ordinals but no cause (R262). -/
def State.stopRow (s : State) (m : RowId) : State := s.modRow m Row.noteOrds

/-- Cuts are asked for in every running region of a row. -/
def State.cutRow (s : State) (m : RowId) : State := (s.unfrozen m).foldl (fun s x => s.askCut m x.1 x.2) s

/-- PER ms of timebase have passed since the last one came due. -/
def State.ckDue (s : State) : Bool := decide (s.hub.ck.lastAt + s.hub.ck.per.toNat * 16000000 ≤ s.tb.toNat)

/-- CHECKPOINT: one that comes due while the last is being written is skipped. -/
def execCheckpoint (s : State) : Out :=
  let k := s.hub.ck
  .next (if !k.en ∨ k.size = 0 then s
    else if k.open_ then
      if s.ckDue then s.modHub fun h => { h with ck := { h.ck with skip := satInc h.ck.skip, lastAt := s.tb.toNat } } else s
    else if s.ckDue || s.ckAsked then
      let s := s.modHub fun h => { h with ck := { h.ck with
        open_ := true, lastAt := if s.ckDue then s.tb.toNat else h.ck.lastAt } }
      let s := s.mapOps fun _ _ o => if o.waitsCkpt 0 then { o with idx := 1 } else o
      s.ckRows.foldl State.cutRow (s.ckRows.foldl State.stopRow s)
    else s)

/-! ### The epoch (R263, R264) -/

/-- A record of an order log: kind 1 NDMRG in 8 bytes, 2 atomic and 3 frame in 16 with a payload after (R265; DESIGN CHOICE, log entry 20). -/
def LogRec.bytes : LogRec → List Byte
  | .ndmrg m c slot e second =>
    bytesOf 8 (2 ^ 56 + m.val * 2 ^ 32 + c.val * 2 ^ 28 + slot.val * 2 ^ 24 + e % 4096 * 2 ^ 8 + b2n second)
  | .atomic home agent seq => bytesOf 8 (2 * 2 ^ 56 + home % 2 ^ 40) ++ bytesOf 8 (agent % 2 ^ 16 * 2 ^ 48 + seq % 2 ^ 48)
  | .frame circ src seq idx kind taken op p =>
    bytesOf 8 (3 * 2 ^ 56 + src.toNat * 2 ^ 38 + circ.toNat * 2 ^ 22 + op.toNat * 2 ^ 14 + p.length % 2 ^ 14)
      ++ bytesOf 8 (seq.toNat * 2 ^ 32 + b2n taken * 2 ^ 31 + kind.toNat % 8 * 2 ^ 28 + idx % 2 ^ 28) ++ p

/-- The order log in HBM from an address, up to a record of no kind, by fuel. -/
def readLog (mem : Memory) : Nat → Nat → List LogRec
  | 0, _ => []
  | n + 1, a =>
    let w := mem.num a 8
    let v := mem.num (a + 8) 8
    match w / 2 ^ 56 with
    | 1 =>
      .ndmrg (Fin.ofNat 24 (bits w 36 32)) (Fin.ofNat 8 (bits w 30 28)) (Fin.ofNat 8 (bits w 26 24)) (bits w 19 8) (bitN w 0)
        :: readLog mem n (a + 8)
    | 2 => .atomic (bits w 39 0) (bits v 63 48) (bits v 47 0) :: readLog mem n (a + 16)
    | 3 =>
      .frame (BitVec.ofNat 16 (bits w 37 22)) (BitVec.ofNat 18 (bits w 55 38)) (BitVec.ofNat 32 (bits v 63 32)) (bits v 27 0)
        (BitVec.ofNat 4 (bits v 30 28)) (bitN v 31) (BitVec.ofNat 8 (bits w 21 14)) (mem.read (a + 16) (bits w 13 0)) :: readLog mem n (a + 16 + bits w 13 0)
    | _ => []

/-- A core's or row fetch unit's record: its coordinate and block count, then each block's offset, length and bytes. -/
def coreRecord (m : RowId) (p : PlaceId) (bs : List (Nat × List Byte)) : List Byte :=
  bytesOf 8 (m.val * 16 + p.val + bs.length * 2 ^ 32)
    ++ bs.flatMap fun b => bytesOf 8 b.1 ++ bytesOf 8 b.2.length ++ b.2

/-- The core records of a row. -/
def State.coreRecords (s : State) (m : RowId) : List (List Byte) :=
  let r := s.row m
  coreRecord m rfuPlace r.larder :: (finsN 8).map fun c =>
    let k := r.cores[c]
    let ord := if k.stopped then k.trap.xord else r.nextOrd (placeOfCore c)
    coreRecord m (placeOfCore c) (k.larder (r.history c) ord s.tb ++ ((finsN 8).flatMap fun slot => s.regionLarder m c slot)
      ++ (finsN 64).flatMap fun mi => s.cellMasks m c mi)

/-- The next element of an operation: one read whose bytes have not all been delivered is not done with (R244, R263). -/
def Op.nextElem (o : Op) : Nat :=
  let back (unit part : Nat) : Nat := (o.idx * unit + part - o.buf.length - o.lanes) / max unit 1
  match cmdOp o.cmd with
  | 0x01 | 0x10 => back (walkOf o.wa).unit 0
  | 0x22 => back (pickOf o).2.ksz (o.aux.getD 15 0)
  | 0x32 => back (typeWidth (drnType (commandOf o.cmd)) / 8) 0
  | 0x42 => if o.lanes = 2 then o.idx - o.buf.length / (aredOf o).rec_ else o.idx
  | _ => o.idx

/-- The operation records of a row: coordinate, command and next element. -/
def State.opRecords (s : State) (m : RowId) : List (List Byte) :=
  (finsN 8).flatMap fun c => ((s.core m c).ops.filter fun o => o.phase != .completed).map fun o =>
    bytesOf 8 (m.val * 16 + c.val) ++ bytesOf 16 o.cmd.toNat ++ bytesOf 8 o.nextElem

/-- A 64 KiB granule lies in the cellar, which is never tracked. -/
def Ckpt.inCellar (k : Ckpt) (g : Nat) : Bool :=
  decide (k.base * 2 ^ 26 ≤ g * 65536 ∧ g * 65536 < k.base * 2 ^ 26 + k.size.toNat * 2 ^ 26)

/-- A granule of scratchpad belongs to a row of a checkpoint. -/
def granuleOfRows (rows : List RowId) (g : Nat) : Bool :=
  decide (spadBase ≤ g * 65536) && match sliceOf (g * 65536 - spadBase) with
    | some sl => rows.contains sl.m
    | none => false

/-- The granules that an epoch holds: those written in [CKLO, CKHI), or all of that range in a full one; and the halves of the
rows' memory cells that were written. -/
def State.epochGranules (s : State) (full : Bool) (rows : List RowId) : List Nat :=
  let k := s.hub.ck
  let hi := min k.hi (hbmEnd / 65536)
  let pages := if full then List.range' k.lo (hi - k.lo) else s.mem.dirty.filter fun g => decide (k.lo ≤ g ∧ g < hi)
  (pages.filter fun g => !k.inCellar g) ++ s.mem.dirty.filter (granuleOfRows rows)

/-- The page record of a granule: its physical address, then its 64 KiB. -/
def pageRecord (mem : Memory) (g : Nat) : List Byte := bytesOf 8 (g * 65536) ++ mem.read (g * 65536) 65536

/-- The 4 KiB header (R264), its fields in the manual's order, eight bytes each. -/
def epochHeader (num : BitVec 32) (tb : Word) (full part : Bool) (rows : BitVec 24) (lastFull : Nat)
    (cores ops pages : List (List Byte)) (log : List LogRec) : List Byte :=
  let len (xs : List (List Byte)) : Nat := (xs.map List.length).sum
  let o1 := 4096
  let o2 := o1 + len cores
  let o3 := o2 + len ops
  let o4 := o3 + len pages
  let ws := [0x43454C4C, num.toNat, tb.toNat, b2n full + 2 * b2n part, rows.toNat, lastFull, cores.length, o1, ops.length, o2
    , pages.length, o3, log.length, o4]
  let bs := ws.flatMap (bytesOf 8)
  bs ++ List.replicate (4096 - bs.length) 0

/-- Every FULLN-th epoch is full. -/
def Ckpt.fullNext (k : Ckpt) : Bool := (k.epoch.toNat + 1) % max k.fulln.toNat 1 == 0

/-- The bytes of the next epoch. -/
def State.epochBytes (s : State) (rows : List RowId) : List Byte :=
  let k := s.hub.ck
  let full := k.fullNext
  let cores := rows.flatMap s.coreRecords
  let ops := rows.flatMap s.opRecords
  let pages := (s.epochGranules full rows).map (pageRecord s.mem)
  let part := (finsN 24).any fun m => k.rows.getLsbD m.val && !rows.contains m
  epochHeader (k.epoch + 1) s.tb full part k.rows k.lastFull cores ops pages k.log
    ++ cores.flatten ++ ops.flatten ++ pages.flatten ++ k.log.flatMap LogRec.bytes ++ bytesOf 8 0

/-- Everything resumes (R262): regions thaw but for those that a breakpoint froze, the CKPT operations end, and suspensions that
waited take place. -/
def State.ckResume (s : State) (rows : List RowId) (st : Status) : State :=
  let s := rows.foldl (fun s m => (finsN 8).foldl (fun s c => (finsN 8).foldl (fun s slot => s.goOn m c slot) s) s) s
  let s := s.mapOps fun _ _ o => if o.waitsCkpt 1 then { o with phase := .ended, status := st } else o
  (s.modHub fun h => { h with ck := { h.ck with open_ := false } }).fireWaiting

/-- Bytes of the cellar that exist. -/
def Ckpt.room (k : Ckpt) : Nat := min (k.size.toNat * 2 ^ 26) (hbmEnd - k.base * 2 ^ 26)

/-- The epochs that bytes [a, a + n) of the cellar overwrite lose their magic first. -/
def State.clearEpochs (s : State) (a n : Nat) : State :=
  let k := s.hub.ck
  let hit (x : Nat × Nat × Nat) : Bool := decide (x.2.1 < a + n ∧ a < x.2.1 + x.2.2)
  let s := (k.epochs.filter hit).foldl (fun s x => s.withMem (s.mem.put (k.base * 2 ^ 26 + x.2.1) 8 0)) s
  let gone := (k.epochs.filter hit).map (·.1)
  { (s.modHub fun h => { h with ck := { h.ck with epochs := h.ck.epochs.filter fun x => !hit x } }) with
    saved := s.saved.filter fun x => !gone.contains x.epoch.toNat }

/-- A row as an epoch keeps it: post histories whole, and no stationary weights (R170, R237, R263). -/
def Row.saved (r : Row) : Row :=
  { r with cores := Vector.ofFn fun c =>
      let k := r.cores[c]
      { k with hist := if r.phase = .running then r.history c else k.hist, regions := k.regions.map fun g => g.map Region.dropWeights } }

/-- The epoch is written at the next place of the cellar, and everything resumes. -/
def State.writeEpoch (s : State) (rows : List RowId) (bs : List Byte) : State :=
  let k := s.hub.ck
  let num := k.epoch + 1
  let at' := if k.room < k.pos + bs.length then 0 else k.pos
  let s := s.clearEpochs at' bs.length
  let mem : Memory := s.mem.write (k.base * 2 ^ 26 + at') bs
  let s := s.withMem ({ mem with dirty := [] } : Memory)
  let s := { s with saved := s.saved ++ rows.map fun m => SavedRow.mk num s.tb m (s.row m).saved }
  let s := s.modHub fun h => { h with ck := { h.ck with
    epoch := num, fullc := false, pos := at' + bs.length, epochs := h.ck.epochs ++ [(num.toNat, at', bs.length)]
    lastFull := if k.fullNext then at' else h.ck.lastFull, log := [], homeSeq := [] } }
  let s := rows.foldl (fun s m => (finsN 8).foldl (fun s c => s.trace m c 6 0 0 num.toNat) s) s
  s.ckResume rows .ok

/-- EPOCH: once every running region of the rows is frozen. -/
def execEpoch (s : State) : Out :=
  let rows := s.ckRows
  .next (if !s.hub.ck.open_ then s
    else if !rows.all fun m => (s.unfrozen m).isEmpty && s.portsIdle m then rows.foldl State.cutRow s
    else
      let bs := s.epochBytes rows
      if s.hub.ck.room < bs.length then
        (s.modHub fun h => { h with ck := { h.ck with fullc := true } }).ckResume rows .limit
      else s.writeEpoch rows bs)

/-! ### Restore (R251, R266) -/

/-- The saved row whose core records a larder holds: the blocks of its core 0 carry the timebase of its cut. -/
def State.savedFor (s : State) (l : Launch) (m : RowId) : Except Status SavedRow :=
  let ag := hubFor m l.lid
  let a := larderCoreAt l m 0
  match s.larderUnread l m with
  | some e => .error e
  | none =>
    if s.larderNum ag a 0 8 ≠ 0x4C41524400010000 then .error .badDesc
    else match s.saved.find? fun x => decide (x.m = m ∧ x.tb.toNat = s.larderNum ag a 24 8) with
      | some x => .ok x
      | none => .error .badDesc

/-- The live lines of a memory cell in a larder, with their bytes and poison (Table 8.7). -/
def State.larderLines (s : State) (l : Launch) (m : RowId) (c : CoreId) (mi : Fin 64) (hxm : BitVec 24) :
    List (Nat × List Byte × Bool) :=
  let ag := hubFor m l.lid
  let a := larderCoreAt l m c
  let base := spadBase + sliceOffset m c mi 0
  let masks := (finsN 16).map fun b => s.larderNum ag a (0x1800000 + 0x80 * mi.val + 8 * b.val) 8
  ((List.range 1024).filter fun i => bitN (masks.getD (bankOf hxm (128 * i)).val 0) (i / 16)).filterMap fun i =>
    match (s.readMem ag (a + 0x1000000 + 0x20000 * mi.val + 128 * i) 128).2 with
    | .ok bs p => some (base / 128 + i, bs, p)
    | _ => none

/-- An operation is reissued from its saved element, BAR with its add done and to wait anew (R244, R266, R408). -/
def Op.reissue (lid : BitVec 16) (o : Op) : Op :=
  { o with lid := lid, awaitSeq := [], aux := if cmdOp o.cmd = 0x54 then o.aux.take 2 else o.aux
           phase := if o.phase = .waiting then .forked else o.phase }

/-- A saved region with the record that the larder holds of it, and its accumulator lines (R266, R461). -/
def State.restoreRegion (s : State) (l : Launch) (m : RowId) (c : CoreId) (slot : SlotId) (g : Region) :
    Region × List (Nat × List Byte × Bool) :=
  let ls := g.storeLines m c
  let x := s.regionRecord l m c slot (128 * ls.length)
  ({ g.ofLarder x.1 with lid := l.lid }, ls.mapIdx fun i ln => (ln, (x.2.drop (128 * i)).take 128, false))

/-- What a launch takes up a saved row with: cores, row fetch unit and regions as the larder's records have them, with the phase,
the operations and the images that no record holds from what the hub kept; all cells are made dead and their lines come from the
larder (R251, R266). -/
def State.restoreRow (s : State) (l : Launch) (x : SavedRow) : Suspended :=
  let old := x.row.lid.getD 0
  let ag := hubFor x.m l.lid
  let regs := (finsN 8).flatMap fun c => (finsN 8).filterMap fun slot =>
    ((x.row.cores[c]).regions[slot]).bind fun g =>
      if g.lid = old then some (c, slot, s.restoreRegion l x.m c slot g) else none
  let row : Row := { x.row.ofLarder (s.larderNum ag (larderRfuAt l x.m)) with
    lid := some l.lid, suspended := none
    cores := Vector.ofFn fun c =>
      let k := (x.row.cores[c]).ofLarder (s.larderNum ag (larderCoreAt l x.m c))
      { k with ops := (k.ops.filter fun o => o.lid == old && o.phase != .completed).map (Op.reissue l.lid)
               regions := .replicate 8 none } }
  { lid := l.lid, m := x.m, row := row, column := .replicate 8 0, folded := []
    spilled := regs.map fun y => (y.1, y.2.1, y.2.2.1)
    lines := ((finsN 8).flatMap fun c => (finsN 64).flatMap fun mi => s.larderLines l x.m c mi ((x.row.cores[c]).mcells[mi]).hxm)
      ++ regs.flatMap fun y => y.2.2.2 }

/-- A breakpoint that froze a saved region stands with HIT set (R262). -/
def State.restoreHits (s : State) (x : SavedRow) : State :=
  (finsN 8).foldl (fun s c => (finsN 4).foldl (fun s (i : Fin 4) =>
    let k := x.row.cores[c]
    let b := k.bps[i]
    if b.hit && (k.regions[b.slot]).any (fun g => g.bpHold) then
      s.modCore x.m c fun k => { k with bps := k.bps.set i { b with en := false, due := false } }
    else s) s) s

/-- A restore: its status, and the launch, which LAUNCH_START resumes once its rows are free. -/
def State.restore (s : State) (l : Launch) : State × Status :=
  if l.larder = 0 ∨ l.larder.toNat % 0x10000 ≠ 0 then (s, .badDesc)
  else
    let (s', lid) := s.accept l .suspended none
    let l := { l with lid := lid }
    if !l.rowList.all fun m => s'.larderOk l m then (s, .xlate)
    else
      let got := l.rowList.map fun m => s'.savedFor l m
      match got.findSome? fun x => match x with
        | .error e => some e
        | .ok _ => none with
      | some e => (s, e)
      | none =>
        let xs := got.filterMap fun x => match x with
          | .ok x => some x
          | .error _ => none
        let recs := xs.map (s'.restoreRow l)
        let s' := xs.foldl State.restoreHits s'
        ({ s' with suspended := s'.suspended ++ recs }, .ok)

/-- A restore has not yet resumed its launch. -/
def State.restoring (s : State) : Bool := s.suspended.any fun x => x.column.toList.all (· == 0)

/-- The circuit of a logged DATA frame. -/
def LogRec.dataOn : LogRec → Option (BitVec 18 × BitVec 16)
  | .frame circ src _ _ kind _ _ _ => if kind = 0 then some (src, circ) else none
  | _ => none

/-- CKREST is written: with REPLAY the order log at CKRLOG is followed until it is exhausted. -/
def State.setCkrest (s : State) (v : Word) : State :=
  let (s, st) := match s.readDesc (wbits v 39 7 * 128) with
    | .error st => (s, st)
    | .ok l => s.restore l
  let s := s.modHub fun h => { h with ck := { h.ck with status := BitVec.ofNat 8 st.code } }
  if st ≠ .ok ∨ !v.getLsbD 0 then s
  else
    let q := readLog s.mem (2 ^ 30) (s.hub.ck.rlog.toNat * 128)
    s.modHub fun h => { h with ck := { h.ck with
      replayQ := q, replay := !q.isEmpty, freed := [], replayCirc := (q.filterMap LogRec.dataOn).eraseDups } }
/-- CKREST_WRITE. -/
def execCkrestWrite (v : Word) (s : State) : Out := .next (s.setCkrest v)

end Sys2Proof.Machine
end

