-- ==== Sys2Proof/Machine/Control.lean ====
section
/-! DEFINITION. Row control flow (R347–R350): branches, JAL, JALR and LOOP at the row fetch unit. -/

namespace Sys2Proof.Machine

/-- A count of words from the word's own address (R299). -/
def State.target (s : State) (words : Word) : Word := s.cur.word.addr + 4 * words
/-- The word after this one. -/
def State.following (s : State) : Word := s.cur.word.addr + 4

/-- A branch on two q registers (R347). -/
def State.branch (s : State) (f : FmtB) (cond : Word → Word → Bool) : State :=
  s.runWord { q := true, reads := [f.a, f.b] } fun s x =>
    .jump s none (if cond (x f.a) (x f.b) then s.target (f.o.signExtend 64) else s.following)

/-- BEQ (R347). -/
def execBeq (f : FmtB) (s : State) : Out := .next (s.branch f fun a b => decide (a = b))
/-- BNE (R347). -/
def execBne (f : FmtB) (s : State) : Out := .next (s.branch f fun a b => decide (a ≠ b))
/-- BLT (R347). -/
def execBlt (f : FmtB) (s : State) : Out := .next (s.branch f fun a b => a.slt b)
/-- BGE (R347). -/
def execBge (f : FmtB) (s : State) : Out := .next (s.branch f fun a b => !a.slt b)
/-- BLTU (R347). -/
def execBltu (f : FmtB) (s : State) : Out := .next (s.branch f fun a b => decide (a < b))
/-- BGEU (R347). -/
def execBgeu (f : FmtB) (s : State) : Out := .next (s.branch f fun a b => decide (b ≤ a))

/-- JAL (R348). -/
def execJal (f : FmtJ) (s : State) : Out :=
  .next (s.runWord { q := true, reads := [], dest := some f.l } fun s _ =>
    .jump s (some s.following) (s.target (f.o.signExtend 64)))

/-- JALR: q[a] is read before q[d] is written (R348). -/
def execJalr (f : FmtI0) (s : State) : Out :=
  .next (s.runWord { q := true, reads := [f.a], dest := some f.d } fun s x =>
    .jump s (some s.following) ((x f.a + 4 * f.i.signExtend 64) &&& ~~~ 3#64))

/-- LOOP (R349): field b is not read. -/
def execLoopW (f : FmtB) (s : State) : Out :=
  .next (s.runWord { q := true, reads := [f.a], dest := some f.a } fun s x =>
    if 1 < x f.a then .jump s (some (x f.a - 1)) (s.target (f.o.signExtend 64)) else .jump s (some 0) s.following)

end Sys2Proof.Machine
end

