-- ==== Sys2Proof/Machine/MemForms.lean ====
section
/-! DEFINITION. The memory-cell forms MLD, MST and MAMO (R153, R182, R186, R431–R433). -/

namespace Sys2Proof.Machine

/-- Where a lane's access goes (R431). -/
inductive LaneAt where
  | fault
  | wait
  | cell (pa : Nat)
  deriving DecidableEq, Repr

/-- Bytes of a lane's access (R431). -/
def laneWidth (ty : Nat) : Nat := if ty < 3 then 4 else if ty < 5 then 2 else 1

/-- A lane's address (R431): a byte of the element's own cell, or a slice-window offset that the launch reaches. -/
def State.laneAt (s : State) (r : ElemRef) (lid : BitVec 16) (e : Elem) (v : Nat) : LaneAt :=
  let w := laneWidth e.stage0.ty
  if v % w ≠ 0 then .fault
  else if bitN e.stage0.low 0 then
    if 0x1FFFF < v then .fault else .cell (spadBase + sliceOffset r.m r.c (Fin.ofNat 64 (memIndex e.cell)) v)
  else match sliceOf v with
  | none => .fault
  | some sl =>
    match s.reach lid sl.m sl.c sl.mi with
    | .yes => .cell (spadBase + v)
    | .no => .fault
    | .wait => .wait

/-- The lanes' places for the tokens that heads or an entry offer. -/
def State.lanePlaces (s : State) (r : ElemRef) (lid : BitVec 16) (e : Elem) (ins : List Taken) : List LaneAt :=
  (List.range (leastCnt ins)).map fun i => s.laneAt r lid e (ins.head?.elim 0 fun x => (x.tok.lanes[i]?.getD 0).toNat)

/-- The physical addresses among places. -/
def laneCells (ps : List LaneAt) : List Nat := ps.filterMap fun p => match p with
  | .cell pa => some pa
  | _ => none

/-- The places' banks serve, or wake; an access to a column that a launch has given up waits, and so does one that its row's
budget holds back, each line counting once (R187, R247, R274). -/
def State.lanesReady (s : State) (ag : Agent) (ps : List LaneAt) (write : Bool) : State × Bool :=
  match s.spansServed ag write ((laneCells ps).map fun pa => (pa, 1)) with
  | (s, ok) => (s, ok && !ps.contains .wait)

/-- The memory cell and bank that an access reaches. -/
def State.bankKey (s : State) (pa : Nat) : Option (RowId × CoreId × Fin 64 × Fin 16) :=
  (sliceOf (pa - spadBase)).map fun sl => (sl.m, sl.c, sl.mi, bankOf (s.core sl.m sl.c).mcells[sl.mi].hxm sl.off)

/-- Each request that its bank cannot serve with the line of the lowest lane adds one to the bank's CONFL (R182). -/
def State.countConflicts (s : State) (pas : List Nat) : State :=
  let keyed := pas.filterMap fun pa => (s.bankKey pa).map fun k => (k, pa / 128)
  keyed.foldl (fun s x =>
    match keyed.find? fun y => y.1 == x.1 with
    | some y =>
      if y.2 = x.2 then s
      else s.modMem x.1.1 x.1.2.1 x.1.2.2.1 fun c => { c with confl := vmod c.confl x.1.2.2.2 satInc }
    | none => s) s

/-- The outcome of the lanes of a firing: the state, lane values, what is raised, a lane faulted or read a dead line, and a
poisoned line was read. -/
structure LaneRun where
  s : State
  vals : List Nat
  fl : Flags
  bad : Bool
  poison : Bool
  deriving DecidableEq, Repr

/-- MLD's lanes in ascending order (R432, R433). -/
def LaneRun.load (w : Nat) (x : LaneRun) (p : LaneAt) : LaneRun :=
  match p with
  | .cell pa =>
    if x.s.mem.dead pa w then { x with vals := x.vals ++ [0], bad := true }
    else { x with vals := x.vals ++ [x.s.mem.num pa w], poison := x.poison || x.s.mem.poisoned pa w }
  | _ => { x with vals := x.vals ++ [0], bad := true }

/-- MST's lanes in ascending order: a store revives its line (R185, R432, R433). -/
def LaneRun.store (w : Nat) (x : LaneRun) (p : LaneAt × Nat) : LaneRun :=
  match p.1 with
  | .cell pa => { x with s := x.s.withMem (x.s.mem.put pa w (p.2 % 2 ^ (8 * w))) }
  | _ => { x with bad := true }

/-- The value an atomic of MAMO leaves, none when it writes nothing, and its flags (R432). -/
def mamoNew (kind ty : Nat) (md : RMode) (old v cmp : Nat) : Option Nat × Flags :=
  let float := decide (ty = 2)
  let u := decide (ty = 1)
  match kind with
  | 0 => if float then let o := floatLane 0x20 2 md old v 0; (some o.1, o.2) else (some ((old + v) % 2 ^ 32), 0)
  | 1 => (some (old &&& v), 0)
  | 2 => (some (old ||| v), 0)
  | 3 => (some (old ^^^ v), 0)
  | 4 => if float then (some (floatLane 0x26 2 rne old v 0).1, 0) else (some (if laneInt u v < laneInt u old then v else old), 0)
  | 5 => if float then (some (floatLane 0x27 2 rne old v 0).1, 0) else (some (if laneInt u old < laneInt u v then v else old), 0)
  | 6 => (some v, 0)
  | _ => (if old = cmp then some v else none, 0)

/-- MAMO's lanes in ascending order: each an atomic at its home, which `keep` leaves as it is (R153, R219, R432, R433). A poisoned line
reads zero with P and E, and is no fault. -/
def LaneRun.amo (ag : Agent) (kind ty : Nat) (keep : Bool) (x : LaneRun) (p : LaneAt × Nat × Nat × RMode) : LaneRun :=
  match p.1 with
  | .cell pa =>
    if x.s.mem.dead pa 4 then { x with vals := x.vals ++ [0], bad := true }
    else if x.s.mem.poisoned pa 4 then { x with s := x.s.atomicAt pa ag, vals := x.vals ++ [0], poison := true }
    else
      let old := x.s.mem.num pa 4
      let o := if keep then (none, 0) else mamoNew kind ty p.2.2.2 old p.2.1 p.2.2.1
      let s := match o.1 with
        | some v => x.s.withMem (x.s.mem.put pa 4 v)
        | none => x.s
      { x with s := s.atomicAt pa ag, vals := x.vals ++ [old], fl := x.fl ||| o.2 }
  | _ => { x with vals := x.vals ++ [0], bad := true }

/-- The token of an input. -/
def inputTok (ins : List Taken) (i : Nat) : Option Token := (ins.find? fun x => x.i == i).map (·.tok)
/-- Lane i of an input. -/
def laneOf (ins : List Taken) (inp i : Nat) : Nat := ((inputTok ins inp).elim 0 fun t => (t.lanes[i]?.getD 0).toNat)

/-- The token whose P forbids a write: the data, or MAMO's operand (R153). -/
def dataPoisoned (ins : List Taken) : Bool := (inputTok ins 1).any (·.p)

/-- A self-log of a firing in which a lane faulted or met a dead line (R431, Table 6.7). -/
def State.laneLog (s : State) (r : ElemRef) (bad : Bool) (ins : List Taken) : State :=
  if bad then s.selfLog r 0 ((s.region r.m r.c r.slot).bind fun g => g.loggedOf r.e ins) else s

/-- MLD (R432). -/
def State.fireMld (s : State) (r : ElemRef) (g : Region) (e : Elem) (ins : List Taken) : State :=
  let ps := s.lanePlaces r g.lid e ins
  let x := ps.foldl (LaneRun.load (laneWidth e.stage0.ty)) { s := s, vals := [], fl := 0, bad := false, poison := false }
  let t := g.tokenOf r.e e.ctx ins (leastCnt ins) (lanesOf x.vals)
  let t : Token := { t with e := t.e || x.bad, p := t.p || x.bad || x.poison }
  (((x.s.countConflicts (laneCells ps)).laneLog r x.bad ins).fired r).give r 0 t

/-- MST (R153, R432). -/
def State.fireMst (s : State) (r : ElemRef) (g : Region) (e : Elem) (ins : List Taken) : State :=
  let ps := s.lanePlaces r g.lid e ins
  let (s, bad) :=
    if dataPoisoned ins then (s.setSticky r.m r.c r.slot stPSTORE, false)
    else
      let x := (List.zip ps ((List.range 16).map (laneOf ins 1))).foldl (LaneRun.store (laneWidth e.stage0.ty))
        { s := s, vals := [], fl := 0, bad := false, poison := false }
      (x.s.countConflicts (laneCells ps), x.bad)
  let s := s.unequal r g ins
  match ins with
  | a :: _ =>
    let t : Token := { g.tokenOf r.e e.ctx ins a.tok.cnt a.tok.lanes with tag := a.tok.tag }
    ((s.laneLog r bad ins).fired r).give r 0 { t with e := t.e || bad, p := t.p || bad }
  | [] => s

/-- MAMO (R153, R432): with P on the operand no lane writes and PSTORE is set, and the old values are emitted all the same (DEDUCED, log
entry 23). The seed of RSTO is free (DESIGN CHOICE, log entry 22). -/
def State.fireMamo (s : State) (r : ElemRef) (g : Region) (e : Elem) (ins : List Taken) : State :=
  let st := e.stage0
  let ps := s.lanePlaces r g.lid e ins
  let keep := dataPoisoned ins
  let (seed, s) := s.draw
  let md (i : Nat) : RMode := { code := bits st.low 10 8, seed := seed.toNat, index := 16 * firingNo g e ins + i }
  let x := (List.zip ps ((List.range 16).map fun i => (laneOf ins 1 i, laneOf ins 2 i, md i))).foldl
    (LaneRun.amo (coreAgent r.m r.c g.lid) (bits st.low 4 2) st.ty keep) { s := s, vals := [], fl := 0, bad := false, poison := false }
  let t := g.tokenOf r.e e.ctx ins (leastCnt ins) (lanesOf x.vals)
  let t : Token := { t with e := t.e || x.bad || x.poison || decide (x.fl ≠ 0), p := t.p || x.bad || x.poison }
  let s := ((x.s.countConflicts (laneCells ps)).unequal r g ins).setSticky r.m r.c r.slot
    (flagSticky x.fl ||| (if keep then stPSTORE else 0))
  ((s.laneLog r x.bad ins).fired r).give r 0 t

/-- The accesses of a firing may be made: banks are ready, and during a replay every home's turn is this core's (R187,
R266). -/
def State.memReady (s : State) (r : ElemRef) (g : Region) (e : Elem) (ins : List Taken) : State × Bool :=
  let op := e.stage0.op
  if op = 0x71 ∧ dataPoisoned ins then (s, true)
  else
    let ps := s.lanePlaces r g.lid e ins
    match s.lanesReady (elemAgent r g.lid) ps (decide (op = 0x71)) with
    | (s, ok) => (s, ok && (decide (op ≠ 0x72) || (laneCells ps).all fun pa => s.atomicTurn pa (coreAgent r.m r.c g.lid)))

/-- The tokens that a memory form's next firing takes: of its first complete entry, or its inputs' heads (R134, R143). -/
def Region.offered (g : Region) (idx : Nat) (e : Elem) : List Taken :=
  match g.matched idx e with
  | some is => (e.readyEntry is).elim [] (·.2)
  | none =>
    let is := g.needs idx e
    if is.all (g.inReady idx) then g.heads idx is else []

/-- A memory form acts: its tokens are taken once their accesses may be made (R134, R143, R187). -/
def State.memAct (s : State) (r : ElemRef) (g : Region) (e : Elem) (fire : State → Region → Elem → List Taken → State) : State :=
  let offer := g.offered r.e e
  match if offer.isEmpty || !g.roomToFire r.e e then (s, true) else s.memReady r g e offer with
  | (s, true) => s.fireBy r g e fire
  | (s, false) => s

/-- The element carries a memory-cell element form. -/
def Elem.isMe (e : Elem) (op : Nat) : Bool := e.kind == .me && decide (e.stage0.op = op)

/-- MLD. -/
def execMld (r : ElemRef) (s : State) : Out :=
  .next (s.elemEvent r (Elem.isMe · 0x70) fun s g e => s.memAct r g e fun s g e ins => s.fireMld r g e ins)
/-- MST. -/
def execMst (r : ElemRef) (s : State) : Out :=
  .next (s.elemEvent r (Elem.isMe · 0x71) fun s g e => s.memAct r g e fun s g e ins => s.fireMst r g e ins)
/-- MAMO. -/
def execMamo (r : ElemRef) (s : State) : Out :=
  .next (s.elemEvent r (Elem.isMe · 0x72) fun s g e => s.memAct r g e fun s g e ins => s.fireMamo r g e ins)

end Sys2Proof.Machine
end

