-- ==== Sys2Proof/Machine/Edges.lean ====
section
/-! DEFINITION. The elements at the edges of a graph: SINK, CNTR, STAMP, ORDER and the ring ports (R145, R146, R150, R151,
R429, R430, R467). -/

namespace Sys2Proof.Machine

/-- One more sink of the region has reported (R151). -/
def State.report (s : State) (r : ElemRef) : State := s.modRegion r.m r.c r.slot fun g => { g with sinks := g.sinks + 1 }

/-! ### SINK (R151) -/

/-- SINK consumes a token, logs it when it carries E, and reports at its target. -/
def State.sinkAct (s : State) (r : ElemRef) (g : Region) (e : Elem) : State :=
  match e.form, g.dataAt r.e 0 with
  | .sink seen reported, some (n, t) =>
    if !g.inReady r.e 0 then s
    else
      let s := (s.take r 0).returnUnpaired r g t.tag
      if reported then s.setSticky r.m r.c r.slot stORPHAN
      else
        let s := if t.e then s.logEntry r 0 0xFF t.tag.toNat 0 n t.hdr else s
        if !t.f then s
        else
          let done := decide (seen + 1 = e.stage0.low % 65536)
          let s := s.setForm r (.sink (seen + 1) done)
          if done then s.report r else s
  | _, _ => s

/-- SINK. -/
def execSinkElem (r : ElemRef) (s : State) : Out :=
  .next (s.elemEvent r (Elem.isMe · 0x68) fun s g e => s.sinkAct r g e)

/-! ### CNTR (R150, R429) -/

/-- The next index token of a run, and the run after it. -/
def CntrRun.token (x : CntrRun) (ctx : BitVec 2) : Token × Option CntrRun :=
  let lv := List.zip x.idx x.levels
  let lanes := lv.map fun y => (y.2.1 + y.2.2.1 * BitVec.ofNat 32 y.1).toNat
  let last := lv.map fun y => decide (y.1 + 1 = y.2.2.2)
  let upTo (k : Nat) : Bool := decide (k ≤ last.length) && (last.take k).all id
  let all := last.all id
  let t : Token := { Token.blank ctx with tag := x.tag, cnt := 3, lanes := lanesOf lanes, l1 := upTo 1, l2 := upTo 2
                                          l3 := upTo 3, f := all, e := x.e, p := x.p }
  let step := (lv.foldl (fun (acc : List Nat × Bool) y =>
    if acc.2 then (if y.1 + 1 = y.2.2.2 then (acc.1 ++ [0], true) else (acc.1 ++ [y.1 + 1], false)) else (acc.1 ++ [y.1], false))
    ([], true)).1
  (t, if all then none else some { x with idx := step })

/-- A run that cannot be made emits one token with CNT 0 and F, P and E, and the element logs itself with the trigger, or with
the token emitted when it has none (R259, R429). -/
def State.badRun (s : State) (r : ElemRef) (e : Elem) (run : CntrRun) (trigger : Option (Nat × Token)) : State :=
  let t : Token := { Token.blank e.ctx with tag := run.tag, f := true, p := true, e := true }
  ((s.setForm r (.cntr none true)).selfLog r 0 (some (trigger.getD (0, t)))).give r 0 t

/-- CNTR. -/
def State.cntrAct (s : State) (r : ElemRef) (g : Region) (e : Elem) : State :=
  if !g.outReady r.e 0 then s
  else match e.form with
  | .cntr (some run) done =>
    if run.levels.isEmpty then s.badRun r e run none
    else
      let (t, rest) := run.token e.ctx
      (s.setForm r (.cntr rest (done || rest.isNone))).give r 0 t
  | .cntr none done =>
    if !bitN e.stage0.low 15 then
      if done then s else s.beginRun r e 0 false false fun s run => s.setForm r (.cntr (some run) false)
    else if !g.inReady r.e 0 then s
    else match g.dataAt r.e 0 with
    | none => s
    | some (n, t) =>
      s.beginRun r e t.tag t.e t.p fun s run =>
        let s := s.take r 0
        if run.levels.isEmpty then s.badRun r e run (some (n, t)) else s.setForm r (.cntr (some run) false)
  | _ => s

/-- CNTR. -/
def execCntr (r : ElemRef) (s : State) : Out :=
  .next (s.elemEvent r (Elem.isMe · 0x69) fun s g e => s.cntrAct r g e)

/-! ### STAMP and ORDER (R145, R146, R430) -/

/-- STAMP tags the next token while its window has room. -/
def State.stampAct (s : State) (r : ElemRef) (g : Region) (e : Elem) : State :=
  match e.form, g.dataAt r.e 0 with
  | .stamp next out last, some (_, t) =>
    if !g.inReady r.e 0 ∨ !g.outReady r.e 0 ∨ bits e.stage0.low 19 16 + 1 ≤ out.length then s
    else ((s.take r 0).setForm r (.stamp (next + 1) (out ++ [next]) last)).give r 0 { t with tag := next, ctx := e.ctx }
  | _, _ => s

/-- STAMP. -/
def execStampElem (r : ElemRef) (s : State) : Out :=
  .next (s.elemEvent r (Elem.isMe · 0x6A) fun s g e => s.stampAct r g e)

/-- ORDER emits the held token whose tag is next, or takes one in; a tag outside its window or held already is discarded. -/
def State.orderAct (s : State) (r : ElemRef) (g : Region) (e : Elem) : State :=
  match e.form with
  | .order next held =>
    let pair := e.stage0.low % 4096
    match held.find? fun x => x.2.tag == next with
    | some x =>
      if g.outReady r.e 0 then
        ((s.setForm r (.order (next + 1) (held.filter fun y => y.2.tag != next))).returnTag r pair next).give r 0 x.2
      else s
    | none =>
      match g.dataAt r.e 0 with
      | none => s
      | some (n, t) =>
        if !g.inReady r.e 0 then s
        else if 16 ≤ (t.tag - next).toNat ∨ held.any (fun x => x.2.tag == t.tag) then
          ((s.take r 0).returnTag r pair t.tag).selfLog r stTAGERR (some (n, t))
        else (s.take r 0).setForm r (.order next (held ++ [(n, { t with ctx := e.ctx })]))
  | _ => s

/-- ORDER. -/
def execOrderElem (r : ElemRef) (s : State) : Out :=
  .next (s.elemEvent r (Elem.isMe · 0x6B) fun s g e => s.orderAct r g e)

/-! ### Ring ports (R467) -/

/-- A ring port that finds its ring unusable stops for good (DEDUCED, log entry 24 for a refused access). -/
def State.stopPort (s : State) (r : ElemRef) (desc : Word) (reported : Bool) : State :=
  (s.setForm r (.ring desc true reported true none)).selfLog r stRNGERR none

/-- A ring port holds its side and reads its descriptor at the home; its slots must hold a token (R191, R192, R467). -/
def State.portRing (s : State) (r : ElemRef) (g : Region) (desc : Word) (producer : Bool) : RingGot :=
  let acts (x : Ring) : Bool := decide (0 < if producer then x.free else x.filled) || decide (x.ssz < 128)
  match s.holdRing (elemAgent r g.lid) (.port r.m r.c r.slot r.e) desc producer acts with
  | .ready s pa ring => if ring.ssz < 128 then .stop s .ringErr else .ready s pa ring
  | x => x

/-- The token in a slot (R467): its header and lanes, and whether a byte was poisoned or dead. -/
def slotToken (ctx : BitVec 2) (bs : List Byte) (dead poison : Bool) : Token :=
  let t := Token.ofHdr (fieldAt bs 64 4) (lanesOf ((List.range 16).map fun i => fieldAt bs (4 * i) 4))
  let tooWide := decide (16 < t.cnt)
  let n := min t.cnt 16
  let bad := tooWide || dead || poison
  { t with ctx := ctx, m := false, k := false, cnt := n, lanes := clipLanes n t.lanes, p := t.p || bad, e := t.e || bad }

/-- RINGIN: it emits the token it holds, or reads the slot at HEAD and advances. -/
def State.ringinAct (s : State) (r : ElemRef) (g : Region) (e : Elem) : State :=
  match e.form with
  | .ring _ true _ _ _ => s
  | .ring desc false rep _ (some t) =>
    if g.outReady r.e 0 then (s.setForm r (.ring desc false rep true none)).give r 0 t else s
  | .ring desc false rep _ none =>
    match s.portRing r g desc false with
    | .wait s => s
    | .stop s _ => s.stopPort r desc rep
    | .ready s pa ring =>
      let ag := elemAgent r g.lid
      if ring.filled = 0 ∨ !s.atomicTurn pa ag then s
      else match s.writeCheck ag .load (linePieces (ring.slotAt ring.head) 68) with
      | (s, .wait, _) => s
      | (s, .fail _, _) => s.stopPort r desc rep
      | (s, .ok, ps) =>
        let s := s.usedLines ag 0 (ps.map (·.1))
        let bs := ps.flatMap fun x => s.mem.read x.1 x.2
        let dead := ps.any fun x => s.mem.dead x.1 x.2
        let poison := ps.any fun x => s.mem.poisoned x.1 x.2
        let t := slotToken e.ctx bs dead poison
        let s := ((s.advHead pa ring 1).atomicAt pa ag).setForm r (.ring desc false rep true (some t))
        if dead then s.selfLog r 0 (some (0, t)) else s
  | _ => s

/-- RINGIN. -/
def execRingin (r : ElemRef) (s : State) : Out :=
  .next (s.elemEvent r (Elem.isPort · 2) fun s g e => s.ringinAct r g e)

/-- RINGOUT: it writes the head token into the slot at TAIL and advances; after its report it discards. -/
def State.ringoutAct (s : State) (r : ElemRef) (g : Region) (e : Elem) : State :=
  match e.form, g.dataAt r.e 0 with
  | .ring desc false reported _ _, some (_, t) =>
    if !g.inReady r.e 0 then s
    else if reported then ((s.take r 0).returnUnpaired r g t.tag).setSticky r.m r.c r.slot stORPHAN
    else match s.portRing r g desc true with
    | .wait s => s
    | .stop s _ => s.stopPort r desc false
    | .ready s pa ring =>
      let ag := elemAgent r g.lid
      if ring.free = 0 ∨ !s.atomicTurn pa ag then s
      else
        let bs := (lanesNat t.lanes).flatMap (bytesOf 4) ++ bytesOf 4 t.hdr ++ List.replicate (ring.ssz - 68) 0
        match s.writeMem ag (ring.slotAt ring.tail) bs with
        | (s, .wait) => s
        | (s, .fail _) => s.stopPort r desc false
        | (s, .ok) =>
          let s := (((s.advTail pa ring 1).atomicAt pa ag).take r 0).returnUnpaired r g t.tag
          let s := s.setForm r (.ring desc false t.f true none)
          if t.f then s.report r else s
  | _, _ => s

/-- RINGOUT. -/
def execRingout (r : ElemRef) (s : State) : Out :=
  .next (s.elemEvent r (Elem.isPort · 3) fun s g e => s.ringoutAct r g e)

end Sys2Proof.Machine
end

