-- ==== Sys2Proof/Machine/Debug.lean ====
section
/-! DEFINITION. The stall walker, the scan of frozen regions, trace control and the debug registers (R252–R261). -/

namespace Sys2Proof.Machine

/-! ### The stall walker (R254, R255, Table 9.2) -/

/-- Why a walk ends, by its code (R255). -/
inductive WalkEnd where
  | limit | port | cycle | depth | never | frozen
  deriving DecidableEq, Repr

/-- END (R255). -/
def WalkEnd.code : WalkEnd → Nat
  | .limit => 0
  | .port => 1
  | .cycle => 2
  | .depth => 3
  | .never => 4
  | .frozen => 5

/-- The lowest of some arcs' numbers. -/
def lowestArc (as : List Nat) : Option Nat := as.foldl (fun b a => some (b.elim a (min a))) none

/-- The arc on which an element waits: with DIR 0 the lowest-numbered of its output arcs without the room it demands, else the
lowest-numbered of its input arcs with too few tokens. -/
def Region.waitArc (g : Region) (starve : Bool) (e : Nat) : Option Nat :=
  lowestArc (if starve then ((g.inputs e).filter fun i => !g.inReady e i).filterMap (g.inArc e)
    else ((g.outputs e).filter fun o => !g.outReady e o).filterMap (g.outArc e))

/-- A count of an element exceeds what R139 can hold: its context alone has the whole arc. -/
def Region.neverFires (g : Region) (e : Nat) : Bool :=
  g.arcs.any fun a => (a.cons == e && decide (a.cap < g.needIn a)) || (a.prod == e && decide (a.cap < a.nout))

/-- An element that is a port: a fabric port or a ring port. -/
def Region.portAt (g : Region) (e : Nat) : Bool := (g.elems[e]?).any fun x => x.kind == .xe && decide (x.port.kind < 4)

/-- The lanes of a memory element's next firing. -/
def State.nextPlaces (s : State) (r : ElemRef) (g : Region) (e : Elem) : List LaneAt :=
  if e.kind = .me ∧ 0x70 ≤ e.stage0.op ∧ e.stage0.op ≤ 0x72 then s.lanePlaces r g.lid e (g.offered r.e e) else []

/-- The spans of scratchpad and accumulator store that an element's next firing reaches: a memory form's lanes, an accumulator form's
record, a counter's block, a ring port's descriptor and slot. -/
def State.nextSpans (s : State) (r : ElemRef) (g : Region) (e : Elem) : List (Nat × Nat) :=
  if e.kind = .ce ∧ (e.stage0.op = 0x83 ∨ e.stage0.op = 0x84) then
    if (g.needs r.e e).all (g.inReady r.e) then s.accSpans r g e else []
  else if e.kind = .me ∧ e.stage0.op = 0x69 then
    match e.form with
    | .cntr none done =>
      if if bitN e.stage0.low 15 then g.inReady r.e 0 else !done then [e.blockSpan r] else []
    | _ => []
  else match e.form with
  | .ring d false _ _ none =>
    let slot (x : Ring) : Nat := if e.isPort 2 then x.slotAt x.head else x.slotAt x.tail
    if !namesSlice d.toNat then []
    else (slicePa d, 64) :: ((s.ringAt (slicePa d)).toList.filter fun x => namesSlice (slot x)).map fun x =>
      (slicePa (BitVec.ofNat 64 (slot x)), 68)
  | _ => (laneCells (s.nextPlaces r g e)).map fun pa => (pa, 1)

/-- A span lies in a bank that is waking. -/
def State.spanWakes (s : State) (x : Nat × Nat) : Bool :=
  (linesOf x.1 x.2).any fun l => (s.bankKey (l * 128)).any fun k => ((s.core k.1 k.2.1).mcells[k.2.2.1]).banks[k.2.2.2].st == .waking

/-- An element's access is outstanding: to a column that has been given up, or behind its row's budget (R247, R274). -/
def State.accessWaits (s : State) (r : ElemRef) (g : Region) (e : Elem) : Bool :=
  (s.nextPlaces r g e).contains .wait || s.hub.budgets.waiting.any fun w => match w with
    | .line x => decide (x.m = r.m ∧ x.place = r.c.val ∧ x.op = (elemAgent r g.lid).op)
    | .bridge _ => false

/-- The next firing of an element wants a token that none of its inputs, nor what it holds, gives (R134, R143, R145–R150). -/
def Region.starved (g : Region) (idx : Nat) (e : Elem) : Bool :=
  let lacks (i : Nat) : Bool := !g.inReady idx i
  match g.matched idx e with
  | some is => (e.readyEntry is).isNone && is.any lacks && match e.form, g.dataAt idx 0 with
    | .carry insts, some x => insts.any (fun c => c.tag == x.2.tag) || !e.canTake x.2
    | _, _ => true
  | none => match e.form with
    | .ndmrg _ _ f1 f2 _ _ => if g.tagged then (f1 || lacks 1) && (f2 || lacks 2) else (g.needs idx e).any lacks
    | .cntr (some _) _ => false
    | .order next held => !held.any (fun x => x.2.tag == next) && (g.needs idx e).any lacks
    | _ => (g.needs idx e).any lacks

/-- The limiting element's wait cause (R255). -/
def State.waitCause (s : State) (r : ElemRef) (g : Region) (e : Elem) : Nat :=
  let full := decide (matchRoom ≤ e.entryTags.length)
    && (g.inputs r.e).any fun i => (g.dataAt r.e i).any fun t => !e.canTake t.2
  if e.hbank.st = .waking || (s.nextSpans r g e).any s.spanWakes then 1
  else if s.accessWaits r g e then 2
  else if full then 3
  else if g.starved r.e e then 4
  else if (g.outputs r.e).any fun o => !g.outReady r.e o then 5
  else 0

/-- The engine whose operation moves at a port of a region; engine 0 when none does. -/
def Core.engineAt (k : Core) (slot : SlotId) (dir num : Nat) : Nat :=
  ((k.ops.find? fun o => o.phase == .moving && o.region == some slot && match portDir o.cmd with
    | some (d, c) => d == dir && decide (c.port.toNat = num)
    | none => false).map fun o => o.engine.val).getD 0

/-- The 544 bytes of a chain record: how a walk ended, and word 2 of its header (R255). -/
def Walker.record (w : Walker) (why : WalkEnd) (w2 : Nat) : List Byte :=
  let w1 := why.code * 2 ^ 56 + w.hops.length * 2 ^ 40 + b2n w.starve * 65536 + w.slot.val * 8192 + w.elem % 4096
  let hop (x : WalkHop) : List Byte :=
    bytesOf 8 (x.elem % 4096 + x.arc % 256 * 65536 + x.occ * 2 ^ 32 + x.cap * 2 ^ 36) ++ bytesOf 8 x.time
  let body := (w.hops.take 32).flatMap hop
  bytesOf 8 w.tb.toNat ++ bytesOf 8 w1 ++ bytesOf 8 w2 ++ bytesOf 8 0 ++ body ++ List.replicate (512 - body.length) 0

/-- The core, slot and element that SWARG names; none when its die or row names none. -/
def swTarget (arg : Nat) : Option (RowId × CoreId × SlotId × Nat) :=
  if bits arg 31 29 < 4 ∧ bits arg 28 26 < 6 then
    some (Fin.ofNat 24 (6 * bits arg 31 29 + bits arg 28 26), Fin.ofNat 8 (bits arg 25 23), Fin.ofNat 8 (bits arg 22 20)
      , bits arg 19 8)
  else none

/-- A walk is over: its status, and its record unless it has none. -/
def State.endWalk (s : State) (st : Status) : State := s.modHub fun h => { h with walk := none, swStatus := st }

/-- A walk writes its record, unless a poisoned line is in its way (R254). -/
def State.putRecord (s : State) (w : Walker) (bs : List Byte) : State :=
  if s.mem.poisoned w.pa 544 then s.endWalk .poison else (s.withMem (s.mem.write w.pa bs)).endWalk .ok

/-- A walk ends at its element (R255): at a port the port's number and engine stand in word 2, else the element's wait cause. -/
def State.finishWalk (s : State) (w : Walker) (g : Region) (why : WalkEnd) (port : Option Nat) : State :=
  let w2 := match port.bind fun n => g.elems[n]? with
    | some p => p.port.num + 256 * (s.core w.m w.c).engineAt w.slot p.port.kind p.port.num
    | none => (g.elems[w.elem]?).elim 0 (s.waitCause { m := w.m, c := w.c, slot := w.slot, e := w.elem } g)
  s.putRecord w (w.record why w2)

/-- What a walk finds on its way is live: a region that has left since ends it with BADDESC. -/
def State.walkRegion (s : State) (w : Walker) : Option Region :=
  (s.region w.m w.c w.slot).filter fun g => (g.st == .running || g.st == .completing) && decide (w.elem < g.elems.length)

/-- One turn of the walk's loop (R254). -/
def State.walkHop (s : State) : State :=
  match s.hub.walk with
  | none => s
  | some w =>
    match s.walkRegion w with
    | none => s.endWalk .badDesc
    | some g =>
      if g.frozen then s.finishWalk w g .frozen none
      else match (g.waitArc w.starve w.elem).bind fun a => (g.arcs[a]?).map fun x => (a, x) with
      | none => s.finishWalk w g (if g.neverFires w.elem then .never else .limit) none
      | some (a, x) =>
        let hop : WalkHop := { elem := w.elem, arc := a, occ := x.toks.length, cap := x.cap, time := if w.starve then x.emptt else x.fullt }
        let w' := { w with hops := w.hops ++ [hop] }
        let n := if w.starve then x.prod else x.cons
        if g.portAt n then s.finishWalk w' g .port (some n)
        else if w'.hops.any fun h => h.elem == n then s.finishWalk w' g .cycle none
        else if w.hops.length = 31 then s.finishWalk w' g .depth none
        else s.modHub fun h => { h with walk := some { w' with elem := n } }

/-- SWGO is written: a walk starts, unless one is in progress; one that names nothing to walk ends at once. A record beyond HBM gives
BADDESC (DEDUCED, log entry 40). -/
def State.stallWalk (s : State) (pa : Nat) : State :=
  let arg := s.hub.swArg.toNat
  if s.hub.walk.isSome then s
  else match swTarget arg with
  | none => s.endWalk .badDesc
  | some (m, c, slot, e) =>
    let w : Walker := { m := m, c := c, slot := slot, starve := bitN arg 0, pa := pa, tb := s.tb, elem := e, hops := [] }
    if (s.walkRegion w).isNone || decide (hbmEnd < pa + 544) then s.endWalk .badDesc
    else s.modHub fun h => { h with walk := some w }

/-- SWGO_WRITE. -/
def execSwgoWrite (v : Word) (s : State) : Out := .next (s.stallWalk (wbits v 39 7 * 128))

/-! ### The scan of a frozen region (R258, Tables 9.4 and 16.12) -/

/-- Word j of a token: its header, then lanes two by two. -/
def Token.scan (t : Token) (j : Nat) : Nat :=
  if j = 0 then t.hdr
  else (t.lanes[2 * (j - 1)]?.getD 0).toNat + (t.lanes[2 * (j - 1) + 1]?.getD 0).toNat * 2 ^ 32

/-- The state word of an element's form (Table 16.12). -/
def FormState.scan (tagged : Bool) : FormState → Nat
  | .carry (i :: _) => if tagged then 0 else 2 ^ 63 + i.count % 2 ^ 32
  | .ndmrg a b f1 f2 _ _ => a % 16 + b % 16 * 16 + b2n f1 * 256 + b2n f2 * 512
  | .merge (some p) => 2 + b2n p.pred
  | .invar (some _) => 1
  | .stamp next out _ => next.toNat + out.length % 32 * 65536
  | .order next held => next.toNat + held.length % 32 * 65536
  | .sink seen rep => seen % 65536 + b2n rep * 65536
  | .cntr run _ =>
    match run with
    | none => 0
    | some r => r.idx.getD 0 0 % 65536 + r.idx.getD 1 0 % 65536 * 65536 + r.idx.getD 2 0 % 65536 * 2 ^ 32 + 2 ^ 48
  | .sparse _ _ pa pb _ _ _ => pa.toNat + pb.toNat * 2 ^ 32
  | .segred _ key acc _ _ _ _ => acc.toNat + key.toNat * 2 ^ 32
  | _ => 0

/-- The state word of matching entry m (Table 16.12). -/
def FormState.scanEntry (tagged : Bool) (m : Nat) : FormState → Nat
  | .carry insts =>
    if !tagged then 0
    else match insts[m]? with
    | some i => 2 ^ 63 + i.tag.toNat * 2 ^ 32 + i.count % 2 ^ 32
    | none => 0
  | .sparse ca cb _ _ bad _ _ => if m = 0 then ca % 32 + cb % 32 * 32 + b2n bad * 1024 else 0
  | .segred op _ _ cur fl e p =>
    if m = 0 then b2n op + cur % 32 * 2 + fl.toNat * 64 + b2n e * 2048 + b2n p * 4096 else 0
  | _ => 0

/-- The matching entry of an element that a scan numbers m: for a tagged CARRY those of its instances' tags in their order, then
those whose tag has no open instance. -/
def Elem.scanMatch (e : Elem) (m : Nat) : Option MatchEntry :=
  match e.form with
  | .carry insts =>
    if h : m < insts.length then e.matching.find? fun x => x.tag == insts[m].tag
    else (e.matching.filter fun x => !insts.any fun i => i.tag == x.tag)[m - insts.length]?
  | _ => e.matching[m]?

/-- Bytes of stationary weights that a scan shows: Bc (Table 17.1). -/
def Region.weightBytes (g : Region) : Nat := g.geo.elim 0 Geo.bc

/-- A word of an element of a frozen region, by its offset from 0x100_0000 + 0x1_0000·e; none where Table 9.4 names none. -/
def Region.scanElem (g : Region) (e : Elem) (o : Nat) : Option Nat :=
  let tagged := g.disc == 1
  let hold (k : Nat) : Option (Vector Lane 16) := (e.holds[k]?).join
  if o = 0 then some (e.form.scan tagged)
  else if e.kind = .ce ∧ 0x100 ≤ o ∧ o < 0x140 then
    let j := (o - 0x100) % 8
    some ((hold ((o - 0x100) / 8)).elim 0 fun v =>
      (v[2 * j]?.getD 0).toNat + (v[2 * j + 1]?.getD 0).toNat * 2 ^ 32)
  else if e.kind = .ce ∧ o = 0x140 then
    some ((List.range 8).foldl (fun acc k => acc + b2n (hold k).isSome * 2 ^ k) 0)
  else if 0x1000 ≤ o ∧ o < 0x1400 then
    let w := (o - 0x1000) % 64
    let m := (o - 0x1000) / 64
    if w = 0 then some (e.form.scanEntry tagged m)
    else if w ≤ 36 then
      some ((((e.scanMatch m).bind fun x => (x.ins[(w - 1) / 9]?).join).elim 0 fun t => t.2.scan ((w - 1) % 9)))
    else none
  else if g.disc = 2 ∧ 0x8000 ≤ o ∧ 8 * (o - 0x8000) < g.weightBytes then
    match e.form with
    | .mma ws => some (ws.elim 0 fun bs => fieldAt bs (8 * (o - 0x8000)) 8)
    | _ => none
  else none

/-- A word of a frozen region (Table 9.4). -/
def Region.scanWord (g : Region) (i : Nat) : Option Nat :=
  if i < 0x10000 then
    match g.arcs[i / 256]? with
    | none => none
    | some a =>
      if i % 256 < 72 then some ((a.toks[i % 256 / 9]?).elim 0 fun t => t.2.scan (i % 256 % 9)) else none
  else if 0x1000000 ≤ i then
    (g.elems[(i - 0x1000000) / 65536]?).bind fun e => g.scanElem e (i % 65536)
  else none

/-- What SCANA names, when a frozen region stands there. -/
def State.scanRead (s : State) : Option Nat :=
  let a := s.hub.scana.toNat
  if bits a 63 61 < 4 ∧ bits a 60 58 < 6 then
    match s.region (Fin.ofNat 24 (6 * bits a 63 61 + bits a 60 58)) (Fin.ofNat 8 (bits a 57 55)) (Fin.ofNat 8 (bits a 54 52)) with
    | some g => if g.frozen then g.scanWord (bits a 31 0) else none
    | none => none
  else none

/-! ### The core debug block and the trace units (R253, R257, R260, R261) -/

/-- BPGO_WRITE. -/
def execBpgoWrite (m : RowId) (c : CoreId) (v : Word) (s : State) : Out := .next (s.writeBpgo m c v.toNat)

/-- HXM_WRITE. -/
def execHxmWrite (m : RowId) (c : CoreId) (mi : Fin 64) (v : Word) (s : State) : Out := .next (s.writeHxm m c mi v.toNat)

/-- TRCTL is written: a write of EN = 1 sets TRIDX to 0 and writes an ANCHOR, then a LOST record when records have been lost. -/
def State.setTrctl (s : State) (m : RowId) (c : CoreId) (v : Word) : State :=
  let en := v.getLsbD 63
  let n := clampN 8 24 (wbits v 44 40)
  let base := wbits v 39 12 * 4096 / (16 * 2 ^ n) * (16 * 2 ^ n)
  let s := s.modCore m c fun k =>
    { k with trace := { k.trace with en := en, wrap := v.getLsbD 62, log2n := n, base := base
                                     idx := if en then 0 else k.trace.idx } }
  if !en then s
  else
    let s := s.anchor m c
    let lost := (s.core m c).trace.lost
    if lost = 0 then s else s.trace m c 7 0 0 lost.toNat
/-- TRCTL_WRITE. -/
def execTrctlWrite (m : RowId) (c : CoreId) (v : Word) (s : State) : Out := .next (s.setTrctl m c v)

end Sys2Proof.Machine
end

