-- ==== Sys2Proof/Machine/Signatures.lean ====
section
/-! DEFINITION. Verification of a firmware image's two signatures: RSASSA-PSS with SHA-384 and MGF1 over a 3072-bit modulus, and
SLH-DSA-SHA2-192s of FIPS 205 (R58, R59). Byte strings are most significant byte first, as both standards have them. -/

namespace Sys2Proof.Machine

/-- k bytes of a number, most significant first. -/
def bytesBE (k n : Nat) : List Byte := (bytesOf k n).reverse
/-- SHA-256 as bytes. -/
def sha256Bytes (msg : List Byte) : List Byte := bytesOf 32 (sha256 msg).toNat
/-- SHA-384 as bytes. -/
def sha384Bytes (msg : List Byte) : List Byte := bytesOf 48 (sha384 msg).toNat
/-- SHA-512 as bytes. -/
def sha512Bytes (msg : List Byte) : List Byte := bytesOf 64 (sha512 msg).toNat

/-- MGF1 over a hash. -/
def mgf1 (hash : List Byte → List Byte) (hlen : Nat) (seed : List Byte) (len : Nat) : List Byte :=
  ((List.range ((len + hlen - 1) / hlen)).flatMap fun i => hash (seed ++ bytesBE 4 i)).take len

/-! ### RSASSA-PSS -/

/-- b to the power e modulo n, over k bits of e. -/
def powMod (n : Nat) : Nat → Nat → Nat → Nat
  | 0, _, _ => 1 % n
  | k + 1, b, e =>
    let r := powMod n k (b * b % n) (e / 2)
    if e % 2 = 1 then r * b % n else r

/-- A key's bytes as its digest is taken: modulus, then a four-byte exponent (DESIGN CHOICE, log entry 57). -/
def rsaKeyBytes (k : RsaKey) : List Byte := bytesBE 384 k.n ++ bytesBE 4 k.e

/-- RSASSA-PSS over a SHA-384 digest, with MGF1 of SHA-384 and a 48-byte salt (R58). The salt's data block holds 286 zeros and a
one ahead of the salt, and its top bit is clear. -/
def pssVerify (k : RsaKey) (sig : Nat) (digest : List Byte) : Bool :=
  let em := bytesBE 384 (powMod k.n (k.e.log2 + 1) sig k.e)
  let masked := em.take 335
  let h := (em.drop 335).take 48
  let db := natBE masked ^^^ natBE (mgf1 sha384Bytes 48 h 335)
  let dbs := bytesBE 335 (db % 2 ^ 2679)
  decide (sig < k.n ∧ em.getLast? = some 0xBC ∧ natBE masked < 2 ^ 2679 ∧ dbs.take 287 = List.replicate 286 0 ++ [1])
    && decide (sha384Bytes (List.replicate 8 0 ++ digest ++ dbs.drop 287) = h)

/-! ### SLH-DSA-SHA2-192s

n = 24, h = 63, d = 7, h′ = 9, a = 14, k = 17, w = 16 and m = 39 (FIPS 205, Table 2). -/

/-- An address of FIPS 205: layer, tree, type and its three last words. -/
structure SlhAddr where
  layer : Nat
  tree : Nat
  kind : Nat
  keypair : Nat
  height : Nat
  index : Nat
  deriving DecidableEq, Repr

/-- The compressed address. -/
def SlhAddr.bytes (a : SlhAddr) : List Byte :=
  bytesBE 1 a.layer ++ bytesBE 8 a.tree ++ bytesBE 1 a.kind ++ bytesBE 4 a.keypair ++ bytesBE 4 a.height ++ bytesBE 4 a.index

/-- F: of one node. -/
def slhF (seed : List Byte) (a : SlhAddr) (x : List Byte) : List Byte :=
  (sha256Bytes (seed ++ List.replicate 40 0 ++ a.bytes ++ x)).take 24
/-- H and T: of several nodes. -/
def slhH (seed : List Byte) (a : SlhAddr) (x : List Byte) : List Byte :=
  (sha512Bytes (seed ++ List.replicate 104 0 ++ a.bytes ++ x)).take 24

/-- The first n numbers of b bits of a byte string. -/
def slhBase (x : List Byte) (b n : Nat) : List Nat :=
  (List.range n).map fun i => natBE x / 2 ^ (8 * x.length - (i + 1) * b) % 2 ^ b

/-- A WOTS+ chain of s more links. -/
def slhChain (seed : List Byte) (a : SlhAddr) : Nat → Nat → List Byte → List Byte
  | 0, _, x => x
  | s + 1, i, x => slhChain seed a s (i + 1) (slhF seed { a with index := i } x)

/-- The WOTS+ public key that a signature gives. -/
def slhWots (seed : List Byte) (a : SlhAddr) (sig msg : List Byte) : List Byte :=
  let digits := slhBase msg 4 48
  let csum := (digits.map fun d => 15 - d).sum * 16
  let all := digits ++ slhBase (bytesBE 2 csum) 4 3
  let nodes := all.mapIdx fun i d => slhChain seed { a with kind := 0, height := i } (15 - d) d ((sig.drop (24 * i)).take 24)
  slhH seed { a with kind := 1, height := 0, index := 0 } nodes.flatten

/-- The root that an authentication path gives, from the node of an index upward. -/
def slhPath (seed : List Byte) (a : SlhAddr) : List (List Byte) → Nat → Nat → List Byte → List Byte
  | [], _, _, node => node
  | sib :: rest, height, index, node =>
    let up := slhH seed { a with height := height + 1, index := index / 2 } (if index % 2 = 0 then node ++ sib else sib ++ node)
    slhPath seed a rest (height + 1) (index / 2) up

/-- The root of the tree that an XMSS signature of a leaf gives. -/
def slhXmss (seed : List Byte) (layer tree leaf : Nat) (sig msg : List Byte) : List Byte :=
  let a : SlhAddr := { layer := layer, tree := tree, kind := 0, keypair := leaf, height := 0, index := 0 }
  let node := slhWots seed a (sig.take 1224) msg
  slhPath seed { a with kind := 2, keypair := 0 } (blocks 24 9 (sig.drop 1224)) 0 leaf node

/-- The root of the hypertree that the signatures of its layers give, from a layer upward. -/
def slhTree (seed : List Byte) : List (List Byte) → Nat → Nat → Nat → List Byte → List Byte
  | [], _, _, _, msg => msg
  | sig :: rest, layer, tree, leaf, msg =>
    slhTree seed rest (layer + 1) (tree / 512) (tree % 512) (slhXmss seed layer tree leaf sig msg)

/-- The FORS public key that a signature gives. -/
def slhFors (seed : List Byte) (tree leaf : Nat) (sig md : List Byte) : List Byte :=
  let a : SlhAddr := { layer := 0, tree := tree, kind := 3, keypair := leaf, height := 0, index := 0 }
  let root (i x : Nat) : List Byte :=
    let part := (sig.drop (360 * i)).take 360
    let at_ := i * 2 ^ 14 + x
    slhPath seed a (blocks 24 14 (part.drop 24)) 0 at_ (slhF seed { a with index := at_ } (part.take 24))
  slhH seed { a with kind := 4 } ((slhBase md 14 17).mapIdx root).flatten

/-- SLH-DSA-SHA2-192s in pure mode with an empty context, over a message (R58): the key is PK.seed, then PK.root. -/
def slhVerify (key sig msg : List Byte) : Bool :=
  let seed := key.take 24
  let root := key.drop 24
  let r := sig.take 24
  let m := List.replicate 2 0 ++ msg
  let dig := mgf1 sha512Bytes 64 (r ++ seed ++ sha512Bytes (r ++ seed ++ root ++ m)) 39
  let tree := natBE ((dig.drop 30).take 7) % 2 ^ 54
  let leaf := natBE ((dig.drop 37).take 2) % 2 ^ 9
  let fors := slhFors seed tree leaf ((sig.drop 24).take 6120) (dig.take 30)
  decide (key.length = 48 ∧ sig.length = 16224) && decide (slhTree seed (blocks 1440 7 (sig.drop 6144)) 0 tree leaf fors = root)

end Sys2Proof.Machine
end

