-- ==== Sys2Proof/Machine/Links.lean ====
section
/-! DEFINITION. Die-to-die edges and the timebase: flit retries, retraining, edges that go down, the IEEE 1588 servo and the
timebase registers (R18–R22, R35–R38, R53, R84, R261). -/

namespace Sys2Proof.Machine

/-! ### Edges (R18–R22) -/

/-- Change an edge. -/
def State.modEdge (s : State) (e : Fin 8) (f : Edge → Edge) : State := s.modHub fun h => { h with edges := vmod h.edges e f }
/-- The bit of a module. -/
def bit8 (k : Fin 8) : BitVec 8 := 1 <<< k.val
/-- STATE (Table 1.2). -/
def Edge.state (e : Edge) : Nat :=
  if e.modup = 0xFF then 2 else if e.modup ≠ 0 then 3 else if e.training ≠ 0 then 1 else 0

/-- FLIT_RETRY: the retry is counted; whether a good flit came since the module's last retry is left open (DESIGN CHOICE, log entry 2). -/
def execFlitRetry (e k : Fin 8) (s : State) : Out :=
  .next (if (s.hub.edges[e]).modup &&& bit8 k = 0 then s
    else
      let (v, s) := s.draw
      s.modEdge e fun x =>
        { x with crcrt := satInc x.crcrt, retries := vmod x.retries k fun n => if v.getLsbD 0 then n + 1 else 1 })

/-- MODULE_RETRAIN: more than 16 consecutive retries. -/
def execModuleRetrain (e k : Fin 8) (s : State) : Out :=
  let x := s.hub.edges[e]
  .next (if x.modup &&& bit8 k = 0 ∨ x.retries[k] ≤ 16 then s
    else s.modEdge e fun x =>
      { x with modup := x.modup &&& ~~~ bit8 k, training := x.training ||| bit8 k, retrn := satInc x.retrn
               retries := x.retries.set k 0 })

/-- RETRAINING_SUCCESS: the module returns to service. -/
def execRetrainingSuccess (e k : Fin 8) (s : State) : Out :=
  .next (if (s.hub.edges[e]).training &&& bit8 k = 0 then s
    else s.modEdge e fun x => { x with modup := x.modup ||| bit8 k, training := x.training &&& ~~~ bit8 k })

/-- The places at the ends of the circuits that cross an edge: links, memory requests and, over a hub edge, those to other modules
(R20, R21, R198). -/
def State.crossing (s : State) (e : Fin 8) : List (RowId × PlaceId) :=
  let links := (finsN 24).flatMap fun m => (finsN 8).flatMap fun c => (finsN 8).flatMap fun slot =>
    match s.region m c slot with
    | none => []
    | some g => g.links.flatMap fun l =>
      if (pathEdges (dieOf m) (dieOf l.m)).contains e.val then [(m, placeOfCore c), (l.m, placeOfCore l.c)] else []
  let circs := s.hub.circuits.filterMap fun x =>
    if x.outgoing then (x.issuer.filter fun i => decide (dieOf i.1 = e.val)).map fun i => (i.1, placeOfCore i.2) else none
  let mems := s.hub.memCircuits.filterMap fun x =>
    if (pathEdges (dieOf x.1) x.2.2).contains e.val then some (x.1, x.2.1) else none
  (links ++ circs ++ mems).eraseDups

/-- The scale-up circuits of a compute die's cores break, idle ones too and without the give-up time of R33 (R64; DESIGN CHOICE, log
entry 67). -/
def State.breakDie (s : State) (d : Nat) : State :=
  (s.hub.circuits.filter fun c => c.outgoing && !c.broken && c.issuer.any fun i => decide (dieOf i.1 = d)).foldl
    State.breakCircuit s

/-- An edge has gone down: EDGEDN is posted, every circuit that crosses it is broken, and the cores at the circuits' ends take a
machine check of class LINK (R21, R241). -/
def State.edgeDown (s : State) (e : Fin 8) : State :=
  let ends := s.crossing e
  let s := s.modHub fun h => { h with joins := h.joins.map fun j =>
    if (pathEdges j.srcDie j.dstDie).contains e.val then { j with broken := true } else j }
  let s := (s.modEdge e fun x => { x with wasdn := true, cut := true }).postEvent .edgedn 0xFF 0xFF 0xFF 0 0 (toWord e.val)
  let s := ends.foldl (fun s x => s.takeMachineCheck x.1 x.2 0 (mchkInfo 2 0 e.val 0)) s
  if e.val < 4 then s.breakDie e.val else s

/-- RETRAIN_FAILURE: the module is out of service; an edge left with none is down. -/
def execRetrainFailure (e k : Fin 8) (s : State) : Out :=
  .next (if (s.hub.edges[e]).training &&& bit8 k = 0 then s
    else
      let s := s.modEdge e fun x => { x with training := x.training &&& ~~~ bit8 k }
      if (s.hub.edges[e]).down then s.edgeDown e else s)

/-! ### The timebase (R36–R38) -/

/-- Change the servo. -/
def State.modServo (s : State) (f : Servo → Servo) : State := s.modHub fun h => { h with servo := f h.servo }

/-- Every enabled trace unit. -/
def State.tracing (s : State) : List (RowId × CoreId) :=
  (finsN 24).flatMap fun m => (finsN 8).filterMap fun c => if (s.core m c).trace.en then some (m, c) else none

/-- The timebase steps (R37): STEP records and ANCHORs (R261), the launch table (R84) and a TBSTEP event. -/
def State.tbStep (s : State) (d : Word) : State :=
  if d = 0 then s
  else
    let units := s.tracing
    let t1 := s.tb
    let s := units.foldl (fun s x => s.trace x.1 x.2 1 0 0 d.toNat) s
    let s := { s with tb := t1 + d }
    let s := units.foldl (fun s x => s.anchor x.1 x.2) s
    let s := (s.stepTable t1.toNat s.tb.toNat).modServo fun v => { v with nstep := satInc v.nstep, off := v.off + d.toInt * tbScale }
    s.postEvent .tbstep 0xFF 0xFF 0xFF 0 0 d

/-- An offset of the timebase from its master is removed: by slewing, or by a step when it is above 10 µs (R37). -/
def State.removeOffset (s : State) (off : Int) : State :=
  let s := s.modServo fun v => { v with off := off * tbScale }
  if -160000 ≤ off ∧ off ≤ 160000 then s.modServo fun v => { v with slew := -off * tbScale }
  else (s.modServo fun v => { v with slew := 0 }).tbStep (BitVec.ofInt 64 (-off))

/-- The servo's rate correction, which the manual leaves to it, within its bounds (DEDUCED, log entry 33). -/
def State.servoRate (s : State) : State :=
  let (v, s) := s.draw
  s.modServo fun x => { x with rate := clampI (-10000) 10000 (v.setWidth 24).toInt, rateNext := none }

/-- A timestamp of s seconds and n ns in timebase units (R53). -/
def ptpOrigin (msg : PtpMessage) : Word := toWord (msg.seconds.toNat * 16000000000 + 16 * msg.nanos.toNat)

/-- Summed correctionFields, each in 2^−16 ns, in timebase units truncated toward zero (Table 2.11). -/
def corrUnits (a b : Word) : Word := BitVec.ofInt 64 ((a.toInt + b.toInt).tdiv 4096)

/-- A request of function 5 for a completed exchange (Table 2.11). -/
def State.servoRequest (s : State) (kind : Nat) (msg : PtpMessage) (a b corr : Word) : State :=
  s.haPost 5 0 [toWord (kind + msg.domain.toNat * 256 + msg.seqId.toNat * 2 ^ 48), a, b, corr, msg.master
    , msg.port.setWidth 64] [0]

/-- The offset that a Sync exchange measures. -/
def Servo.measured (v : Servo) (t1 t2 corr : Word) : Int := (t2 - t1 - corr).toInt - v.delay

/-- The hardware servo serves a Sync exchange: T1, T2 and the summed correction. -/
def State.serveSync (s : State) (t1 t2 corr : Word) : State :=
  (s.removeOffset (s.hub.servo.measured t1 t2 corr)).servoRate

/-- The path delay of a delay exchange, when a Sync exchange stands beside it. -/
def Servo.pathDelay (v : Servo) (t3 t4 corr : Word) : Int :=
  ((v.syncT2 - v.syncT1 - v.syncCorr).toInt + (t4 - t3 - corr).toInt) / 2

/-- The hardware servo serves a delay exchange: the offset changes by what the path delay does. -/
def State.serveDelay (s : State) (t3 t4 corr : Word) : State :=
  let v := s.hub.servo
  if !v.haveSync then s
  else
    let d := v.pathDelay t3 t4 corr
    ((s.modServo fun v => { v with delay := d }).removeOffset (v.delay - d + v.off / tbScale)).servoRate

/-- A Sync exchange is complete: T1, T2 and the summed correction. -/
def State.syncDone (s : State) (msg : PtpMessage) (t1 t2 corr : Word) : State :=
  let s := s.modServo fun v => { v with hasMaster := true, haveSync := true, syncT1 := t1, syncT2 := t2, syncCorr := corr
                                        awaitFollow := none, off := v.measured t1 t2 corr * tbScale }
  if s.hub.assisted 5 then s.servoRequest 0 msg t1 t2 corr else s.serveSync t1 t2 corr

/-- A delay exchange is complete: T3, T4 and the summed correction. -/
def State.delayDone (s : State) (msg : PtpMessage) (t3 t4 corr : Word) : State :=
  let s := s.modServo fun v => { v with delaySeq := none }
  if s.hub.assisted 5 then s.servoRequest 1 msg t3 t4 corr else s.serveDelay t3 t4 corr

/-- The start skipped IEEE 1588 acquisition: the timebase runs free (Table 2.7). -/
def Mgmt.clockSkipped (g : Mgmt) : Bool := decide (bits g.levels.toNat 13 12 = 2)

/-- The message is of the device's domain, the management port is powered (R34, R35), and the timebase does not run free (R60). -/
def State.ptpTakes (s : State) (msg : PtpMessage) : Bool :=
  msg.domain == s.hub.servo.domain && s.mgmt.mode != .off && s.mgmt.mode != .unstarted && !s.mgmt.clockSkipped

/-- PTP_SYNC. -/
def execPtpSync (msg : PtpMessage) (s : State) : Out :=
  .next (if !s.ptpTakes msg then s
    else if msg.twoStep then s.modServo fun v => { v with awaitFollow := some (msg.seqId, msg.local_, msg.correction) }
    else s.syncDone msg (ptpOrigin msg) msg.local_ (corrUnits msg.correction 0))

/-- PTP_FOLLOW_UP. -/
def execPtpFollowUp (msg : PtpMessage) (s : State) : Out :=
  .next (if !s.ptpTakes msg then s
    else match s.hub.servo.awaitFollow with
    | none => s
    | some (sid, t2, corr) =>
      if sid ≠ msg.seqId then s else s.syncDone msg (ptpOrigin msg) t2 (corrUnits corr msg.correction))

/-- PTP_DELAY_REQ. -/
def execPtpDelayReq (msg : PtpMessage) (s : State) : Out :=
  .next (if !s.ptpTakes msg then s
    else s.modServo fun v => { v with delayT3 := msg.local_, delaySeq := some msg.seqId })

/-- PTP_DELAY_RESP. -/
def execPtpDelayResp (msg : PtpMessage) (s : State) : Out :=
  let v := s.hub.servo
  .next (if !s.ptpTakes msg ∨ v.delaySeq ≠ some msg.seqId then s
    else s.delayDone msg v.delayT3 (ptpOrigin msg) (corrUnits msg.correction 0))

/-- LOSS_OF_THE_MASTER: the last frequency correction stays. -/
def execLossOfTheMaster (s : State) : Out :=
  .next (s.modServo fun v => { v with hasMaster := false, haveSync := false, awaitFollow := none, delaySeq := none })

/-- TBRATE is written; ignored in hardware mode of function 5. It applies from the next 10 ns boundary (R38). -/
def State.setTbrate (s : State) (v : Word) : State :=
  if !s.hub.assisted 5 then s
  else s.modServo fun x =>
    let r := clampI (-10000) 10000 (v.setWidth 24).toInt
    if s.osc % 160 = 0 then { x with rate := r, rateNext := none } else { x with rateNext := some r }
/-- TBRATE_WRITE. -/
def execTbrateWrite (v : Word) (s : State) : Out := .next (s.setTbrate v)

/-- TBSLEW is written. -/
def State.setTbslew (s : State) (v : Word) : State :=
  if !s.hub.assisted 5 then s
  else s.modServo fun x => { x with slew := -(clampI (-160000) 160000 (v.setWidth 19).toInt) * tbScale }
/-- TBSLEW_WRITE. -/
def execTbslewWrite (v : Word) (s : State) : Out := .next (s.setTbslew v)

/-- TBSTEP is written. -/
def State.setTbstep (s : State) (v : Word) : State := if !s.hub.assisted 5 then s else s.tbStep v
/-- TBSTEP_WRITE. -/
def execTbstepWrite (v : Word) (s : State) : Out := .next (s.setTbstep v)

/-- TBSTAT (Table 1.5). -/
def Servo.stat (v : Servo) : Nat :=
  let lock := v.hasMaster && decide (-16000 * tbScale ≤ v.off ∧ v.off ≤ 16000 * tbScale)
  v.nstep.toNat * 2 ^ 32 + b2n (v.slew ≠ 0) * 4 + b2n (!v.hasMaster) * 2 + b2n lock

end Sys2Proof.Machine
end

