-- ==== Sys2Proof/Machine/Supply.lean ====
section
/-! DEFINITION. Die temperatures, supply regions, the limiter, byte budgets and the HBM bridges (R24–R26, R39–R41, R63–R65,
R269–R276). -/

namespace Sys2Proof.Machine

/-! ### Supply regions (R39, R269, Table 10.1) -/

/-- A voltage request clamped to 550–900 mV and rounded down to a step (R39). -/
def clampMv (n : Nat) : Nat := clampN 550 900 n / 5 * 5

/-- TGT (R269). -/
def Supply.target (x : Supply) : Nat := min x.mv.toNat x.ceil

/-- VSET is written. -/
def State.setVset (s : State) (v : Fin 25) (w : Word) : State :=
  s.modSupply v fun x => { x with mv := BitVec.ofNat 10 (clampMv (wbits w 9 0)) }
/-- VSET_WRITE. -/
def execVsetWrite (v : Fin 25) (mv : Word) (s : State) : Out := .next (s.setVset v mv)

/-- One step of a regulator toward its target. -/
def Supply.step (x : Supply) : Supply :=
  if x.off then x
  else if x.act < x.target then { x with act := min (x.act + 5) x.target }
  else { x with act := max (x.act - 5) x.target }

/-- REGULATOR_STEP: one step in each 250 ns of the oscillator's time (R14, R269). -/
def execRegulatorStep (v : Fin 25) (s : State) : Out :=
  let now := s.osc / ns 250
  .next (if now ≤ (s.hub.supply[v]).stepped then s else s.modSupply v fun x => { x.step with stepped := now })

/-- A compute die's regions are switched off (R63, R64). -/
def State.dieOff (s : State) (d : Nat) : State :=
  (finsN 24).foldl (fun s m => if dieOf m = d then s.modSupply (regionOf m) fun x => { x with off := true, act := 0 } else s) s

/-! ### Temperatures (R64, R65) -/

/-- A temperature in 1/16 °C. -/
def celsius (t : BitVec 16) : Int := t.toInt
/-- A temperature has reached a threshold in °C. -/
def hot (t : BitVec 16) (thr : Nat) : Bool := decide (16 * (thr : Int) ≤ celsius t)

/-- Every row of a die, or of all, halts as under a machine check of a class that no one place raised; the row fetch unit
records it (R55, R64; DESIGN CHOICE, log entry 58). -/
def State.haltRows (s : State) (cls : Nat) (which : RowId → Bool) : State :=
  ((finsN 24).filter which).foldl (fun s m => s.takeMachineCheck m rfuPlace 0 (mchkInfo cls 0 0 0)) s

/-- The fabric is powered down: every compute-die supply region and the compute-die fixed rails are off (R63). -/
def State.fabricDown (s : State) : State :=
  ((List.range 4).foldl State.dieOff s).modHub fun h => { h with railsOff := 15 }

/-- The safe, talkative state: the fabric is powered down and the cause recorded (R63). -/
def State.safeState (s : State) (step level : Nat) (code : BitVec 16) (finding : Option Finding := none) : State :=
  s.fabricDown.modMgmt fun g => { g with
    mode := .safe, fabricOn := false
    diag := g.diag ++ [{ step := BitVec.ofNat 8 step, level := BitVec.ofNat 8 level, code := code, finding := finding }] }

/-- Power is removed from everything: what the store, the fuses, the accounts and the stored configuration hold stays (R57, R58,
R64, R68, R69). -/
def State.unpowered (s : State) (tripped : Bool) : State :=
  let g := s.mgmt
  { State.reset with
    ticks := s.ticks, fresh := s.fresh, agenda := s.agenda
    hub := { Hub.reset with ports := s.hub.ports.map fun p => { p with up := false } }
    mgmt := { g with mode := .off, slots := .replicate 8 0, report := none, sessions := [], push := none, writing := none
                     reply := [], fabricOn := false, secRun := 0, tripped := tripped, levels := g.levels } }

/-- A die crosses its critical threshold: it stays off from here, though its power had been taken already (R64). -/
def State.critical (s : State) (d : Fin 5) : State :=
  if d.val < 4 then
    if (s.hub.thermal[d]).halted then s
    else
      let s := s.haltRows 4 fun m => decide (dieOf m = d.val)
      let s := s.modHub fun h => { h with thermal := vmod h.thermal d fun t => { t with halted := true } }
      (((s.dieOff d.val).postEvent .thcrit d.val 0xFF 0xFF 0 0 0).breakDie d.val).modHub fun h => { h with
        memCircuits := h.memCircuits.filter (·.2.2 != d.val)
        joins := h.joins.map fun j => if j.srcDie = d.val ∨ j.dstDie = d.val then { j with broken := true } else j }
  else if s.mgmt.mode = .safe then s
  else
    let s := (s.haltRows 4 fun _ => true).postEvent .thcrit 4 0xFF 0xFF 0 0 0
    ((List.range 4).foldl State.breakDie s).safeState 0xFF 0 0

/-- A die reports its hottest sensor: NOW and PEAK, and what crossing a threshold does. -/
def State.sense (s : State) (d : Fin 5) (temp : BitVec 16) : State :=
  let x := s.hub.thermal[d]
  let peak := if celsius x.peak < celsius temp then temp else x.peak
  let s := s.modHub fun h => { h with thermal := h.thermal.set d { x with now := temp, peak := peak } }
  if hot temp 115 then s.unpowered true
  else
    let s := if hot temp x.warn.toNat && !hot x.now x.warn.toNat then s.postEvent .thwarn d.val 0xFF 0xFF 0 0 0 else s
    if hot temp x.crit.toNat then s.critical d else s

/-- The module is powered. -/
def State.powered (s : State) : Bool := s.mgmt.mode != .off

/-- THWARN: a reading at or above the warning threshold. -/
def execThwarn (d : Fin 5) (temp : BitVec 16) (s : State) : Out := .next (if s.powered then s.sense d temp else s)
/-- THCRIT: a reading at or above the critical threshold. -/
def execThcrit (d : Fin 5) (temp : BitVec 16) (s : State) : Out := .next (if !s.powered then s else s.sense d temp)
/-- THERMAL_TRIP: a reading at or above 115 °C removes all power. -/
def execThermalTrip (d : Fin 5) (temp : BitVec 16) (s : State) : Out :=
  .next (if s.powered && hot temp 115 then s.unpowered true else if s.powered then s.sense d temp else s)

/-! ### Current reports and the limiter (R270–R273) -/

/-- The rail's report is kept. -/
def Supply.report (x : Supply) (code : BitVec 10) : Supply :=
  { x with last := code, peak := if x.peak.toNat < code.toNat then code else x.peak }

/-- The output of a region as VST shows it. -/
def Supply.output (x : Supply) : Nat := if x.off then 0 else x.act

/-- P in whole watts (R271). -/
def Hub.modulePower (h : Hub) : Nat :=
  let regions := ((finsN 25).map fun v => (h.supply[v]).output * (h.supply[v]).last.toNat).sum
  let fixed := ((finsN 8).map fun f => (if f.val % 2 = 0 then 750 else 1100) * (h.fxrep[f]).1.toNat).sum
  (regions + fixed) / 4000

/-- One sample of the limiter (R272). -/
def Hub.limit (h : Hub) (p : Nat) : Hub :=
  let w := h.power
  let ls := if w.brk then w.brake.toNat else w.psus.toNat
  let lm := if w.brk then w.brake.toNat else w.pmax.toNat
  let exc := if ls < p then min (w.exc + 1) 20000 else w.exc - 1
  let cut := decide (lm < p) || decide (exc = 20000)
  let low := decide (p + w.hyst.toNat ≤ ls)
  let ceil (x : Supply) : Supply :=
    if cut || decide (max x.ilim.toNat 1 < x.last.toNat) then { x with ceil := max w.vfloor.toNat (x.ceil - 10) }
    else if low && decide (w.bscale = 16) then { x with ceil := min 900 (x.ceil + 5) }
    else x
  let supply := Vector.ofFn fun v : Fin 25 => if v.val < 24 then ceil h.supply[v] else h.supply[v]
  let scale := if cut then max 1 (w.bscale - 1) else if low then min 16 (w.bscale + 1) else w.bscale
  let floors := (finsN 24).all fun m => decide ((supply[regionOf m]).ceil = w.vfloor.toNat)
  { h with supply := supply
           power := { w with exc := exc, cut := cut, bscale := scale, ovr := w.ovr || (cut && decide (scale = 1) && floors)
                             pnow := BitVec.ofNat 16 (min p 65535) } }

/-- A 500 ns boundary of the oscillator's time has come since the last report (R14, R270). -/
def State.sampleDue (s : State) : Bool := decide (s.hub.power.sampled < s.osc / ns 500)
/-- The present boundary's report has been taken. -/
def Hub.sampledAt (h : Hub) (osc : Nat) : Hub := { h with power := { h.power with sampled := osc / ns 500 } }

/-- CURRENT_REPORT, at each sampling boundary: the codes of every rail, P, and the limiter. A rail that the codes leave out reports 0. -/
def execCurrentReport (codes : CurrentCodes) (s : State) : Out :=
  .next (if !s.sampleDue then s else s.modHub fun h =>
    let h := { h.sampledAt s.osc with
      supply := Vector.ofFn fun v : Fin 25 => (h.supply[v]).report (codes.regions.getD v.val 0)
      fxrep := Vector.ofFn fun f : Fin 8 =>
        let c := codes.fixed.getD f.val 0
        (c, if (h.fxrep[f]).2.toNat < c.toNat then c else (h.fxrep[f]).2) }
    h.limit h.modulePower)

/-- EXCURSION: a sample with the rails' codes unchanged that brings the count to 20,000. -/
def execExcursion (s : State) : Out :=
  let w := s.hub.power
  let p := s.hub.modulePower
  let ls := if w.brk then w.brake.toNat else w.psus.toNat
  .next (if s.sampleDue ∧ 19999 ≤ w.exc ∧ ls < p then s.modHub fun h => (h.sampledAt s.osc).limit p else s)

/-- POWER_BRAKE: the signal, which the next sample finds. -/
def execPowerBrake (asserted : Bool) (s : State) : Out :=
  .next (s.modHub fun h => { h with power := { h.power with brk := asserted } })

/-- PLIM is written (R273). -/
def PowerCtl.setPlim (w : PowerCtl) (v : Word) : PowerCtl :=
  let psus := clampN 600 2400 (wbits v 31 16)
  { w with psus := BitVec.ofNat 16 psus, pmax := BitVec.ofNat 16 (clampN psus 2800 (wbits v 47 32))
           brake := BitVec.ofNat 16 (clampN 300 2400 (wbits v 15 0)) }

/-! ### Byte budgets and the bridges (R24–R26, R274, R275) -/

/-- BRIDGE_REQUEST: served, or kept waiting behind the row's budget and its earlier requests there. -/
def execBridgeRequest (r : BridgeRequest) (s : State) : Out :=
  .next (if hbmEnd ≤ r.line * 128 then s else s.askBridge r)

/-- BUDGET_INTERVAL: the boundaries that the oscillator has reached; time that passes reaches them itself. -/
def execBudgetInterval (s : State) : Out := .next s.newInterval

/-- A line of the HBM or of a scratchpad slice. -/
def eccLine (line : Nat) : Bool :=
  decide (line * 128 < hbmEnd) || decide (spadBase ≤ line * 128) && (sliceOf (line * 128 - spadBase)).isSome

/-- SCRUB: a corrected error is counted at its stack, or among those of the scratchpads, whose ECC answers in the same way; a line
beyond repair is poisoned, but for a dead line, which holds neither data nor poison (R25, R184, R185). -/
def execScrub (line : Nat) (outcome : EccOutcome) (s : State) : Out :=
  .next (if !eccLine line then s
    else match outcome with
    | .clean => s
    | .corrected =>
      if line * 128 < hbmEnd then
        s.modHub fun h => { h with eccFixed := vmod h.eccFixed (Fin.ofNat 12 (stackOf (line * 128))) (· + 1) }
      else s.modHub fun h => { h with spadFixed := h.spadFixed + 1 }
    | .uncorrectable => if s.mem.dead (line * 128) 128 then s else s.withMem (s.mem.poisonLines [line]))

end Sys2Proof.Machine
end

