-- ==== Sys2Proof/Machine/Manage.lean ====
section
/-! DEFINITION. The firmware store and its start record, the start and the resets, the watchdog, and the management service
(R54–R69). -/

namespace Sys2Proof.Machine

/-! ### The start record (R57, Table 2.8) -/

/-- The fields of an entry. -/
structure EntryFields where
  start : Nat
  step : Nat
  evt : Nat
  method : Nat
  code : Nat
  deriving DecidableEq, Repr

/-- An entry's fields (Table 2.8). -/
def entryOf (e : StartEntry) : EntryFields :=
  let n := e.toNat
  { start := bits n 127 96, step := bits n 95 88, evt := bits n 87 84, method := bits n 83 80, code := bits n 79 64 }

/-- An entry of the record (Table 2.8). -/
def startEntry (start : BitVec 32) (step evt method code : Nat) (tb : Word) : StartEntry :=
  BitVec.ofNat 128 (start.toNat * 2 ^ 96 + step * 2 ^ 88 + evt * 2 ^ 84 + method * 2 ^ 80 + code * 2 ^ 64 + tb.toNat)

/-- The entries of a sector whose EVT is listed. -/
def listed (es : List StartEntry) : List EntryFields := (es.map entryOf).filter fun e => decide (e.evt ≤ 4)

/-- The highest START of the record's non-empty entries. -/
def Mgmt.highest (g : Mgmt) : Option Nat :=
  (g.sectors.toList.flatMap listed).foldl (fun best e =>
    match best with
    | none => some e.start
    | some b => if serialBelow32 b e.start then some e.start else best) none

/-- A sector holds an entry of a start. -/
def Mgmt.holds (g : Mgmt) (i : Fin 16) (start : Nat) : Bool := (listed g.sectors[i]).any fun e => e.start == start

/-- The current sector and the highest START; where the entries of one start span two sectors it is the later in the rotation,
which was written last (R57; DEDUCED, log entry 59). -/
def Mgmt.current (g : Mgmt) : Option (Nat × Nat) :=
  g.highest.bind fun n =>
    let mine := (finsN 16).filter fun i => g.holds i n
    (mine.find? (fun i => !g.holds (i + 1) n) <|> mine.head?).map fun i => (i.val, n)

/-- Every entry in the order of writing: the sector after the current one is the oldest. -/
def Mgmt.entries (g : Mgmt) (sector : Nat) : List EntryFields :=
  (List.range 16).flatMap fun i => listed g.sectors[Fin.ofNat 16 (sector + 1 + i)]

/-- An entry is appended at the current sector, or begins the next one, which is erased. -/
def Mgmt.append (g : Mgmt) (e : StartEntry) : Mgmt :=
  let i : Fin 16 := Fin.ofNat 16 g.sector
  if (g.sectors[i]).length < 256 then { g with sectors := vmod g.sectors i fun es => es ++ [e] }
  else { g with sectors := g.sectors.set (Fin.ofNat 16 (g.sector + 1)) [e], sector := (g.sector + 1) % 16 }

/-- An entry of the start in progress. -/
def State.record (s : State) (step evt method code : Nat) : State :=
  s.modMgmt fun g => g.append (startEntry g.startNo step evt method code s.tb)

/-! ### Levels (R60, R61) -/

/-- A step's level in a LEVELS word: 0 PRIMARY, 1 ALTERNATE, 2 SKIP, 3 STOP. -/
def levelAt (w : BitVec 16) (k : Nat) : Nat := w.toNat / 4 ^ k % 4

/-- A step of a start failed: a BEGIN without its END, or a FAIL. -/
def stepFailed (es : List EntryFields) (k : Nat) : Bool :=
  let n (evt : Nat) : Nat := (es.filter fun e => e.step == k && e.evt == evt).length
  decide (n 1 < n 0) || decide (n 2 ≠ 0)

/-- The step has an alternate method; MEMTRAIN's needs saved training values. -/
def hasAlternate (trained : Bool) (k : Nat) : Bool := decide (k = 3 ∨ k = 7) || (decide (k = 2) && trained)
/-- The step may be skipped. -/
def maySkip (k : Nat) : Bool := decide (k = 5 ∨ k = 6)

/-- A level advances once. -/
def nextLevel (trained : Bool) (k level : Nat) : Nat :=
  if level = 0 ∧ hasAlternate trained k then 1 else if level ≤ 1 ∧ maySkip k then 2 else 3

/-- The levels of a start from those of the one before and its failures. -/
def advanceLevels (trained : Bool) (old : BitVec 16) (prev : List EntryFields) : BitVec 16 :=
  BitVec.ofNat 16 (((List.range 8).map fun k =>
    let l := levelAt old k
    (if stepFailed prev k then nextLevel trained k l else l) * 4 ^ k).sum)

/-! ### Image verification (R58, R59) -/

/-- The hub's own checks of an image: its key digests against the fuses, the revocation mask and the security version. The
mask's width and the one bit for both keys are the model's (DESIGN CHOICE, log entry 57). -/
def hubChecks (secMin : BitVec 32) (h : ImageHeader) : Bool :=
  sha384 (rsaKeyBytes h.rsaKey) == Config.rsaRootDigest && sha384 h.slhKey == Config.slhRootDigest
    && !Config.revocationMask.getLsbD h.keyIndex.val && decide (secMin.toNat ≤ h.secVersion.toNat)

/-- Both signatures over an image's digest verify (R58). -/
def imageSigned (h : ImageHeader) (digest : BitVec 384) : Bool :=
  let d := bytesOf 48 digest.toNat
  pssVerify h.rsaKey h.rsaSig d && slhVerify h.slhKey h.slhSig d

/-- The stored image is valid (R59). -/
def Mgmt.imageValid (g : Mgmt) : Bool :=
  let i := g.image
  i.commit && hubChecks g.secMin i.header && decide (sha384 i.bytes = i.digest) && imageSigned i.header i.digest

/-- A byte of the firmware store: the image range, then the start record's sectors (Table 2.6, R57). -/
def Mgmt.flash (g : Mgmt) (a : Nat) : Byte :=
  if a < 0x3FF0000 then g.image.bytes.getD a 0xFF
  else
    let o := a - 0x3FF0000
    match (g.sectors[Fin.ofNat 16 (o / 0x1000)])[o % 0x1000 / 16]? with
    | none => 0xFF
    | some e => BitVec.ofNat 8 (e.toNat / 256 ^ (o % 16))

/-! ### Resets and the start (R55, R60–R63) -/

/-- A warm reset: HBM keeps its contents, and what the store, the fuses, the accounts and the stored configuration hold stays;
the timebase and the oscillator go on (R55, Table 2.8). Whether a port's interface and tag setting survive a reset the manual leaves open:
they stay (R27; DESIGN CHOICE, log entry 62). -/
def State.warmReset (s : State) : State :=
  { State.reset with
    tb := s.tb, osc := s.osc, ticks := s.ticks, fresh := s.fresh, agenda := s.agenda, saved := s.saved
    mem := { cells := s.mem.cells.filter fun c => decide (c.1 < hbmEnd), live := []
             poison := s.mem.poison.filter fun l => decide (l * 128 < hbmEnd)
             dirty := s.mem.dirty.filter fun g => decide (g * 65536 < hbmEnd) }
    hub := { Hub.reset with
      ports := s.hub.ports.map fun p => { p with up := false }
      power := { Hub.reset.power with brk := s.hub.power.brk }
      thermal := s.hub.thermal.map fun x => { now := x.now, peak := 0, crit := 105, warn := 95, halted := false } }
    mgmt := { s.mgmt with mode := .unstarted, slots := .replicate 8 0, report := none, sessions := [], push := none
                          writing := none, reply := [], fabricOn := false, secRun := 0, factory := false } }

/-- At its first boot the module generates its TLS key and certifies it with the RSA identity key (R66); what the certificate
signs is the key's digest (PRESUMED, log entry 34). -/
def State.makeTlsKey (s : State) : State :=
  if s.mgmt.tls.isSome then s
  else
    let key := Config.tlsKey s.fresh
    let cert := bytesOf 384 (Config.sign 0 (sha384 key)).toNat
    ({ s with fresh := s.fresh + 1 }).modMgmt fun g => { g with tls := some (key, cert) }

/-- The chain that the management port's TLS server presents (R66). -/
def Mgmt.tlsChain (g : Mgmt) : List (List Byte) := (g.tls.map fun x => x.2).toList ++ [Config.identityCert 0]

/-- A start begins: its number, the RESET entry and the levels. -/
def State.beginStart (s : State) (reason : Nat) : State :=
  let s := s.makeTlsKey
  let g := s.mgmt
  match g.current with
  | none =>
    let s := s.modMgmt fun g => { g with sector := 0, startNo := 0, levels := 0 }
    (s.record 0 3 0 reason).record 0 4 0 0
  | some (sector, n) =>
    let es := g.entries sector
    let prev := es.filter fun e => decide (e.start = n)
    let old := (((es.filter fun e => decide (e.evt = 4)).getLast?).map fun e => e.code).getD 0
    let lv := advanceLevels g.trained (BitVec.ofNat 16 old) prev
    let s := s.modMgmt fun g => { g with
      sector := sector, startNo := if n = 0xFFFFFFFE then 0 else BitVec.ofNat 32 (n + 1), levels := lv }
    (s.record 0 3 0 reason).record 0 4 0 lv.toNat

/-- The watchdog armed with a step's deadline in µs (Table 2.7). -/
def State.armWatchdog (s : State) (us : Nat) : State :=
  s.modHub fun h => { h with wdog := { h.wdog with en := true, tmo := BitVec.ofNat 32 us, since := s.osc } }

/-- Deadlines in µs (Table 2.7). -/
def deadlines : List Nat := [2000000, 200000, 3000000, 1000000, 20000000, 5000000, 2000000, 10000000]

/-- A start step extends a measurement slot with the digest of what it used (R67). Which of the eight slots a step extends the manual leaves
open: step k extends slot k (DESIGN CHOICE, log entry 62). -/
def State.measure (s : State) (k level : Nat) : State :=
  let used := Config.stepDigest k level s.mgmt.image.digest s.mgmt.tmoStored
  let extend (v : BitVec 384) : BitVec 384 := sha384 (bytesOf 48 v.toNat ++ bytesOf 48 used.toNat)
  s.modMgmt fun g => { g with slots := vmod g.slots (Fin.ofNat 8 k) extend }

/-- What a step brings about as it ends (Table 2.7, R55, R69). -/
def State.stepWork (s : State) (k level : Nat) : State :=
  match k with
  | 0 => s.modMgmt fun g => { g with secRun := g.image.header.secVersion }
  | 3 => s.modHub fun h => { h with edges := h.edges.map fun e => { e with modup := 0xFF, training := 0 } }
  | 7 =>
    let s := s.modHub fun h => { h with wdog :=
      { en := true, boot := false, stage := 0, tmo := if level = 1 then 10000000 else s.mgmt.tmoStored, since := s.osc } }
    s.modMgmt fun g => { g with
      mode := .running, fabricOn := true, trained := true, factory := decide (level = 1)
      secMin := if g.secMin.toNat < g.image.header.secVersion.toNat then g.image.header.secVersion else g.secMin }
  | _ => s

/-- The recovery responder runs, with the fabric unpowered (R59). -/
def State.recover (s : State) (step level : Nat) (code : BitVec 16) : State :=
  (s.safeState step level code).modMgmt fun g => { g with mode := .recovery }

/-- A step that fails or stops the start: the recovery responder for the first two, else the safe, talkative state. -/
def State.haltStart (s : State) (step level : Nat) (code : BitVec 16) : State :=
  if step < 2 then s.recover step level code else s.safeState step level code

/-- The steps in turn: the state, whether a step hung, and the results not used. -/
def State.runSteps (s : State) : List Nat → List StepResult → State × Bool × List StepResult
  | [], rs => (s, false, rs)
  | k :: ks, rs =>
    let level := levelAt s.mgmt.levels k
    let s := ((s.armWatchdog (deadlines.getD k 0)).record k 0 level 0).measure k level
    if level = 2 then (s.record k 1 2 0).runSteps ks rs
    else
      let r := rs.headD .ok
      let rs := rs.drop 1
      match r with
      | .hang => (s, true, rs)
      | .fail code => ((s.record k 2 level code.toNat).haltStart k level code, false, rs)
      | .ok | .finding _ _ =>
        let found : BitVec 16 × Option Finding := match r with
          | .finding c f => (c, some f)
          | _ => (0, none)
        let s := s.record k 1 level 0
        if k = 0 ∧ !s.mgmt.imageValid then (s.recover 0 level found.1, false, rs)
        else if k = 4 ∧ r ≠ .ok then (s.safeState 4 level found.1 found.2, false, rs)
        else (s.stepWork k level).runSteps ks rs

/-- A start after a reset, and those that follow a step that hangs (R55, R60, R61), by fuel. -/
def State.start (s : State) : Nat → Nat → List StepResult → State
  | 0, _, _ => s
  | n + 1, reason, rs =>
    let s := s.beginStart reason
    let lv := s.mgmt.levels
    match (List.range 8).find? fun k => levelAt lv k = 3 with
    | some k =>
      if k < 2 then s.recover k 3 0
      else
        match s.runSteps [0, 1] rs with
        | (s, true, rs) => s.warmReset.start n 2 rs
        | (s, false, _) => if s.mgmt.mode = .recovery then s else s.safeState k 3 0
    | none =>
      match s.runSteps (List.range 8) rs with
      | (s, true, rs) => s.warmReset.start n 2 rs
      | (s, false, _) => s

/-- A start with the results that its steps, and those of the starts that follow a hang, will meet. -/
def State.startWith (s : State) (reason : Nat) (o : StartInputs) : State := s.start (o.steps.length + 1) reason o.steps

/-- POWER_ON. -/
def execPowerOn (o : StartInputs) (s : State) : Out :=
  .next (if s.mgmt.mode = .off ∨ s.mgmt.mode = .unstarted then
      let reason := if s.mgmt.tripped then 3 else 0
      { (s.unpowered false) with mgmt := { (s.unpowered false).mgmt with mode := .unstarted } }.startWith reason o
    else s)

/-- The Redfish service serves more than the change of the initial password (R68). -/
def Mgmt.serves (g : Mgmt) : Bool := (g.mode == .running || g.mode == .safe) && !(g.accounts[0]).mustChange

/-- The service refuses (PRESUMED, log entry 34). -/
def State.refuseHttp (s : State) (code : Nat) : State := s.modMgmt fun g => { g with http := code }

/-- FORCE_RESTART. -/
def execForceRestart (o : StartInputs) (s : State) : Out :=
  .next (if s.mgmt.serves then s.warmReset.startWith 1 o else s.refuseHttp 403)

/-- POWER_CYCLE. -/
def execPowerCycle (o : StartInputs) (s : State) : Out :=
  .next (if s.mgmt.serves then
      { (s.unpowered false) with mgmt := { (s.unpowered false).mgmt with mode := .unstarted } }.startWith 0 o
    else s.refuseHttp 403)

/-- POWER_LOSS: an image whose programming had begun lacks its commit word from then on (R69, `State.eraseImage`). -/
def execPowerLoss (s : State) : Out := .next (if !s.powered then s else s.unpowered false)

/-- The fabric is powered: a die that went critical stays off until the next reset (R64). -/
def State.fabricUp (s : State) : State :=
  let halted (d : Nat) : Bool := (s.hub.thermal[Fin.ofNat 5 d]).halted
  let s := s.modHub fun h => { h with railsOff := 0 }
  (finsN 24).foldl (fun s m => s.modSupply (regionOf m) fun x => { x with off := x.off && halted (dieOf m) }) s

/-- FABRIC_POWER_STATE: refused in the safe, talkative state (R63); fabric state does not outlive its power (DEDUCED, log entry 35). -/
def execFabricPowerState (on : Bool) (s : State) : Out :=
  .next (if !s.mgmt.serves then s.refuseHttp 403
    else if s.mgmt.mode = .safe then (if on then s.refuseHttp 409 else s)
    else if on then
      if s.mgmt.fabricOn then s
      else
        (s.fabricUp).modMgmt fun g => { g with fabricOn := true }
    else
      let s := s.fabricDown
      let s := { s with rows := .replicate 24 .reset, launches := [], suspended := [], sides := []
                        dieTlb := .replicate 4 [] }
      let s := s.withMem (s.mem.killRange spadBase (spadBase + 2 ^ 32))
      s.modMgmt fun g => { g with fabricOn := false })

/-! ### The watchdog (R55, Table 2.5) -/

/-- WDOG is written: EN is sticky, BOOT clears by a 1 and restarts the count, TMO is clamped. -/
def State.setWdog (s : State) (v : Word) : State :=
  s.modHub fun h =>
    let w := h.wdog
    let en := v.getLsbD 63
    let clear := w.boot && v.getLsbD 61
    { h with wdog := { w with
      en := w.en || en, boot := w.boot && !v.getLsbD 61, tmo := BitVec.ofNat 32 (clampN 1000 60000000 (wbits v 31 0))
      since := if clear || (en && !w.en) then s.osc else w.since } }
/-- WDOG_WRITE. -/
def execWdogWrite (v : Word) (s : State) : Out := .next (s.setWdog v)

/-- WDKICK is written. -/
def State.kick (s : State) : State := s.modHub fun h => { h with wdog := { h.wdog with since := s.osc, stage := 0 } }
/-- WDKICK. -/
def execWdkick (_v : Word) (s : State) : Out := .next s.kick

/-- Every application core is interrupted at machine level. -/
def State.interruptAll (s : State) : State := { s with apps := s.apps.map fun a => { a with mirq := true } }

/-- WATCHDOG_EXPIRY. From when the second expiry counts the manual leaves open: it comes a full TMO after the first (R55; DESIGN CHOICE, log
entry 62). -/
def execWatchdogExpiry (o : StartInputs) (s : State) : Out :=
  let w := s.hub.wdog
  .next (if !w.en ∨ s.osc < w.since + ns (1000 * w.tmo.toNat) ∨ !s.powered then s
    else if w.boot then s.warmReset.startWith 2 o
    else if w.stage = 0 then
      ((s.modHub fun h => { h with wdog := { h.wdog with stage := 1, since := s.osc } }).postEvent .wdog 4 0xFF 0xFF 0 0
        0).interruptAll
    else (s.haltRows 3 fun _ => true).warmReset.startWith 2 o)

/-! ### Errors of the control complex (R54) -/

/-- CONTROL_COMPLEX_UNCORRECTABLE_ERROR, and the corrected ones, which are repaired and counted: the address of a consumed error is a free value. -/
def execControlComplexUncorrectableError (e : CcError) (s : State) : Out :=
  .next (match e with
    | .corrected => s.modHub fun h => { h with ccFixed := h.ccFixed + 1 }
    | .consumed ac =>
      let (v, s) := s.draw
      { s with apps := vmod s.apps ac fun a => { a with fault := some (.access v.toNat) } }
    | .dirtyBlock addr => if addr < hbmEnd then s.withMem (s.mem.poisonLines [addr / 128]) else s
    | .unattributed => s.interruptAll)

/-! ### Firmware update (R53, R69) -/

/-- A LEVELS entry with every level PRIMARY. -/
def State.clearLevels (s : State) : State := (s.modMgmt fun g => { g with levels := 0 }).record 0 4 0 0

/-- The image range is erased as the programming begins, the commit word with it (R69). -/
def State.eraseImage (s : State) (new : Image) (readBack : Bool) : State :=
  s.modMgmt fun g => { g with writing := some (new, readBack), image := { g.image with commit := false, bytes := [] } }

/-- The verdict on a pushed image is in: its programming begins, or the store stays as it is. -/
def State.finishPush (s : State) (p : ImagePush) (bs : List Byte) (signed : Bool) : State :=
  let s := s.modMgmt fun g => { g with push := none }
  if !(signed && hubChecks s.mgmt.secMin p.header) then s.refuseHttp 400
  else (s.eraseImage { header := p.header, digest := sha384 bs, commit := true, bytes := bs } p.readBack).refuseHttp 202

/-- The programming ends: the commit word is written last, and erased again when the range does not read back (R69). -/
def State.program (s : State) : State :=
  match s.mgmt.writing with
  | none => s
  | some (image, readBack) =>
    let s := s.modMgmt fun g => { g with writing := none, image := { image with commit := readBack } }
    if readBack then s.clearLevels.refuseHttp 200 else s.refuseHttp 500

/-- Where the hub leaves a pushed image's digest: at the line after it (PRESUMED, log entry 34). -/
def digestAt (p : ImagePush) : Nat := (p.addr + p.len + 127) / 128 * 128

/-- The service takes firmware: it serves, or is the recovery responder. -/
def Mgmt.takesImages (g : Mgmt) : Bool := g.serves || g.mode == .recovery

/-- A push is received, or being programmed. -/
def Mgmt.pushing (g : Mgmt) : Bool := g.push.isSome || g.writing.isSome

/-- IMAGE_PUSH: an image longer than the image range is refused (PRESUMED, log entry 34). -/
def execImagePush (p : ImagePush) (s : State) : Out :=
  .next (if !s.mgmt.takesImages then s.refuseHttp 403
    else if p.busy || s.mgmt.pushing then s.refuseHttp 503
    else if 0x3FF0000 < p.len then s.refuseHttp 400
    else
      let bs := s.mem.read p.addr p.len
      let d := sha384 bs
      if s.hub.assisted 4 then
        let s := if digestAt p + 48 ≤ hbmEnd then s.withMem (s.mem.write (digestAt p) (bytesOf 48 d.toNat)) else s
        (s.modMgmt fun g => { g with push := some (p, bs) }).haPost 4 0 [toWord p.addr, toWord (p.len % 2 ^ 32), toWord (digestAt p)] [0]
      else s.finishPush p bs (imageSigned p.header d))

/-- Software's verdict on the signatures (R53). -/
def State.verdict (s : State) (ok : Bool) : State :=
  match s.mgmt.push with
  | none => s
  | some (p, bs) => s.finishPush p bs ok

/-- CLEAR_START_RECORD. -/
def execClearStartRecord (s : State) : Out :=
  .next (if !s.mgmt.takesImages then s.refuseHttp 403
    else (s.modMgmt fun g => { g with sectors := .replicate 16 [], sector := 0 }).clearLevels)

/-! ### Attestation, accounts and sessions (R67, R68) -/

/-- A report's bytes, in the order of R67 (PRESUMED, log entry 34). -/
def State.reportBytes (s : State) (nonce : List Byte) : List Byte :=
  let g := s.mgmt
  bytesOf 1 1 ++ bytesOf 8 Config.serial.toNat ++ bytesOf 4 s.hub.nodeId.toNat ++ bytesOf 4 g.secRun.toNat
    ++ bytesOf 4 g.secMin.toNat ++ bytesOf 8 Config.revocationMask.toNat ++ bytesOf 2 g.levels.toNat
    ++ (g.slots.toList.flatMap fun v => bytesOf 48 v.toNat) ++ bytesOf 8 s.tb.toNat ++ nonce

/-- ATTESTATION_REPORT. -/
def execAttestationReport (nonce : List Byte) (s : State) : Out :=
  .next (if !s.mgmt.serves then s.refuseHttp 403
    else if nonce.length < 32 ∨ 64 < nonce.length then s.refuseHttp 400
    else
      let bs := s.reportBytes nonce
      let d := sha384 bs
      s.modMgmt fun g => { g with report := some (bs, Config.sign 0 d, Config.sign 1 d), http := 200 })

/-- An account is locked. -/
def Account.locked (a : Account) (now : Nat) : Bool := a.lockedUntil.any fun t => decide (now < t)
/-- One more failed login; the fifth locks the account for 60 s. The count is of those since the last success, and a wrong old password in
a change counts (R68; DESIGN CHOICE, log entry 67). -/
def Account.fail (a : Account) (now : Nat) : Account :=
  if 5 ≤ a.fails + 1 then { a with fails := 0, lockedUntil := some (now + ns 60000000000) } else { a with fails := a.fails + 1 }

/-- LOGIN. -/
def execLogin (acct : Fin 16) (password : List Byte) (s : State) : Out :=
  let a := s.mgmt.accounts[acct]
  .next (if s.mgmt.mode ≠ .running ∧ s.mgmt.mode ≠ .safe then s
    else if !a.used ∨ a.locked s.osc then s.refuseHttp 401
    else if a.password = password then
      if (s.mgmt.accounts[0]).mustChange then s.refuseHttp 403
      else s.modMgmt fun g => { g with
        accounts := g.accounts.set acct { a with fails := 0, lockedUntil := none }
        sessions := g.sessions ++ [{ sid := g.nextSid, acct := acct, lastUse := s.osc }]
        nextSid := g.nextSid + 1, http := 200 }
    else (s.modMgmt fun g => { g with accounts := g.accounts.set acct (a.fail s.osc) }).refuseHttp 401)

/-- PASSWORD_CHANGE. -/
def execPasswordChange (acct : Fin 16) (old new : List Byte) (s : State) : Out :=
  let a := s.mgmt.accounts[acct]
  .next (if s.mgmt.mode ≠ .running ∧ s.mgmt.mode ≠ .safe then s
    else if !a.used ∨ a.locked s.osc then s.refuseHttp 401
    else if a.password = old then
      s.modMgmt fun g => { g with accounts := g.accounts.set acct { a with password := new, mustChange := false, fails := 0 }
                                  http := 200 }
    else (s.modMgmt fun g => { g with accounts := g.accounts.set acct (a.fail s.osc) }).refuseHttp 401)

/-- LOCKOUT_EXPIRY. -/
def execLockoutExpiry (acct : Fin 16) (s : State) : Out :=
  let free (a : Account) : Account := if a.locked s.osc then a else { a with lockedUntil := none }
  .next (s.modMgmt fun g => { g with accounts := vmod g.accounts acct free })

/-- A session has been idle for 30 minutes (R68). -/
def Session.timedOut (x : Session) (now : Nat) : Bool := decide (x.lastUse + ns 1800000000000 ≤ now)

/-- SESSION_TIMEOUT: 30 minutes idle. -/
def execSessionTimeout (sid : Nat) (s : State) : Out :=
  .next (s.modMgmt fun g => { g with sessions := g.sessions.filter fun x => !(x.sid == sid && x.timedOut s.osc) })

end Sys2Proof.Machine
end

