-- ==== Sys2Proof/Machine/HubRegs.lean ====
section
/-! DEFINITION. The hub registers as the control complex reads and writes them, the host-assisted modes and responses, the attic
and TLB maintenance registers (R43, R48, R50–R53, R79, R91, R97, R178, Tables 1.2, 1.5, 2.2–2.5, 2.12, 3.3, 3.5, 6.4, 8.5, 9.2,
9.4, 9.5, 9.8, 10.1, 10.2, 15.7). A write-only register reads zero. -/

namespace Sys2Proof.Machine

/-! ### The attic and the TLBs (R79, R91, R178) -/

/-- A configured region stands in the placement of an attic entry. -/
def State.atticUsed (s : State) (a : AtticEntry) : Bool :=
  s.rows.toList.any fun r => r.cores.toList.any fun k => k.regions.toList.any fun g =>
    g.any fun g => g.hash == a.hash && g.rect.shape g.var.toNat == a.shape

/-- ATFLUSH is written: every entry not in use is invalid. -/
def State.flushAttic (s : State) : State := s.modHub fun h => { h with attic := h.attic.filter s.atticUsed }
/-- ATFLUSH_WRITE. -/
def execAtflushWrite (_v : Word) (s : State) : Out := .next s.flushAttic

/-- A cached translation matches a TLBINV write (Table 6.4). -/
def TlbEntry.hit (e : TlbEntry) (kind root vpn : Nat) : Bool :=
  match kind with
  | 1 => e.root == root
  | 2 => e.root == root && decide (e.vbase ≤ vpn ∧ vpn < e.vbase + e.size)
  | _ => true

/-- TLBINV is written: it completes at once, every access that used an entry having been performed as it was made. -/
def State.tlbInv (s : State) (v : Word) : State :=
  let mask := if wbits v 43 40 = 0 then 15 else wbits v 43 40
  let vpn := s.hub.tlbiva.toNat * 65536
  let keep (d : Nat) (es : List TlbEntry) : List TlbEntry :=
    if bitN mask d then es.filter fun e => !e.hit (wbits v 63 62) (wbits v 39 16) vpn else es
  { s with dieTlb := Vector.ofFn fun d : Fin 4 => keep d.val s.dieTlb[d]
           rows := Vector.ofFn fun m : Fin 24 =>
             { s.rows[m] with cores := (s.rows[m]).cores.map fun k => { k with tlb := keep (dieOf m) k.tlb } } }
/-- TLBINV_WRITE. -/
def execTlbinvWrite (v : Word) (s : State) : Out := .next (s.tlbInv v)

/-! ### Host-assisted responses (R51, R53, R97, R400) -/

/-- Software's placement of a region in a shape (Table 3.9): it is stored, and a LOADING region of that shape is placed, while
for a fold it is kept with the region. -/
def State.assistPlace (s : State) (m : RowId) (c : CoreId) (slot : SlotId) (shape : BitVec 16) (hash : BitVec 256) (st : Status)
    (entry : Word) : State :=
  match s.region m c slot with
  | none => s
  | some g =>
    let places := placementAt s.mem entry.toNat
    let store (s : State) : State := if st = .ok then s.atticStore hash shape places else s
    if g.st = .loading ∧ g.elems.isEmpty then
      match parseImage g.copy with
      | none => s
      | some im =>
        if im.hash ≠ hash ∨ g.rect.shape g.var.toNat ≠ shape then s
        else if st ≠ .ok then s.failPlace m c slot st
        else if !s.roomFor m c slot g.lid im g.var g.ctxn g.rect (g.links.map (·.elem)) then s.lostPlace m c slot
        else (store s).finishPlace m c slot im (places.map fun p => (p.1, p.2.1, p.2.2 + g.rect.origin))
    else if g.hash = hash then
      (store s).modRegion m c slot fun g => { g with given := (shape, if st = .ok then some places else none) :: g.given }
    else s

/-- The hub acts on a response as on the hardware unit's result; whether the request closes. -/
def State.answer (s : State) (i : Fin 6) (who : List Nat) (w : Nat → Word) : State × Bool :=
  let g (k : Nat) : Nat := who.getD k 0
  let st := (statusOf (wbits (w 0) 7 0)).getD .badDesc
  match i.val with
  | 0 => (s.assistPlace (Fin.ofNat 24 (g 0)) (Fin.ofNat 8 (g 1)) (Fin.ofNat 8 (g 2)) (BitVec.ofNat 16 (g 3)) (BitVec.ofNat 256 (g 4))
      st (w 1), true)
  | 1 => (s.assistGraph (graphReqOf who) st (w 1) (w 2), true)
  | 2 => (s.fireAction (Fin.ofNat 256 (g 0)) (if st = .ok then wbits (w 1) 1 0 else 0), true)
  | 3 => s.assistCollective who w
  | 4 => (s.verdict (decide (st = .ok) && (w 1).getLsbD 0 && (w 1).getLsbD 1), true)
  | _ => (s, true)

/-- Change a request ring. -/
def State.modHa (s : State) (i : Fin 6) (f : HaRing → HaRing) : State := s.modHub fun h => { h with ha := vmod h.ha i f }

/-- The write at HARSP + 0x38 commits the response block; one whose number matches no open request is ignored. -/
def State.commit (s : State) (i : Fin 6) (v : Word) : State :=
  let s := s.modHa i fun q => { q with rsp := q.rsp.set 7 v }
  let r := (s.hub.ha[i]).rsp
  let w (k : Nat) : Word := r[k]?.getD 0
  let num : BitVec 16 := BitVec.ofNat 16 (wbits (w 0) 63 48)
  match (s.hub.ha[i]).opened.find? fun x => x.1 == num with
  | none => s
  | some x =>
    let (s, closes) := s.answer i x.2 w
    if closes then s.modHa i fun q => { q with opened := q.opened.filter fun y => y.1 != num } else s
/-- HARSP_COMMIT. -/
def execHarspCommit (i : Fin 6) (v : Word) (s : State) : Out := .next (s.commit i v)

/-! ### Modes (R50–R52, Table 2.4) -/

/-- GRAPH requests that waited for a ring slot stand in their queues again in their order of arrival, and what no longer fits there waits
at its engine (R52, R94). -/
def State.requeue (s : State) (reqs : List (List Word × List Nat)) : State :=
  (finsN 4).foldl (fun s p =>
    let back := (reqs.filter fun x => levelOf (reqPrio x.1) == p).map fun x => graphReqOf x.2
    let all := back.foldl (fun q r => r.enter q) s.hub.graphs[p]
    let s := s.modHub fun h => { h with graphs := h.graphs.set p (all.take 256) }
    (all.drop 256).foldl (fun s r => s.modOp r.m r.c r.op fun o => if o.phase = .waiting then { o with phase := .moving } else o) s) s

/-- A request that waited for a ring slot passes to hardware: what waits for a placement asks again of itself, GRAPH requests go back to their
queues (`State.requeue`), the others are served now (R52). -/
def State.passToHardware (s : State) (i : Fin 6) (words : List Word) (who : List Nat) (area : List Byte) : State :=
  let g (k : Nat) : Nat := who.getD k 0
  match i.val with
  | 0 | 1 => s
  | 2 => s.fireAction (Fin.ofNat 256 (g 0)) (s.ruleAction (Fin.ofNat 256 (g 0)))
  | 3 =>
    if g 0 = 0 then s.modOp (Fin.ofNat 24 (g 1)) (Fin.ofNat 8 (g 2)) (g 3) fun o =>
      if o.phase = .waiting then { o with phase := .moving } else o
    else
      let src : BitVec 18 := BitVec.ofNat 18 (g 1)
      let circ : BitVec 16 := BitVec.ofNat 16 (g 2)
      match s.hub.circuit false src circ with
      | none => s
      | some c =>
        let op := BitVec.ofNat 8 (natOf ((area.drop 18).take 1))
        let (s, r) := s.performFrame c op (area.drop 24)
        s.arriveDone src circ (BitVec.ofNat 32 (g 3)) (r.elim 0 (·.1)) (r.elim 0 fun x => x.2.1) (r.elim 0 fun x => x.2.2)
  | 4 => match s.mgmt.push with
    | none => s
    | some (p, bs) => s.finishPush p bs (imageSigned p.header (sha384 bs))
  | _ =>
    let w (k : Nat) : Word := words.getD k 0
    if wbits (w 1) 1 0 = 0 then s.serveSync (w 2) (w 3) (w 4) else s.serveDelay (w 2) (w 3) (w 4)

/-- The requests of function i that wait for a ring slot leave the ring. -/
def State.drainWaiting (s : State) (i : Fin 6) : State :=
  let q := s.hub.ha[i]
  let nums := q.waiting.map fun x => BitVec.ofNat 16 (wbits (x.1.headD 0) 63 48)
  let s := s.modHa i fun q => { q with waiting := [], opened := q.opened.filter fun y => !nums.contains y.1 }
  if i = 1 then s.requeue (q.waiting.map fun x => (x.1, x.2.1))
  else q.waiting.foldl (fun s x => s.passToHardware i x.1 x.2.1 x.2.2) s

/-- HMODE is written. A request that has entered its ring counts as in service, though software has not read it, and those that wait for
a slot as queued (R52; DESIGN CHOICE, log entry 67). -/
def State.setHmode (s : State) (v : Word) : State :=
  let old := s.hub.hmode
  let s := s.modHub fun h => { h with hmode := v.setWidth 6 }
  (finsN 6).foldl (fun s i => if old.getLsbD i.val && !v.getLsbD i.val then s.drainWaiting i else s) s
/-- HMODE_WRITE. -/
def execHmodeWrite (v : Word) (s : State) : Out := .next (s.setHmode v)

/-- An operation that the collective engine has begun. -/
def Op.collectiveBegun (o : Op) : Bool :=
  (cmdOp o.cmd == 0x40 || cmdOp o.cmd == 0x41 || cmdOp o.cmd == 0x42 || cmdOp o.cmd == 0x53 && (o.cmd).getLsbD 88)
    && (o.phase == .moving && (decide (o.idx ≠ 0 ∨ o.lanes ≠ 0) || o.bufP || !o.awaitSeq.isEmpty) || o.phase == .waiting)

/-- The collective engine has an operation in service that it did not pass to software. -/
def State.collectiveBusy (s : State) : Bool :=
  (finsN 24).any fun m => (finsN 8).any fun c => (s.core m c).ops.any fun o =>
    o.collectiveBegun && !(s.haOpen 3 [0, m.val, c.val, o.id])

/-- A LAUNCH request in whose service the fabric manager itself has chosen a place. -/
def Op.placedByHub (o : Op) : Bool := decide (o.aux.length = 1 ∨ o.aux.length = 4)

/-- BUSY: requests of host-assisted mode still open after a change to hardware mode, or LAUNCH requests whose placement the
fabric manager has begun, and collective operations, after a change to host-assisted mode. The other functions' hardware serves
a request in one event, so none remains in service there. -/
def State.modeBusy (s : State) (i : Fin 6) : Bool :=
  if s.hub.assisted i then
    (i.val == 1 && s.hub.graphs.toList.any fun q => q.any fun r => ((s.core r.m r.c).findOp r.op).any Op.placedByHub)
      || (i.val == 3 && s.collectiveBusy)
  else !(s.hub.ha[i]).opened.isEmpty

/-! ### Reading -/

/-- Word j of a supply region (Table 10.1). -/
def Supply.word (x : Supply) (v j : Nat) : Nat :=
  match j with
  | 0 => x.mv.toNat
  | 1 => x.ceil * 2 ^ 32 + x.target * 2 ^ 16 + x.output
  | 2 => x.peak.toNat * 2 ^ 32 + x.last.toNat
  | 3 => if v = 24 then 0 else x.ilim.toNat
  | 4 => if v = 24 then 0 else x.hbud.toNat
  | 5 => if v = 24 then 0 else x.sbud.toNat
  | 6 => if v = 24 then 0 else x.bwait.toNat
  | _ => 0

/-- Word j of launch-table entry e (Table 3.5). -/
def State.ltWord (s : State) (e : Fin 256) (j : Nat) : Nat :=
  let x := s.hub.lt[e]
  match j with
  | 0 => b2n x.v * 2 ^ 63 + x.rule.toNat * 2 ^ 61 + s.entryErr e * 2 ^ 48 + x.offs.toNat
  | 1 => x.desc.toNat * 128
  | 2 => x.miss.toNat * 65536 + x.ovrn.toNat
  | _ => s.entryState e * 65536 + x.lid.toNat

/-- The trap registers at the place that SRC names, when it names one (Table 8.5). -/
def Row.atSrc (r : Row) (f : TrapRegs → Word) : Word :=
  if h : r.trap.src.toNat < 9 then f (r.trapAt ⟨r.trap.src.toNat, h⟩) else 0

/-- Word j of a row's trap registers (Table 8.5). -/
def State.rowTrapWord (s : State) (m : RowId) (j : Nat) : Nat :=
  let r := s.row m
  let t := r.rtrap
  match j with
  | 0 => t.secsrc.toNat * 2 ^ 32 + t.secc.toNat * 2 ^ 24 + r.trap.src.toNat * 2 ^ 16 + r.trap.rowc.toNat * 256 + s.stateCode m
  | 1 => t.seca.toNat
  | 2 => t.seci.toNat
  | 3 => (r.atSrc (·.xaddr)).toNat
  | 4 => (r.atSrc (·.xinfo)).toNat
  | _ => 0

/-- TRCTL, TRIDX, TRLOST (Table 9.5). -/
def TraceUnit.word (t : TraceUnit) (j : Nat) : Nat :=
  match j with
  | 0 => b2n t.en * 2 ^ 63 + b2n t.wrap * 2 ^ 62 + t.log2n * 2 ^ 40 + t.base
  | 1 => t.idx % 2 ^ 32
  | 2 => t.lost.toNat
  | _ => 0

/-- The checkpoint registers by word (Table 9.8). -/
def State.ckWord (s : State) (j : Nat) : Nat :=
  let k := s.hub.ck
  match j with
  | 0 => b2n k.en * 2 ^ 63 + b2n k.logen * 2 ^ 62 + k.fulln.toNat * 2 ^ 42 + k.per.toNat * 2 ^ 32 + k.rows.toNat
  | 1 => k.base * 2 ^ 26
  | 2 => k.size.toNat
  | 3 => k.lo * 65536
  | 4 => k.hi * 65536
  | 5 => k.epoch.toNat * 2 ^ 32 + k.skip.toNat * 65536 + k.status.toNat * 256 + b2n k.fullc * 2 + b2n (k.open_ || s.restoring)
  | 7 => k.rlog.toNat * 128
  | _ => 0

/-- The launch registers 0x5000–0x5028 by word, as an application core reads them (Table 3.3). A suspended launch that is being aborted
shows its rows as held (DESIGN CHOICE, log entry 67). -/
def State.launchWord (s : State) (ac : Fin 24) (j : Nat) : Nat :=
  let n (p : Nat) : Nat := min 255 (s.pendings.filter fun l => decide (l.prio = p)).length
  match j with
  | 1 => (s.hub.lsubst[ac]).toNat
  | 3 => n 3 * 2 ^ 24 + n 2 * 2 ^ 16 + n 1 * 256 + n 0
  | 4 =>
    let susp := s.launches.foldl (fun acc l => if l.st = .suspended then acc ||| l.rows else acc) (0 : BitVec 24)
    let held := s.launches.foldl (fun acc l => if l.st = .suspended ∨ l.st = .pending then acc else acc ||| l.rows) (0 : BitVec 24)
    susp.toNat * 2 ^ 24 + held.toNat
  | 5 => s.hub.lsterr.toNat
  | _ => 0

/-- The timebase registers by word (Table 1.5). -/
def State.tbWord (s : State) (j : Nat) : Nat :=
  match j with
  | 0 => s.tb.toNat
  | 1 => (BitVec.ofInt 24 (s.hub.servo.rateNext.getD s.hub.servo.rate)).toNat
  | 4 => s.hub.servo.stat
  | _ => 0

/-- EDGEST (Table 1.2). -/
def Edge.word (e : Edge) : Nat :=
  e.retrn.toNat * 2 ^ 48 + e.crcrt.toNat * 2 ^ 32 + e.modup.toNat * 65536 + e.state * 4 + b2n e.wasdn * 2

/-- PLIM, PCTL, PSTAT (Table 10.2). -/
def PowerCtl.word (w : PowerCtl) (j : Nat) : Nat :=
  match j with
  | 0 => w.pmax.toNat * 2 ^ 32 + w.psus.toNat * 65536 + w.brake.toNat
  | 1 => w.vfloor.toNat * 65536 + w.hyst.toNat * 256
  | 2 => w.pnow.toNat * 2 ^ 48 + w.exc * 65536 + w.bscale * 256 + b2n w.ovr * 4 + b2n w.cut * 2 + b2n w.brk
  | _ => 0

/-- The registers of the low hub space, 0x0000 to 0x4FFF. -/
def State.readLow (s : State) (o : Nat) : Nat :=
  let h := s.hub
  if o = 0 then 0x7240 + 2 ^ 32
  else if o = 0x1000 then
    (finsN 6).foldl (fun acc i => acc + b2n (s.modeBusy i) * 2 ^ (16 + i.val)) h.hmode.toNat
  else if 0x1100 ≤ o ∧ o < 0x1280 then
    let q := h.ha[Fin.ofNat 6 ((o - 0x1100) / 64)]
    match (o - 0x1100) % 64 with
    | 0 => q.qb.toNat
    | 8 => q.qh.toNat
    | 16 => q.qt.toNat
    | _ => 0
  else if o = 0x2000 then
    b2n h.wdog.en * 2 ^ 63 + b2n h.wdog.boot * 2 ^ 61 + h.wdog.stage.toNat * 2 ^ 56 + h.wdog.tmo.toNat
  else if o = 0x3000 then h.evq.b.toNat
  else if o = 0x3008 then h.evq.n
  else if o = 0x3010 then h.evq.hd.toNat
  else if o = 0x3018 then h.evq.tl.toNat
  else if o = 0x3020 then h.evq.lost.toNat
  else if o = 0x3028 then h.evq.identity.toNat * 65536 + h.evq.target.toNat
  else if o = 0x4000 then h.nodeId.toNat
  else 0

/-- The 8-byte register at a hub offset as an application core reads it; an offset that names none reads zero (R43). -/
def State.readHub (s : State) (ac : Fin 24) (o : Nat) : Nat :=
  let h := s.hub
  if o < 0x5000 then s.readLow o
  else if o < 0x6000 then s.launchWord ac ((o - 0x5000) / 8)
  else if o = 0x6000 then b2n h.ltEn * 2 ^ 63
  else if o = 0x6008 then h.ltFrame.toNat
  else if o = 0x6010 then h.ltEpoch.toNat
  else if o = 0x7000 then h.atBase.toNat * 2 ^ 26
  else if o = 0x7008 then h.atSize.toNat
  else if o = 0x7010 then h.atHit.toNat
  else if o = 0x7018 then h.atMiss.toNat
  else if o = 0x8008 then h.tlbiva.toNat * 65536
  else if 0x9000 ≤ o ∧ o < 0x9600 then s.rowTrapWord (Fin.ofNat 24 ((o - 0x9000) / 64)) ((o - 0x9000) % 64 / 8)
  else if o = 0xA008 then b2n h.walk.isSome * 2 ^ 63 + h.swStatus.code
  else if o = 0xA010 then h.swArg.toNat
  else if o = 0xA028 then h.scana.toNat ||| (b2n s.scanRead.isNone * 2 ^ 51)
  else if o = 0xA030 then s.scanRead.getD 0
  else if 0xB000 ≤ o ∧ o < 0xB040 then s.ckWord ((o - 0xB000) / 8)
  else if 0xC000 ≤ o ∧ o < 0xD800 then
    let i := (o - 0xC000) / 32
    (s.core (Fin.ofNat 24 (i / 8)) (Fin.ofNat 8 i)).trace.word ((o - 0xC000) % 32 / 8)
  else if o = 0xE000 then b2n h.rrootEn * 2 ^ 63 + h.rroot.toNat * 65536
  else if o = 0xE008 then h.cgive.toNat
  else if 0xF000 ≤ o ∧ o < 0xF028 then s.tbWord ((o - 0xF000) / 8)
  else if 0xF100 ≤ o ∧ o < 0xF150 then
    let t := h.thermal[Fin.ofNat 5 ((o - 0xF100) / 16)]
    if o % 16 = 0 then t.peak.toNat * 65536 + t.now.toNat else 115 * 65536 + t.crit.toNat * 256 + t.warn.toNat
  else if 0x10000 ≤ o ∧ o < 0x12000 then s.ltWord (Fin.ofNat 256 ((o - 0x10000) / 32)) ((o - 0x10000) % 32 / 8)
  else if 0x20000 ≤ o ∧ o < 0x20640 then
    (h.supply[Fin.ofNat 25 ((o - 0x20000) / 64)]).word ((o - 0x20000) / 64) ((o - 0x20000) % 64 / 8)
  else if 0x20800 ≤ o ∧ o < 0x20840 then
    let x := h.fxrep[Fin.ofNat 8 ((o - 0x20800) / 8)]
    x.2.toNat * 2 ^ 32 + x.1.toNat
  else if 0x21000 ≤ o ∧ o < 0x21018 then h.power.word ((o - 0x21000) / 8)
  else if 0x1000000 ≤ o ∧ o < 0x1000200 ∧ o % 64 = 0 then (h.edges[Fin.ofNat 8 ((o - 0x1000000) / 64)]).word
  else 0

/-! ### Writing the registers without behaviour of their own -/

/-- Thresholds clamped (R65). -/
def Thermal.setThr (t : Thermal) (v : Word) : Thermal :=
  let warn := clampN 70 105 (wbits v 7 0)
  { t with warn := BitVec.ofNat 8 warn, crit := BitVec.ofNat 8 (max warn (clampN 90 110 (wbits v 15 8))) }

/-- CKCTL's fields: enabling begins a period. -/
def Ckpt.setCtl (k : Ckpt) (v tb : Word) : Ckpt :=
  { k with en := v.getLsbD 63, logen := v.getLsbD 62, fulln := BitVec.ofNat 8 (wbits v 49 42)
           per := BitVec.ofNat 10 (clampN 10 1000 (wbits v 41 32)), rows := v.setWidth 24
           lastAt := if v.getLsbD 63 && !k.en then tb.toNat else k.lastAt }

/-- The checkpoint registers (Table 9.8). -/
def Ckpt.write (k : Ckpt) (j : Nat) (v tb : Word) : Ckpt :=
  match j with
  | 0 => k.setCtl v tb
  | 1 => { k with base := wbits v 39 26 }
  | 2 => { k with size := v.setWidth 12 }
  | 3 => { k with lo := wbits v 39 16 }
  | 4 => { k with hi := wbits v 39 16 }
  | 5 => { k with skip := w1c k.skip (wbits v 31 16) }
  | 7 => { k with rlog := BitVec.ofNat 33 (wbits v 39 7) }
  | _ => k

/-- The writable words of a supply region but VSET (Table 10.1); for the hub's own region only PEAK. -/
def Supply.write (x : Supply) (v j : Nat) (w : Word) : Supply :=
  if j = 2 then { x with peak := 0 }
  else if v = 24 then x
  else match j with
  | 3 => { x with ilim := w.setWidth 10 }
  | 4 => { x with hbud := w.setWidth 24 }
  | 5 => { x with sbud := w.setWidth 24 }
  | 6 => { x with bwait := w1c x.bwait (wbits w 31 0) }
  | _ => x

/-- PLIM, PCTL, PSTAT (Table 10.2, R273). -/
def PowerCtl.write (p : PowerCtl) (j : Nat) (v : Word) : PowerCtl :=
  match j with
  | 0 => p.setPlim v
  | 1 => { p with vfloor := BitVec.ofNat 10 (clampMv (wbits v 25 16)), hyst := BitVec.ofNat 8 (wbits v 15 8) }
  | 2 => { p with ovr := p.ovr && !v.getLsbD 2 }
  | _ => p

/-- EDGEST (Table 1.2). -/
def Edge.write (e : Edge) (v : Word) : Edge :=
  { e with retrn := w1c e.retrn (wbits v 55 48), crcrt := w1c e.crcrt (wbits v 47 32), wasdn := e.wasdn && !v.getLsbD 1 }

/-- The request rings' registers (Table 2.2); a tail that moves lets waiting requests in. -/
def State.writeHa (s : State) (o : Nat) (v : Word) : State :=
  let i : Fin 6 := Fin.ofNat 6 ((o - 0x1100) / 64)
  match (o - 0x1100) % 64 with
  | 0 => s.modHa i fun q => { q with qb := v &&& ~~~ 0xFFF }
  | 16 =>
    let s := s.modHa i fun q => { q with qt := v }
    s.haDrain i (s.hub.ha[i]).waiting.length
  | _ => s

/-- The event ring's registers (Table 2.2, R49). -/
def EventRing.write (q : EventRing) (j : Nat) (v : Word) : EventRing :=
  match j with
  | 0 => { q with b := v &&& ~~~ 0xFFF, isSet := true }
  | 1 => { q with n := clampN 6 15 (wbits v 3 0) }
  | 3 => { q with tl := v }
  | 4 => { q with lost := w1c q.lost v.toNat }
  | 5 => { q with target := v.setWidth 5, identity := BitVec.ofNat 11 (wbits v 26 16) }
  | _ => q

/-- The launch-table and attic registers (Table 3.3). A new ATBASE, or a smaller ATSIZE, leaves no entry that it does not cover
(DESIGN CHOICE, log entry 55). -/
def Hub.writeLaunch (h : Hub) (o : Nat) (v tb : Word) : Hub :=
  let from_ := if h.ltEn then tb.toNat + 1 else h.ltFrom
  if o = 0x5028 then { h with lsterr := w1c h.lsterr (wbits v 15 0) }
  else if o = 0x6008 then { h.noteBegun tb.toNat with ltFrame := BitVec.ofNat 40 (clampN 16000 16000000000 (wbits v 39 0)), ltFrom := from_ }
  else if o = 0x6010 then { h.noteBegun tb.toNat with ltEpoch := v, ltFrom := from_ }
  else if o = 0x7000 then { h with atBase := BitVec.ofNat 14 (wbits v 39 26), attic := [] }
  else if o = 0x7008 then
    let n := min 64 (wbits v 6 0)
    { h with atSize := BitVec.ofNat 7 n, attic := h.attic.filter fun a => decide (a.granule < n * 1024) }
  else if o = 0x7010 then { h with atHit := w1c h.atHit v.toNat }
  else if o = 0x7018 then { h with atMiss := w1c h.atMiss v.toNat }
  else h

/-- A hub register without behaviour of its own is written (R11, R22, R43); a read-only or unnamed one ignores it. -/
def State.writePlain (s : State) (o : Nat) (v : Word) : State :=
  if 0x1100 ≤ o ∧ o < 0x1280 then s.writeHa o v
  else if 0x1400 ≤ o ∧ o < 0x1580 ∧ (o - 0x1400) % 64 ≠ 0x38 then
    s.modHa (Fin.ofNat 6 ((o - 0x1400) / 64)) fun q => { q with rsp := vmod q.rsp (Fin.ofNat 8 ((o - 0x1400) / 8)) fun _ => v }
  else if 0x3000 ≤ o ∧ o < 0x3030 then s.modHub fun h => { h with evq := h.evq.write ((o - 0x3000) / 8) v }
  else if 0x5000 ≤ o ∧ o < 0x8000 then s.modHub fun h => h.writeLaunch o v s.tb
  else if o = 0x8008 then s.modHub fun h => { h with tlbiva := BitVec.ofNat 36 (wbits v 51 16) }
  else if o = 0xA010 then s.modHub fun h => { h with swArg := v.setWidth 32 &&& 0xFFFFFF01 }
  else if o = 0xA028 then s.modHub fun h => { h with scana := v &&& 0xFFF00000FFFFFFFF }
  else if 0xB000 ≤ o ∧ o < 0xB040 then s.modHub fun h => { h with ck := h.ck.write ((o - 0xB000) / 8) v s.tb }
  else if 0xC000 ≤ o ∧ o < 0xD800 ∧ o % 32 = 16 then
    let i := (o - 0xC000) / 32
    s.modCore (Fin.ofNat 24 (i / 8)) (Fin.ofNat 8 i) fun k =>
      { k with trace := { k.trace with lost := w1c k.trace.lost (wbits v 31 0) } }
  else if o = 0xE000 then s.modHub fun h => { h with rrootEn := v.getLsbD 63, rroot := BitVec.ofNat 24 (wbits v 39 16) }
  else if 0xF100 ≤ o ∧ o < 0xF150 then
    s.modHub fun h => { h with thermal := vmod h.thermal (Fin.ofNat 5 ((o - 0xF100) / 16)) fun t =>
      if o % 16 = 0 then { t with peak := 0 } else t.setThr v }
  else if 0x20000 ≤ o ∧ o < 0x20640 then
    let i := (o - 0x20000) / 64
    s.modSupply (Fin.ofNat 25 i) fun x => x.write i ((o - 0x20000) % 64 / 8) v
  else if 0x20800 ≤ o ∧ o < 0x20840 then
    s.modHub fun h => { h with fxrep := vmod h.fxrep (Fin.ofNat 8 ((o - 0x20800) / 8)) fun x => (x.1, 0) }
  else if 0x21000 ≤ o ∧ o < 0x21018 then s.modHub fun h => { h with power := h.power.write ((o - 0x21000) / 8) v }
  else if 0x1000000 ≤ o ∧ o < 0x1000200 ∧ o % 64 = 0 then
    s.modEdge (Fin.ofNat 8 ((o - 0x1000000) / 64)) fun e => e.write v
  else s
/-- REGISTER_WRITE: an offset that is not a multiple of 8 names no register. -/
def execRegisterWrite (off : BitVec 32) (v : Word) (s : State) : Out :=
  .next (if off.toNat % 8 = 0 then s.writePlain off.toNat v else s)

/-- Any hub register is written by an application core. -/
def State.writeHub (s : State) (ac : Fin 24) (o : Nat) (v : Word) : State :=
  if o = 0x1000 then s.setHmode v
  else if 0x1400 ≤ o ∧ o < 0x1580 ∧ (o - 0x1400) % 64 = 0x38 then s.commit (Fin.ofNat 6 ((o - 0x1400) / 64)) v
  else if o = 0x2000 then s.setWdog v
  else if o = 0x2008 then s.kick
  else if o = 0x4000 then s.setNode v
  else if o = 0x5000 then s.lsubmit ac v
  else if o = 0x5010 then s.abort (v.setWidth 16)
  else if o = 0x6000 then s.setLtctl v
  else if o = 0x7020 then s.flushAttic
  else if o = 0x8000 then s.tlbInv v
  else if o = 0xA000 then s.stallWalk (wbits v 39 7 * 128)
  else if o = 0xB030 then s.setCkrest v
  else if 0xC000 ≤ o ∧ o < 0xD800 ∧ o % 32 = 0 then
    s.setTrctl (Fin.ofNat 24 ((o - 0xC000) / 256)) (Fin.ofNat 8 ((o - 0xC000) / 32)) v
  else if o = 0xE008 then s.setCgive v
  else if o = 0xF008 then s.setTbrate v
  else if o = 0xF010 then s.setTbslew v
  else if o = 0xF018 then s.setTbstep v
  else if 0x10000 ≤ o ∧ o < 0x12000 then
    s.setLtent (Fin.ofNat 256 ((o - 0x10000) / 32)) (Fin.ofNat 4 ((o - 0x10000) % 32 / 8)) v
  else if 0x20000 ≤ o ∧ o < 0x20640 ∧ o % 64 = 0 then s.setVset (Fin.ofNat 25 ((o - 0x20000) / 64)) v
  else s.writePlain o v

/-! ### Accesses of the application cores (R43–R47) -/

/-- Change what an application core sees. -/
def State.modApp (s : State) (ac : Fin 24) (f : AppCore → AppCore) : State := { s with apps := vmod s.apps ac f }
/-- What an application core's load or AMO brought it. -/
def State.appResult (s : State) (ac : Fin 24) (v : Word) : State := s.modApp ac fun a => { a with result := v }
/-- A precise access fault. -/
def State.appFault (s : State) (a : CcAccess) : State := s.modApp a.ac fun x => { x with fault := some (.access a.addr) }
/-- A misaligned-access fault (R44). -/
def State.appMisaligned (s : State) (a : CcAccess) : State :=
  s.modApp a.ac fun x => { x with fault := some (.misaligned a.addr) }

/-- The access has a size of 1, 2, 4 or 8 bytes. -/
def sizedAccess (a : CcAccess) : Bool := decide (a.size = 1 ∨ a.size = 2 ∨ a.size = 4 ∨ a.size = 8)

/-- The combination of an AMO (PRESUMED of RISC-V, log entry 51). -/
def amoOf : CcKind → Option AmoKind
  | .amoadd => some .add
  | .amoand => some .and
  | .amoor => some .or
  | .amoxor => some .xor
  | .amomin => some .min
  | .amomax => some .max
  | .amominu => some .minu
  | .amomaxu => some .maxu
  | .amoswap => some .swap
  | .load | .store | .lr | .sc => none
/-- An AMO, LR or SC (R46). -/
def atomicAccess (a : CcAccess) : Bool := decide (a.kind ≠ .load ∧ a.kind ≠ .store)

/-- The agent that an application core is at a home (R265). -/
def appAgent (ac : Fin 24) : Agent := { m := ac, unit := .app, lid := 0 }
/-- The line of an address. -/
def State.lineBytes (s : State) (pa : Nat) : List Byte := s.mem.read (pa / 128 * 128) 128

/-- An AMO, LR or SC on device HBM, one event at its home (R45, R46, R265): a load-reserved keeps its line, and a
store-conditional stores while the line still reads as it did (PRESUMED, log entry 51). -/
def State.hbmAtomic (s : State) (a : CcAccess) : State × Bool :=
  let n := a.size
  if n < 4 ∨ a.addr % n ≠ 0 then (s.appMisaligned a, true)
  else if s.mem.poisoned a.addr n then (s.appFault a, true)
  else if a.kind ≠ .lr ∧ !s.atomicTurn a.addr (appAgent a.ac) then (s, false)
  else
    let old := s.mem.num a.addr n
    let v := a.value.toNat % 256 ^ n
    match a.kind with
    | .lr => ((s.appResult a.ac (sxBytes n old)).modApp a.ac fun x =>
        { x with resv := some (a.addr / 128, s.lineBytes a.addr) }, true)
    | .sc =>
      let holds := decide ((s.apps[a.ac]).resv = some (a.addr / 128, s.lineBytes a.addr))
      let s := s.modApp a.ac fun x => { x with resv := none }
      if holds then
        (((s.withMem (s.mem.put a.addr n v)).atomicAt a.addr (appAgent a.ac)).appResult a.ac 0, true)
      else (s.appResult a.ac 1, true)
    | _ => match amoOf a.kind with
      | none => (s, true)
      | some k => (((s.withMem (s.mem.put a.addr n (k.new n old v))).atomicAt a.addr (appAgent a.ac)).appResult a.ac
          (sxBytes n old), true)

/-- An access to device HBM (R45, Table 1.3): whether it was performed, or waits for its turn in a replay (R266). -/
def State.hbmAccess (s : State) (a : CcAccess) : State × Bool :=
  let n := a.size
  if !sizedAccess a || decide (hbmEnd < a.addr + n) then (s.appFault a, true)
  else match a.kind with
  | .load => (if s.mem.poisoned a.addr n then s.appFault a else s.appResult a.ac (toWord (s.mem.num a.addr n)), true)
  | .store => (s.withMem (s.mem.put a.addr n (a.value.toNat % 256 ^ n)), true)
  | _ => s.hbmAtomic a

/-- An access to the scratchpad aperture (R44, R46): whether it was performed, or waits for its bank. -/
def State.spadAperture (s : State) (a : CcAccess) : State × Bool :=
  let pa := a.addr
  match if spadBase ≤ pa ∧ pa < spadBase + 2 ^ 32 then sliceOf (pa - spadBase) else none with
  | none => (s.appFault a, true)
  | some _ =>
    if atomicAccess a || !sizedAccess a then (s.appFault a, true)
    else if pa % a.size ≠ 0 then (s.appMisaligned a, true)
    else match s.spadReady pa (decide (a.kind = .store)) with
    | (s, false) => (s, false)
    | (s, true) =>
      if a.kind = .store then (s.withMem (s.mem.write pa (bytesOf a.size (a.value.toNat % 256 ^ a.size))), true)
      else if s.mem.dead pa a.size || s.mem.poisoned pa a.size then (s.appFault a, true)
      else (s.appResult a.ac (toWord (s.mem.num pa a.size)), true)

/-- The base of the cell register aperture (Table 2.1). -/
def cellApBase : Nat := 0xB100000000

/-- An access to the cell register aperture (R47). -/
def State.cellAperture (s : State) (a : CcAccess) : State × Bool :=
  (match if cellApBase ≤ a.addr ∧ a.addr < cellApBase + 2 ^ 32 then sliceOf (a.addr - cellApBase) else none with
  | none => s.appFault a
  | some sl =>
    if atomicAccess a || decide (a.size ≠ 8) || !regListed sl.mi (sl.off / 8 * 8) then s.appFault a
    else if a.addr % 8 ≠ 0 then s.appMisaligned a
    else if a.kind = .store then s.writeCell sl a.value.toNat
    else s.appResult a.ac (toWord (s.readCell sl)), true)

/-- The base of the hub registers (Table 2.1). -/
def hubBase : Nat := 0xA000000000

/-- An access to the hub registers (R43, R46). -/
def State.hubAccess (s : State) (a : CcAccess) : State × Bool :=
  let o := a.addr - hubBase
  (if atomicAccess a || decide (a.size ≠ 8) then s.appFault a
  else if a.addr % 8 ≠ 0 then s.appFault a
  else if a.kind = .store then s.writeHub a.ac o a.value
  else s.appResult a.ac (toWord (s.readHub a.ac o)), true)

/-- An access by the map of Table 2.1; an address outside its ranges faults. -/
def State.ccAccess (s : State) (a : CcAccess) : State × Bool :=
  if a.addr < hbmEnd then s.hbmAccess a
  else if hubBase ≤ a.addr ∧ a.addr < hubBase + 2 ^ 32 then s.hubAccess a
  else if spadBase ≤ a.addr ∧ a.addr < spadBase + 2 ^ 32 then s.spadAperture a
  else if cellApBase ≤ a.addr ∧ a.addr < cellApBase + 2 ^ 32 then s.cellAperture a
  else (s.appFault a, true)

/-- An access is performed at once, or waits behind the earlier ones of its core: none passes an access to its own location, to the I/O
regions, or one that a fence or a release orders before it (R44, R46, R210, R211, R218). -/
def State.appAccess (s : State) (a : CcAccess) (perform : State → CcAccess → State × Bool) : State :=
  let wait (s : State) : State := s.modApp a.ac fun x => { x with io := x.io ++ [a] }
  if (s.apps[a.ac]).io ≠ [] then wait s
  else match perform s a with
  | (s, true) => s
  | (s, false) => wait s

/-- Waiting accesses of an application core are performed in order, as far as they go. -/
def State.drainApp (s : State) (ac : Fin 24) : Nat → State
  | 0 => s
  | n + 1 => match (s.apps[ac]).io with
    | [] => s
    | a :: _ => match s.ccAccess a with
      | (s, false) => s
      | (s, true) => (s.modApp ac fun x => { x with io := x.io.tail }).drainApp ac n

/-- SCRATCHPAD_APERTURE_ACCESS: an address outside the aperture is none of its accesses. -/
def execScratchpadApertureAccess (a : CcAccess) (s : State) : Out := .next (s.appAccess a State.spadAperture)
/-- CELL_REGISTER_APERTURE_ACCESS. -/
def execCellRegisterApertureAccess (a : CcAccess) (s : State) : Out := .next (s.appAccess a State.cellAperture)
/-- LSUBMIT_WRITE: the write waits behind the core's earlier accesses (R46). -/
def execLsubmitWrite (ac : Fin 24) (v : Word) (s : State) : Out :=
  .next (s.appAccess { ac := ac, addr := hubBase + 0x5000, size := 8, kind := .store, value := v } State.hubAccess)
/-- CONTROL_COMPLEX_ACCESS. -/
def execControlComplexAccess (a : CcAccess) (s : State) : Out := .next (s.appAccess a State.ccAccess)

end Sys2Proof.Machine
end

