-- ==== Sys2Proof/Machine/System.lean ====
section
/-! DEFINITION. System words, traps by word, system registers, the schedule cursor, register banks and drops (R89, R101,
R116–R119, R238, R239, R370–R374). -/

namespace Sys2Proof.Machine

/-! ### NOP, HALT, ERET, TBR, TRAP and BRK -/

/-- NOP (R372). -/
def execNop (f : FmtA) (s : State) : Out := .next (s.runWord { q := f.q, reads := [] } fun s _ => .done s none)

/-- HALT: the row fetch unit forwards it and stops fetching, every core halts, muted or not, and the row finishes once core 7
has executed it (R76, R101, R113, R372). -/
def execHalt (_f : FmtA) (s : State) : Out :=
  let m := s.cur.m
  .next (match coreOfPlace s.cur.p with
    | none =>
      if !(s.row m).canForward s.cur.word.handler then s else s.forward.modRow m fun r => { r with halted := true }
    | some c =>
      s.runCore c { q := false, reads := [], always := true } fun s _ =>
        let s := s.modCore m c fun k => { k with halted := true }
        .done (if c.val = 7 then s.modRow m fun r => { r with phase := .finished } else s) none)

/-- ERET: in handler mode every core passes it on, and once core 7 has issued it the row returns to its program (R238); outside
handler mode it is a uniform ILLOP (Table 8.1). -/
def execEret (_f : FmtA) (s : State) : Out :=
  let m := s.cur.m
  let inHandler := decide ((s.row m).phase = .handler)
  .next (match coreOfPlace s.cur.p with
    | none =>
      if !(s.row m).canForward s.cur.word.handler then s
      else if inHandler then s.forward.modRow m fun r => { r with stopped := true }
      else s.forward
    | some c =>
      if inHandler then
        let s' := s.runCore c { q := false, reads := [], always := true } fun s _ => .done s none
        if c.val = 7 then s'.leaveHandler m else s'
      else s.runCore c { q := false, reads := [] } fun s _ => .trap s .uniform .illop 0 s.wordInfo)

/-- TBR: the timebase, every earlier access of the place having been performed as it issued (R372). -/
def execTbr (f : FmtA) (s : State) : Out :=
  .next (s.runWord { q := f.q, reads := [], dest := some f.d } fun s _ => .done s (some s.tb))

/-- TRAP and BRK (R373). -/
def State.trapWord (s : State) (f : FmtI) (c : Cause) : State :=
  s.runWord { q := f.q, reads := [] } fun s _ => .trap s .issued c 0 (f.i.setWidth 64)

/-- TRAP (R373). -/
def execTrapW (f : FmtI) (s : State) : Out := .next (s.trapWord f .soft)
/-- BRK (R373). -/
def execBrk (f : FmtI) (s : State) : Out := .next (s.trapWord f .brkpt)

/-! ### System registers (Table 4.4) -/

/-- %pdep (Table 4.4). -/
def Core.pdep (k : Core) : Word := toWord (16 * b2n k.active + k.stack.length)
/-- %estE (Table 4.9). -/
def Est.word (e : Est) : Word := toWord (e.count.toNat * 256 + e.first.toNat)

/-- The trap registers as numbers 0x020 to 0x024 read (R231). -/
def TrapRegs.csr (t : TrapRegs) : Nat → Option Word
  | 0x20 => some t.xcause
  | 0x21 => some (t.xord.setWidth 64)
  | 0x22 => some t.xaddr
  | 0x23 => some t.xinfo
  | 0x24 => some t.xhold
  | _ => none

/-- What a system register number reads at the current place; none where Table 4.4 does not list it or the place has none. -/
def State.csr (s : State) (n : Nat) : Option Word :=
  let m := s.cur.m
  let core (f : Core → Word) : Option Word := (coreOfPlace s.cur.p).map fun c => f (s.core m c)
  match n with
  | 0x00 => some (toWord (dieOf m))
  | 0x01 => some (toWord (rowInDie m))
  | 0x02 => some (toWord s.cur.p.val)
  | 0x03 => some (toWord m.val)
  | 0x10 => some (s.cur.word.ord.setWidth 64)
  | 0x30 => some s.tb
  | 0x40 => some ((s.row m).trapAt s.cur.p).hbase
  | 0x41 => core fun k => k.kidle.setWidth 64
  | 0x50 => core Core.bstat
  | 0x51 => core Core.pdep
  | 0x52 => core fun k => k.epost
  | 0x60 => core fun k => k.est[0].word
  | 0x61 => core fun k => k.est[1].word
  | 0x62 => core fun k => k.est[2].word
  | 0x63 => core fun k => k.est[3].word
  | n => ((s.row m).trapAt s.cur.p).csr n

/-- The registers that CSRW may write (Table 4.4). -/
def csrWritable (n : Nat) : Bool := decide ((0x20 ≤ n ∧ n ≤ 0x24) ∨ n = 0x40 ∨ n = 0x41 ∨ (0x60 ≤ n ∧ n ≤ 0x63))

/-- A write of a trap register of a place, field by field; the row fetch unit ignores writes of its own %xord (R231, R374). -/
def TrapRegs.writeCsr (t : TrapRegs) (rfu : Bool) (n : Nat) (v : Word) : TrapRegs :=
  match n with
  | 0x20 => { t with cause := v.setWidth 8 }
  | 0x21 => if rfu then t else { t with xord := v.setWidth 48 }
  | 0x22 => { t with xaddr := v }
  | 0x23 => { t with xinfo := v }
  | 0x24 => { t with xhold := v, xholdLive := true }
  | 0x40 => { t with hbase := v }
  | _ => t

/-- A write of a system register at the current place (R374). -/
def State.writeCsr (s : State) (n : Nat) (v : Word) : State :=
  let m := s.cur.m
  let s := s.modRow m fun r => r.modTrap s.cur.p fun t => t.writeCsr (s.cur.p == rfuPlace) n v
  match coreOfPlace s.cur.p with
  | none => s
  | some c =>
    s.modCore m c fun k =>
      if n = 0x41 then { k with kidle := v.setWidth 24 }
      else if 0x60 ≤ n ∧ n ≤ 0x63 then { k with est := k.est.set (Fin.ofNat 4 (n - 0x60)) ⟨0, 0⟩ }
      else k

/-- A CSRR of %xcause at the place named by SRC closes the handler window (R239, R374). -/
def State.closeWindow (s : State) (n : Nat) : State :=
  let m := s.cur.m
  if n = 0x20 ∧ (s.row m).phase = .handler ∧ ((s.row m).trapAt s.cur.p).src.toNat = s.cur.p.val then
    s.modRow m fun r => allPlaces.foldl (fun acc q => acc.modTrap q fun t => { t with winOpen := false }) r
  else s

/-- CSRR (R374). The value read still shows the window open (DEDUCED, log entry 18). -/
def execCsrr (f : FmtCsr) (s : State) : Out :=
  .next (s.runWord { q := f.q, reads := [], dest := some f.d, illop := (s.csr f.n.toNat).isNone } fun s _ =>
    .done (s.closeWindow f.n.toNat) (s.csr f.n.toNat))

/-- CSRW (R374): a read-only register or one that is absent here is ILLOP (R116). -/
def execCsrw (f : FmtCsr) (s : State) : Out :=
  .next (s.runWord { q := f.q, reads := [f.a], drops := dropIf f.x f.a
                     illop := (s.csr f.n.toNat).isNone || !csrWritable f.n.toNat } fun s x =>
    .done (s.writeCsr f.n.toNat (x f.a)) none)

/-! ### Schedule, banks and drops -/

/-- TNEXT (R89). -/
def execTnext (f : FmtA0) (s : State) : Out :=
  .next (s.runWord { q := false, reads := [], dest := some f.d } fun s _ =>
    match coreOfPlace s.cur.p, s.launch s.agentHere.lid with
    | some c, some l =>
      let cur := (s.core s.cur.m c).cursor
      let base := l.sched + toWord (0x8000 * (8 * s.cur.m.val + c.val))
      if cur < l.ntile then
        .done (s.modCore s.cur.m c fun k => { k with cursor := cur + 1 }) (some (base + toWord (32 * cur)))
      else .done s (some 0)
    | _, _ => .done s (some 0))

/-- The registers of a bank. -/
def bankRegs (b : Fin 4) : List (BitVec 5) := (List.range 8).map fun i => BitVec.ofNat 5 (8 * b.val + i)

/-- Every register of a bank made dead, s0 aside, and the bank OFF (Table 4.7, R118, R371). -/
def Core.bankOff (k : Core) (b : Fin 4) : Core :=
  { k with live := (bankRegs b).foldl (fun l r => if r = 0 then l else l &&& ~~~ maskBit r) k.live
           banks := vmod k.banks b fun x => { x with st := .off } }

/-- BANK's action on a bank that is not waking (Table 4.7, R371). -/
def Core.setBank (k : Core) (now : Nat) (b : Fin 4) (want : Nat) : Core :=
  match k.banks[b].st, want with
  | .full, 0 | .keep, 0 => k.bankOff b
  | .full, 1 => { k with banks := vmod k.banks b fun x => { x with st := .keep } }
  | .keep, 2 => { k with banks := vmod k.banks b fun x => x.wake now (ns 6) }
  | .off, 2 => { k with banks := vmod k.banks b fun x => x.wake now (ns 24) }
  | _, _ => k

/-- BANK (R371): it waits for pending writes in the bank and for a wake that is under way. -/
def execBank (f : FmtA0) (s : State) : Out :=
  let b : Fin 4 := Fin.ofNat 4 f.a.toNat
  .next (s.runWord { q := false, reads := [], names := bankRegs b } fun s _ =>
    match coreOfPlace s.cur.p with
    | none => .done s none
    | some c =>
      if (s.core s.cur.m c).banks[b].st = .waking then .wait s
      else .done (s.modCore s.cur.m c fun k => k.setBank s.osc b f.b.toNat) none)

/-- DROP: it reads nothing, so a dead register it names stays dead and nothing traps (R370). -/
def execDrop (f : FmtA0) (s : State) : Out :=
  .next (s.runWord { q := false, reads := [], drops := [f.d, f.a, f.b].filter (· ≠ 0) } fun s _ => .done s none)

end Sys2Proof.Machine
end

