-- ==== Sys2Proof/Machine/Vine.lean ====
section
/-! DEFINITION. Row reductions, predication and vine posts (R108–R114, R351–R353). -/

namespace Sys2Proof.Machine

/-- A row reduction (R111, R112): the row fetch unit forwards the word with the identity once no earlier writer of q[d] is
outstanding, and each active core combines its s[a] with what the word has collected. -/
def State.reduce (s : State) (f : FmtA0) (identity : Word) (combine : Word → Word → Word) : State :=
  match coreOfPlace s.cur.p with
  | none =>
    if (s.row s.cur.m).qPending f.d then s
    else State.forward { s with cur := { s.cur with word := { s.cur.word with coll := identity } } }
  | some c =>
    s.runCore c { q := true, reads := [f.a], drops := dropIf f.x f.a } fun s x =>
      .done { s with cur := { s.cur with word := { s.cur.word with coll := combine s.cur.word.coll (x f.a) } } } none

/-- ROWALL (R111). -/
def execRowall (f : FmtA0) (s : State) : Out := .next (s.reduce f 1 fun t v => if t ≠ 0 ∧ v ≠ 0 then 1 else 0)
/-- ROWANY (R111). -/
def execRowany (f : FmtA0) (s : State) : Out := .next (s.reduce f 0 fun t v => if t ≠ 0 ∨ v ≠ 0 then 1 else 0)
/-- ROWSUM (R111). -/
def execRowsum (f : FmtA0) (s : State) : Out := .next (s.reduce f 0 fun t v => t + v)

/-- A predication word at its place: every core executes it. `limit` gives the LIMIT that the stack raises, before any register
is read (R113, R114), and `act` the new active bit and stack. -/
def State.predicate (s : State) (reads drops : List (BitVec 5)) (limit : List PredEntry → Option Word)
    (act : Bool → List PredEntry → (BitVec 5 → Word) → Bool × List PredEntry) : State :=
  match coreOfPlace s.cur.p with
  | none => s.forward
  | some c =>
    let k := s.core s.cur.m c
    let own (rs : List (BitVec 5)) : List (BitVec 5) := if k.active then rs else []
    match limit k.stack with
    | some n => s.runCore c { q := false, reads := [], always := true } fun s _ => .trap s .uniform .limit 0 n
    | none =>
      s.runCore c { q := false, reads := own reads, drops := own drops, always := true } fun s x =>
        let (a, st) := act k.active k.stack x
        .done (s.modCore s.cur.m c fun k => { k with active := a, stack := st }) none

/-- CIF (R113). -/
def execCif (f : FmtA0) (s : State) : Out :=
  .next (s.predicate [f.a] (dropIf f.x f.a) (fun stack => if stack.length = 8 then some 1 else none) fun active stack x =>
    let c := active && decide (x f.a ≠ 0)
    (c, { outer := active, took := c, els := false } :: stack))

/-- CELSE (R113). -/
def execCelse (_f : FmtA0) (s : State) : Out :=
  let limit : List PredEntry → Option Word
    | [] => some 2
    | e :: _ => if e.els then some 3 else none
  .next (s.predicate [] [] limit fun active stack _ =>
    match stack with
    | [] => (active, [])
    | e :: rest => (e.outer && !e.took, { e with els := true } :: rest))

/-- CEND (R113). -/
def execCend (_f : FmtA0) (s : State) : Out :=
  .next (s.predicate [] [] (fun stack => if stack.isEmpty then some 2 else none) fun active stack _ =>
    match stack with
    | [] => (active, [])
    | e :: rest => (e.outer, rest))

/-- POSTE with or without the release mark: at a core the east post, at the row fetch unit its own (R108, R353). -/
def State.post (s : State) (f : FmtA) (rel : Bool) : State :=
  s.runWord { q := f.q, reads := [f.a], drops := dropIf f.x f.a } fun s x =>
    .done (match coreOfPlace s.cur.p with
      | some c => s.modCore s.cur.m c fun k => { k with epost := x f.a, epostRel := rel }
      | none => s.modRow s.cur.m fun r => { r with post := x f.a, postRel := rel }) none

/-- POSTE (R353). -/
def execPoste (f : FmtA) (s : State) : Out := .next (s.post f false)
/-- POSTE.rel (R353). -/
def execPosteRel (f : FmtA) (s : State) : Out := .next (s.post f true)

/-- GETW: the post this word carries, or at the row fetch unit core 7's post once core 7 has issued every vine word below
(R109, R110, R353). -/
def execGetw (f : FmtA) (s : State) : Out :=
  .next (s.runWord { q := f.q, reads := [], dest := some f.d } fun s _ =>
    match coreOfPlace s.cur.p with
    | some _ => .done s (some s.cur.word.post)
    | none =>
      .left (s.modRow s.cur.m fun r =>
        (({ r with getw := r.getw ++ [(f.d, s.cur.word.ord, s.cur.word.handler)] } : Row).advance
          (s.cur.word.addr + 4)).captureGetw))

end Sys2Proof.Machine
end

