-- ==== Sys2Proof/Machine/Dispatch.lean ====
section
/-! DEFINITION. One arm for every row of the opcode table. -/

namespace Sys2Proof.Machine

/-- The meaning of an instruction or event in a state. -/
def exec (i : Instr) (s : State) : Host.Outcome State Fault Refusal :=
  match i with
  | .add f => Sys2Proof.Machine.execAdd f s
  | .sub f => Sys2Proof.Machine.execSub f s
  | .mul f => Sys2Proof.Machine.execMul f s
  | .mulh f => Sys2Proof.Machine.execMulh f s
  | .mulhu f => Sys2Proof.Machine.execMulhu f s
  | .div f => Sys2Proof.Machine.execDiv f s
  | .divu f => Sys2Proof.Machine.execDivu f s
  | .rem f => Sys2Proof.Machine.execRem f s
  | .remu f => Sys2Proof.Machine.execRemu f s
  | .andR f => Sys2Proof.Machine.execAndR f s
  | .orR f => Sys2Proof.Machine.execOrR f s
  | .xorR f => Sys2Proof.Machine.execXorR f s
  | .shl f => Sys2Proof.Machine.execShl f s
  | .shr f => Sys2Proof.Machine.execShr f s
  | .sra f => Sys2Proof.Machine.execSra f s
  | .minR f => Sys2Proof.Machine.execMinR f s
  | .maxR f => Sys2Proof.Machine.execMaxR f s
  | .minu f => Sys2Proof.Machine.execMinu f s
  | .maxu f => Sys2Proof.Machine.execMaxu f s
  | .clz f => Sys2Proof.Machine.execClz f s
  | .popc f => Sys2Proof.Machine.execPopc f s
  | .sel f => Sys2Proof.Machine.execSel f s
  | .slt f => Sys2Proof.Machine.execSlt f s
  | .sltu f => Sys2Proof.Machine.execSltu f s
  | .seq f => Sys2Proof.Machine.execSeq f s
  | .addi f => Sys2Proof.Machine.execAddi f s
  | .andi f => Sys2Proof.Machine.execAndi f s
  | .ori f => Sys2Proof.Machine.execOri f s
  | .xori f => Sys2Proof.Machine.execXori f s
  | .shli f => Sys2Proof.Machine.execShli f s
  | .shri f => Sys2Proof.Machine.execShri f s
  | .srai f => Sys2Proof.Machine.execSrai f s
  | .lui f => Sys2Proof.Machine.execLui f s
  | .lea f => Sys2Proof.Machine.execLea f s
  | .beq f => Sys2Proof.Machine.execBeq f s
  | .bne f => Sys2Proof.Machine.execBne f s
  | .blt f => Sys2Proof.Machine.execBlt f s
  | .bge f => Sys2Proof.Machine.execBge f s
  | .bltu f => Sys2Proof.Machine.execBltu f s
  | .bgeu f => Sys2Proof.Machine.execBgeu f s
  | .jal f => Sys2Proof.Machine.execJal f s
  | .jalr f => Sys2Proof.Machine.execJalr f s
  | .loopW f => Sys2Proof.Machine.execLoopW f s
  | .rowall f => Sys2Proof.Machine.execRowall f s
  | .rowany f => Sys2Proof.Machine.execRowany f s
  | .rowsum f => Sys2Proof.Machine.execRowsum f s
  | .cif f => Sys2Proof.Machine.execCif f s
  | .celse f => Sys2Proof.Machine.execCelse f s
  | .cend f => Sys2Proof.Machine.execCend f s
  | .poste f => Sys2Proof.Machine.execPoste f s
  | .posteRel f => Sys2Proof.Machine.execPosteRel f s
  | .getw f => Sys2Proof.Machine.execGetw f s
  | .ld f => Sys2Proof.Machine.execLd f s
  | .ldu f => Sys2Proof.Machine.execLdu f s
  | .st f => Sys2Proof.Machine.execSt f s
  | .lda f => Sys2Proof.Machine.execLda f s
  | .stl f => Sys2Proof.Machine.execStl f s
  | .fence f => Sys2Proof.Machine.execFence f s
  | .amoadd f => Sys2Proof.Machine.execAmoadd f s
  | .amoand f => Sys2Proof.Machine.execAmoand f s
  | .amoor f => Sys2Proof.Machine.execAmoor f s
  | .amoxor f => Sys2Proof.Machine.execAmoxor f s
  | .amomin f => Sys2Proof.Machine.execAmomin f s
  | .amomax f => Sys2Proof.Machine.execAmomax f s
  | .amominu f => Sys2Proof.Machine.execAmominu f s
  | .amomaxu f => Sys2Proof.Machine.execAmomaxu f s
  | .amoswp f => Sys2Proof.Machine.execAmoswp f s
  | .amocas f => Sys2Proof.Machine.execAmocas f s
  | .hset f => Sys2Proof.Machine.execHset f s
  | .waitf f => Sys2Proof.Machine.execWaitf f s
  | .waite f => Sys2Proof.Machine.execWaite f s
  | .advh f => Sys2Proof.Machine.execAdvh f s
  | .advt f => Sys2Proof.Machine.execAdvt f s
  | .hcnt f => Sys2Proof.Machine.execHcnt f s
  | .cmd f lit => Sys2Proof.Machine.execCmd f lit s
  | .cmdm f => Sys2Proof.Machine.execCmdm f s
  | .waitc f => Sys2Proof.Machine.execWaitc f s
  | .ecnt f => Sys2Proof.Machine.execEcnt f s
  | .rcfg f => Sys2Proof.Machine.execRcfg f s
  | .rstart f => Sys2Proof.Machine.execRstart f s
  | .rswitch f => Sys2Proof.Machine.execRswitch f s
  | .rwait f => Sys2Proof.Machine.execRwait f s
  | .tnext f => Sys2Proof.Machine.execTnext f s
  | .bank f => Sys2Proof.Machine.execBank f s
  | .drop f => Sys2Proof.Machine.execDrop f s
  | .nop f => Sys2Proof.Machine.execNop f s
  | .halt f => Sys2Proof.Machine.execHalt f s
  | .eret f => Sys2Proof.Machine.execEret f s
  | .tbr f => Sys2Proof.Machine.execTbr f s
  | .trapW f => Sys2Proof.Machine.execTrapW f s
  | .brk f => Sys2Proof.Machine.execBrk f s
  | .csrr f => Sys2Proof.Machine.execCsrr f s
  | .csrw f => Sys2Proof.Machine.execCsrw f s
  | .handlerEntry m => Sys2Proof.Machine.execHandlerEntry m s
  | .machineCheck m p k => Sys2Proof.Machine.execMachineCheck m p k s
  | .loadDataReturn m p => Sys2Proof.Machine.execLoadDataReturn m p s
  | .echoReturn m => Sys2Proof.Machine.execEchoReturn m s
  | .registerBankIdle m c b => Sys2Proof.Machine.execRegisterBankIdle m c b s
  | .registerBankWake m c b => Sys2Proof.Machine.execRegisterBankWake m c b s
  | .scratchpadBankIdle m c mi b => Sys2Proof.Machine.execScratchpadBankIdle m c mi b s
  | .scratchpadBankWake m c mi b => Sys2Proof.Machine.execScratchpadBankWake m c mi b s
  | .holdBankIdle r => Sys2Proof.Machine.execHoldBankIdle r s
  | .holdBankWake r => Sys2Proof.Machine.execHoldBankWake r s
  | .operationCompletion m c op => Sys2Proof.Machine.execOperationCompletion m c op s
  | .srd c => Sys2Proof.Machine.execSrd c s
  | .swr c => Sys2Proof.Machine.execSwr c s
  | .scopy c => Sys2Proof.Machine.execScopy c s
  | .sfill c => Sys2Proof.Machine.execSfill c s
  | .pset c => Sys2Proof.Machine.execPset c s
  | .sgather c => Sys2Proof.Machine.execSgather c s
  | .sscatter c => Sys2Proof.Machine.execSscatter c s
  | .sscatop c => Sys2Proof.Machine.execSscatop c s
  | .kvapp c => Sys2Proof.Machine.execKvapp c s
  | .kvappPublish m c op => Sys2Proof.Machine.execKvappPublish m c op s
  | .pick c => Sys2Proof.Machine.execPick c s
  | .gathp c => Sys2Proof.Machine.execGathp c s
  | .mxldw c => Sys2Proof.Machine.execMxldw c s
  | .mxgo c => Sys2Proof.Machine.execMxgo c s
  | .mxdrn c => Sys2Proof.Machine.execMxdrn c s
  | .sput c => Sys2Proof.Machine.execSput c s
  | .sget c => Sys2Proof.Machine.execSget c s
  | .ared c => Sys2Proof.Machine.execAred c s
  | .cjoin c => Sys2Proof.Machine.execCjoin c s
  | .launchCmd c => Sys2Proof.Machine.execLaunchCmd c s
  | .ckpt c => Sys2Proof.Machine.execCkpt c s
  | .markCmd c => Sys2Proof.Machine.execMarkCmd c s
  | .signalCmd c => Sys2Proof.Machine.execSignalCmd c s
  | .barCmd c => Sys2Proof.Machine.execBarCmd c s
  | .ceFiring r => Sys2Proof.Machine.execCeFiring r s
  | .mld r => Sys2Proof.Machine.execMld r s
  | .mst r => Sys2Proof.Machine.execMst r s
  | .mamo r => Sys2Proof.Machine.execMamo r s
  | .sinkElem r => Sys2Proof.Machine.execSinkElem r s
  | .cntr r => Sys2Proof.Machine.execCntr r s
  | .stampElem r => Sys2Proof.Machine.execStampElem r s
  | .orderElem r => Sys2Proof.Machine.execOrderElem r s
  | .ringin r => Sys2Proof.Machine.execRingin r s
  | .ringout r => Sys2Proof.Machine.execRingout r s
  | .placement m c slot => Sys2Proof.Machine.execPlacement m c slot s
  | .regionCompletion m c slot => Sys2Proof.Machine.execRegionCompletion m c slot s
  | .graphRequest prio => Sys2Proof.Machine.execGraphRequest prio s
  | .breakpoint m c j => Sys2Proof.Machine.execBreakpoint m c j s
  | .lsubmitWrite ac v => Sys2Proof.Machine.execLsubmitWrite ac v s
  | .launchStart lid => Sys2Proof.Machine.execLaunchStart lid s
  | .launchCompletion lid => Sys2Proof.Machine.execLaunchCompletion lid s
  | .labortWrite v => Sys2Proof.Machine.execLabortWrite v s
  | .ltctlWrite v => Sys2Proof.Machine.execLtctlWrite v s
  | .ltentWrite e w v => Sys2Proof.Machine.execLtentWrite e w v s
  | .entryFire e => Sys2Proof.Machine.execEntryFire e s
  | .atflushWrite v => Sys2Proof.Machine.execAtflushWrite v s
  | .tlbinvWrite v => Sys2Proof.Machine.execTlbinvWrite v s
  | .swgoWrite v => Sys2Proof.Machine.execSwgoWrite v s
  | .bpgoWrite m c v => Sys2Proof.Machine.execBpgoWrite m c v s
  | .hxmWrite m c mi v => Sys2Proof.Machine.execHxmWrite m c mi v s
  | .trctlWrite m c v => Sys2Proof.Machine.execTrctlWrite m c v s
  | .checkpoint => Sys2Proof.Machine.execCheckpoint s
  | .epoch => Sys2Proof.Machine.execEpoch s
  | .ckrestWrite v => Sys2Proof.Machine.execCkrestWrite v s
  | .scratchpadApertureAccess a => Sys2Proof.Machine.execScratchpadApertureAccess a s
  | .cellRegisterApertureAccess a => Sys2Proof.Machine.execCellRegisterApertureAccess a s
  | .registerWrite off v => Sys2Proof.Machine.execRegisterWrite off v s
  | .hmodeWrite v => Sys2Proof.Machine.execHmodeWrite v s
  | .harspCommit j v => Sys2Proof.Machine.execHarspCommit j v s
  | .wdogWrite v => Sys2Proof.Machine.execWdogWrite v s
  | .wdkick v => Sys2Proof.Machine.execWdkick v s
  | .watchdogExpiry o => Sys2Proof.Machine.execWatchdogExpiry o s
  | .powerOn o => Sys2Proof.Machine.execPowerOn o s
  | .forceRestart o => Sys2Proof.Machine.execForceRestart o s
  | .powerCycle o => Sys2Proof.Machine.execPowerCycle o s
  | .imagePush p => Sys2Proof.Machine.execImagePush p s
  | .clearStartRecord => Sys2Proof.Machine.execClearStartRecord s
  | .attestationReport nonce => Sys2Proof.Machine.execAttestationReport nonce s
  | .login acct password => Sys2Proof.Machine.execLogin acct password s
  | .passwordChange acct old new => Sys2Proof.Machine.execPasswordChange acct old new s
  | .lockoutExpiry acct => Sys2Proof.Machine.execLockoutExpiry acct s
  | .sessionTimeout sid => Sys2Proof.Machine.execSessionTimeout sid s
  | .thwarn d temp => Sys2Proof.Machine.execThwarn d temp s
  | .thcrit d temp => Sys2Proof.Machine.execThcrit d temp s
  | .thermalTrip d temp => Sys2Proof.Machine.execThermalTrip d temp s
  | .powerBrake asserted => Sys2Proof.Machine.execPowerBrake asserted s
  | .currentReport codes => Sys2Proof.Machine.execCurrentReport codes s
  | .excursion => Sys2Proof.Machine.execExcursion s
  | .regulatorStep v => Sys2Proof.Machine.execRegulatorStep v s
  | .vsetWrite v mv => Sys2Proof.Machine.execVsetWrite v mv s
  | .budgetInterval => Sys2Proof.Machine.execBudgetInterval s
  | .bridgeRequest r => Sys2Proof.Machine.execBridgeRequest r s
  | .scrub line outcome => Sys2Proof.Machine.execScrub line outcome s
  | .flitRetry e k => Sys2Proof.Machine.execFlitRetry e k s
  | .moduleRetrain e k => Sys2Proof.Machine.execModuleRetrain e k s
  | .retrainFailure e k => Sys2Proof.Machine.execRetrainFailure e k s
  | .dataFrame f => Sys2Proof.Machine.execDataFrame f s
  | .ackFrame f => Sys2Proof.Machine.execAckFrame f s
  | .nakFrame f => Sys2Proof.Machine.execNakFrame f s
  | .openFrame f => Sys2Proof.Machine.execOpenFrame f s
  | .closeFrame f => Sys2Proof.Machine.execCloseFrame f s
  | .probeFrame f => Sys2Proof.Machine.execProbeFrame f s
  | .retransmitTimeout circ => Sys2Proof.Machine.execRetransmitTimeout circ s
  | .portLinkDown p => Sys2Proof.Machine.execPortLinkDown p s
  | .circuitGiveUp circ => Sys2Proof.Machine.execCircuitGiveUp circ s
  | .cgiveWrite v => Sys2Proof.Machine.execCgiveWrite v s
  | .nodeidWrite v => Sys2Proof.Machine.execNodeidWrite v s
  | .ptpSync msg => Sys2Proof.Machine.execPtpSync msg s
  | .ptpFollowUp msg => Sys2Proof.Machine.execPtpFollowUp msg s
  | .ptpDelayReq msg => Sys2Proof.Machine.execPtpDelayReq msg s
  | .ptpDelayResp msg => Sys2Proof.Machine.execPtpDelayResp msg s
  | .tbrateWrite v => Sys2Proof.Machine.execTbrateWrite v s
  | .tbslewWrite v => Sys2Proof.Machine.execTbslewWrite v s
  | .tbstepWrite v => Sys2Proof.Machine.execTbstepWrite v s
  | .retrainingSuccess e k => Sys2Proof.Machine.execRetrainingSuccess e k s
  | .portLinkUp p => Sys2Proof.Machine.execPortLinkUp p s
  | .lossOfTheMaster => Sys2Proof.Machine.execLossOfTheMaster s
  | .powerLoss => Sys2Proof.Machine.execPowerLoss s
  | .controlComplexAccess a => Sys2Proof.Machine.execControlComplexAccess a s
  | .controlComplexUncorrectableError e => Sys2Proof.Machine.execControlComplexUncorrectableError e s
  | .fabricPowerState on => Sys2Proof.Machine.execFabricPowerState on s

end Sys2Proof.Machine
end

