-- ==== Sys2Proof/Machine/Service.lean ====
section
/-! DEFINITION. The Redfish service's requests (R27, R35, R63, R65, R66, R68, R273, Table 2.10). The order of what a reply holds is
the model's (PRESUMED, log entry 34). -/

namespace Sys2Proof.Machine

/-- The service answers. -/
def State.serve (s : State) (reply : List Nat) : State := s.modMgmt fun g => { g with http := 200, reply := reply }

/-- The actions of Table 2.10 that have an event of their own. -/
def managed : Instr → Bool
  | .forceRestart _ | .powerCycle _ | .imagePush _ | .clearStartRecord | .attestationReport _ | .fabricPowerState _ => true
  | _ => false

/-- The actions and logs that the recovery responder answers: UpdateService, and the diagnostic log of Table 2.8, which is the start record,
with the record of the cause beside it (R59). -/
def ServiceRequest.inRecovery : ServiceRequest → Bool
  | .act (.imagePush _) | .act .clearStartRecord | .log 0 | .log 1 => true
  | _ => false

/-- What the Chassis resource reads: temperatures and thresholds, rail currents, module power and the brake limit. -/
def Hub.chassis (h : Hub) : List Nat :=
  (h.thermal.toList.flatMap fun t => [t.now.toNat, t.peak.toNat, t.warn.toNat, t.crit.toNat, 115])
    ++ h.supply.toList.map (fun x => x.last.toNat) ++ h.fxrep.toList.map (fun x => x.1.toNat)
    ++ [h.power.pnow.toNat, h.power.brake.toNat]

/-- A record of the diagnostic log as numbers (R63). -/
def DiagRecord.fields (r : DiagRecord) : List Nat :=
  let site : FaultSite → List Nat
    | .nowhere => [0]
    | .place d m c k => [1, d.val, m.val, c.val, k.val]
    | .edge e k => [2, e.val, k.val]
  [r.step.toNat, r.level.toNat, r.code.toNat] ++ match r.finding with
    | none => []
    | some f => [f.test.toNat] ++ site f.site ++ [f.array.toNat, f.bank.toNat, f.syndrome.toNat, f.addr.toNat]

/-- The logs: the start record's entries, the diagnostic records, and the event ring's bytes. -/
def State.logOf (s : State) (k : Fin 3) : List Nat :=
  match k with
  | 0 => s.mgmt.sectors.toList.flatten.map (·.toNat)
  | 1 => s.mgmt.diag.flatMap DiagRecord.fields
  | _ =>
    let q := s.hub.evq
    if !q.isSet ∨ hbmEnd < q.b.toNat + 32 * 2 ^ q.n then [] else (s.mem.read q.b.toNat (32 * 2 ^ q.n)).map (·.toNat)

/-- What the AccountService reads: each account's number, whether its password must be changed and whether it is locked. -/
def Mgmt.accountList (g : Mgmt) (now : Nat) : List Nat :=
  (finsN 16).flatMap fun a =>
    let x := g.accounts[a]
    if x.used then [a.val, b2n x.mustChange, b2n (x.locked now)] else []
/-- What the SessionService reads: each session's number and account. -/
def Mgmt.sessionList (g : Mgmt) : List Nat := g.sessions.flatMap fun x => [x.sid, x.acct.val]

/-- A request that is no action with an event of its own. Whether the factory account can be deleted the manual leaves open: it cannot (R68;
DESIGN CHOICE, log entry 62). -/
def State.answerService (s : State) (sid : Nat) : ServiceRequest → State
  | .act _ => s
  | .systems => s.serve [b2n s.mgmt.fabricOn, s.hub.nodeId.toNat]
  | .chassis => s.serve s.hub.chassis
  | .setThresholds d warn crit =>
    (s.modHub fun h => { h with thermal := vmod h.thermal d fun t => t.setThr (toWord (crit.toNat * 256 + warn.toNat)) }).serve []
  | .setBrake w =>
    (s.modHub fun h => { h with power := { h.power with brake := BitVec.ofNat 16 (clampN 300 2400 w.toNat) } }).serve []
  | .clearPeak d => (s.modHub fun h => { h with thermal := vmod h.thermal d fun t => { t with peak := 0 } }).serve []
  -- the network protocol: HTTPS alone, on port 443
  | .managers => s.serve (443 :: s.hub.servo.domain.toNat :: s.hub.ports.toList.flatMap fun p => [p.iface.toNat, b2n p.tagged])
  | .setDomain d => (s.modServo fun v => { v with domain := d }).serve []
  | .setPort p iface tagged =>
    if iface = 3 then s.refuseHttp 400
    else (s.modHub fun h => { h with ports := vmod h.ports p fun x => { x with iface := iface, tagged := tagged } }).serve []
  | .log k => s.serve (s.logOf k)
  | .certificates =>
    s.serve ((Config.identityCert 0 ++ Config.identityCert 1).map (·.toNat))
  | .accounts => s.serve (s.mgmt.accountList s.osc)
  | .sessions => s.serve s.mgmt.sessionList
  | .setAccount a pw =>
    let x := s.mgmt.accounts[a]
    (s.modMgmt fun g => { g with accounts := g.accounts.set a { x with used := true, password := pw } }).serve []
  | .deleteAccount a =>
    if a = 0 then s.refuseHttp 400
    else (s.modMgmt fun g => { g with
      accounts := g.accounts.set a Account.none, sessions := g.sessions.filter fun x => x.acct != a }).serve []
  | .logout => (s.modMgmt fun g => { g with sessions := g.sessions.filter fun x => x.sid != sid }).serve []

/-- A request of a session: the session is in use again, unless it has been idle for too long. The recovery responder, which holds no session, answers its own
resources (R59, R68). -/
def State.service (s : State) (sid : Nat) (q : ServiceRequest) : Fetched :=
  let s := s.modMgmt fun g => { g with sessions := g.sessions.filter fun x => !x.timedOut s.osc }
  let touch (x : Session) : Session := if x.sid = sid then { x with lastUse := s.osc } else x
  let s' := s.modMgmt fun g => { g with sessions := g.sessions.map touch }
  if s.mgmt.mode = .recovery ∧ !q.inRecovery ∨ s.mgmt.mode = .off ∨ s.mgmt.mode = .unstarted then .done s
  else if s.mgmt.mode ≠ .recovery ∧ !s.mgmt.serves then .done (s.refuseHttp 403)
  else if s.mgmt.mode ≠ .recovery ∧ !s.mgmt.sessions.any fun x => x.sid == sid then .done (s.refuseHttp 401)
  else match q with
  | .act i => if managed i then .run i s' else .done (s'.refuseHttp 404)
  | q => .done (s'.answerService sid q)

end Sys2Proof.Machine
end

