-- ==== Sys2Proof/Machine/Moves.lean ====
section
/-! DEFINITION. The moves that are no instruction's: links of GRAPH regions, the frames of a replay, waiting accesses of the
application cores, the stall walker, the Redfish service and the programming of the store (R46, R68, R69, R96, R229, R254, R266), and the fetch of any
move. -/

namespace Sys2Proof.Machine

/-- The schedule's further numbers: every ninth move is a link's or a replay's (DESIGN CHOICE, log entry 1). -/
def scheduledMove (k : Nat) : Action :=
  if k % 9 = 8 then
    let n := k / 9
    if n % 8 = 7 then
      (if n / 8 % 3 = 0 then .replayFrame
      else if n / 8 % 3 = 1 then (if n / 24 % 26 = 24 then .program else if n / 24 % 26 = 25 then .walk else .app (Fin.ofNat 24 (n / 24 % 26)))
      else .prefetch (pickRow (n / 24)) (n / 576))
    else .link (pickRow n) (pickCore n) (Fin.ofNat 8 (n / 192)) (n / 1536)
  else scheduled k

/-- The next action, with the state after it has been taken from the agenda or the schedule. -/
def State.takeAction (s : State) : Action × State :=
  match s.agenda with
  | a :: rest => (a, { s with agenda := rest, ticks := s.ticks + 1 })
  | [] => (scheduledMove (Config.schedule s.ticks), { s with ticks := s.ticks + 1 })

/-! ### The rotation at a cell (R134, R141) -/

/-- The element of a cell that an event serves. -/
def elemOf : Instr → Option ElemRef
  | .ceFiring r | .mld r | .mst r | .mamo r | .sinkElem r | .cntr r | .stampElem r | .orderElem r | .ringin r | .ringout r => some r
  | _ => none

/-- The event that serves an element of a cell. -/
def Elem.event (e : Elem) (r : ElemRef) : Instr :=
  if e.kind = .ce then .ceFiring r
  else if e.isPort 2 then .ringin r
  else if e.isPort 3 then .ringout r
  else match e.stage0.op with
  | 0x70 => .mld r
  | 0x71 => .mst r
  | 0x72 => .mamo r
  | 0x69 => .cntr r
  | 0x6A => .stampElem r
  | 0x6B => .orderElem r
  | _ => .sinkElem r

/-- What serving an element of a cell leaves. -/
def serveElem (s : State) : Instr → Out
  | .ceFiring r => execCeFiring r s
  | .mld r => execMld r s
  | .mst r => execMst r s
  | .mamo r => execMamo r s
  | .sinkElem r => execSinkElem r s
  | .cntr r => execCntr r s
  | .stampElem r => execStampElem r s
  | .orderElem r => execOrderElem r s
  | .ringin r => execRingin r s
  | .ringout r => execRingout r s
  | _ => .next s

/-- An element is enabled when serving it does something (DEDUCED, log entry 1). -/
def State.enabled (s : State) (i : Instr) : Bool :=
  match serveElem s i with
  | .next t => decide (t ≠ s)
  | _ => true

/-- The cell that serves an element: an edge element holds a slot of its memory cell (R131). -/
def Elem.site (e : Elem) : ElemKind × Nat := (if e.kind = .ce then .ce else .me, e.cell)

/-- The elements of a cell, whatever their slots and contexts, in the order of slots and elements. -/
def State.cellElems (s : State) (m : RowId) (c : CoreId) (at' : ElemKind × Nat) : List (ElemRef × Elem) :=
  (finsN 8).flatMap fun slot =>
    let es := ((s.region m c slot).map (·.elems)).getD []
    ((es.zip (List.range es.length)).filter fun x => x.1.site == at').map fun x =>
      ({ m := m, c := c, slot := slot, e := x.2 }, x.1)

/-- The rest of a cell's elements after the one served last, then those before it, and it (R134). -/
def inRotation (last : Option (SlotId × Nat)) (xs : List (ElemRef × Elem)) : List (ElemRef × Elem) :=
  match last with
  | none => xs
  | some (slot, n) =>
    let past (x : ElemRef × Elem) : Bool := decide (slot.val < x.1.slot.val ∨ (slot = x.1.slot ∧ n < x.1.e))
    xs.filter past ++ xs.filter fun x => !past x

/-- An event at a cell serves the enabled element whose turn it is there (R134, R141); with none enabled it finds its own. -/
def State.inTurn (s : State) (i : Instr) : Instr × State :=
  match (elemOf i).bind fun r => (s.elemAt r).map fun x => (r, x.2.site) with
  | none => (i, s)
  | some (r, at') =>
    let last := ((s.core r.m r.c).served.find? fun x => x.1 == at').map (·.2)
    match (inRotation last (s.cellElems r.m r.c at')).find? fun x => s.enabled (x.2.event x.1) with
    | none => (i, s)
    | some (r', e) => (e.event r', s.modCore r.m r.c fun k =>
        { k with served := (at', (r'.slot, r'.e)) :: k.served.filter fun x => x.1 != at' })

/-- The move of any action. -/
def State.fetchMove (s : State) : Action → Fetched
  | .place m p =>
    match coreOfPlace p with
    | some c => s.fetchCore m c
    | none => s.fetchRfu m
  | .engine m c op => s.fetchEngine m c op
  | .event i => .run (s.inTurn i).1 (s.inTurn i).2
  | .elapse n => .done (s.elapse n)
  | .link m c slot i => .done (s.moveLink m c slot i)
  | .replayFrame => .done s.deliverLogged
  | .prefetch m line => .done (s.prefetch m line)
  | .app ac => .done (s.drainApp ac (s.apps[ac]).io.length)
  | .service sid q => s.service sid q
  | .program => .done s.program
  | .walk => .done s.walkHop

end Sys2Proof.Machine
end

