-- ==== Sys2Proof/Machine/Step.lean ====
section
/-! DEFINITION. One step of the module: the next action's move, and the meaning of the instruction it found. -/

namespace Sys2Proof.Machine

/-- What a move comes to: the meaning of the instruction it found, or the state it left. -/
def runFetched : Fetched → Host.Outcome State Fault Refusal
  | .run i s => exec i s
  | .done s => .next s

/-- One step (R107, R203): the next action is taken, its move is made, and what it found is executed. -/
def step (s : State) : Host.Outcome State Fault Refusal :=
  runFetched (s.takeAction.2.fetchMove s.takeAction.1)

/-- The state with one instruction of the opcode table standing where the very next step takes it: a stream command as an
operation of an engine, a word on the vine before core 0, or a word in memory at the row fetch unit's pc. -/
def State.withFetchWord (s : State) (nbits w : Nat) : State :=
  if nbits = 128 then s.placeCommand (BitVec.ofNat 128 w)
  else
    let v : BitVec 160 := BitVec.ofNat 160 (w % 2 ^ nbits)
    s.placeWord (fld v 0 32) (fld v 32 128)

end Sys2Proof.Machine
end

