-- ==== Sys2Proof/Safety.lean ====
section
/-! DEFINITION. What claims call a safe run, and the terms in which they say when a word acts and what it leaves. -/

namespace Sys2Proof.Machine

/-- A step that answers a next state. -/
def Goes (o : Host.Outcome State Fault Refusal) : Prop := ∃ t, o = .next t

/-- The memory lists what it holds in its one canonical form. -/
def MemOk (s : State) : Prop := s.mem.wf = true

/-! ### When a word acts -/

/-- The registers a word names at a core: none awaits a write (R341). -/
def Core.quiet (k : Core) (rs : List (BitVec 5)) : Bool := rs.all fun i => i == 0 || !k.pend.any (·.dest == i)

/-- The banks of the registers named are FULL (R119). -/
def Core.awake (k : Core) (rs : List (BitVec 5)) : Bool := rs.all fun i => i == 0 || k.banks[sBank i].st == .full

/-- Every register the word reads is live, no write of one it names is pending, its banks are FULL and there is room to the
east: nothing keeps a word of form f from acting at core c. -/
def State.ready (s : State) (c : CoreId) (f : Form) : Bool :=
  let k := s.core s.cur.m c
  (k.active || f.always) && !f.illop && k.quiet (f.regs ++ f.drops ++ f.names) && f.reads.all k.isLive && k.awake f.regs
    && (s.row s.cur.m).roomEast c

/-- Nothing keeps a Q = 1 word of form f from acting at the row fetch unit (R110, R298, R341). -/
def State.readyRfu (s : State) (f : Form) : Bool :=
  !f.illop && f.regs.all (fun i => decide (i.toNat < 16)) && !(s.row s.cur.m).getwWaits
    && f.regs.all (fun i => !(s.row s.cur.m).qPending i)

/-! ### What a word leaves -/

/-- The state once core c has issued the current word and stands as k: the word has moved east with the post that the core
held before it, and at core 7 it has left the vine (R107, R109). -/
def State.issued (s : State) (c : CoreId) (k : Core) : State :=
  s.modRow s.cur.m fun r =>
    ({ r with cores := r.cores.set c k } : Row).issue c (s.core s.cur.m c).epost (s.core s.cur.m c).epostRel s.cur.word.coll

/-- Between k and k' only the scalar registers, their liveness and their banks may differ; register d, when one is named, has
value v and is live, the registers dropped are dead, and every other register stands as it was (R115, R117–R119). -/
def RegsAfter (k k' : Core) (d : Option (BitVec 5)) (v : Word) (drops : List (BitVec 5)) : Prop :=
  (∃ rs lv bk, k' = { k with s := rs, live := lv, banks := bk }) ∧
  (∀ r, k'.read r = if d = some r ∧ r ≠ 0 then v else k.read r) ∧
  (∀ r, k'.isLive r = (decide (r = 0) || decide (d = some r) || (k.isLive r && !drops.contains r))) ∧
  (drops = [] → ∀ b : Fin 4, k'.banks[b].st = k.banks[b].st)

/-- The outcome of a word that has acted at core c from s, its effect on the rest of the machine having left s': the core's
registers are as `RegsAfter` says, everything else of s' is unchanged, and the word has moved on. -/
def ActsAt (s s' : State) (c : CoreId) (o : Out) (d : Option (BitVec 5)) (v : Word) (drops : List (BitVec 5)) : Prop :=
  ∃ k', RegsAfter (s'.core s.cur.m c) k' d v drops ∧
    o = .next (s'.modRow s.cur.m fun r =>
      ({ r with cores := r.cores.set c k' } : Row).issue c (s.core s.cur.m c).epost (s.core s.cur.m c).epostRel s'.cur.word.coll)

/-- The row registers after a write of d (R99): q0 discards it. -/
def RowRegsAfter (r r' : Row) (d : Option (BitVec 5)) (v : Word) : Prop :=
  ∀ i : BitVec 5, i.toNat < 16 → r'.readQ i = if d = some i ∧ i ≠ 0 then v else r.readQ i

/-- The outcome of a Q = 1 word that has acted at the row fetch unit from s, its effect on the rest of the machine having left
s': q[d], when one is named, has value v, the next word is at next with the next ordinal, and nothing else of s' has changed. -/
def ActsAtRfu (s s' : State) (o : Out) (d : Option (BitVec 5)) (v next : Word) : Prop :=
  ∃ q', RowRegsAfter (s'.row s.cur.m) { s'.row s.cur.m with q := q' } d v ∧
    o = .next (s'.modRow s.cur.m fun r => { r with q := q', pc := next, ord := r.ord + 1 })

/-- The outcome of a load or atomic at core c: it has acted as `ActsAt` says, without a destination, and s[d] awaits v; a load
of s0 awaits nothing (R341). -/
def LoadsAt (s s' : State) (c : CoreId) (o : Out) (d : BitVec 5) (v : Word) (drops : List (BitVec 5)) : Prop :=
  ∃ t, ActsAt s s' c (.next t) none 0 drops ∧
    o = .next (t.modCore s.cur.m c fun k => { k with pend := k.pend ++ if d = 0 then [] else [⟨d, v⟩] })

/-- The outcome of a load or atomic at the row fetch unit (R341). -/
def LoadsAtRfu (s s' : State) (o : Out) (d : BitVec 5) (v : Word) : Prop :=
  ∃ t, ActsAtRfu s s' (.next t) none 0 (s.cur.word.addr + 4) ∧
    o = .next (t.modRow s.cur.m fun r => { r with qpend := r.qpend ++ if d = 0 then [] else [⟨d, v⟩] })

end Sys2Proof.Machine
end

