-- ==== Sys2Proof/Certificates/Slice0/Obligations.lean ====
section
/-! DEFINITION. The statements for the provers, with the tables of results they are stated in. -/

namespace Sys2Proof.Machine.Claim

/-! ### Integer arithmetic: the results of Tables 14.1 to 14.3 -/

/-- DIV: all ones for a zero divisor; else the quotient truncated toward zero, of which −2^63 by −1 keeps the low 64 bits
(Table 14.2). -/
def quotient (a b : Word) : Word := if b = 0 then BitVec.allOnes 64 else BitVec.ofInt 64 (a.toInt.tdiv b.toInt)
/-- REM: the dividend for a zero divisor; else the remainder with the sign of the dividend (Table 14.2). -/
def remainder (a b : Word) : Word := if b = 0 then a else BitVec.ofInt 64 (a.toInt.tmod b.toInt)
/-- 1 for true, 0 for false. -/
def flag (p : Prop) [Decidable p] : Word := if p then 1 else 0
/-- The zero bits above the highest one bit. -/
def zerosAbove (a : Word) : Word := BitVec.ofNat 64 ((List.range 64).reverse.takeWhile fun i => !a.getLsbD i).length
/-- The bits that are one. -/
def onesIn (a : Word) : Word := BitVec.ofNat 64 ((List.range 64).filter fun i => a.getLsbD i).length

/-- The register forms that read a and b, with their results (Table 14.1). -/
def registerGroup : List ((FmtA → Instr) × (Word → Word → Word)) :=
  [(.add, fun a b => a + b), (.sub, fun a b => a - b), (.mul, fun a b => a * b),
   (.mulh, fun a b => (a.signExtend 128 * b.signExtend 128).extractLsb' 64 64),
   (.mulhu, fun a b => (a.setWidth 128 * b.setWidth 128).extractLsb' 64 64),
   (.div, quotient), (.divu, fun a b => if b = 0 then BitVec.allOnes 64 else a / b),
   (.rem, remainder), (.remu, fun a b => if b = 0 then a else a % b),
   (.andR, fun a b => a &&& b), (.orR, fun a b => a ||| b), (.xorR, fun a b => a ^^^ b),
   (.shl, fun a b => a <<< (b.extractLsb' 0 6).toNat), (.shr, fun a b => a >>> (b.extractLsb' 0 6).toNat),
   (.sra, fun a b => a.sshiftRight (b.extractLsb' 0 6).toNat),
   (.minR, fun a b => if a.toInt ≤ b.toInt then a else b), (.maxR, fun a b => if a.toInt ≤ b.toInt then b else a),
   (.minu, fun a b => if a.toNat ≤ b.toNat then a else b), (.maxu, fun a b => if a.toNat ≤ b.toNat then b else a),
   (.slt, fun a b => flag (a.toInt < b.toInt)), (.sltu, fun a b => flag (a.toNat < b.toNat)), (.seq, fun a b => flag (a = b))]

/-- The register forms that read a alone (Table 14.1). -/
def unaryGroup : List ((FmtA → Instr) × (Word → Word)) := [(.clz, zerosAbove), (.popc, onesIn)]

/-- The immediate forms, with their results from a and the 14-bit immediate (Table 14.3). -/
def immediateGroup : List ((FmtI → Instr) × (Word → BitVec 14 → Word)) :=
  [(.addi, fun a i => a + i.signExtend 64), (.andi, fun a i => a &&& i.signExtend 64), (.ori, fun a i => a ||| i.signExtend 64),
   (.xori, fun a i => a ^^^ i.signExtend 64), (.shli, fun a i => a <<< (i.extractLsb' 0 6).toNat),
   (.shri, fun a i => a >>> (i.extractLsb' 0 6).toNat), (.srai, fun a i => a.sshiftRight (i.extractLsb' 0 6).toNat)]

/-- Offset 0 of the slices of a place's core, core 0 at the row fetch unit, in the slice window (R8, R346). -/
def slicesOf (m : RowId) (core : Nat) : Word :=
  BitVec.ofNat 64 (0x7F00000000 + m.val / 6 * 2 ^ 29 + m.val % 6 * 2 ^ 26 + core * 2 ^ 23)

/-- The registers of a form that reads a and b. -/
def useAB (f : FmtA) : Form :=
  { q := f.q, reads := [f.a, f.b], drops := dropIf f.x f.a ++ dropIf f.y f.b, dest := some f.d }
/-- The registers of a form that reads a. -/
def useA (f : FmtA) : Form := { q := f.q, reads := [f.a], drops := dropIf f.x f.a, dest := some f.d }
/-- The registers of an immediate form. -/
def useI (f : FmtI) : Form := { q := f.q, reads := [f.a], drops := dropIf f.x f.a, dest := some f.d }
/-- The registers of SEL, which reads its destination too. -/
def useSel (f : FmtA) : Form :=
  { q := f.q, reads := [f.a, f.b, f.d], drops := dropIf f.x f.a ++ dropIf f.y f.b, dest := some f.d }
/-- The registers of LUI, which reads none. -/
def useD (f : FmtI) : Form := { q := f.q, reads := [], dest := some f.d }

end Sys2Proof.Machine.Claim

open Sys2Proof Sys2Proof.Machine Sys2Proof.Machine.Claim

/-- R342, R343, R344: a form of the register group that is ready at a core writes the result of Tables 14.1 and 14.2 to s[d], kills
what its drop bits name, and changes nothing else but the vine word's place; with Q = 1, ready at the row fetch unit, it writes
q[d]. -/
def Obligations.RegisterGroup : Prop :=
  (∀ p ∈ registerGroup, ∀ (f : FmtA) (s : State) (c : CoreId),
      f.q = false → s.cur.p = placeOfCore c → s.ready c (useAB f) = true →
      ActsAt s s c (exec (p.1 f) s) (some f.d) (p.2 ((s.core s.cur.m c).read f.a) ((s.core s.cur.m c).read f.b))
        (dropIf f.x f.a ++ dropIf f.y f.b)) ∧
  (∀ p ∈ registerGroup, ∀ (f : FmtA) (s : State),
      f.q = true → s.cur.p = rfuPlace → s.readyRfu (useAB f) = true →
      ActsAtRfu s s (exec (p.1 f) s) (some f.d) (p.2 ((s.row s.cur.m).readQ f.a) ((s.row s.cur.m).readQ f.b)) (s.cur.word.addr + 4))

/-- R343, R345, R346: CLZ, POPC, SEL, the immediate forms, LUI and LEA at a core, and with Q = 1 at the row fetch unit, where LEA
means the slices of core 0. -/
def Obligations.ImmediateGroup : Prop :=
  (∀ p ∈ unaryGroup, ∀ (f : FmtA) (s : State) (c : CoreId),
    f.q = false → s.cur.p = placeOfCore c → s.ready c (useA f) = true →
    ActsAt s s c (exec (p.1 f) s) (some f.d) (p.2 ((s.core s.cur.m c).read f.a)) (dropIf f.x f.a)) ∧
  (∀ (f : FmtA) (s : State) (c : CoreId), f.q = false → s.cur.p = placeOfCore c → s.ready c (useSel f) = true →
    ActsAt s s c (exec (.sel f) s) (some f.d)
      (if (s.core s.cur.m c).read f.d = 0 then (s.core s.cur.m c).read f.b else (s.core s.cur.m c).read f.a)
      (dropIf f.x f.a ++ dropIf f.y f.b)) ∧
  (∀ p ∈ immediateGroup, ∀ (f : FmtI) (s : State) (c : CoreId),
    f.q = false → s.cur.p = placeOfCore c → s.ready c (useI f) = true →
    ActsAt s s c (exec (p.1 f) s) (some f.d) (p.2 ((s.core s.cur.m c).read f.a) f.i) (dropIf f.x f.a)) ∧
  (∀ (f : FmtI) (s : State) (c : CoreId), f.q = false → s.cur.p = placeOfCore c → s.ready c (useD f) = true →
    ActsAt s s c (exec (.lui f) s) (some f.d) (f.i.signExtend 64 * 16384) []) ∧
  (∀ (f : FmtI) (s : State) (c : CoreId), f.q = false → s.cur.p = placeOfCore c → s.ready c (useI f) = true →
    ActsAt s s c (exec (.lea f) s) (some f.d)
      (slicesOf s.cur.m c.val + (s.core s.cur.m c).read f.a + f.i.signExtend 64) (dropIf f.x f.a)) ∧
  (∀ p ∈ unaryGroup, ∀ (f : FmtA) (s : State), f.q = true → s.cur.p = rfuPlace → s.readyRfu (useA f) = true →
    ActsAtRfu s s (exec (p.1 f) s) (some f.d) (p.2 ((s.row s.cur.m).readQ f.a)) (s.cur.word.addr + 4)) ∧
  (∀ (f : FmtA) (s : State), f.q = true → s.cur.p = rfuPlace → s.readyRfu (useSel f) = true →
    ActsAtRfu s s (exec (.sel f) s) (some f.d)
      (if (s.row s.cur.m).readQ f.d = 0 then (s.row s.cur.m).readQ f.b else (s.row s.cur.m).readQ f.a) (s.cur.word.addr + 4)) ∧
  (∀ p ∈ immediateGroup, ∀ (f : FmtI) (s : State), f.q = true → s.cur.p = rfuPlace → s.readyRfu (useI f) = true →
    ActsAtRfu s s (exec (p.1 f) s) (some f.d) (p.2 ((s.row s.cur.m).readQ f.a) f.i) (s.cur.word.addr + 4)) ∧
  (∀ (f : FmtI) (s : State), f.q = true → s.cur.p = rfuPlace → s.readyRfu (useD f) = true →
    ActsAtRfu s s (exec (.lui f) s) (some f.d) (f.i.signExtend 64 * 16384) (s.cur.word.addr + 4)) ∧
  (∀ (f : FmtI) (s : State), f.q = true → s.cur.p = rfuPlace → s.readyRfu (useI f) = true →
    ActsAtRfu s s (exec (.lea f) s) (some f.d)
      (slicesOf s.cur.m 0 + (s.row s.cur.m).readQ f.a + f.i.signExtend 64) (s.cur.word.addr + 4))

namespace Sys2Proof.Machine.Claim

/-! ### Control flow -/

/-- The branches with their conditions (R347). -/
def branchGroup : List ((FmtB → Instr) × (Word → Word → Bool)) :=
  [(.beq, fun a b => a == b), (.bne, fun a b => a != b), (.blt, fun a b => decide (a.toInt < b.toInt)),
   (.bge, fun a b => decide (b.toInt ≤ a.toInt)), (.bltu, fun a b => decide (a.toNat < b.toNat)),
   (.bgeu, fun a b => decide (b.toNat ≤ a.toNat))]

/-- n words on from the word's own address (R299). -/
def wordsOn (s : State) (n : Word) : Word := s.cur.word.addr + n * 4

/-! ### The vine -/

/-- The row reductions: the identity, and what a core with value v makes of the collection t (Table 4.3). -/
def reductionGroup : List ((FmtA0 → Instr) × Word × (Word → Word → Word)) :=
  [(.rowall, 1, fun t v => flag (t ≠ 0 ∧ v ≠ 0)), (.rowany, 0, fun t v => flag (t ≠ 0 ∨ v ≠ 0)), (.rowsum, 0, fun t v => t + v)]

/-- The state with the collection that the current word carries replaced. -/
def collected (s : State) (t : Word) : State := { s with cur := { s.cur with word := { s.cur.word with coll := t } } }

/-- The state with a core's active bit and stack replaced. -/
def predicated (s : State) (c : CoreId) (active : Bool) (stack : List PredEntry) : State :=
  s.modCore s.cur.m c fun k => { k with active := active, stack := stack }

/-- The row fetch unit has forwarded its current word w: hop 0 and, outside the handler, the resend buffer have gained it with
the row's post, and the next word follows (R102, R109, R237). -/
def forwarded (s : State) (w : VineWord) : State :=
  s.modRow s.cur.m fun r =>
    let v : VineWord := { w with post := r.post, postRel := r.postRel }
    { r with hops := r.hops.set 0 (r.hops[0] ++ [v]), resend := if w.handler then r.resend else r.resend ++ [v]
             pc := w.addr + wordBytes w.word, ord := r.ord + 1 }

/-- Hop 0 has room, and for a word of the program the resend buffer too (R105, R237). -/
def hasRoom (s : State) : Bool :=
  decide (((s.row s.cur.m).hops[0]).length < 5) && (s.cur.word.handler || decide ((s.row s.cur.m).resend.length < 40))

/-- The sequencer words that a row fetch unit does nothing with but forward them (Table 4.1). -/
def onlyForwarded : Instr → Bool
  | .add f | .sub f | .mul f | .mulh f | .mulhu f | .div f | .divu f | .rem f | .remu f | .andR f | .orR f | .xorR f | .shl f
  | .shr f | .sra f | .minR f | .maxR f | .minu f | .maxu f | .clz f | .popc f | .sel f | .slt f | .sltu f | .seq f | .poste f
  | .posteRel f | .getw f | .nop f | .tbr f => !f.q
  | .addi f | .andi f | .ori f | .xori f | .shli f | .shri f | .srai f | .lui f | .lea f | .trapW f | .brk f => !f.q
  | .ld f | .ldu f | .st f | .lda f | .stl f | .fence f => !f.q
  | .amoadd f | .amoand f | .amoor f | .amoxor f | .amomin f | .amomax f | .amominu f | .amomaxu f | .amoswp f | .amocas f => !f.q
  | .csrr f | .csrw f => !f.q
  | .cif _ | .celse _ | .cend _ | .rcfg _ | .rstart _ | .rswitch _ | .rwait _ | .tnext _ | .bank _ | .drop _ => true
  | .hset _ | .waitf _ | .waite _ | .advh _ | .advt _ | .hcnt _ | .cmd _ _ | .cmdm _ | .waitc _ | .ecnt _ => true
  | _ => false

end Sys2Proof.Machine.Claim

/-- R347, R348, R349: a branch whose row registers are ready goes to its target when its condition holds and to the next word when
it does not, and changes the pc and the ordinal alone; JAL and JALR write the next word's address, JALR reading q[a] first, and
go to their targets; LOOP counts down and branches while its register was above 1. -/
def Obligations.RowControlFlow : Prop :=
  (∀ p ∈ branchGroup, ∀ (f : FmtB) (s : State), s.cur.p = rfuPlace → s.readyRfu { q := true, reads := [f.a, f.b] } = true →
      ActsAtRfu s s (exec (p.1 f) s) none 0
        (wordsOn s (if p.2 ((s.row s.cur.m).readQ f.a) ((s.row s.cur.m).readQ f.b) then f.o.signExtend 64 else 1))) ∧
  (∀ (f : FmtJ) (s : State), s.cur.p = rfuPlace → s.readyRfu { q := true, reads := [], dest := some f.l } = true →
    ActsAtRfu s s (exec (.jal f) s) (some f.l) (wordsOn s 1) (wordsOn s (f.o.signExtend 64))) ∧
  (∀ (f : FmtI0) (s : State), s.cur.p = rfuPlace → s.readyRfu { q := true, reads := [f.a], dest := some f.d } = true →
    ActsAtRfu s s (exec (.jalr f) s) (some f.d) (wordsOn s 1)
      (((s.row s.cur.m).readQ f.a + f.i.signExtend 64 * 4) >>> 2 <<< 2)) ∧
  (∀ (f : FmtB) (s : State), s.cur.p = rfuPlace → s.readyRfu { q := true, reads := [f.a], dest := some f.a } = true →
    ActsAtRfu s s (exec (.loopW f) s) (some f.a)
      (if 1 < ((s.row s.cur.m).readQ f.a).toNat then (s.row s.cur.m).readQ f.a - 1 else 0)
      (wordsOn s (if 1 < ((s.row s.cur.m).readQ f.a).toNat then f.o.signExtend 64 else 1)))

/-- R101, R102, R105, R109, R237: a Q = 0 word at a row fetch unit with room in hop 0, and in the resend buffer's 40 entries if it is
a word of the program, is forwarded with the row's post and nothing else happens; without room nothing happens at all. -/
def Obligations.RowFetchUnitForwards : Prop :=
  ∀ (i : Instr) (s : State), onlyForwarded i = true → s.cur.p = rfuPlace →
    exec i s = .next (if hasRoom s then forwarded s s.cur.word else s)

/-- R111, R112, R351: a row reduction at a ready core combines the core's s[a] with what the word has collected; at the row fetch
unit the word starts from the identity and waits while an earlier writer of q[d] is outstanding. -/
def Obligations.RowReductions : Prop :=
  (∀ p ∈ reductionGroup, ∀ (f : FmtA0) (s : State) (c : CoreId), s.cur.p = placeOfCore c →
    s.ready c { q := true, reads := [f.a], drops := dropIf f.x f.a } = true →
    ActsAt s (collected s (p.2.2 s.cur.word.coll ((s.core s.cur.m c).read f.a))) c (exec (p.1 f) s) none 0 (dropIf f.x f.a)) ∧
  (∀ p ∈ reductionGroup, ∀ (f : FmtA0) (s : State), s.cur.p = rfuPlace →
    exec (p.1 f) s = .next (if (s.row s.cur.m).qPending f.d then s
      else if hasRoom s then forwarded (collected s p.2.1) { s.cur.word with coll := p.2.1 } else collected s p.2.1))

/-- R113, R114, R352: CIF pushes an entry and mutes a core whose condition fails, CELSE runs a core that has not taken its branch, and
CEND restores the outer state, a core executing them muted or not; on a running row a CIF at depth 8, a CELSE or CEND at depth 0
and a second CELSE trap LIMIT with %xinfo 1, 2 and 3: the core records the cause, stops, and its stack is as it was. -/
def Obligations.Predication : Prop :=
  (∀ (f : FmtA0) (s : State) (c : CoreId), s.cur.p = placeOfCore c → ((s.core s.cur.m c).stack).length < 8 →
    (s.core s.cur.m c).active = true →
    s.ready c { q := false, reads := [f.a], drops := dropIf f.x f.a, always := true } = true →
    ActsAt s (predicated s c (decide ((s.core s.cur.m c).read f.a ≠ 0))
      (⟨true, decide ((s.core s.cur.m c).read f.a ≠ 0), false⟩ :: (s.core s.cur.m c).stack)) c (exec (.cif f) s) none 0
      (dropIf f.x f.a)) ∧
  (∀ (f : FmtA0) (s : State) (c : CoreId), s.cur.p = placeOfCore c → ((s.core s.cur.m c).stack).length < 8 →
    (s.core s.cur.m c).active = false → s.ready c { q := false, reads := [], always := true } = true →
    ActsAt s (predicated s c false (⟨false, false, false⟩ :: (s.core s.cur.m c).stack)) c (exec (.cif f) s) none 0 []) ∧
  (∀ (f : FmtA0) (s : State) (c : CoreId) (e : PredEntry) (rest : List PredEntry), s.cur.p = placeOfCore c →
    (s.core s.cur.m c).stack = e :: rest → e.els = false → s.ready c { q := false, reads := [], always := true } = true →
    ActsAt s (predicated s c (e.outer && !e.took) (⟨e.outer, e.took, true⟩ :: rest)) c (exec (.celse f) s) none 0 []) ∧
  (∀ (f : FmtA0) (s : State) (c : CoreId) (e : PredEntry) (rest : List PredEntry), s.cur.p = placeOfCore c →
    (s.core s.cur.m c).stack = e :: rest → s.ready c { q := false, reads := [], always := true } = true →
    ActsAt s (predicated s c e.outer rest) c (exec (.cend f) s) none 0 []) ∧
  (∀ (f : FmtA0) (s : State) (c : CoreId), s.cur.p = placeOfCore c → (s.row s.cur.m).phase = .running →
      ∀ (i : Instr) (n : Word) (own : List (BitVec 5)),
        ((i = .cif f ∧ n = 1 ∧ own = [] ∧ ((s.core s.cur.m c).stack).length = 8) ∨
         (i = .celse f ∧ n = 2 ∧ own = [] ∧ (s.core s.cur.m c).stack = []) ∨
         (i = .celse f ∧ n = 3 ∧ own = [] ∧ ∃ e rest, (s.core s.cur.m c).stack = e :: rest ∧ e.els = true) ∨
         (i = .cend f ∧ n = 2 ∧ own = [] ∧ (s.core s.cur.m c).stack = [])) →
      s.ready c { q := false, reads := own, always := true } = true →
      ∃ t, exec i s = .next t ∧ (t.core s.cur.m c).stopped = true ∧ (t.core s.cur.m c).stack = (s.core s.cur.m c).stack ∧
        (t.core s.cur.m c).trap.cause = 0x09 ∧ (t.core s.cur.m c).trap.xinfo = n ∧ (t.core s.cur.m c).trap.xord = s.cur.word.ord)

/-- R108, R110, R353: POSTE and POSTE.rel at a core set the east post that its next words will carry, this word still carrying
the one before; at the row fetch unit they set the row's; GETW takes the post its word carries. -/
def Obligations.VinePosts : Prop :=
  (∀ (f : FmtA) (s : State) (c : CoreId), f.q = false → s.cur.p = placeOfCore c →
    s.ready c { q := false, reads := [f.a], drops := dropIf f.x f.a } = true →
    let post (rel : Bool) : State :=
      s.modCore s.cur.m c fun k => { k with epost := (s.core s.cur.m c).read f.a, epostRel := rel }
    ActsAt s (post false) c (exec (.poste f) s) none 0 (dropIf f.x f.a) ∧
    ActsAt s (post true) c (exec (.posteRel f) s) none 0 (dropIf f.x f.a)) ∧
  (∀ (f : FmtA) (s : State), f.q = true → s.cur.p = rfuPlace → s.readyRfu { q := true, reads := [f.a] } = true →
    let post (rel : Bool) : State := s.modRow s.cur.m fun r => { r with post := (s.row s.cur.m).readQ f.a, postRel := rel }
    ActsAtRfu s (post false) (exec (.poste f) s) none 0 (wordsOn s 1) ∧
    ActsAtRfu s (post true) (exec (.posteRel f) s) none 0 (wordsOn s 1)) ∧
  (∀ (f : FmtA) (s : State) (c : CoreId), f.q = false → s.cur.p = placeOfCore c →
    s.ready c { q := false, reads := [], dest := some f.d } = true →
    ActsAt s s c (exec (.getw f) s) (some f.d) s.cur.word.post []) ∧
  (∀ (f : FmtA) (s : State), f.q = true → s.cur.p = rfuPlace → s.readyRfu { q := true, reads := [], dest := some f.d } = true →
    exec (.getw f) s = .next (s.modRow s.cur.m fun r =>
      ({ r with getw := r.getw ++ [(f.d, s.cur.word.ord, s.cur.word.handler)], pc := wordsOn s 1, ord := r.ord + 1 } : Row).captureGetw))

namespace Sys2Proof.Machine.Claim

/-! ### Memory -/

/-- The little-endian number of n bytes at a physical address (R10). -/
def leAt (m : Memory) (pa : Nat) : Nat → Nat
  | 0 => 0
  | n + 1 => leAt m pa n + (m.byte (pa + n)).toNat * 256 ^ n

/-- The loads: whether each sign-extends (R356). -/
def loadGroup : List ((FmtM → Instr) × Bool) := [(.ld, true), (.ldu, false), (.lda, true)]
/-- The stores (R356). -/
def storeGroup : List (FmtM → Instr) := [.st, .stl]

/-- The address of a format-M form (R354). -/
def effective (f : FmtM) (base : Word) : Word := base + f.i.signExtend 64
/-- A load's value from an n-byte number (R356, R339). -/
def extended (signed : Bool) (n v : Nat) : Word := if signed then (BitVec.ofNat (8 * n) v).signExtend 64 else BitVec.ofNat 64 v

/-- The registers of a load. -/
def useLoad (f : FmtM) : Form := { q := f.q, reads := [f.b], drops := dropIf f.x f.b, dest := some f.d }
/-- The registers of a store: d names the data. -/
def useStore (f : FmtM) : Form := { q := f.q, reads := [f.d, f.b], drops := dropIf f.x f.b }

/-- The value that stands where an access is served. -/
def valueAt (s : State) (t : Target) (n : Nat) : Nat :=
  match t with
  | .mem pa => leAt s.mem pa n
  | .regs sl => s.readCell sl

/-- What the atomics make of the old value and the operand (Table 14.4); AMOCAS stands apart. -/
def atomicGroup : List ((FmtAmo → Instr) × ((n : Nat) → BitVec n → BitVec n → BitVec n)) :=
  [(.amoadd, fun _ o v => o + v), (.amoand, fun _ o v => o &&& v), (.amoor, fun _ o v => o ||| v), (.amoxor, fun _ o v => o ^^^ v),
   (.amomin, fun _ o v => if v.toInt < o.toInt then v else o), (.amomax, fun _ o v => if o.toInt < v.toInt then v else o),
   (.amominu, fun _ o v => if v.toNat < o.toNat then v else o), (.amomaxu, fun _ o v => if o.toNat < v.toNat then v else o),
   (.amoswp, fun _ _ v => v)]

/-- Bytes of an atomic (R360). -/
def atomicBytes (f : FmtAmo) : Nat := if f.z then 8 else 4
/-- The registers of an atomic that reads a and b. -/
def useAtomic (f : FmtAmo) : Form :=
  { q := f.q, reads := [f.a, f.b], drops := dropIf f.x f.a ++ dropIf f.y f.b, dest := some f.d }
/-- The registers of AMOCAS, which reads d too. -/
def useCas (f : FmtAmo) : Form :=
  { q := f.q, reads := [f.a, f.b, f.d], drops := dropIf f.x f.a ++ dropIf f.y f.b, dest := some f.d }

/-- The state after an atomic at pa has written a new value, and its turn in an order log has been recorded. -/
def afterAtomic (s : State) (pa n v : Nat) : State := (s.withMem (s.mem.put pa n v)).atomicAt pa s.agentHere

/-- The outcome of a word that takes a local trap at core c of a running row (R230, R232), its access, if it has made one, having left
s': the core has stopped and recorded the cause, address and information with the word's ordinal, its registers and their liveness
are as they were, the row begins to stop, no other core or row of s' has changed, and only the core's trace may have written memory. -/
def TrapsAt (s s' : State) (c : CoreId) (o : Out) (cause : BitVec 8) (addr info : Word) : Prop :=
  ∃ t, o = .next t ∧
    (t.core s.cur.m c).stopped = true ∧ (t.core s.cur.m c).trap.cause = cause ∧ (t.core s.cur.m c).trap.xaddr = addr ∧
    (t.core s.cur.m c).trap.xinfo = info ∧ (t.core s.cur.m c).trap.xord = s.cur.word.ord ∧
    (t.row s.cur.m).phase = .stopping none ∧
    (∀ r, (t.core s.cur.m c).read r = (s.core s.cur.m c).read r ∧ (t.core s.cur.m c).isLive r = (s.core s.cur.m c).isLive r) ∧
    (∀ d : CoreId, d ≠ c → t.core s.cur.m d = s'.core s.cur.m d) ∧
    (∀ m, m ≠ s.cur.m → t.row m = s'.row m) ∧
    ((s.core s.cur.m c).trace.en = false → ∀ a, t.mem.byte a = s.mem.byte a)

/-- The outcome of a Q = 1 word that takes a trap at the row fetch unit of a running row (R230, R232), its access having left s': the unit
has stopped and recorded the cause, address and information with the word's ordinal, the row registers, the cores and the other rows are
as s' has them, the row begins to stop, and no byte of memory has changed. -/
def TrapsAtRfu (s s' : State) (o : Out) (cause : BitVec 8) (addr info : Word) : Prop :=
  ∃ t, o = .next t ∧
    (t.row s.cur.m).stopped = true ∧ (t.row s.cur.m).trap.cause = cause ∧ (t.row s.cur.m).trap.xaddr = addr ∧
    (t.row s.cur.m).trap.xinfo = info ∧ (t.row s.cur.m).trap.xord = s.cur.word.ord ∧
    (t.row s.cur.m).phase = .stopping none ∧ (t.row s.cur.m).q = (s.row s.cur.m).q ∧ (t.row s.cur.m).pc = (s.row s.cur.m).pc ∧
    (∀ d : CoreId, t.core s.cur.m d = s'.core s.cur.m d) ∧ (∀ m, m ≠ s.cur.m → t.row m = s'.row m) ∧
    ∀ a, t.mem.byte a = s.mem.byte a

end Sys2Proof.Machine.Claim

/-- R354, R355, R356, R341: a load whose access is allowed leaves s[d], or q[d], awaiting the little-endian value of its size,
sign- or zero-extended; its base register is dead if dropped, and no byte of memory changes. -/
def Obligations.LoadsComplete : Prop :=
  (∀ p ∈ loadGroup, ∀ (f : FmtM) (s s' : State) (c : CoreId) (t : Target), f.q = false → s.cur.p = placeOfCore c →
    s.ready c (useLoad f) = true →
    s.checkAccess s.agentHere (effective f ((s.core s.cur.m c).read f.b)) (2 ^ f.s.toNat) .load = (s', .ok t) →
    LoadsAt s s' c (exec (p.1 f) s) f.d (extended p.2 (2 ^ f.s.toNat) (valueAt s' t (2 ^ f.s.toNat))) (dropIf f.x f.b) ∧
      s'.mem = s.mem) ∧
  (∀ p ∈ loadGroup, ∀ (f : FmtM) (s s' : State) (t : Target), f.q = true → s.cur.p = rfuPlace →
    s.readyRfu (useLoad f) = true →
    s.checkAccess s.agentHere (effective f ((s.row s.cur.m).readQ f.b)) (2 ^ f.s.toNat) .load = (s', .ok t) →
    LoadsAtRfu s s' (exec (p.1 f) s) f.d (extended p.2 (2 ^ f.s.toNat) (valueAt s' t (2 ^ f.s.toNat))) ∧ s'.mem = s.mem)

/-- R356: a store whose access is allowed writes the low bytes of its data register at its address, changes no register but by its
drop, and leaves every byte of memory outside those as it was. -/
def Obligations.StoresComplete : Prop :=
  (∀ i ∈ storeGroup, ∀ (f : FmtM) (s s' : State) (c : CoreId) (pa : Nat), f.q = false → s.cur.p = placeOfCore c →
    s.mem.wf = true → s.ready c (useStore f) = true →
    s.checkAccess s.agentHere (effective f ((s.core s.cur.m c).read f.b)) (2 ^ f.s.toNat) .store = (s', .ok (.mem pa)) →
    ∃ t, ActsAt s (s'.withMem t.mem) c (exec (i f) s) none 0 (dropIf f.x f.b) ∧
      leAt t.mem pa (2 ^ f.s.toNat) = ((s.core s.cur.m c).read f.d).toNat % 256 ^ 2 ^ f.s.toNat ∧
      (∀ a, a < pa ∨ pa + 2 ^ f.s.toNat ≤ a → t.mem.byte a = s.mem.byte a) ∧ exec (i f) s = .next t) ∧
  (∀ i ∈ storeGroup, ∀ (f : FmtM) (s s' : State) (pa : Nat), f.q = true → s.cur.p = rfuPlace →
    s.mem.wf = true → s.readyRfu (useStore f) = true →
    s.checkAccess s.agentHere (effective f ((s.row s.cur.m).readQ f.b)) (2 ^ f.s.toNat) .store = (s', .ok (.mem pa)) →
    ∃ t, ActsAtRfu s (s'.withMem t.mem) (exec (i f) s) none 0 (wordsOn s 1) ∧
      leAt t.mem pa (2 ^ f.s.toNat) = ((s.row s.cur.m).readQ f.d).toNat % 256 ^ 2 ^ f.s.toNat ∧
      (∀ a, a < pa ∨ pa + 2 ^ f.s.toNat ≤ a → t.mem.byte a = s.mem.byte a) ∧ exec (i f) s = .next t)

/-- R358, R359, R360: an atomic whose access is allowed and whose turn it is writes at its home what Table 14.4 makes of the old value
and s[b], and s[d] awaits the old value, sign-extended; AMOCAS writes only where the old value equals s[d]; with Q = 1 the row fetch
unit does the same with its q registers. -/
def Obligations.AtomicsComplete : Prop :=
  (∀ p ∈ atomicGroup, ∀ (f : FmtAmo) (s s' : State) (c : CoreId) (pa : Nat), f.q = false → s.cur.p = placeOfCore c →
    s.ready c (useAtomic f) = true →
    s.checkAccess s.agentHere ((s.core s.cur.m c).read f.a) (atomicBytes f) .atomic = (s', .ok (.mem pa)) →
    s'.atomicTurn pa s'.agentHere = true →
    LoadsAt s (afterAtomic s' pa (atomicBytes f)
        (p.2 (8 * atomicBytes f) (BitVec.ofNat _ (leAt s'.mem pa (atomicBytes f)))
          (((s.core s.cur.m c).read f.b).setWidth _)).toNat) c (exec (p.1 f) s) f.d
      (extended true (atomicBytes f) (leAt s'.mem pa (atomicBytes f))) (dropIf f.x f.a ++ dropIf f.y f.b)) ∧
  (∀ (f : FmtAmo) (s s' : State) (c : CoreId) (pa : Nat), f.q = false → s.cur.p = placeOfCore c →
    s.ready c (useCas f) = true →
    s.checkAccess s.agentHere ((s.core s.cur.m c).read f.a) (atomicBytes f) .atomic = (s', .ok (.mem pa)) →
    s'.atomicTurn pa s'.agentHere = true →
    LoadsAt s (if leAt s'.mem pa (atomicBytes f) = ((s.core s.cur.m c).read f.d).toNat % 256 ^ atomicBytes f
        then afterAtomic s' pa (atomicBytes f) (((s.core s.cur.m c).read f.b).toNat % 256 ^ atomicBytes f)
        else s'.atomicAt pa s'.agentHere) c (exec (.amocas f) s) f.d
      (extended true (atomicBytes f) (leAt s'.mem pa (atomicBytes f))) (dropIf f.x f.a ++ dropIf f.y f.b)) ∧
  (∀ p ∈ atomicGroup, ∀ (f : FmtAmo) (s s' : State) (pa : Nat), f.q = true → s.cur.p = rfuPlace →
    s.readyRfu (useAtomic f) = true →
    s.checkAccess s.agentHere ((s.row s.cur.m).readQ f.a) (atomicBytes f) .atomic = (s', .ok (.mem pa)) →
    s'.atomicTurn pa s'.agentHere = true →
    LoadsAtRfu s (afterAtomic s' pa (atomicBytes f)
        (p.2 (8 * atomicBytes f) (BitVec.ofNat _ (leAt s'.mem pa (atomicBytes f)))
          (((s.row s.cur.m).readQ f.b).setWidth _)).toNat) (exec (p.1 f) s) f.d
      (extended true (atomicBytes f) (leAt s'.mem pa (atomicBytes f)))) ∧
  (∀ (f : FmtAmo) (s s' : State) (pa : Nat), f.q = true → s.cur.p = rfuPlace → s.readyRfu (useCas f) = true →
    s.checkAccess s.agentHere ((s.row s.cur.m).readQ f.a) (atomicBytes f) .atomic = (s', .ok (.mem pa)) →
    s'.atomicTurn pa s'.agentHere = true →
    LoadsAtRfu s (if leAt s'.mem pa (atomicBytes f) = ((s.row s.cur.m).readQ f.d).toNat % 256 ^ atomicBytes f
        then afterAtomic s' pa (atomicBytes f) (((s.row s.cur.m).readQ f.b).toNat % 256 ^ atomicBytes f)
        else s'.atomicAt pa s'.agentHere) (exec (.amocas f) s) f.d
      (extended true (atomicBytes f) (leAt s'.mem pa (atomicBytes f))))

namespace Sys2Proof.Machine.Claim

/-- A table entry that is not valid or has a reserved field that is not zero (Table 6.3, R175). -/
abbrev BadEntry (e : Nat) : Prop := e % 2 = 0 ∨ e / 2 ^ 4 % 16 ≠ 0 ∨ e / 2 ^ 40 % 2 ^ 16 ≠ 0
/-- The L bit of a table entry (Table 6.3). -/
abbrev Leaf (e : Nat) : Prop := e / 2 % 2 = 1
/-- The address that a table entry gives: bits 39 to 8 (Table 6.3). -/
def entryAddr (e : Nat) : Nat := e / 2 ^ 8 % 2 ^ 32 * 2 ^ 8

/-- A level of Table 6.2: its lowest index bit, its entries, the bytes of a table of the level below (0 for none) and the bytes that its
leaf maps (0 for none). -/
structure TableLevel where
  lo : Nat
  entries : Nat
  below : Nat
  page : Nat

/-- The four levels of Table 6.2. -/
def tableLevels : List TableLevel := [⟨39, 8192, 65536, 0⟩, ⟨26, 8192, 256, 2 ^ 26⟩, ⟨21, 32, 256, 2 ^ 21⟩, ⟨16, 32, 0, 2 ^ 16⟩]

/-- The address of the entry that a walk for va reads in a table at t, and the end of the table (R173). -/
def TableLevel.at (v : TableLevel) (t va : Nat) : Nat := t + 8 * (va / 2 ^ v.lo % v.entries)
def TableLevel.tableEnd (v : TableLevel) (t : Nat) : Nat := t + 8 * v.entries

/-- What a walk for va meets at a table of a level (R174, R175). -/
inductive Meets (mem : Memory) (va : Nat) (v : TableLevel) (t : Nat) : Except Cause (Nat ⊕ Nat × Nat) → Prop
  | outside : hbmEnd < v.tableEnd t → Meets mem va v t (.error .xlate)
  | poison : v.tableEnd t ≤ hbmEnd → mem.poisoned (v.at t va) 8 = true → Meets mem va v t (.error .poison)
  | bad : v.tableEnd t ≤ hbmEnd → mem.poisoned (v.at t va) 8 = false → BadEntry (leAt mem (v.at t va) 8) → Meets mem va v t (.error .xlate)
  | badLeaf : v.tableEnd t ≤ hbmEnd → mem.poisoned (v.at t va) 8 = false → Leaf (leAt mem (v.at t va) 8) →
      (v.page = 0 ∨ entryAddr (leAt mem (v.at t va) 8) % v.page ≠ 0 ∨ hbmEnd < entryAddr (leAt mem (v.at t va) 8) + v.page) →
      Meets mem va v t (.error .xlate)
  | badPointer : v.tableEnd t ≤ hbmEnd → mem.poisoned (v.at t va) 8 = false → ¬Leaf (leAt mem (v.at t va) 8) →
      (v.below = 0 ∨ entryAddr (leAt mem (v.at t va) 8) % v.below ≠ 0) → Meets mem va v t (.error .xlate)
  | pointer : v.tableEnd t ≤ hbmEnd → mem.poisoned (v.at t va) 8 = false → ¬BadEntry (leAt mem (v.at t va) 8) →
      ¬Leaf (leAt mem (v.at t va) 8) → v.below ≠ 0 → entryAddr (leAt mem (v.at t va) 8) % v.below = 0 →
      Meets mem va v t (.ok (.inl (entryAddr (leAt mem (v.at t va) 8))))
  | leaf : v.tableEnd t ≤ hbmEnd → mem.poisoned (v.at t va) 8 = false → ¬BadEntry (leAt mem (v.at t va) 8) →
      Leaf (leAt mem (v.at t va) 8) → v.page ≠ 0 → entryAddr (leAt mem (v.at t va) 8) % v.page = 0 →
      entryAddr (leAt mem (v.at t va) 8) + v.page ≤ hbmEnd →
      Meets mem va v t (.ok (.inr (entryAddr (leAt mem (v.at t va) 8) + va % v.page, leAt mem (v.at t va) 8)))

/-- What a walk from a table downward comes to: a cause, or the physical address and the leaf's entry (R175). -/
inductive Walks (mem : Memory) (va : Nat) : List TableLevel → Nat → Except Cause (Nat × Nat) → Prop
  | stop {v rest t x} : Meets mem va v t (.error x) → Walks mem va (v :: rest) t (.error x)
  | leaf {v rest t pa e} : Meets mem va v t (.ok (.inr (pa, e))) → Walks mem va (v :: rest) t (.ok (pa, e))
  | down {v rest t t' r} : Meets mem va v t (.ok (.inl t')) → Walks mem va rest t' r → Walks mem va (v :: rest) t r

/-- No TLB entry that the agent sees maps va for its launch's root. -/
abbrev TlbMisses (s : State) (ag : Agent) (root va : Nat) : Prop :=
  (∀ e ∈ s.dieTlb[dieIx ag.m], e.maps root va = false) ∧
  ∀ c, ag.unit = .core c → ∀ e ∈ (s.core ag.m c).tlb, e.maps root va = false

/-- Offsets of the registers of Table 6.6. -/
def cellRegisterOffsets : List Nat := [0, 8, 0x10, 0x18] ++ (List.range 32).map fun n => 0x80 + 8 * n

/-- Something outside the cell holds an access at offset o of the slices back: an edge on the way to the slice's die is down, or that die,
which is not the agent's own, is halted (R21, R64). -/
def cutOff (s : State) (m : RowId) (o : Nat) : Bool :=
  (s.hub.cutEdge (dieOf m) (o / 2 ^ 29)).isSome ||
    (decide (dieOf m ≠ o / 2 ^ 29) && (s.hub.thermal[Fin.ofNat 5 (o / 2 ^ 29)]).halted)

end Sys2Proof.Machine.Claim

/-- R8, R9, R171, R172, R173, R174, R175, R176, R183, R355: the checks of an access in their order: alignment first, then an address above
52 bits, a fetch or an address in a slice of no core, then a row that the launch neither holds nor has been given. In the slice window, with
the bank FULL, the access waits while an edge on the way to the slice's die is down or that die is halted, or while its row has no line
left in the cell's budget and it holds none that was served to it (the model's choices, log entries 39, 61 and 67); otherwise a store is
allowed, a read or atomic of a dead line gives DROPRD, of a poisoned line POISON, and any other is allowed, at the slice's own bytes. In
the cell register window an offset that is not listed gives XLATE, an atomic PERM, any size but 8 bytes ALIGN. Anywhere else, where no TLB
entry maps the address, the four-level walk of Tables 6.2 and 6.3 decides: its faults and poison are the access's, and leave no entry; a
store or atomic without W and a fetch without X give PERM; any other reaches the leaf's page at the address's offset. -/
def Obligations.AccessChecks : Prop :=
  (∀ (s : State) (ag : Agent) (ea : Word) (w : Nat) (kind : Kind),
    let o := ea.toNat - sliceBase
    (ea.toNat % w ≠ 0 → (s.checkAccess ag ea w kind).2 = .fail .align) ∧
    (ea.toNat % w = 0 → 2 ^ 52 ≤ ea.toNat → (s.checkAccess ag ea w kind).2 = .fail .xlate) ∧
    (ea.toNat % w = 0 → sliceBase ≤ ea.toNat → ea.toNat < sliceBase + 2 ^ 32 →
      (sliceOf o = none → (s.checkAccess ag ea w kind).2 = .fail .xlate) ∧
      (kind = .fetch → (s.checkAccess ag ea w kind).2 = .fail .xlate) ∧
      (∀ sl, sliceOf o = some sl → kind ≠ .fetch →
        ((s.row sl.m).lid ≠ some ag.lid → (s.row sl.m).suspended ≠ some ag.lid → s.given ag.lid sl.m = false →
          (s.checkAccess ag ea w kind).2 = .fail .perm) ∧
        ((s.row sl.m).lid = some ag.lid → (s.row sl.m).suspended = none →
          ((s.core sl.m sl.c).mcells[sl.mi].banks[bankOf (s.core sl.m sl.c).mcells[sl.mi].hxm sl.off]).st = .full →
          (s.checkAccess ag ea w kind).2 =
            if ag.row.any fun m => cutOff s m o ||
                (!s.hub.budgets.held.contains (ag.req kind.code (spadBase + o)) && s.hub.budgets.full m (arbiterOf (spadBase + o)))
              then .wait
            else if kind = .store then .ok (.mem (spadBase + o))
            else if s.mem.dead (spadBase + o) w then .fail .dropRd
            else if s.mem.poisoned (spadBase + o) w then .fail .poison
            else .ok (.mem (spadBase + o)))))) ∧
  (∀ (s : State) (ag : Agent) (ea : Word) (w : Nat) (kind : Kind),
    let o := ea.toNat - cellRegBase
    ea.toNat % w = 0 → cellRegBase ≤ ea.toNat → ea.toNat < cellRegBase + 2 ^ 32 →
    (sliceOf o = none → (s.checkAccess ag ea w kind).2 = .fail .xlate) ∧
    (kind = .fetch → (s.checkAccess ag ea w kind).2 = .fail .xlate) ∧
    (∀ sl, sliceOf o = some sl → kind ≠ .fetch →
      (sl.mi ≠ 0 → sl.off / 8 * 8 ∉ cellRegisterOffsets → (s.checkAccess ag ea w kind).2 = .fail .xlate) ∧
      (sl.off / 8 * 8 ∈ cellRegisterOffsets →
        ((s.row sl.m).lid ≠ some ag.lid → (s.row sl.m).suspended ≠ some ag.lid → s.given ag.lid sl.m = false →
          (s.checkAccess ag ea w kind).2 = .fail .perm) ∧
        ((s.row sl.m).lid = some ag.lid → (s.row sl.m).suspended = none →
          (s.checkAccess ag ea w kind).2 =
            if kind = .atomic then .fail .perm
            else if w ≠ 8 then .fail .align
            else if ag.row.any fun m => cutOff s m o then .wait
            else .ok (.regs sl))))) ∧
  (∀ (s s1 : State) (ag : Agent) (ea : Word) (w : Nat) (kind : Kind) (l : Launch),
    let root := l.root.toNat / 2 ^ 16 % 2 ^ 24
    let reads := walkReads s.mem ea.toNat levels (root * 2 ^ 16)
    ea.toNat % w = 0 → ea.toNat < 2 ^ 52 → ¬(sliceBase ≤ ea.toNat ∧ ea.toNat < sliceBase + 2 ^ 32) →
    ¬(cellRegBase ≤ ea.toNat ∧ ea.toNat < cellRegBase + 2 ^ 32) →
    s.launch ag.lid = some l → TlbMisses s ag root ea.toNat → s.askWalk ag reads = (s1, true) →
    (∀ x, Walks s.mem ea.toNat tableLevels (root * 2 ^ 16) (.error x) →
      s.checkAccess ag ea w kind = (s1.usedLines ag 4 reads, .fail x)) ∧
    (∀ pa e, Walks s.mem ea.toNat tableLevels (root * 2 ^ 16) (.ok (pa, e)) →
      ((kind = .store ∨ kind = .atomic) → e / 2 ^ 2 % 2 = 0 → (s.checkAccess ag ea w kind).2 = .fail .perm) ∧
      (kind = .fetch → e / 2 ^ 3 % 2 = 0 → (s.checkAccess ag ea w kind).2 = .fail .perm) ∧
      (((kind = .store ∨ kind = .atomic) → e / 2 ^ 2 % 2 = 1) → (kind = .fetch → e / 2 ^ 3 % 2 = 1) →
        (s.reachAddr ag ea w kind).2 = .ok (.mem pa) ∧
        (ag.row = none → (s.checkAccess ag ea w kind).2 =
          if kind = .store then .ok (.mem pa) else if s.mem.poisoned pa w then .fail .poison else .ok (.mem pa)))))

/-- R118, R230, R232, R355, R358: on a running row a ready load, store or atomic that its check refuses traps with the cause, the address
and the access kind, at a core and, with Q = 1, at the row fetch unit, and a word that reads one dead register traps DEADREG and names
it. -/
def Obligations.LocalTraps : Prop :=
  (∀ p ∈ loadGroup, ∀ (f : FmtM) (s s' : State) (c : CoreId) (x : Cause), f.q = false → s.cur.p = placeOfCore c →
    (s.row s.cur.m).phase = .running → s.ready c (useLoad f) = true →
    s.checkAccess s.agentHere (effective f ((s.core s.cur.m c).read f.b)) (2 ^ f.s.toNat) .load = (s', .fail x) →
    TrapsAt s s' c (exec (p.1 f) s) (BitVec.ofNat 8 x.code) (effective f ((s.core s.cur.m c).read f.b)) 0) ∧
  (∀ i ∈ storeGroup, ∀ (f : FmtM) (s s' : State) (c : CoreId) (x : Cause), f.q = false → s.cur.p = placeOfCore c →
    (s.row s.cur.m).phase = .running → s.ready c (useStore f) = true →
    s.checkAccess s.agentHere (effective f ((s.core s.cur.m c).read f.b)) (2 ^ f.s.toNat) .store = (s', .fail x) →
    TrapsAt s s' c (exec (i f) s) (BitVec.ofNat 8 x.code) (effective f ((s.core s.cur.m c).read f.b)) 1) ∧
  (∀ p ∈ atomicGroup, ∀ (f : FmtAmo) (s s' : State) (c : CoreId) (x : Cause), f.q = false → s.cur.p = placeOfCore c →
    (s.row s.cur.m).phase = .running → s.ready c (useAtomic f) = true →
    s.checkAccess s.agentHere ((s.core s.cur.m c).read f.a) (atomicBytes f) .atomic = (s', .fail x) →
    TrapsAt s s' c (exec (p.1 f) s) (BitVec.ofNat 8 x.code) ((s.core s.cur.m c).read f.a) 2) ∧
  (∀ p ∈ loadGroup, ∀ (f : FmtM) (s s' : State) (x : Cause), f.q = true → s.cur.p = rfuPlace →
    (s.row s.cur.m).phase = .running → s.readyRfu (useLoad f) = true →
    s.checkAccess s.agentHere (effective f ((s.row s.cur.m).readQ f.b)) (2 ^ f.s.toNat) .load = (s', .fail x) →
    TrapsAtRfu s s' (exec (p.1 f) s) (BitVec.ofNat 8 x.code) (effective f ((s.row s.cur.m).readQ f.b)) 0) ∧
  (∀ i ∈ storeGroup, ∀ (f : FmtM) (s s' : State) (x : Cause), f.q = true → s.cur.p = rfuPlace →
    (s.row s.cur.m).phase = .running → s.readyRfu (useStore f) = true →
    s.checkAccess s.agentHere (effective f ((s.row s.cur.m).readQ f.b)) (2 ^ f.s.toNat) .store = (s', .fail x) →
    TrapsAtRfu s s' (exec (i f) s) (BitVec.ofNat 8 x.code) (effective f ((s.row s.cur.m).readQ f.b)) 1) ∧
  (∀ p ∈ registerGroup, ∀ (f : FmtA) (s : State) (c : CoreId), f.q = false → s.cur.p = placeOfCore c →
    (s.row s.cur.m).phase = .running → (s.core s.cur.m c).active = true →
    (s.core s.cur.m c).pend = [] → (s.core s.cur.m c).isLive f.a = false → (s.core s.cur.m c).isLive f.b = true →
    TrapsAt s s c (exec (p.1 f) s) 0x02 0 (f.a.setWidth 64))

namespace Sys2Proof.Machine.Claim

/-- The words that a muted core passes on without acting: all that run at cores but CIF, CELSE, CEND, HALT and ERET (R113). -/
def passedMuted : Instr → Bool
  | .add f | .sub f | .mul f | .mulh f | .mulhu f | .div f | .divu f | .rem f | .remu f | .andR f | .orR f | .xorR f | .shl f
  | .shr f | .sra f | .minR f | .maxR f | .minu f | .maxu f | .clz f | .popc f | .sel f | .slt f | .sltu f | .seq f | .poste f
  | .posteRel f | .getw f | .nop f | .tbr f => !f.q
  | .addi f | .andi f | .ori f | .xori f | .shli f | .shri f | .srai f | .lui f | .lea f | .trapW f | .brk f => !f.q
  | .ld f | .ldu f | .st f | .lda f | .stl f | .fence f => !f.q
  | .amoadd f | .amoand f | .amoor f | .amoxor f | .amomin f | .amomax f | .amominu f | .amomaxu f | .amoswp f | .amocas f => !f.q
  | .csrr f | .csrw f => !f.q
  | .rcfg _ | .rstart _ | .rswitch _ | .rwait _ | .tnext _ | .bank _ | .drop _ => true
  | .hset _ | .waitf _ | .waite _ | .advh _ | .advt _ | .hcnt _ | .cmd _ _ | .cmdm _ | .waitc _ | .ecnt _ => true
  | .rowall _ | .rowany _ | .rowsum _ => true
  | _ => false

end Sys2Proof.Machine.Claim

/-- R113, R341: a muted core passes on every word but CIF, CELSE, CEND, HALT and ERET (arithmetic, loads, stores, atomics, posts, row
reductions with what they have collected, ring, command, region and system words) with the post it would have sent, and does nothing
else, or waits for room to its east; a word of the register group that names a register with a pending write waits. -/
def Obligations.MutedAndWaiting : Prop :=
  (∀ (i : Instr) (s : State) (c : CoreId), passedMuted i = true → s.cur.p = placeOfCore c → (s.core s.cur.m c).active = false →
    exec i s = .next (if (s.row s.cur.m).roomEast c then s.issued c (s.core s.cur.m c) else s)) ∧
  (∀ p ∈ registerGroup, ∀ (f : FmtA) (s : State) (c : CoreId), f.q = false → s.cur.p = placeOfCore c →
    (s.core s.cur.m c).active = true → (s.core s.cur.m c).quiet [f.a, f.b, f.d] = false → exec (p.1 f) s = .next s)

namespace Sys2Proof.Machine.Claim

/-! ### Rings -/

/-- The descriptor address that a handle of core c is bound to. -/
def bound (s : State) (c : CoreId) (h : BitVec 4) : Word := (s.core s.cur.m c).h[h.toFin]

/-- The registers of a ring form that reads its count from a. -/
def useCount (f : FmtRing) : Form := { q := false, reads := [f.a], drops := dropIf f.x f.a }

/-- The count in s[a]. -/
def count (s : State) (c : CoreId) (f : FmtRing) : Nat := ((s.core s.cur.m c).read f.a).toNat

/-- The ring form's access to its bound descriptor is allowed at pa, where a well-formed descriptor r stands. -/
def Reaches (s s' : State) (c : CoreId) (f : FmtRing) (kind : Kind) (pa : Nat) (r : Ring) : Prop :=
  bound s c f.h ≠ 0 ∧ s.checkAccess s.agentHere (bound s c f.h) 64 kind = (s', .ok (.mem pa)) ∧ s'.ringAt pa = some r

/-- The ring form's access to its bound descriptor is allowed, and what stands there is malformed (R191). -/
def Malformed (s s' : State) (c : CoreId) (f : FmtRing) (kind : Kind) : Prop :=
  bound s c f.h ≠ 0 ∧ ∃ pa, s.checkAccess s.agentHere (bound s c f.h) 64 kind = (s', .ok (.mem pa)) ∧ s'.ringAt pa = none

/-- The registers of HCNT. -/
def useHcnt (f : FmtRing) : Form := { q := false, reads := [], dest := some f.d }

/-- HSET's address is misaligned or in no slice, or what stands there is no well-formed descriptor (R361, R362). -/
def BadBinding (s s' : State) (v : Word) : Prop :=
  v ≠ 0 ∧ (((v.toNat % 64 ≠ 0 ∨ namesSlice v.toNat = false) ∧ s' = s) ∨
    (v.toNat % 64 = 0 ∧ namesSlice v.toNat = true ∧
      ∃ pa, s.checkAccess s.agentHere v 64 .load = (s', .ok (.mem pa)) ∧ s'.ringAt pa = none))

/-! ### Stream commands at issue -/

/-- The sequencer words' engine. -/
def engineNo (e : BitVec 2) : Fin 4 := e.toFin

/-- The operations that one launch has on an engine of a core. -/
def queued (k : Core) (e : Fin 4) (lid : BitVec 16) : Nat := (k.ops.filter fun o => o.engine == e && o.lid == lid).length

/-- A command after its word's substitutions (R365, Table 12.7): SA replaces ADDR, except in CMDM, SB the low 25 bits of ARG, HS
the handle HA; every other bit is the command's. -/
def Substituted (f : FmtC) (cmdm : Bool) (old new : BitVec 128) (a b : Word) : Prop :=
  new.extractLsb' 0 64 = (if f.f && !cmdm then a else old.extractLsb' 0 64) ∧
  new.extractLsb' 64 25 = (if f.g then b.extractLsb' 0 25 else old.extractLsb' 64 25) ∧
  new.extractLsb' 89 19 = old.extractLsb' 89 19 ∧
  new.extractLsb' 108 4 = (if f.j then f.h else old.extractLsb' 108 4) ∧
  new.extractLsb' 112 16 = old.extractLsb' 112 16

/-- The registers of CMD: a and b are read only where they are substituted. -/
def useCmd (f : FmtC) : Form :=
  { q := false, reads := dropIf f.f f.a ++ dropIf f.g f.b, drops := dropIf (f.x && f.f) f.a ++ dropIf (f.y && f.g) f.b }
/-- The registers of CMDM, which always reads a. -/
def useCmdm (f : FmtC) : Form :=
  { q := false, reads := f.a :: dropIf f.g f.b, drops := dropIf f.x f.a ++ dropIf (f.y && f.g) f.b }

/-- The outcome of an issue: a new operation stands last on the core, forked with its command, engine and launch, its handles
and walk slots as the core holds them now; nothing else of the core but its registers has changed (R124, R362, R378). -/
def Forks (s s' : State) (c : CoreId) (f : FmtC) (cmdm : Bool) (cmd : BitVec 128) (addr : Word) (o : Out)
    (drops : List (BitVec 5)) : Prop :=
  ∃ x : Op, x.id = (s'.core s.cur.m c).nextOp ∧ x.engine = engineNo f.e ∧ x.lid = s.agentHere.lid ∧ x.phase = .forked ∧
    x.cmdAddr = addr ∧ Substituted f cmdm cmd x.cmd ((s.core s.cur.m c).read f.a) ((s.core s.cur.m c).read f.b) ∧
    (let w := commandOf x.cmd
     x.ha = (if (s'.core s.cur.m c).h[w.ha.toFin] = 0 then none else some (s'.core s.cur.m c).h[w.ha.toFin]) ∧
     x.hb = (if (s'.core s.cur.m c).h[w.hb.toFin] = 0 then none else some (s'.core s.cur.m c).h[w.hb.toFin]) ∧
     x.wa = (s'.core s.cur.m c).w[w.wa.toFin] ∧ x.wb = (s'.core s.cur.m c).w[w.wb.toFin]) ∧
    ActsAt s (s'.modCore s.cur.m c fun k => { k with ops := k.ops ++ [x], nextOp := k.nextOp + 1 }) c o none 0 drops

/-- No operation that would set a walk slot is outstanding on the core. -/
def noPset (k : Core) : Bool := k.ops.all fun o => o.psetSlot.isNone

end Sys2Proof.Machine.Claim

/-- R121, R122, R362, R363, R364, Table 4.8: HSET binds a handle to a well-formed descriptor that the launch may read, and zero
unbinds it; WAITF and WAITE on a reachable ring complete once the ring has the slots they ask for, without changing it, and wait
while it has not, their look at its home being no request that is counted (the model's choice, log entry 61); HCNT reads both counts. -/
def Obligations.HandlesAndRingWaits : Prop :=
  (∀ (f : FmtRing) (s s' : State) (c : CoreId), s.cur.p = placeOfCore c → s.ready c (useCount f) = true →
      (((s.core s.cur.m c).read f.a = 0 ∧ s' = s) ∨
       (((s.core s.cur.m c).read f.a).toNat % 64 = 0 ∧ namesSlice ((s.core s.cur.m c).read f.a).toNat = true ∧
        (s.core s.cur.m c).read f.a ≠ 0 ∧
        ∃ pa r, s.checkAccess s.agentHere ((s.core s.cur.m c).read f.a) 64 .load = (s', .ok (.mem pa)) ∧ s'.ringAt pa = some r)) →
      ActsAt s (s'.modCore s.cur.m c fun k => { k with h := k.h.set f.h.toFin ((s.core s.cur.m c).read f.a) }) c
        (exec (.hset f) s) none 0 (dropIf f.x f.a)) ∧
  (∀ (f : FmtRing) (s s' : State) (c : CoreId) (pa : Nat) (r : Ring), s.cur.p = placeOfCore c → Reaches s s' c f .load pa r →
      (s.ready c (useCount f) = true → count s c f ≤ r.slots →
        (count s c f ≤ r.filled → ActsAt s s' c (exec (.waitf f) s) none 0 (dropIf f.x f.a)) ∧
        (r.filled < count s c f → exec (.waitf f) s = .next s) ∧
        (count s c f ≤ r.free → ActsAt s s' c (exec (.waite f) s) none 0 (dropIf f.x f.a)) ∧
        (r.free < count s c f → exec (.waite f) s = .next s)) ∧
      (s.ready c (useHcnt f) = true →
        ActsAt s s' c (exec (.hcnt f) s) (some f.d) (BitVec.ofNat 64 (r.filled * 2 ^ 32 + r.free)) []))

/-- R122, R123, R363, Table 4.8: outside a replay, ADVH moves the head on and turns filled slots into free ones, ADVT
moves the tail on and turns free slots into filled ones; the descriptor stays well-formed, and no byte of memory outside its
four counts changes. -/
def Obligations.RingAdvances : Prop :=
  ∀ (f : FmtRing) (s s' : State) (c : CoreId) (pa : Nat) (r : Ring), s.cur.p = placeOfCore c → s.mem.wf = true →
    s.ready c (useCount f) = true → Reaches s s' c f .atomic pa r → s.hub.ck.replay = false →
    (count s c f ≤ r.filled →
      ∃ t, exec (.advh f) s = .next t ∧
        t.ringAt pa = some { r with head := if count s c f = 0 then r.head else (r.head + count s c f) % r.slots
                                    filled := r.filled - count s c f, free := r.free + count s c f } ∧
        ∀ a, a < pa + 16 ∨ pa + 32 ≤ a → t.mem.byte a = s.mem.byte a) ∧
    (count s c f ≤ r.free →
      ∃ t, exec (.advt f) s = .next t ∧
        t.ringAt pa = some { r with tail := if count s c f = 0 then r.tail else (r.tail + count s c f) % r.slots
                                    filled := r.filled + count s c f, free := r.free - count s c f } ∧
        ∀ a, a < pa + 16 ∨ pa + 32 ≤ a → t.mem.byte a = s.mem.byte a)

/-- R361, R362, R363, Table 4.8: on a running row a ring form on an unbound handle, on a malformed descriptor or with a count above
what the ring allows traps RINGERR with the descriptor's address and the handle; so does HSET of an address that is misaligned, in no
slice or of no well-formed descriptor, which leaves the handle bound as it was. -/
def Obligations.RingErrors : Prop :=
  (∀ (f : FmtRing) (s : State) (c : CoreId), s.cur.p = placeOfCore c → (s.row s.cur.m).phase = .running →
    s.ready c (useCount f) = true → bound s c f.h = 0 →
    ∀ i ∈ [Instr.waitf f, .waite f, .advh f, .advt f], TrapsAt s s c (exec i s) 0x08 0 (f.h.setWidth 64)) ∧
  (∀ (f : FmtRing) (s s' : State) (c : CoreId), s.cur.p = placeOfCore c → (s.row s.cur.m).phase = .running →
    s.ready c (useHcnt f) = true →
    (bound s c f.h = 0 → TrapsAt s s c (exec (.hcnt f) s) 0x08 0 (f.h.setWidth 64)) ∧
    (Malformed s s' c f .load → TrapsAt s s' c (exec (.hcnt f) s) 0x08 (bound s c f.h) (f.h.setWidth 64))) ∧
  (∀ (f : FmtRing) (s s' : State) (c : CoreId), s.cur.p = placeOfCore c → (s.row s.cur.m).phase = .running →
    s.ready c (useCount f) = true →
    (Malformed s s' c f .load → ∀ i ∈ [Instr.waitf f, .waite f], TrapsAt s s' c (exec i s) 0x08 (bound s c f.h) (f.h.setWidth 64)) ∧
    (Malformed s s' c f .atomic → ∀ i ∈ [Instr.advh f, .advt f], TrapsAt s s' c (exec i s) 0x08 (bound s c f.h) (f.h.setWidth 64)) ∧
    (BadBinding s s' ((s.core s.cur.m c).read f.a) →
      TrapsAt s s' c (exec (.hset f) s) 0x08 ((s.core s.cur.m c).read f.a) (f.h.setWidth 64) ∧
      ∃ t, exec (.hset f) s = .next t ∧ (t.core s.cur.m c).h = (s.core s.cur.m c).h)) ∧
  (∀ (f : FmtRing) (s s' : State) (c : CoreId) (pa : Nat) (r : Ring), s.cur.p = placeOfCore c →
    (s.row s.cur.m).phase = .running → s.ready c (useCount f) = true →
    (Reaches s s' c f .load pa r → r.slots < count s c f →
      TrapsAt s s' c (exec (.waitf f) s) 0x08 (bound s c f.h) (f.h.setWidth 64) ∧
      TrapsAt s s' c (exec (.waite f) s) 0x08 (bound s c f.h) (f.h.setWidth 64)) ∧
    (Reaches s s' c f .atomic pa r → r.filled < count s c f →
      TrapsAt s s' c (exec (.advh f) s) 0x08 (bound s c f.h) (f.h.setWidth 64)) ∧
    (Reaches s s' c f .atomic pa r → r.free < count s c f →
      TrapsAt s s' c (exec (.advt f) s) 0x08 (bound s c f.h) (f.h.setWidth 64)))

/-- R124, R362, R365, R378: CMD and CMDM, with room in the launch's queue of the engine and no PSET outstanding, fork the command
with its substitutions; CMDM reads the command from memory. -/
def Obligations.CommandsFork : Prop :=
  (∀ (f : FmtC) (lit : BitVec 128) (s : State) (c : CoreId), s.cur.p = placeOfCore c → s.ready c (useCmd f) = true →
    queued (s.core s.cur.m c) (engineNo f.e) s.agentHere.lid < 8 → noPset (s.core s.cur.m c) = true →
    Forks s s c f false lit s.cur.word.addr (exec (.cmd f lit) s) (useCmd f).drops) ∧
  (∀ (f : FmtC) (s s' : State) (c : CoreId) (pa : Nat), s.cur.p = placeOfCore c → s.ready c (useCmdm f) = true →
    ((s.core s.cur.m c).read f.a).toNat % 16 = 0 →
    s.checkAccess s.agentHere ((s.core s.cur.m c).read f.a) 4 .load = (s', .ok (.mem pa)) →
    queued (s.core s.cur.m c) (engineNo f.e) s.agentHere.lid < 8 → noPset (s.core s.cur.m c) = true →
    Forks s s' c f true (BitVec.ofNat 128 (leAt s'.mem pa 16)) ((s.core s.cur.m c).read f.a) (exec (.cmdm f) s) (useCmdm f).drops)

/-- R125, R366: WAITC completes once no more than its count of the launch's operations remain on the engine and waits while more
do; ECNT reads their number. -/
def Obligations.EngineWaitsAndCounts : Prop :=
  (∀ (f : FmtW) (s : State) (c : CoreId), s.cur.p = placeOfCore c → s.ready c { q := false, reads := [] } = true →
    (queued (s.core s.cur.m c) (engineNo f.e) s.agentHere.lid ≤ f.n.toNat →
      queued (s.core s.cur.m c) (engineNo f.e) s.agentHere.lid ≤ 8 →
      ActsAt s s c (exec (.waitc f) s) none 0 []) ∧
    (f.n.toNat < queued (s.core s.cur.m c) (engineNo f.e) s.agentHere.lid → exec (.waitc f) s = .next s)) ∧
  (∀ (f : FmtW) (s : State) (c : CoreId), s.cur.p = placeOfCore c →
    s.ready c { q := false, reads := [], dest := some f.d } = true →
    ActsAt s s c (exec (.ecnt f) s) (some f.d)
      (BitVec.ofNat 64 (queued (s.core s.cur.m c) (engineNo f.e) s.agentHere.lid)) [])

namespace Sys2Proof.Machine.Claim

/-! ### Region words -/

/-- A region word's RCB address, the word's s[a]. -/
def rcbAddr (s : State) (c : CoreId) (f : FmtA0) : Word := (s.core s.cur.m c).read f.a

/-- The RCB lies on a line of a slice of the core's own and the launch may read it at pa (R158, R367). -/
def RcbAt (s s' : State) (c : CoreId) (f : FmtA0) (pa : Nat) : Prop :=
  (rcbAddr s c f).toNat % 128 = 0 ∧ namesSlice (rcbAddr s c f).toNat = true ∧
  (rcbAddr s c f).toNat / 2 ^ 23 = (slicesOf s.cur.m c.val).toNat / 2 ^ 23 ∧
  s.checkAccess s.agentHere (rcbAddr s c f) 8 .load = (s', .ok (.mem pa))

/-- The registers of a region word. -/
def useRcb (f : FmtA0) : Form := { q := false, reads := [f.a], drops := dropIf f.x f.a }
/-- The registers of RWAIT. -/
def useRwait (f : FmtA0) : Form := { q := false, reads := [f.a], drops := dropIf f.x f.a, dest := some f.d }

/-- Word 1 of an RCB keeps its reserved bits clear, VAR is a fold level and DONEA is aligned (Table 5.4). -/
def rcbOk (mem : Memory) (pa : Nat) : Bool :=
  let w := leAt mem (pa + 8) 8
  decide (w / 2 ^ 21 = 0 ∧ w / 2 ^ 7 % 8 = 0 ∧ w / 2 ^ 19 % 4 ≠ 3 ∧ leAt mem (pa + 16) 8 % 8 = 0)

/-! ### System registers -/

/-- The system registers of a core that a read leaves as they are, with their values (Table 4.4). -/
def systemRegisters (s : State) (c : CoreId) : List (Nat × Word) :=
  let k := s.core s.cur.m c
  [(0x00, BitVec.ofNat 64 (s.cur.m.val / 6)), (0x01, BitVec.ofNat 64 (s.cur.m.val % 6)), (0x02, BitVec.ofNat 64 c.val),
   (0x03, BitVec.ofNat 64 s.cur.m.val), (0x10, s.cur.word.ord.setWidth 64), (0x21, k.trap.xord.setWidth 64), (0x22, k.trap.xaddr),
   (0x23, k.trap.xinfo), (0x24, k.trap.xhold), (0x30, s.tb), (0x40, k.trap.hbase), (0x41, k.kidle.setWidth 64),
   (0x50, BitVec.ofNat 64 ((k.live.toNat ||| 1) * 2 ^ 32 + k.banks[0].st.code + 4 * k.banks[1].st.code
      + 16 * k.banks[2].st.code + 64 * k.banks[3].st.code)),
   (0x51, BitVec.ofNat 64 ((if k.active then 16 else 0) + k.stack.length)), (0x52, k.epost),
   (0x60, BitVec.ofNat 64 (k.est[0].count.toNat * 256 + k.est[0].first.toNat)),
   (0x61, BitVec.ofNat 64 (k.est[1].count.toNat * 256 + k.est[1].first.toNat)),
   (0x62, BitVec.ofNat 64 (k.est[2].count.toNat * 256 + k.est[2].first.toNat)),
   (0x63, BitVec.ofNat 64 (k.est[3].count.toNat * 256 + k.est[3].first.toNat))]

/-- The system registers that a core may write, with what a write makes of the core (Table 4.4, R126, R231). -/
def writableRegisters : List (Nat × (Core → Word → Core)) :=
  [(0x20, fun k v => { k with trap := { k.trap with cause := v.extractLsb' 0 8 } }),
   (0x21, fun k v => { k with trap := { k.trap with xord := v.extractLsb' 0 48 } }),
   (0x22, fun k v => { k with trap := { k.trap with xaddr := v } }), (0x23, fun k v => { k with trap := { k.trap with xinfo := v } }),
   (0x24, fun k v => { k with trap := { k.trap with xhold := v, xholdLive := true } }),
   (0x40, fun k v => { k with trap := { k.trap with hbase := v } }), (0x41, fun k v => { k with kidle := v.extractLsb' 0 24 }),
   (0x60, fun k _ => { k with est := k.est.set 0 ⟨0, 0⟩ }), (0x61, fun k _ => { k with est := k.est.set 1 ⟨0, 0⟩ }),
   (0x62, fun k _ => { k with est := k.est.set 2 ⟨0, 0⟩ }), (0x63, fun k _ => { k with est := k.est.set 3 ⟨0, 0⟩ })]

/-- The system registers that a row fetch unit has, with their values (Table 4.4): its place is 8 and its trap registers are the row's. -/
def rowSystemRegisters (s : State) : List (Nat × Word) :=
  let t := (s.row s.cur.m).trap
  [(0x00, BitVec.ofNat 64 (s.cur.m.val / 6)), (0x01, BitVec.ofNat 64 (s.cur.m.val % 6)), (0x02, 8), (0x03, BitVec.ofNat 64 s.cur.m.val),
   (0x10, s.cur.word.ord.setWidth 64), (0x21, t.xord.setWidth 64), (0x22, t.xaddr), (0x23, t.xinfo), (0x24, t.xhold), (0x30, s.tb),
   (0x40, t.hbase)]

/-- What a write of a system register makes of the row fetch unit's trap registers; its %xord ignores writes (R231, R374). -/
def rowWritableRegisters : List (Nat × (TrapRegs → Word → TrapRegs)) :=
  [(0x20, fun t v => { t with cause := v.extractLsb' 0 8 }), (0x21, fun t _ => t), (0x22, fun t v => { t with xaddr := v }),
   (0x23, fun t v => { t with xinfo := v }), (0x24, fun t v => { t with xhold := v, xholdLive := true }),
   (0x40, fun t v => { t with hbase := v })]

/-- The state a bank goes to when BANK asks for OFF, KEEP or FULL; none while it wakes (Table 4.7, R371). -/
def bankGoes : Power → Nat → Option Power
  | .waking, _ => none
  | .off, 2 | .keep, 2 => some .waking
  | .full, 0 | .keep, 0 => some .off
  | .full, 1 => some .keep
  | p, _ => some p

/-- The bank that a BANK word names. -/
def bankNamed (f : FmtA0) : Fin 4 := Fin.ofNat 4 f.a.toNat

end Sys2Proof.Machine.Claim

namespace Sys2Proof.Machine.Claim

/-- The placement engine has a copy of a LOADING region's image (R321). -/
def copied (s : State) (m : RowId) (c : CoreId) (slot : SlotId) (bs : List Byte) : State :=
  s.modRegion m c slot fun g => { g with copy := bs }

/-- The elements of image im of the region g of a slot stand at places: one cell of its rectangle and of the element's kind for
each, and an element slot for each that stands in a memory cell (R90, R131). -/
def Stands (s : State) (m : RowId) (c : CoreId) (slot : SlotId) (g : Region) (im : ImageData) (places : List (Nat × Nat × Nat)) :
    Prop :=
  places.length = im.elems.length ∧
  (∀ p ∈ places, p.2.2 ∈ g.rect.cells ∧ isCompute p.2.2 = decide ((im.elems.getD p.1 (.ce, [])).1 = .ce)) ∧
  (assignESlots (((s.core m c).others slot).flatMap fun o => (o.elems.filter fun e => e.kind != .ce).map fun e => (e.cell, e.eslot))
    ((places.filter fun p => (im.elems.getD p.1 (.ce, [])).1 != .ce).map fun p => ((mapEntry im g.var p.1).1, p.2.2)) []).isSome

end Sys2Proof.Machine.Claim

/-- R90, R157, R158, R161, R368, Table 5.6: RCFG on a well-formed RCB under which nothing is configured takes the lowest FREE slot:
the slot is LOADING with the RCB's fields for the launch, and no other slot changes; the placement of a LOADING region whose
image is read and placed gives it the image's elements, arcs and hash and makes it READY, at once where it has no accumulator store and
otherwise once the lines of its stores are served; one whose image is refused frees the slot. -/
def Obligations.RegionConfigured : Prop :=
  (∀ (f : FmtA0) (s s' : State) (c : CoreId) (pa : Nat) (slot : SlotId), s.cur.p = placeOfCore c → s.ready c (useRcb f) = true →
    RcbAt s s' c f pa → (s'.core s.cur.m c).slotOf (rcbAddr s c f) = none → rcbOk s'.mem pa = true →
    (s'.core s.cur.m c).regions[slot] = none → (∀ j : SlotId, j < slot → (s'.core s.cur.m c).regions[j] ≠ none) →
    ∃ t g, exec (.rcfg f) s = .next t ∧ (t.core s.cur.m c).regions[slot] = some g ∧
      g.rcb = rcbAddr s c f ∧ g.st = .loading ∧ g.status = .ok ∧ g.lid = s.agentHere.lid ∧
      g.image = BitVec.ofNat 64 (leAt s'.mem pa 8) ∧ g.org = leAt s'.mem (pa + 8) 8 % 128 ∧
      g.w = leAt s'.mem (pa + 8) 8 / 2 ^ 10 % 16 ∧ g.h = leAt s'.mem (pa + 8) 8 / 2 ^ 14 % 8 ∧
      g.donea = BitVec.ofNat 64 (leAt s'.mem (pa + 16) 8) ∧ g.donev = BitVec.ofNat 64 (leAt s'.mem (pa + 24) 8) ∧
      ∀ j : SlotId, j ≠ slot → (t.core s.cur.m c).regions[j] = (s'.core s.cur.m c).regions[j]) ∧
  (∀ (m : RowId) (c : CoreId) (slot : SlotId) (s s1 s2 : State) (g : Region) (bs : List Byte) (im : ImageData)
    (places : List (Nat × Nat × Nat)),
    s.region m c slot = some g → g.st = .loading → g.copy = [] → g.elems = [] → s.readImage m c g.lid g.image = (s1, .ok bs im) →
    g.var = 0 →
    (copied s1 m c slot bs).wantsQuarter m c slot { g with copy := bs } = false →
    (copied s1 m c slot bs).haOpen 0 [m.val, c.val, slot.val, (g.rect.shape g.var.toNat).toNat, im.hash.toNat] = false →
    (copied s1 m c slot bs).roomFor m c slot g.lid im g.var g.ctxn g.rect (g.links.map (·.elem)) = true →
    (copied s1 m c slot bs).atticLook im.hash (g.rect.shape g.var.toNat) = (s2, none) → s2.hub.assisted 0 = false →
    placeImage im g.var g.rect = some places → Stands s2 m c slot g im places →
    ∃ t g', exec (.placement m c slot) s = .next t ∧ t.region m c slot = some g' ∧ (g'.st = .ready ∨ g'.st = .loading) ∧
      (storesOf im.elems = [] → g'.st = .ready ∧ g'.status = .ok) ∧ g'.hash = im.hash ∧ g'.elems.map (·.words) = im.elems.map (·.2) ∧ g'.arcs.length = im.arcs.length ∧ g'.inits = im.inits ∧
      g'.rcb = g.rcb ∧ g'.lid = g.lid ∧ ∀ j : SlotId, j ≠ slot → t.region m c j = s.region m c j) ∧
  (∀ (m : RowId) (c : CoreId) (slot : SlotId) (s s1 : State) (g : Region), s.region m c slot = some g → g.st = .loading →
    g.copy ≠ [] → g.elems ≠ [] → s.wantsQuarter m c slot g = false →
    (s.spansServed (ctlAgent m c slot.val g.lid) true (storeSpans m c g.elems) = (s1, true) →
      ∃ t g', exec (.placement m c slot) s = .next t ∧ t.region m c slot = some g' ∧ g'.st = .ready ∧ g'.status = .ok ∧
        g'.elems = g.elems ∧ g'.arcs = g.arcs ∧ ∀ j : SlotId, j ≠ slot → t.region m c j = s.region m c j) ∧
    (s.spansServed (ctlAgent m c slot.val g.lid) true (storeSpans m c g.elems) = (s1, false) →
      exec (.placement m c slot) s = .next s1)) ∧
  (∀ (m : RowId) (c : CoreId) (slot : SlotId) (s s1 : State) (g : Region) (st : Status),
    s.region m c slot = some g → g.st = .loading → g.copy = [] → s.readImage m c g.lid g.image = (s1, .fail st) →
    ∃ t, exec (.placement m c slot) s = .next t ∧ t.region m c slot = none ∧
      ∀ j : SlotId, j ≠ slot → t.region m c j = s.region m c j)

/-- R161, R367, Table 5.6: RSTART on the RCB of a READY region without ring ports makes it RUNNING with the RCB's QK; on an RCB
under which nothing is configured it changes no region. -/
def Obligations.RegionStarted : Prop :=
  ∀ (f : FmtA0) (s s' : State) (c : CoreId) (pa : Nat), s.cur.p = placeOfCore c → s.ready c (useRcb f) = true →
    RcbAt s s' c f pa →
    (∀ slot g, (s'.core s.cur.m c).slotOf (rcbAddr s c f) = some slot → (s'.core s.cur.m c).regions[slot] = some g →
      g.st = .ready → (∀ e ∈ g.elems, e.isPort 2 = false ∧ e.isPort 3 = false) →
      ∃ t g', exec (.rstart f) s = .next t ∧ (t.core s.cur.m c).regions[slot] = some g' ∧ g'.st = .running ∧ g'.status = .ok ∧
        g'.qk = BitVec.ofNat 32 (leAt s'.mem (pa + 0x20) 4) ∧ g'.elems.length = g.elems.length ∧
        g'.arcs.length = g.arcs.length) ∧
    ((s'.core s.cur.m c).slotOf (rcbAddr s c f) = none →
      ∃ t, exec (.rstart f) s = .next t ∧ (t.core s.cur.m c).regions = (s'.core s.cur.m c).regions)

/-- R133, R154, R367, R459: RSWITCH on a RUNNING region has IMAGE and QK read and the core's bindings taken as it issues, and the image's reading asked for; on a
region that is not RUNNING it writes BADDESC and nothing else of the region. Once an image has been read that keeps the region's shape
and whose fabric ports are free, the region takes its hash and a flood with the new stage words, hold constants, bindings and QK is asked for,
which begins as soon as none is in progress. -/
def Obligations.RegionSwitched : Prop :=
  (∀ (f : FmtA0) (s s' : State) (c : CoreId) (pa : Nat) (slot : SlotId) (g : Region), s.cur.p = placeOfCore c →
    s.ready c (useRcb f) = true → RcbAt s s' c f pa → (s'.core s.cur.m c).slotOf (rcbAddr s c f) = some slot →
    (s'.core s.cur.m c).regions[slot] = some g →
    (g.st = .running →
      ActsAt s (s'.modRegion s.cur.m c slot fun g => { g with
          switches := g.switches ++ [((s'.core s.cur.m c).nextOp, BitVec.ofNat 64 (leAt s'.mem pa 8),
            BitVec.ofNat 32 (leAt s'.mem (pa + 0x20) 4), (s'.core s.cur.m c).h.toList)] }) c
        (exec (.rswitch f) s) none 0 (dropIf f.x f.a)) ∧
    (g.st ≠ .running →
      ∃ t, exec (.rswitch f) s = .next t ∧ (t.core s.cur.m c).regions[slot] = some { g with status := .badDesc })) ∧
  (∀ (m : RowId) (c : CoreId) (slot : SlotId) (s s2 : State) (g : Region) (op : Nat) (image : Word) (qk : BitVec 32)
    (binds : List Word) (rest : List (Nat × Word × BitVec 32 × List Word)) (bs : List Byte) (im : ImageData),
    s.region m c slot = some g → g.st = .running → g.switches = (op, image, qk, binds) :: rest →
    s.readImage m c g.lid image = (s2, .ok bs im) → keepsShape g im = true → g.var = 0 →
    (s2.core m c).portsFree slot (g.links.map (·.elem)) im.elems = true →
    exec (.placement m c slot) s = .next (((s2.modRegion m c slot fun g =>
      { g with switches := rest, status := .ok, hash := im.hash
               queued := g.queued ++ [.switch op (im.elems.map (·.2)) im.consts qk binds] }).writeBack m c slot).settle m c slot))

/-- R159, R369: RWAIT waits, and asks its RCB for nothing (the model's choice, log entry 61), while the core's region under the RCB is
LOADING, RUNNING or COMPLETING, whatever stands in the RCB's line; otherwise the controller's fields are written back, and s[d] takes word
0x38 as written, with the region's STATE, STATUS and slot, or the word waits for the write; under an RCB with no region s[d] takes the word
that stands there. -/
def Obligations.RegionAwaited : Prop :=
  (∀ (f : FmtA0) (s : State) (c : CoreId) (slot : SlotId) (g : Region), s.cur.p = placeOfCore c → s.ready c (useRwait f) = true →
    (rcbAddr s c f).toNat % 128 = 0 → namesSlice (rcbAddr s c f).toNat = true →
    (rcbAddr s c f).toNat / 2 ^ 23 = (slicesOf s.cur.m c.val).toNat / 2 ^ 23 →
    (s.core s.cur.m c).slotOf (rcbAddr s c f) = some slot → (s.core s.cur.m c).regions[slot] = some g →
    (g.st = .loading ∨ g.st = .running ∨ g.st = .completing → exec (.rwait f) s = .next s) ∧
    (∀ (s1 s2 : State) (x : Target), g.st = .free ∨ g.st = .ready →
      s.lineAddr s.agentHere (rcbAddr s c f) 8 .load = (s1, .ok x) →
      (s1.writtenBack s.cur.m c slot g = (s2, false) → exec (.rwait f) s = .next s2) ∧
      (s1.writtenBack s.cur.m c slot g = (s2, true) →
        ActsAt s (s2.usedLines s.agentHere 0 [slicePa (rcbAddr s c f)]) c (exec (.rwait f) s) (some f.d)
          (BitVec.ofNat 64 (g.word38 slot)) (dropIf f.x f.a) ∧
        (s.mem.wf = true →
          BitVec.ofNat 64 (leAt s2.mem (slicePa (rcbAddr s c f) + 0x38) 8) = BitVec.ofNat 64 (g.word38 slot))))) ∧
  (∀ (f : FmtA0) (s s' : State) (c : CoreId) (pa : Nat), s.cur.p = placeOfCore c → s.ready c (useRwait f) = true →
    RcbAt s s' c f pa → s.awaited (rcbAddr s c f) = none →
    ActsAt s s' c (exec (.rwait f) s) (some f.d) (BitVec.ofNat 64 (leAt s'.mem (pa + 0x38) 8)) (dropIf f.x f.a))

/-- R76, R89, R101, R357, R370, R372: NOP and FENCE do nothing, TBR reads the timebase (that FENCE orders nothing and TBR waits for no
earlier access, in a machine that has each access performed before the next word, is the model's choice, log entry 15), DROP makes the registers it names dead,
TNEXT gives the address of the core's next tile record and moves its cursor on, or 0 when none is left; HALT halts a core, muted
or not, core 7's finishing the row, and at the row fetch unit it is forwarded and the unit stops fetching. -/
def Obligations.PlainSystemWords : Prop :=
  (∀ (f : FmtA) (s : State) (c : CoreId), f.q = false → s.cur.p = placeOfCore c → s.ready c { q := false, reads := [] } = true →
    ActsAt s s c (exec (.nop f) s) none 0 []) ∧
  (∀ (f : FmtA) (s : State), f.q = true → s.cur.p = rfuPlace → s.readyRfu { q := true, reads := [] } = true →
    ActsAtRfu s s (exec (.nop f) s) none 0 (wordsOn s 1)) ∧
  (∀ (f : FmtM) (s : State) (c : CoreId), f.q = false → s.cur.p = placeOfCore c → s.ready c { q := false, reads := [] } = true →
    ActsAt s s c (exec (.fence f) s) none 0 []) ∧
  (∀ (f : FmtM) (s : State), f.q = true → s.cur.p = rfuPlace → s.readyRfu { q := true, reads := [] } = true →
    ActsAtRfu s s (exec (.fence f) s) none 0 (wordsOn s 1)) ∧
  (∀ (f : FmtA) (s : State) (c : CoreId), f.q = false → s.cur.p = placeOfCore c →
    s.ready c { q := false, reads := [], dest := some f.d } = true → ActsAt s s c (exec (.tbr f) s) (some f.d) s.tb []) ∧
  (∀ (f : FmtA) (s : State), f.q = true → s.cur.p = rfuPlace → s.readyRfu { q := true, reads := [], dest := some f.d } = true →
    ActsAtRfu s s (exec (.tbr f) s) (some f.d) s.tb (wordsOn s 1)) ∧
  (∀ (f : FmtA0) (s : State) (c : CoreId), s.cur.p = placeOfCore c →
    s.ready c { q := false, reads := [], drops := [f.d, f.a, f.b].filter (· ≠ 0) } = true →
    ActsAt s s c (exec (.drop f) s) none 0 ([f.d, f.a, f.b].filter (· ≠ 0))) ∧
  (∀ (f : FmtA0) (s : State) (c : CoreId) (l : Launch), s.cur.p = placeOfCore c →
    s.ready c { q := false, reads := [], dest := some f.d } = true → s.launch s.agentHere.lid = some l →
    ((s.core s.cur.m c).cursor < l.ntile →
      ActsAt s (s.modCore s.cur.m c fun k => { k with cursor := k.cursor + 1 }) c (exec (.tnext f) s) (some f.d)
        (l.sched + BitVec.ofNat 64 (0x8000 * (8 * s.cur.m.val + c.val)) + BitVec.ofNat 64 (32 * (s.core s.cur.m c).cursor)) []) ∧
    (l.ntile ≤ (s.core s.cur.m c).cursor → ActsAt s s c (exec (.tnext f) s) (some f.d) 0 [])) ∧
  (∀ (f : FmtA) (s : State) (c : CoreId), s.cur.p = placeOfCore c → s.ready c { q := false, reads := [], always := true } = true →
    ActsAt s ((s.modCore s.cur.m c fun k => { k with halted := true }).modRow s.cur.m fun r =>
        { r with phase := if c.val = 7 then .finished else r.phase }) c (exec (.halt f) s) none 0 []) ∧
  (∀ (f : FmtA) (s : State), s.cur.p = rfuPlace →
    exec (.halt f) s = .next (if hasRoom s then (forwarded s s.cur.word).modRow s.cur.m fun r => { r with halted := true } else s))

/-- R118, R371, Table 4.7: BANK moves its bank as the table says, a bank sent OFF losing every register but s0; it waits while the
bank wakes; no other bank, no other register and no value changes. -/
def Obligations.BankWord : Prop :=
  ∀ (f : FmtA0) (s : State) (c : CoreId), f.a.toNat < 4 → s.cur.p = placeOfCore c →
    s.ready c { q := false, reads := [], names := bankRegs (bankNamed f) } = true →
    match bankGoes (s.core s.cur.m c).banks[bankNamed f].st f.b.toNat with
    | none => exec (.bank f) s = .next s
    | some p => ∃ t, exec (.bank f) s = .next t ∧ (t.core s.cur.m c).banks[bankNamed f].st = p ∧
        (∀ b : Fin 4, b ≠ bankNamed f → (t.core s.cur.m c).banks[b].st = (s.core s.cur.m c).banks[b].st) ∧
        (∀ r, (t.core s.cur.m c).read r = (s.core s.cur.m c).read r) ∧
        (∀ r, (t.core s.cur.m c).isLive r = (decide (r = 0) || ((s.core s.cur.m c).isLive r &&
          !(decide (f.b = 0 ∧ p = .off ∧ (s.core s.cur.m c).banks[bankNamed f].st ≠ .off) && decide (sBank r = bankNamed f))))) ∧
        t.mem = s.mem

/-- R233, R373: on a running row TRAP and BRK at a ready core raise SOFT and BRKPT: the word has issued, the core has stopped with
%xinfo the immediate and %xord the next ordinal, and the row begins to stop at the word's ordinal; at the row fetch unit they
stop the unit in the same way. -/
def Obligations.SoftwareTraps : Prop :=
  (∀ p ∈ [((fun f => Instr.trapW f), (0x0A : BitVec 8)), ((fun f => Instr.brk f), 0x0B)], ∀ (f : FmtI) (s : State) (c : CoreId),
    f.q = false → s.cur.p = placeOfCore c → (s.row s.cur.m).phase = .running → s.ready c { q := false, reads := [] } = true →
    ∃ t, exec (p.1 f) s = .next t ∧ (t.core s.cur.m c).stopped = true ∧ (t.core s.cur.m c).trap.cause = p.2 ∧
      (t.core s.cur.m c).trap.xinfo = f.i.setWidth 64 ∧ (t.core s.cur.m c).trap.xord = s.cur.word.ord + 1 ∧
      (t.core s.cur.m c).trap.eng = false ∧ (t.row s.cur.m).phase = .stopping (some s.cur.word.ord) ∧
      (t.row s.cur.m).hops[c] = (s.row s.cur.m).hops[c].tail ∧
      ∀ r, (t.core s.cur.m c).read r = (s.core s.cur.m c).read r) ∧
  (∀ p ∈ [((fun f => Instr.trapW f), (0x0A : BitVec 8)), ((fun f => Instr.brk f), 0x0B)], ∀ (f : FmtI) (s : State),
    f.q = true → s.cur.p = rfuPlace → (s.row s.cur.m).phase = .running → s.readyRfu { q := true, reads := [] } = true →
    ∃ t, exec (p.1 f) s = .next t ∧ (t.row s.cur.m).stopped = true ∧ (t.row s.cur.m).trap.cause = p.2 ∧
      (t.row s.cur.m).trap.xinfo = f.i.setWidth 64 ∧ (t.row s.cur.m).trap.xord = s.cur.word.ord + 1 ∧
      (t.row s.cur.m).phase = .stopping none ∧ (t.row s.cur.m).pc = wordsOn s 1 ∧ (t.row s.cur.m).q = (s.row s.cur.m).q)

/-- R116, R231, R374, Table 4.4: CSRR gives s[d] the value of a listed register and changes nothing else; CSRW changes the named
fields of a writable one and nothing else of the core; with Q = 1 the row fetch unit does the same with its own registers, a write of its
%xord being ignored. -/
def Obligations.SystemRegisters : Prop :=
  (∀ (f : FmtCsr) (s : State) (c : CoreId) (v : Word), f.q = false → s.cur.p = placeOfCore c →
    (f.n.toNat, v) ∈ systemRegisters s c → s.ready c { q := false, reads := [], dest := some f.d } = true →
    ActsAt s s c (exec (.csrr f) s) (some f.d) v []) ∧
  (∀ p ∈ writableRegisters, ∀ (f : FmtCsr) (s : State) (c : CoreId), f.q = false → s.cur.p = placeOfCore c → f.n.toNat = p.1 →
    s.ready c { q := false, reads := [f.a], drops := dropIf f.x f.a } = true →
    ActsAt s (s.modCore s.cur.m c fun k => p.2 k ((s.core s.cur.m c).read f.a)) c (exec (.csrw f) s) none 0 (dropIf f.x f.a)) ∧
  (∀ (f : FmtCsr) (s : State) (v : Word), f.q = true → s.cur.p = rfuPlace → (f.n.toNat, v) ∈ rowSystemRegisters s →
    s.readyRfu { q := true, reads := [], dest := some f.d } = true →
    ActsAtRfu s s (exec (.csrr f) s) (some f.d) v (wordsOn s 1)) ∧
  (∀ p ∈ rowWritableRegisters, ∀ (f : FmtCsr) (s : State), f.q = true → s.cur.p = rfuPlace → f.n.toNat = p.1 →
    s.readyRfu { q := true, reads := [f.a], drops := dropIf f.x f.a } = true →
    ActsAtRfu s (s.modRow s.cur.m fun r => { r with trap := p.2 r.trap ((s.row s.cur.m).readQ f.a) }) (exec (.csrw f) s) none 0
      (wordsOn s 1))

namespace Sys2Proof.Machine.Claim

/-! ### Traps and events of a row -/

/-- A place's registers of Table 8.2 in a row. -/
def trapOf (s : State) (m : RowId) (p : PlaceId) : TrapRegs := (s.row m).trapAt p

/-- The state with one register bank of a core replaced. -/
def withBank (s : State) (m : RowId) (c : CoreId) (b : Fin 4) (x : Bank) : State :=
  s.modCore m c fun k => { k with banks := k.banks.set b x }

/-- A scratchpad bank. -/
def padBank (s : State) (m : RowId) (c : CoreId) (mi : Fin 64) (b : Fin 16) : Bank := ((s.core m c).mcells[mi]).banks[b]

/-- The element that a reference names. -/
def elemAt (s : State) (r : ElemRef) : Option Elem := (s.region r.m r.c r.slot).bind fun g => g.elems[r.e]?

/-- A FULL bank has been idle for its interval, which is not 0, in timebase (R119, R374). -/
def idleOver (x : Bank) (now : Word) : Bool :=
  x.st == .full && decide (x.idle ≠ 0 ∧ (16 * x.idle.toNat : Int) ≤ (now - x.lastUse).toInt)

end Sys2Proof.Machine.Claim

/-- R112, R341: unless a machine check holds the row, the return of data writes the oldest pending destination of a core whose
bank is FULL, or of the row fetch unit, and the return of an echo writes the row register of the oldest one. -/
def Obligations.DataAndEchoReturn : Prop :=
  (∀ (s : State) (m : RowId) (c : CoreId) (x : Pending) (rest : List Pending), (s.row m).phase ≠ .mchk →
    (s.core m c).pend = x :: rest → (s.core m c).banks[sBank x.dest].st = .full →
    ∃ t k', exec (.loadDataReturn m (placeOfCore c)) s = .next t ∧
      t = s.modCore m c (fun _ => { k' with pend := rest }) ∧ RegsAfter (s.core m c) k' (some x.dest) x.val []) ∧
  (∀ (s : State) (m : RowId) (x : Pending) (rest : List Pending), (s.row m).phase ≠ .mchk → (s.row m).qpend = x :: rest →
    x.dest.toNat < 16 →
    ∃ q', exec (.loadDataReturn m rfuPlace) s = .next (s.modRow m fun r => { r with q := q', qpend := rest }) ∧
      RowRegsAfter (s.row m) { s.row m with q := q' } (some x.dest) x.val) ∧
  (∀ (s : State) (m : RowId) (x : Echo) (rest : List Echo), (s.row m).phase ≠ .mchk → (s.row m).echo = x :: rest →
    x.dest.toNat < 16 →
    ∃ q', exec (.echoReturn m) s = .next (s.modRow m fun r => { r with q := q', echo := rest }) ∧
      RowRegsAfter (s.row m) { s.row m with q := q' } (some x.dest) x.val)

/-- R119, R169, R187, R374, Tables 4.7, 5.7, 6.8: a FULL register, scratchpad or hold bank with something live that has been idle
for its interval goes to KEEP, and a waking bank whose time has come is FULL, with a new idle period under the core's %kidle (for a hold
bank that of the row's present core, the model's choice, log entry 67); what waits at a scratchpad bank is then served, and nothing else
changes. That a wake's time is compared with the oscillator is the model's choice (log entry 19). -/
def Obligations.BankEvents : Prop :=
  (∀ (s : State) (m : RowId) (c : CoreId) (b : Fin 4), idleOver (s.core m c).banks[b] s.tb = true →
    (∃ r : BitVec 5, r ≠ 0 ∧ sBank r = b ∧ (s.core m c).isLive r = true) → (∀ x ∈ (s.core m c).pend, sBank x.dest ≠ b) →
    exec (.registerBankIdle m c b) s = .next (withBank s m c b { (s.core m c).banks[b] with st := .keep })) ∧
  (∀ (s : State) (m : RowId) (c : CoreId) (b : Fin 4), (s.core m c).banks[b].st = .waking → (s.core m c).banks[b].wakeAt ≤ s.osc →
    ∃ x, exec (.registerBankWake m c b) s = .next (withBank s m c b x) ∧ x.st = .full ∧ x.lastUse = s.tb ∧
      x.idle = (s.core m c).kidle) ∧
  (∀ (s : State) (m : RowId) (c : CoreId) (mi : Fin 64) (b : Fin 16), idleOver (padBank s m c mi b) s.tb = true →
    s.bankLive m c mi b ≠ [] →
    exec (.scratchpadBankIdle m c mi b) s = .next (s.modBank m c mi b fun _ => { padBank s m c mi b with st := .keep })) ∧
  (∀ (s : State) (m : RowId) (c : CoreId) (mi : Fin 64) (b : Fin 16), (padBank s m c mi b).st = .waking →
    (padBank s m c mi b).wakeAt ≤ s.osc →
    ∃ x, exec (.scratchpadBankWake m c mi b) s = .next ((s.modBank m c mi b fun _ => x).servePorts m c mi b) ∧
      ((∀ y ∈ s.portQ, s.inBank m c mi b y.pa = false) →
        exec (.scratchpadBankWake m c mi b) s = .next (s.modBank m c mi b fun _ => x)) ∧
      x.st = .full ∧ x.lastUse = s.tb ∧ x.idle = (s.core m c).kidle) ∧
  (∀ (s : State) (r : ElemRef) (e : Elem), elemAt s r = some e → idleOver e.hbank s.tb = true → (∃ i : Fin 8, e.holds[i] ≠ none) →
    exec (.holdBankIdle r) s = .next (s.modElem r fun _ => { e with hbank := { e.hbank with st := .keep } })) ∧
  (∀ (s : State) (r : ElemRef) (e : Elem), elemAt s r = some e → e.hbank.st = .waking → e.hbank.wakeAt ≤ s.osc →
    ∃ x, exec (.holdBankWake r) s = .next (s.modElem r fun _ => { e with hbank := x }) ∧ x.st = .full ∧ x.lastUse = s.tb ∧
      x.idle = (s.core r.m r.c).kidle)

/-- R89, R230, R231, R236, R237: when every place of a stopping row has stopped and one has trapped, the row enters its handler: each core
holds its program state, its schedule cursor with it (R89), exchanges s31 with %xhold, reads NONE with %xaddr and %xinfo 0 if it took no trap, and stands active with an empty stack and a post of zero; the row fetch
unit holds its own and fetches from its %hbase with ordinal 0; the window is open at every place. -/
def Obligations.HandlerEntered : Prop :=
  ∀ (s : State) (m : RowId) (u : Option WordOrd), (s.row m).phase = .stopping u → (∀ p, (s.row m).isStopped p = true) →
    (s.row m).firstTrap ≠ none → s.rowMoves m = true →
    ∃ t, exec (.handlerEntry m) s = .next t ∧ (t.row m).phase = .handler ∧ (t.row m).pc = (s.row m).trap.hbase >>> 2 <<< 2 ∧
      (t.row m).ord = 0 ∧ (t.row m).post = 0 ∧ (t.row m).heldPc = (s.row m).pc ∧ (t.row m).held.ord = (s.row m).ord ∧
      (t.row m).held.post = (s.row m).post ∧ (t.row m).q[15] = (s.row m).trap.xhold ∧ (t.row m).trap.xhold = (s.row m).q[15] ∧
      (∀ c : CoreId, (t.row m).hops[c] = [] ∧
        (t.core m c).held.active = (s.core m c).active ∧ (t.core m c).held.stack = (s.core m c).stack ∧
        (t.core m c).held.post = (s.core m c).epost ∧ (t.core m c).held.cursor = (s.core m c).cursor ∧ (t.core m c).s[31] = (s.core m c).trap.xhold ∧
        (t.core m c).trap.xhold = (s.core m c).s[31] ∧ (t.core m c).active = true ∧ (t.core m c).stack = [] ∧
        (t.core m c).epost = 0 ∧ (t.core m c).stopped = false ∧
        (t.core m c).trap.cause = (if (s.core m c).trap.trapOrd = none then 0 else (s.core m c).trap.cause) ∧
        (t.core m c).trap.xaddr = (if (s.core m c).trap.trapOrd = none then 0 else (s.core m c).trap.xaddr) ∧
        (t.core m c).trap.xinfo = (if (s.core m c).trap.trapOrd = none then 0 else (s.core m c).trap.xinfo)) ∧
      (∀ p, (trapOf t m p).winOpen = true) ∧ t.mem = s.mem

/-- R89, R238, R239, R372: ERET that a core other than 7 takes in handler mode passes on; when core 7 issues it the row returns: every
place has its held program state and schedule cursor again, s31 and q15 are exchanged back, the window is closed, the row fetch unit goes on at
the pc and ordinal it held, and the words in flight of the handler are gone. -/
def Obligations.HandlerReturns : Prop :=
  (∀ (f : FmtA) (s : State) (c : CoreId), s.cur.p = placeOfCore c → c.val ≠ 7 → (s.row s.cur.m).phase = .handler →
    s.ready c { q := false, reads := [], always := true } = true → ActsAt s s c (exec (.eret f) s) none 0 []) ∧
  (∀ (f : FmtA) (s : State), s.cur.p = placeOfCore 7 → (s.row s.cur.m).phase = .handler →
    s.ready 7 { q := false, reads := [], always := true } = true →
    ∃ t, exec (.eret f) s = .next t ∧ (t.row s.cur.m).phase = .running ∧ (t.row s.cur.m).pc = (s.row s.cur.m).heldPc ∧
      (t.row s.cur.m).ord = (s.row s.cur.m).held.ord ∧ (t.row s.cur.m).post = (s.row s.cur.m).held.post ∧
      (t.row s.cur.m).q[15] = (s.row s.cur.m).trap.xhold ∧ (t.row s.cur.m).trap.xhold = (s.row s.cur.m).q[15] ∧
      (∀ c : CoreId, (t.row s.cur.m).hops[c] = [] ∧ (t.core s.cur.m c).active = (s.core s.cur.m c).held.active ∧
        (t.core s.cur.m c).stack = (s.core s.cur.m c).held.stack ∧ (t.core s.cur.m c).epost = (s.core s.cur.m c).held.post ∧
        (t.core s.cur.m c).halted = (s.core s.cur.m c).held.halted ∧
        (t.core s.cur.m c).cursor = (s.core s.cur.m c).held.cursor ∧ (t.core s.cur.m c).s[31] = (s.core s.cur.m c).trap.xhold ∧
        (t.core s.cur.m c).trap.xhold = (s.core s.cur.m c).s[31]) ∧
      (∀ p, (trapOf t s.cur.m p).winOpen = false ∧ (trapOf t s.cur.m p).nest = false) ∧ t.mem = s.mem) ∧
  (∀ (f : FmtA) (s : State), s.cur.p = rfuPlace → (s.row s.cur.m).phase = .handler →
    exec (.eret f) s = .next (if hasRoom s then (forwarded s s.cur.word).modRow s.cur.m fun r => { r with stopped := true } else s))

/-- R239, R240, R374: in handler mode the first trap while the window is open makes the row DOUBLE, keeps the second trap in the row's
registers and the first at its places; a CSRR of %xcause at the place that SRC names closes the window and reads OPEN still 1 (the model's choice, log entry 18); a trap after that restarts the handler with NEST
set and the window open. -/
def Obligations.TrapsInHandlers : Prop :=
  (∀ (s : State) (m : RowId) (p : PlaceId) (kind : TrapKind) (x : Cause) (n : WordOrd) (addr info : Word),
    (s.row m).phase = .handler → (s.row m).trap.winOpen = true →
    let t := s.takeTrap m p kind x n addr info
    (t.row m).phase = .double ∧ (t.row m).rtrap.secsrc = BitVec.ofNat 8 p.val ∧ (t.row m).rtrap.secc = BitVec.ofNat 8 x.code ∧
      (t.row m).rtrap.seca = addr ∧ (t.row m).rtrap.seci = info ∧ (∀ q, trapOf t m q = trapOf s m q) ∧ ∀ q, (t.row m).isStopped q = true) ∧
  (∀ (s : State) (m : RowId) (p : PlaceId) (kind : TrapKind) (x : Cause) (n : WordOrd) (addr info : Word),
    (s.row m).phase = .handler → (s.row m).trap.winOpen = false →
    let t := s.takeTrap m p kind x n addr info
    (t.row m).phase = .handler ∧ (t.row m).pc = (s.row m).trap.hbase >>> 2 <<< 2 ∧ (t.row m).ord = 0 ∧
      (trapOf t m p).cause = BitVec.ofNat 8 x.code ∧ (trapOf t m p).xaddr = addr ∧ (trapOf t m p).xinfo = info ∧
      ∀ q, (trapOf t m q).nest = true ∧ (trapOf t m q).winOpen = true ∧ (trapOf t m q).src = BitVec.ofNat 8 p.val) ∧
  (∀ (f : FmtCsr) (s : State) (c : CoreId), f.q = false → s.cur.p = placeOfCore c → f.n = 0x20 →
    (s.row s.cur.m).phase = .handler → (s.core s.cur.m c).trap.src.toNat = c.val →
    s.ready c { q := false, reads := [], dest := some f.d } = true →
    ∃ t, exec (.csrr f) s = .next t ∧ (∀ p, (trapOf t s.cur.m p).winOpen = false) ∧
      (f.d ≠ 0 → (t.core s.cur.m c).read f.d = (s.core s.cur.m c).trap.xcause))

/-- R241, Table 8.4: a machine check on a row that a launch holds stops every place at once: the row is MCHK, %xord reads 0 at
every place, and the place concerned records cause 0x10, the address and the class, array, bank and syndrome. -/
def Obligations.MachineChecks : Prop :=
  ∀ (s : State) (m : RowId) (p : PlaceId) (k : MachineCheck), (s.row m).lid ≠ none → (s.row m).phase ≠ .mchk →
    (s.row m).phase ≠ .double → (s.row m).phase ≠ .doubleMchk →
    ∃ t, exec (.machineCheck m p k) s = .next t ∧ (t.row m).phase = .mchk ∧
      (∀ q, (t.row m).isStopped q = true ∧ (trapOf t m q).xord = 0) ∧ (trapOf t m p).cause = 0x10 ∧
      (trapOf t m p).xaddr = k.addr ∧
      (trapOf t m p).xinfo = k.cls ++ k.array ++ k.bank ++ (0 : BitVec 8) ++ k.synd ∧
      ∀ n, n ≠ m → t.row n = s.row n

namespace Sys2Proof.Machine.Claim

/-! ### Engine operations -/

/-- Operation o stands at the cursor, past its checks. -/
def Moves (s : State) (o : Op) : Prop := s.opHere = some o ∧ o.phase = .moving
/-- Operation o stands at the cursor, forked, and every earlier one of its launch on its engine has started (R125). -/
def Begins (s : State) (o : Op) : Prop :=
  s.opHere = some o ∧ o.phase = .forked ∧ (s.core s.cur.m s.coreHere).mayStart o = true
/-- The outcome leaves the operation at the cursor ended with a status. -/
def EndsAs (out : Out) (st : Status) : Prop :=
  ∃ t x, out = .next t ∧ t.opHere = some x ∧ x.phase = .ended ∧ x.status = st

/-- Operation o, at the cursor, has ended with a status that its command is charged with and with no effect: no byte of memory, no port,
region, ring, handle, walk slot, register or bank, nothing of another core or row and nothing of the hub has changed (R244, R376). -/
def RefusedAs (s : State) (o : Op) (out : Out) (st : Status) : Prop :=
  ∃ t x, out = .next t ∧ t.opHere = some x ∧ x.phase = .ended ∧ x.status = st ∧ x.errInCmd = true ∧ x.errAddr = o.cmdAddr ∧
    t.mem = s.mem ∧ t.hub = s.hub ∧
    (let k := s.core s.cur.m s.coreHere
     let k' := t.core s.cur.m s.coreHere
     k'.regions = k.regions ∧ k'.h = k.h ∧ k'.w = k.w ∧ k'.s = k.s ∧ k'.live = k.live ∧ k'.banks = k.banks ∧ k'.mcells = k.mcells ∧
       k'.pend = k.pend) ∧
    (∀ d : CoreId, d ≠ s.coreHere → t.core s.cur.m d = s.core s.cur.m d) ∧ ∀ m, m ≠ s.cur.m → t.row m = s.row m

/-- n bytes of a repeated dword (R384). -/
def repeated (v : Word) (n : Nat) : List Byte := (List.range n).map fun i => v.extractLsb' (8 * (i % 8)) 8

/-- The token of the first 64 bytes of a feed's stream, or of all it has: CNT counts the lanes that hold bytes, the bytes not filled are
zero, and P and F are as given (R379). -/
def streamToken (ctx : BitVec 2) (bs : List Byte) (p f : Bool) : Token :=
  { tag := 0, ctx := ctx, cnt := min 16 ((bs.length + 3) / 4), m := false, k := false, l3 := false, l2 := false, l1 := false, f := f, p := p, e := false
    lanes := Vector.ofFn fun i => BitVec.ofNat 32 (natOf ((bs.drop (4 * i.val)).take 4)) }

/-- A feed has read the last element of a fibre (R379). -/
def fibreEnd (c : Command) (idx : Nat) : Bool := decide (c.arg.toNat % 2 ^ 16 ≠ 0 ∧ idx ≠ 0 ∧ idx % (c.arg.toNat % 2 ^ 16) = 0)

/-- The commands that feed elements to a port. -/
def feedGroup : List (Command → Instr) := [.srd, .sgather]
/-- The commands that drain a port into elements. -/
def drainGroup : List (Command → Instr) := [.swr, .sscatter]

/-- Element n of an operation's walk is at a, in the state s1 that the look-up leaves. -/
def ElemIs (s s1 : State) (o : Op) (w : Walk) (n a : Nat) : Prop := s.elemAddr (s.opAgent o) w n = (s1, .at_ a)
/-- n bytes at a read as bs, poisoned or not. -/
def Reads (s s1 : State) (o : Op) (a n : Nat) (bs : List Byte) (p : Bool) : Prop :=
  s.readMem (s.opAgent o) a n = (s1, .ok bs p)
/-- Bytes are written at a. -/
def Writes (s s1 : State) (o : Op) (a : Nat) (bs : List Byte) (p : Bool) : Prop :=
  s.writeMem (s.opAgent o) a bs p = (s1, .ok)

end Sys2Proof.Machine.Claim

/-- R307, R376, Tables 15.1, 15.2: a forked command with a reserved SUB ends with BADCMD, whatever its other fields, and with no
effect: for GATHP and LAUNCH every SUB from 2 on, for MXGO and ARED from 3 on, for MXDRN from 5 on, and for every other command but
SSCATOP every SUB but 0, SIGNAL being checked once the earlier operations of its core are done. SSCATOP has none: it starts under each. -/
def Obligations.CommandsRefuseReservedSub : Prop :=
  (∀ (c : Command) (s : State) (o : Op), Begins s o → o.drops = [] →
    (c.sub ≠ 0 →
      ∀ i ∈ [Instr.srd c, .swr c, .scopy c, .sfill c, .pset c, .sgather c, .sscatter c, .pick c, .kvapp c, .mxldw c, .sput c, .sget c,
        .cjoin c, .ckpt c, .markCmd c, .barCmd c], RefusedAs s o (exec i s) .badCmd) ∧
    (c.sub ≠ 0 → (s.core s.cur.m s.coreHere).earlierDone o = true → RefusedAs s o (exec (.signalCmd c) s) .badCmd) ∧
    (2 ≤ c.sub.toNat → RefusedAs s o (exec (.gathp c) s) .badCmd ∧ RefusedAs s o (exec (.launchCmd c) s) .badCmd) ∧
    (3 ≤ c.sub.toNat → RefusedAs s o (exec (.mxgo c) s) .badCmd ∧ RefusedAs s o (exec (.ared c) s) .badCmd) ∧
    (5 ≤ c.sub.toNat → RefusedAs s o (exec (.mxdrn c) s) .badCmd)) ∧
  (∀ (c : Command) (s : State) (o : Op), Begins s o → c.arg.toNat % 2 ^ 23 = 0 → (walkOf o.wa).ok = true → (walkOf o.wa).esz = 2 →
    (c.sub.toNat < 4 → ringBit c = false ∧ c.pdir = true ∧ (s.portOf o 1 c.port.toNat).isSome = true ∧
      ∀ slot, o.region = some slot → s.spilled o.lid s.cur.m s.coreHere slot = false) →
    exec (.sscatop c) s = .next (s.modHere fun o => { o with phase := .moving }))

/-- R125, R376, R384, R385, R406: SFILL starts on a well-formed walk, writes ADDR's bytes at each element in turn and ends OK after
the last; PSET reads the 32 bytes
at ADDR as it starts, whose line dies with DRP, and then puts them into its walk slot of its launch's core state (a command that names the
slot waits for it: the model's choice, log entries 27 and 66); MARK writes its trace record as it starts, and ends OK. -/
def Obligations.FillSetAndMark : Prop :=
  (∀ (c : Command) (s : State) (o : Op), Begins s o → c.sub = 0 → (walkOf o.wa).ok = true →
    exec (.sfill c) s = .next (s.modHere fun o => { o with phase := .moving })) ∧
  (∀ (c : Command) (s s1 s2 : State) (o : Op) (a : Nat), Moves s o → o.idx ≠ (walkOf o.wa).count →
    ElemIs s s1 o (walkOf o.wa) o.idx a → Writes s1 s2 o a (repeated c.addr (walkOf o.wa).size) false →
    exec (.sfill c) s = .next (s2.modHere fun o => { o with idx := o.idx + 1 })) ∧
  (∀ (c : Command) (s : State) (o : Op), Moves s o → o.idx = (walkOf o.wa).count → EndsAs (exec (.sfill c) s) .ok) ∧
  (∀ (c : Command) (s s1 : State) (o : Op) (bs : List Byte), Begins s o → c.sub = 0 → c.addr.toNat % 32 = 0 →
    Reads s s1 o c.addr.toNat 32 bs false →
    exec (.pset c) s = .next ((if c.drp then s1.killLines (spadLines c.addr.toNat 32) else s1).modHere fun o =>
      { o with buf := bs, phase := .moving })) ∧
  (∀ (c : Command) (s : State) (o : Op), Moves s o → o.drops = [] →
    EndsAs (exec (.pset c) s) .ok ∧
    ∃ t, exec (.pset c) s = .next t ∧
      (t.coreFor o.lid s.cur.m s.coreHere).w[c.wa.toFin] = BitVec.ofNat 256 (natOf o.buf) ∧
      (∀ j : Fin 32, j ≠ c.wa.toFin →
        (t.coreFor o.lid s.cur.m s.coreHere).w[j] = (s.coreFor o.lid s.cur.m s.coreHere).w[j]) ∧ t.mem = s.mem) ∧
  (∀ (c : Command) (s : State) (o : Op), Begins s o → c.sub = 0 → c.arg.toNat < 2 ^ 16 →
    exec (.markCmd c) s = .next ((s.trace s.cur.m s.coreHere 2 0 c.arg.toNat c.addr.toNat).modHere fun o =>
      { o with phase := .moving })) ∧
  (∀ (c : Command) (s : State) (o : Op), Moves s o → EndsAs (exec (.markCmd c) s) .ok)

/-- R379, R382, R383: SCOPY writes the oldest element it has read once all are read, and reads before it has any; SRD and SGATHER
read the next element into their stream with the poison of each byte while fewer than 64 bytes stand in it and no fibre has ended there,
give a port a token of the stream's first 64 bytes, or of all it has at the end of a fibre, of the walk or at a fault, with P if one of its
bytes was poisoned and F where FIB or FEND ends a fibre with it, and end when nothing is left. -/
def Obligations.CopyAndFeed : Prop :=
  (∀ (c : Command) (s s1 s2 : State) (o : Op) (a : Nat), Moves s o → o.status = .ok → o.idx < o.lanes →
    o.lanes = (walkOf o.wa).count → ElemIs s.draw.2 s1 o (walkOf o.wb) o.idx a →
    Writes s1 s2 o a (o.buf.take (walkOf o.wb).size) (decide (o.aux.headD 0 ≠ 0)) →
    exec (.scopy c) s = .next (s2.modHere fun o =>
      { o with buf := o.buf.drop (walkOf o.wb).size, aux := o.aux.drop 1, idx := o.idx + 1 })) ∧
  (∀ (c : Command) (s s1 s2 : State) (o : Op) (a : Nat) (bs : List Byte) (p : Bool), Moves s o → o.status = .ok →
    o.idx = o.lanes → o.lanes ≠ (walkOf o.wa).count → c.drp = false → ElemIs s.draw.2 s1 o (walkOf o.wa) o.lanes a →
    Reads s1 s2 o a (walkOf o.wa).size bs p →
    exec (.scopy c) s = .next (s2.modHere fun o =>
      { o with buf := o.buf ++ bs, lanes := o.lanes + 1, aux := o.aux ++ [if p then 1 else 0] })) ∧
  (∀ (c : Command) (s : State) (o : Op), Moves s o → o.status = .ok → o.idx = o.lanes → o.lanes = (walkOf o.wa).count →
    EndsAs (exec (.scopy c) s) .ok) ∧
  (∀ i ∈ feedGroup, ∀ (c : Command) (s s1 s2 : State) (o : Op) (a : Nat) (bs : List Byte) (p : Bool), Moves s o →
    ringBit c = false → c.drp = false → o.status = .ok → o.buf.length < 64 → (o.buf = [] ∨ fibreEnd c o.idx = false) →
    o.idx ≠ (walkOf o.wa).count →
    (s.core s.cur.m s.coreHere).holdsPort o 0 c.port.toNat = true →
    s.elemAddr ((s.opAgent o).forElem o.idx) (walkOf o.wa) o.idx = (s1, .at_ a) →
    s1.readMem ((s.opAgent o).forElem o.idx) a (walkOf o.wa).size = (s2, .ok bs p) →
    let pad := (walkOf o.wa).unit - (walkOf o.wa).size
    exec (i c) s = .next ((s2.elemDone ((s.opAgent o).forElem o.idx)).modHere fun x =>
      { x with buf := x.buf ++ (bs ++ List.replicate pad 0)
               bufZ := x.bufZ ++ (s2.marks ((s.opAgent o).forElem o.idx) a (walkOf o.wa).size ++ List.replicate pad false)
               idx := x.idx + 1 })) ∧
  (∀ i ∈ feedGroup, ∀ (c : Command) (s : State) (o : Op) (r : ElemRef) (g : Region) (e : Elem), Moves s o → ringBit c = false →
    (64 ≤ o.buf.length ∨ (o.buf ≠ [] ∧ (fibreEnd c o.idx = true ∨ o.idx = (walkOf o.wa).count ∨ o.status ≠ .ok))) →
    (s.core s.cur.m s.coreHere).holdsPort o 0 c.port.toNat = true →
    s.portOf o 0 c.port.toNat = some r → s.elemAt r = some (g, e) → g.portMoves e = true → g.outReady r.e 0 = true →
    let f := decide (o.status = .ok ∧ o.buf.length ≤ 64) &&
      (fibreEnd c o.idx || (c.arg.getLsbD 23 && decide (o.idx = (walkOf o.wa).count)))
    exec (i c) s = .next ((s.give r 0 (streamToken e.ctx o.buf ((o.bufZ.take 64).any id) f)).modHere fun o =>
      { o with buf := o.buf.drop 64, bufZ := o.bufZ.drop 64 })) ∧
  (∀ i ∈ feedGroup, ∀ (c : Command) (s : State) (o : Op), Moves s o → ringBit c = false → o.buf = [] →
    (o.status ≠ .ok ∨ o.idx = (walkOf o.wa).count) → (s.core s.cur.m s.coreHere).holdsPort o 0 c.port.toNat = true →
    EndsAs (exec (i c) s) o.status)

/-- R380, R382, R386: SWR and SSCATTER take a token of one lane from their port and store its low bytes at the next element, after which
a flood that stands at the region goes on where it can; SSCATOP in its immediate form adds ADDR's low word to the next element at its
home, in the window of the launch's own row, while the row's budget there has a line left. -/
def Obligations.DrainAndScatter : Prop :=
  (∀ i ∈ drainGroup, ∀ (c : Command) (s s1 s2 : State) (o : Op) (r : ElemRef) (g : Region) (e : Elem) (n : Nat) (t : Token) (a pa : Nat),
    Moves s o → ringBit c = false → arg23 c = false → o.buf = [] → (walkOf o.wa).ind = 0 → (walkOf o.wa).esz = 2 →
    o.idx + 1 < (walkOf o.wa).count → (s.core s.cur.m s.coreHere).holdsPort o 1 c.port.toNat = true →
    s.portOf o 1 c.port.toNat = some r → s.elemAt r = some (g, e) → g.st = .running → g.frozen = false →
    g.dataAt r.e 0 = some (n, t) → t.cnt = 1 → t.p = false → t.e = false → ElemIs s s o (walkOf o.wa) o.idx a →
    s.pieceCheck ((s.opAgent o).forElem o.idx) a .store = (s1, .ok (.mem pa)) →
    s1.writeMem ((s.opAgent o).forElem o.idx) a (bytesOf 4 t.lanes[0].toNat) false = (s2, .ok) →
    let u := (s2.elemDone ((s.opAgent o).forElem o.idx)).take r 0
    exec (i c) s = .next ((if g.flood.isSome then u.settle r.m r.c r.slot else u).modHere fun o =>
      { o with idx := o.idx + 1, buf := [], bufP := false })) ∧
  (∀ (c : Command) (s : State) (o : Op) (a : Nat) (sl : Slice), Moves s o → c.sub = 4 → c.arg = 0 → o.drops = [] →
    (walkOf o.wa).ind = 0 → (walkOf o.wa).esz = 2 → o.idx + 1 < (walkOf o.wa).count →
    ElemIs s s o (walkOf o.wa) o.idx a → sliceBase ≤ a → a < sliceBase + 2 ^ 32 → sliceOf (a - sliceBase) = some sl →
    (s.row sl.m).lid = some o.lid → (s.row sl.m).suspended = none → s.hub.ck.replay = false →
    ((s.core sl.m sl.c).mcells[sl.mi].banks[bankOf (s.core sl.m sl.c).mcells[sl.mi].hxm sl.off]).st = .full →
    s.mem.dead (spadBase + (a - sliceBase)) 4 = false → s.mem.poisoned (spadBase + (a - sliceBase)) 4 = false →
    (a - sliceBase) / 2 ^ 29 = dieOf s.cur.m → s.hub.budgets.full s.cur.m (arbiterOf (spadBase + (a - sliceBase))) = false →
    ∃ t x, exec (.sscatop c) s = .next t ∧ t.opHere = some x ∧ x.idx = o.idx + 1 ∧ x.phase = .moving ∧
      t.mem = s.mem.put (spadBase + (a - sliceBase)) 4
        ((leAt s.mem (spadBase + (a - sliceBase)) 4 + c.addr.toNat) % 2 ^ 32))

/-- R201, R219, R387, R388: KVAPP reserves its positions in one atomic at the descriptor's NRES when the pages hold them and ends
LIMIT when they do not; once its keys are written it waits for its publication, which writes the rinds of its pages and adds
its keys to NKEY at the descriptor. -/
def Obligations.KeysAppended : Prop :=
  (∀ (c : Command) (s s1 : State) (o : Op) (pa : Nat), Moves s o → c.arg.toNat % 65536 ≠ 0 → o.kvBase = none →
    s.engCheck (s.opAgent o) c.addr.toNat .atomic = (s1, .ok (.mem pa)) → s1.mem.dead pa 64 = false →
    s1.mem.poisoned pa 64 = false → s1.atomicTurn pa (s.opAgent o) = true →
    (leAt s1.mem (pa + 0x18) 4 + c.arg.toNat % 65536 ≤ 64 * leAt s1.mem (pa + 0x10) 4 →
      ∃ x, exec (.kvapp c) s = .next (((s1.withMem (s1.mem.put (pa + 0x18) 4
        (leAt s1.mem (pa + 0x18) 4 + c.arg.toNat % 65536))).atomicAt pa (s.opAgent o)).modHere fun o =>
          { o with kvBase := some (leAt s1.mem (pa + 0x18) 4), aux := x })) ∧
    (64 * leAt s1.mem (pa + 0x10) 4 < leAt s1.mem (pa + 0x18) 4 + c.arg.toNat % 65536 → EndsAs (exec (.kvapp c) s) .limit)) ∧
  (∀ (c : Command) (s : State) (o : Op) (base : Nat), Moves s o → c.arg.toNat % 65536 ≠ 0 → o.kvBase = some base →
    c.arg.toNat % 65536 * (appendingOf o).ks.keyBytes ≤ o.buf.length →
    exec (.kvapp c) s = .next (s.modHere fun o => { o with phase := .waiting })) ∧
  (∀ (c : Command) (s : State) (o : Op), Moves s o → c.arg.toNat % 65536 = 0 → EndsAs (exec (.kvapp c) s) .ok) ∧
  (∀ (s u v s1 : State) (m : RowId) (c : CoreId) (o : Op), (s.core m c).findOp o.id = some o → o.kvBase = some 0 →
    o.phase = .waiting → o.status = .ok → (s.row m).phase ≠ .mchk → s.kvTurn (appendingOf o) = true →
    let n := (commandOf o.cmd).arg.toNat % 65536
    let a := appendingOf o
    1 ≤ n → n ≤ 64 → 0 < a.ks.d → 
    (s.atOp m c o.id).lineAddr ((s.atOp m c o.id).opAgent o) (BitVec.ofNat 64 (sliceBase + (a.pa + 0x1C - spadBase))) 4 .store =
      (u, .ok (.mem (a.pa + 0x1C))) →
    u.rindsReady (u.opAgent o) a 0 [0] = (v, true) → o.drops = [] →
    Writes v s1 o a.ks.rb (publishedRind a 0 n o.buf 0 (emptyRind a.ks.d)) false →
    ∃ t x, exec (.kvappPublish m c o.id) s = .next t ∧ (t.core m c).findOp o.id = some x ∧ x.phase = .ended ∧ x.status = .ok ∧
      t.mem = s1.mem.write (a.pa + 0x1C) (bytesOf 4 (leAt s1.mem (a.pa + 0x1C) 4 + n)))

/-- R127, R391, R392, R393: PICK reads a page's rind and keeps its bound, writes its next choice with its bound, and ends OK with
the count word; GATHP reads the count word, then each entry once, as no page is left unread, and the lines of the page that it names, of which it delivers
none before it has all. -/
def Obligations.KeysPicked : Prop :=
  (∀ (c : Command) (s s1 : State) (o : Op) (bs : List Byte), Moves s o → c.drp = false → 15 ≤ o.aux.length →
    o.idx < (o.aux.getD 14 0 + 63) / 64 →
    Reads s s1 o ((pickOf o).2.rb + o.idx * 8 * (pickOf o).2.d) (8 * (pickOf o).2.d) bs false →
    exec (.pick c) s = .next (s1.modHere fun o' => { o' with
      idx := o'.idx + 1
      aux := o'.aux ++ [pickBound (pickOf o).2.d o.buf bs, if fieldAt bs (4 * (pickOf o).2.d) 1 % 128 = 0 then 0 else 1] })) ∧
  (∀ (c : Command) (s s1 : State) (o : Op) (x : Page), Moves s o → 15 ≤ o.aux.length →
    (o.aux.getD 14 0 + 63) / 64 ≤ o.idx → (pickSelect (pickOf o).1 (pagesOf o)).1[o.lanes]? = some x →
    Writes s s1 o ((pickOf o).1.pun + 8 * o.lanes) (bytesOf 8 (x.bound * 2 ^ 32 + x.p)) false →
    exec (.pick c) s = .next (s1.modHere fun o => { o with lanes := o.lanes + 1 })) ∧
  (∀ (c : Command) (s s1 : State) (o : Op), Moves s o → 15 ≤ o.aux.length → (o.aux.getD 14 0 + 63) / 64 ≤ o.idx →
    (pickSelect (pickOf o).1 (pagesOf o)).1.length ≤ o.lanes →
    Writes s s1 o ((pickOf o).1.pun + 8 * (pickOf o).1.cap) (bytesOf 8 ((if (pickSelect (pickOf o).1 (pagesOf o)).2 then 2 ^ 32 else 0)
      + (pickSelect (pickOf o).1 (pagesOf o)).1.length)) false → s1.opHere = some o →
    EndsAs (exec (.pick c) s) .ok) ∧
  (∀ (c : Command) (s s1 : State) (o : Op) (e : List Byte), Moves s o → c.drp = false → o.aux.length ≤ 14 →
    Reads s s1 o ((pickOf o).1.pun + 8 * (pickOf o).1.cap) 8 e false → natOf (e.take 4) ≤ (pickOf o).1.cap →
    exec (.gathp c) s = .next (s1.modHere fun o' => { o' with aux := o'.aux ++ [natOf (e.take 4), 0, 0] })) ∧
  (∀ (c : Command) (s s1 : State) (o : Op) (e : List Byte), Moves s o → ringBit c = false → c.drp = false → 15 ≤ o.aux.length →
    o.aux.getD 16 0 = 0 → o.status = .ok → o.buf = [] → o.idx ≠ o.aux.getD 14 0 →
    (s.core s.cur.m s.coreHere).holdsPort o 0 c.port.toNat = true →
    Reads s s1 o ((pickOf o).1.pun + 8 * o.idx) 8 e false → natOf (e.take 4) < (pickOf o).2.npage →
    exec (.gathp c) s = .next (s1.modHere fun o' => { o' with aux := o'.aux.set 16 (natOf (e.take 4) + 1) })) ∧
  (∀ (c : Command) (s s1 : State) (o : Op) (page : Nat) (data : List Byte) (q : Bool), Moves s o → c.drp = false →
    15 ≤ o.aux.length → o.aux.getD 16 0 = page + 1 →
    let va := (if c.sub = 0 then (pickOf o).2.kb else (pickOf o).1.vb) + page * (pickOf o).2.ksz + o.aux.getD 15 0
    Reads s s1 o va 128 data q →
    let done := decide (o.aux.getD 15 0 + 128 = (pickOf o).2.ksz)
    exec (.gathp c) s = .next (s1.modHere fun o' => { o' with
      buf := o'.buf ++ data, bufZ := o'.bufZ ++ s1.marks (s.opAgent o) va 128, idx := if done then o'.idx + 1 else o'.idx
      aux := (o'.aux.set 15 (if done then 0 else o.aux.getD 15 0 + 128)).set 16 (if done then 0 else page + 1) }))

/-- R395, R396, R397, R450: MXLDW loads the weights of the slot at the head of HB and then pops it and ends OK; MXGO drives its
next row's A row through every store, and after the last row pops its slots and ends OK; MXDRN writes its next value at its
element, and ends OK after the last. -/
def Obligations.SystolicCommands : Prop :=
  (∀ (c : Command) (s s1 s2 : State) (o : Op) (d : Driven) (pa : Nat) (r : Ring) (bs : List Byte), Moves s o → o.aux = [1] →
    s.mxRegion c o = .ready d → s.headSlot o o.hb = .ready s1 pa r →
    s1.readMem (s1.slotAgent o) (toWord (r.slotAt r.head)).toNat d.x.bTile = (s2, .ok bs false) →
    exec (.mxldw c) s = .next ((s2.loadWeights d bs (toWord (r.slotAt r.head))).modHere fun o => { o with aux := [2] })) ∧
  (∀ (c : Command) (s s1 s2 : State) (o : Op) (d : Driven) (pa : Nat) (r : Ring), Moves s o → o.aux = [2] → s.mxRegion c o = .ready d →
    s.headSlot o o.hb = .ready s1 pa r → d.g.hasWeights = true → s1.popTurn o [o.hb] = (s2, true) →
    exec (.mxldw c) s = .next ((s2.popSlot c o o.hb).endMx d.slot .ok 0)) ∧
  (∀ (c : Command) (s s1 s2 s3 : State) (o : Op) (d : Driven) (pa : Nat) (r : Ring) (bs : List Byte), Moves s o → o.aux = [3] →
    keepW c = true → mxMode c = .plain → d.x.scale = false → s.mxRegion c o = .ready d → s.headSlot o o.ha = .ready s1 pa r →
    o.idx ≠ mxRows c → d.g.hasWeights = true → s1.rowReady (s1.opAgent o) d (mxMode c) o.idx = (s2, true) →
    Reads s2 s3 o (r.slotAt r.head + 64 * d.x.nd * o.idx) (64 * d.x.nd) bs false →
    exec (.mxgo c) s = .next ((s3.updateRow d .plain o.idx (d.x.aRow bs [])).modHere fun o => { o with idx := o.idx + 1 })) ∧
  (∀ (c : Command) (s s1 s2 : State) (o : Op) (d : Driven) (pa : Nat) (r : Ring), Moves s o → o.aux = [3] → keepW c = true →
    s.mxRegion c o = .ready d → s.headSlot o o.ha = .ready s1 pa r → o.idx = mxRows c → d.g.hasWeights = true →
    s1.popTurn o [o.ha] = (s2, true) →
    exec (.mxgo c) s = .next ((s2.popSlot c o o.ha).endMx d.slot .ok 0)) ∧
  (∀ (c : Command) (s : State) (o : Op) (d : Driven), Moves s o → o.aux = [1] → ringBit c = false → s.mxRegion c o = .ready d →
    o.idx = d.x.rows * d.x.n → exec (.mxdrn c) s = .next (s.endMx d.slot .ok 0)) ∧
  (∀ (c : Command) (s s1 s2 s3 s4 : State) (o : Op) (d : Driven) (a : Nat) (t : Target), Moves s o → o.aux = [1] → ringBit c = false →
    drnNorm c = false → drnClr c = false → d.x.wide = true → drnType c = 0xD → s.mxRegion c o = .ready d →
    o.idx ≠ d.x.rows * d.x.n → o.idx ≠ (walkOf o.wa).count → ElemIs s s1 o (walkOf o.wa) o.idx a →
    s1.pieceCheck (s.opAgent o) a .store = (s2, .ok t) →
    let p := (s2.drnPlace d o.idx).1 + 16 * (s2.drnPlace d o.idx).2.1
    s2.spansServed (s.opAgent o) false [(p, 16)] = (s3, true) → s3.mem.dead p 16 = false → s3.mem.poisoned p 16 = false →
    let en := entryAt true (s3.mem.read (s2.drnPlace d o.idx).1 512) (s2.drnPlace d o.idx).2.1
    let out := drnRead d.x 0xD { code := c.sub.toNat, seed := 0, index := o.idx } none en
    out.2.2 = en →
    Writes (s3.setSticky s.cur.m s.coreHere d.slot (flagSticky out.2.1 ||| AccFlags.sticky en.fl)) s4 o a (bytesOf 8 out.1) false →
    exec (.mxdrn c) s = .next (s4.modHere fun o => { o with idx := o.idx + 1 }))

namespace Sys2Proof.Machine.Claim

/-! ### Remote and collective commands -/

/-- The circuit transport can carry an operation to a node (R398). -/
def usable (s : State) (node : BitVec 18) : Prop :=
  node ≠ 0 ∧ node ≠ 0x3FFFF ∧ s.hub.nodeId ≠ 0 ∧ ∃ p : Fin 16, (s.hub.ports[p]).up = true
/-- The node and the class that a remote command names (Table 15.7). -/
def nodeNamed (c : Command) : BitVec 18 := c.arg.extractLsb' 0 18
/-- See `nodeNamed`. -/
def classNamed (c : Command) : BitVec 2 := c.arg.extractLsb' 18 2
/-- Bit n of a command's ARG. -/
def argBit (c : Command) (n : Nat) : Bool := c.arg.getLsbD n

/-- The operation at the cursor goes on to its next element. -/
def nextElement (s : State) : State := s.modHere fun o => { o with idx := o.idx + 1 }

/-- One line at a remote address of this module itself is at pa, for reading or writing (R399). -/
def OwnRemote (s : State) (va n : Nat) (kind : Kind) (pa : Nat) : Prop := va % 128 + n ≤ 128 ∧ s.remoteAddr va kind = .ok pa

/-- The circuit of the core at the cursor to a node and a class is open at x, and has credit (R30, R398). -/
def Open (s : State) (node : BitVec 18) (cls : BitVec 2) (x : Circuit) : Prop :=
  s.hub.outCircuit (some (s.cur.m, s.coreHere)) node cls = some x ∧ x.credit = true

/-- Participants that a reduction block lists (Table 15.7). -/
def participants (hdr : List Byte) : Nat := natOf ((hdr.drop 0x18).take 8) / 2 ^ 16 % 2 ^ 8

/-- What two elements combine to under a reduction's SUB (0 add, 1 min, 2 max) and TYPE: 32-bit integers signed or unsigned, binary32
or binary64 rounded to nearest even (R402, Table 15.4). -/
def combined (sub ty x y : Nat) : Nat :=
  if ty = 2 ∨ ty = 0xD then
    let fmt := if ty = 2 then FloatFmt.b32 else FloatFmt.b64
    let p := fmt.decode x
    let q := fmt.decode y
    (fmt.round rne (if sub = 0 then (p.add rne q).1 else Num.minMax (sub ≠ 1) p q)).1
  else
    let p := BitVec.ofNat 32 x
    let q := BitVec.ofNat 32 y
    if sub = 0 then (p + q).toNat
    else if ty = 1 then (if sub = 1 then min x y else max x y)
    else if sub = 1 then (if q.toInt < p.toInt then y else x) else if p.toInt < q.toInt then y else x

/-- Element i of a participant's data: an element's bytes, then one that tells whether it was poisoned (log entry 28). -/
def reductionElement (a : Ared) (d : List Byte) (i : Nat) : Nat := natOf ((d.drop (i * (a.w + 1))).take a.w)

/-- The participants' data in the order of the list. -/
def inListOrder (a : Ared) (parts : List AredPart) : List (List Byte) :=
  a.nodes.map fun n => ((parts.find? fun p => p.node.toNat == n).map (·.data)).getD []

/-- A local atomic reaches 8 bytes at pa, neither dead nor poisoned, outside a replay. -/
def AtomicAt (s s1 : State) (o : Op) (a pa : Nat) : Prop :=
  s.pieceCheck (s.opAgent o) a .atomic = (s1, .ok (.mem pa)) ∧ s1.mem.dead pa 8 = false ∧ s1.mem.poisoned pa 8 = false ∧
    s1.hub.ck.replay = false

end Sys2Proof.Machine.Claim

/-- R398, R399, R401, R402, Tables 15.1 and 15.7: SPUT and SGET start when their node can be reached and end CBRK when it cannot;
an element of a put to the module's own node is written at its remote address; one to another node leaves in the next DATA frame
of the circuit, once it has credit, and the operation awaits its acknowledgement (that CBRK comes before the own node's form is tried, that
a DATA frame carries one element, and that an element is read once its frame finds credit, are the model's choices, log entries 37 and 28); a get from the own node reads the bytes and writes them to its
element; with nothing left and nothing awaited the operation ends with its status. -/
def Obligations.RemoteTransfers : Prop :=
  (∀ i ∈ [(.sput : Command → Instr), .sget], ∀ (c : Command) (s : State) (o : Op), Begins s o → c.sub = 0 → c.arg.toNat < 2 ^ 20 →
    (walkOf o.wa).ok = true →
    (usable s (nodeNamed c) → exec (i c) s = .next (s.modHere fun o => { o with phase := .moving })) ∧
    (¬usable s (nodeNamed c) → EndsAs (exec (i c) s) .cbrk)) ∧
  (∀ (c : Command) (s s1 s2 : State) (o : Op) (a pa : Nat) (bs : List Byte), Moves s o → s.hub.hmode = 0 → c.drp = false →
    o.idx < (walkOf o.wa).count → ElemIs s s1 o (walkOf o.wa) o.idx a → Reads s1 s2 o a (walkOf o.wa).size bs false →
    bs.length = (walkOf o.wa).size → nodeNamed c = s.hub.nodeId → s2.hub.nodeId = s.hub.nodeId →
    OwnRemote s2 (c.addr.toNat + o.idx * (walkOf o.wa).size) (walkOf o.wa).size .store pa →
    exec (.sput c) s = .next (nextElement (s2.withMem (s2.mem.write pa bs)))) ∧
  (∀ (c : Command) (s s1 s2 : State) (o : Op) (a : Nat) (bs : List Byte) (p : Bool) (x : Circuit), Moves s o → s.hub.hmode = 0 →
    c.drp = false → o.idx < (walkOf o.wa).count → s.maySend (nodeNamed c) (classNamed c) = true →
    ElemIs s s1 o (walkOf o.wa) o.idx a →
    Reads s1 s2 o a (walkOf o.wa).size bs p → nodeNamed c ≠ s2.hub.nodeId → s2.hub.nodeId ≠ 0 → Open s2 (nodeNamed c) (classNamed c) x →
    (∃ q : Fin 16, (s2.hub.ports[q]).up = true) → s2.opHere = some o →
    ∃ t f y, exec (.sput c) s = .next t ∧ t.hub.sent = f :: s2.hub.sent ∧ f.kind = 0 ∧ f.dst = nodeNamed c ∧
      f.circ = x.num ∧ f.seq = x.last + 1 ∧ f.port = x.port ∧ t.opHere = some y ∧ y.idx = o.idx + 1 ∧
      (x.num, x.last + 1) ∈ y.awaitSeq ∧ t.mem = s2.mem) ∧
  (∀ (c : Command) (s : State) (o : Op), Moves s o → s.hub.hmode = 0 → o.idx = (walkOf o.wa).count → o.drops = [] →
    o.awaitSeq = [] → EndsAs (exec (.sput c) s) o.status ∧ EndsAs (exec (.sget c) s) o.status) ∧
  (∀ (c : Command) (s : State) (o : Op) (pa : Nat), Moves s o → s.hub.hmode = 0 → o.idx < (walkOf o.wa).count →
    o.bufP = false → o.lanes = 0 → nodeNamed c = s.hub.nodeId →
    OwnRemote s (c.addr.toNat + o.idx * (walkOf o.wa).size) (walkOf o.wa).size .load pa →
    s.mem.poisoned pa (walkOf o.wa).size = false →
    exec (.sget c) s = .next (s.modHere fun o =>
      { o with buf := s.mem.read pa (walkOf o.wa).size, bufP := true, lanes := 0 })) ∧
  (∀ (c : Command) (s s1 s2 : State) (o : Op) (a : Nat), Moves s o → s.hub.hmode = 0 → o.idx < (walkOf o.wa).count →
    o.bufP = true → o.lanes = 0 → ElemIs s s1 o (walkOf o.wa) o.idx a → Writes s1 s2 o a o.buf false →
    exec (.sget c) s = .next (s2.modHere fun o => { o with idx := o.idx + 1, buf := [], bufP := false, lanes := 0 }))

/-- R407, R408: SIGNAL starts on dwords once every earlier operation of its launch on its engine has completed, stores ADDR or adds
it at its next element, and ends after the last; BAR adds 1 at its word and stands at its home, which examines it at
every write: it waits, changing nothing and asking nothing, until a write has left the word at or above the next multiple of its target that
the old value gives, and then ends OK (that the value counts whatever becomes of its line is the model's choice, log entry 68). -/
def Obligations.SignalsAndBarriers : Prop :=
  (∀ (c : Command) (s : State) (o : Op), Begins s o → (s.core s.cur.m s.coreHere).earlierDone o = true → c.sub = 0 →
    c.scp.toNat < 6 → c.arg.toNat < 2 ^ 21 → (walkOf o.wa).ok = true → (walkOf o.wa).esz = 3 →
    exec (.signalCmd c) s = .next (s.modHere fun o => { o with phase := .moving })) ∧
  (∀ (c : Command) (s s1 s2 : State) (o : Op) (a pa : Nat), Moves s o → argBit c 24 = false → argBit c 20 = false →
    o.idx < (walkOf o.wa).count → ElemIs s s1 o (walkOf o.wa) o.idx a →
    s1.pieceCheck (s.opAgent o) a .store = (s2, .ok (.mem pa)) →
    exec (.signalCmd c) s = .next (nextElement ((s2.withMem (s2.mem.put pa 8 c.addr.toNat)).usedLines (s.opAgent o) Kind.store.code [pa]))) ∧
  (∀ (c : Command) (s s1 s2 : State) (o : Op) (a pa : Nat), Moves s o → argBit c 24 = false → argBit c 20 = true →
    o.idx < (walkOf o.wa).count → ElemIs s s1 o (walkOf o.wa) o.idx a → AtomicAt s1 s2 o a pa →
    exec (.signalCmd c) s = .next (nextElement (((s2.withMem (s2.mem.put pa 8 ((leAt s2.mem pa 8 + c.addr.toNat) % 2 ^ 64))).atomicAt
      pa (s.opAgent o)).usedLines (s.opAgent o) Kind.atomic.code [pa]))) ∧
  (∀ (c : Command) (s : State) (o : Op), Moves s o → argBit c 24 = false → o.idx = (walkOf o.wa).count → o.drops = [] →
    o.awaitSeq = [] → EndsAs (exec (.signalCmd c) s) o.status) ∧
  (∀ (c : Command) (s : State) (o : Op), Begins s o → c.sub = 0 → c.scp.toNat < 6 → argBit c 24 = false →
    c.arg.toNat ≠ 0 → c.addr.toNat % 8 = 0 → exec (.barCmd c) s = .next (s.modHere fun o => { o with phase := .moving })) ∧
  (∀ (c : Command) (s s1 : State) (o : Op) (pa : Nat), Moves s o → o.aux = [] → argBit c 24 = false → c.arg.toNat ≠ 0 →
    AtomicAt s s1 o c.addr.toNat pa →
    (leAt s1.mem pa 8 / c.arg.toNat + 1) * c.arg.toNat < 2 ^ 64 →
    let u := (s1.withMem (s1.mem.put pa 8 ((leAt s1.mem pa 8 + 1) % 2 ^ 64))).atomicAt pa (s.opAgent o)
    let goal := (leAt s1.mem pa 8 / c.arg.toNat + 1) * c.arg.toNat
    exec (.barCmd c) s = .next ((u.withMem { u.mem with
        bars := u.mem.bars ++ [⟨u.mem.barNo, o.lid, pa, goal, decide (goal ≤ leAt u.mem pa 8)⟩], barNo := u.mem.barNo + 1 }).modHere fun o =>
      { o with aux := [goal, pa, u.mem.barNo] })) ∧
  (∀ (m : Memory) (a : Nat) (bs : List Byte),
    (m.write a bs).bars = m.bars.map fun b => { b with met := b.met || decide (b.goal ≤ leAt (m.write a bs) b.pa 8) }) ∧
  (∀ (c : Command) (s : State) (o : Op) (pa goal no : Nat) (b : BarWait), Moves s o → o.aux = [goal, pa, no] → o.drops = [] →
    s.mem.bars.find? (fun x => x.no == no) = some b →
    (b.met = true → EndsAs (exec (.barCmd c) s) .ok) ∧
    (b.met = false → exec (.barCmd c) s = .next s))

/-- R52, R81, R94, R97, R402, R403, R404, R405: ARED starts on a well-formed block of which this module is a participant, joins its
group, reads its elements and writes the results, and ends after the last; the result of an element is the participants' combined from
the left in the order of the list, and node 0 gives it to every participant once all data is there, to its own module at once and to each other in a frame (how elements travel, with a byte of
poison each and up to 4,000 bytes a message, is the model's choice, log entry 28); CJOIN makes a join node of the circuits that its
block names; LAUNCH of a ROWS request submits the descriptor and writes the answer where its block says; a GRAPH request enters
the queue of its priority, where function 1 is in hardware mode to be served from there and otherwise to be posted to the host-assisted ring
from there (the model's choice, log entry 37); CKPT waits for its checkpoint. -/
def Obligations.CollectiveCommands : Prop :=
  (∀ (c : Command) (s s1 s2 : State) (o : Op) (hdr list : List Byte) (a : Ared), Begins s o → c.sub.toNat ≤ 2 →
    c.arg.toNat % 2 ^ 18 = 0 → c.arg.toNat < 2 ^ 20 → s.hub.nodeId ≠ 0 → (∃ p : Fin 16, (s.hub.ports[p]).up = true) →
    c.addr.toNat % 64 = 0 → Reads s s1 o c.addr.toNat 64 hdr false → 2 ≤ participants hdr → participants hdr ≤ 64 →
    Reads s1 s2 o (c.addr + 0x40).toNat (4 * participants hdr) list false →
    aredBlock s2.hub.nodeId.toNat hdr list = some a → (∀ n ∈ a.nodes, n ≠ 0 ∧ n ≠ 0x3FFFF) →
    exec (.ared c) s = .next (s2.modHere fun o =>
      { o with aux := [a.src, a.dst, a.len, a.ty, a.group] ++ a.nodes, phase := .moving })) ∧
  (∀ (c : Command) (s s1 : State) (o : Op) (a : Ared), Moves s o → o.lanes = 1 → a = aredOf o →
    s.pollAred a.group 1 = some ([0], s1) → exec (.ared c) s = .next (s1.modHere fun o => { o with lanes := 2 })) ∧
  (∀ (c : Command) (s s1 : State) (o : Op) (a : Ared) (bs : List Byte) (p : Bool), Moves s o → o.lanes = 2 → a = aredOf o →
    c.drp = false → s.maySend (BitVec.ofNat 18 (a.nodes.headD 0)) (classNamed c) = true → (a.src + o.idx * a.w) % a.w = 0 → Reads s s1 o (a.src + o.idx * a.w) a.w bs p → o.idx + 1 ≠ a.len →
    o.buf.length + bs.length + 1 < 4000 →
    exec (.ared c) s = .next (s1.modHere fun x =>
      { x with idx := x.idx + 1, buf := o.buf ++ bs ++ [if p then 1 else 0] })) ∧
  (∀ (sub i : Nat) (a : Ared) (d : List Byte) (ds : List (List Byte)), sub ≤ 2 → (a.ty ≤ 2 ∨ a.ty = 0xD) →
    aredElem sub a (d :: ds) i =
      bytesOf a.w (ds.foldl (fun x y => combined sub a.ty x (reductionElement a y i)) (reductionElement a d i)) ++
        [if (d :: ds).any (fun y => y.getD (i * (a.w + 1) + a.w) 0 != 0) then 1 else 0]) ∧
  (∀ (s : State) (node : BitVec 18) (group : BitVec 16) (body : List Byte) (g : AredGroup) (p : AredPart) (rest : List AredPart)
    (sub : Nat) (a : Ared), s.hub.areds.find? (fun g => g.group == group && g.verdict == some true) = some g →
    (g.parts.map fun (p : AredPart) => if p.node = node then { p with data := p.data ++ body } else p) = p :: rest →
    aredParams p.params = (sub, a) → a.nodes ≠ [] → 1 ≤ a.len → a.len * (a.w + 1) ≤ 4000 →
    (∀ x ∈ p :: rest, a.len * (a.w + 1) ≤ x.data.length) → (∃ x ∈ p :: rest, x.node = s.hub.nodeId) →
    (group, bytesOf 1 3 ++ bytesOf 2 group.toNat ++ (List.range a.len).flatMap (aredElem sub a (inListOrder a (p :: rest)))) ∈
      (s.aredData node group body).hub.aredIn) ∧
  (∀ (s : State) (node : BitVec 18) (group : BitVec 16) (body : List Byte) (g : AredGroup) (p : AredPart) (rest : List AredPart)
    (sub : Nat) (a : Ared), s.hub.areds.find? (fun g => g.group == group && g.verdict == some true) = some g →
    (g.parts.map fun (p : AredPart) => if p.node = node then { p with data := p.data ++ body } else p) = p :: rest →
    aredParams p.params = (sub, a) → a.nodes ≠ [] → 1 ≤ a.len → a.len * (a.w + 1) ≤ 4000 →
    (∀ x ∈ p :: rest, a.len * (a.w + 1) ≤ x.data.length) → s.hub.nodeId ≠ 0 → (∃ q : Fin 16, (s.hub.ports[q]).up = true) →
    ∀ x ∈ p :: rest, x.node ≠ s.hub.nodeId → ∃ f ∈ (s.aredData node group body).hub.sent, f.kind = 0 ∧ f.dst = x.node ∧
      f.op = RemoteOp.reduction.code ∧ f.payload = bytesOf 1 3 ++ bytesOf 2 group.toNat ++
        (List.range a.len).flatMap (aredElem sub a (inListOrder a (p :: rest)))) ∧
  (∀ (c : Command) (s s1 : State) (o : Op) (a : Ared), Moves s o → 3 ≤ o.lanes → a = aredOf o → o.idx < a.len →
    a.w + 1 ≤ o.buf.length → (a.dst + o.idx * a.w) % a.w = 0 →
    Writes s s1 o (a.dst + o.idx * a.w) (o.buf.take a.w) (decide (o.buf.getD a.w 0 ≠ 0)) →
    exec (.ared c) s = .next (s1.modHere fun o => { o with idx := o.idx + 1, buf := o.buf.drop (a.w + 1) })) ∧
  (∀ (c : Command) (s : State) (o : Op), Moves s o → 3 ≤ o.lanes → o.idx = (aredOf o).len → o.drops = [] → o.awaitSeq = [] →
    EndsAs (exec (.ared c) s) o.status) ∧
  (∀ (c : Command) (s : State) (o : Op) (r0 a0 r1 a1 : Nat) (p q : LinkPath), Moves s o → o.aux = [r0, a0, r1, a1] → o.drops = [] →
    s.joinEntry o.lid (BitVec.ofNat 64 r0) (a0 % 4096) = some p → s.joinEntry o.lid (BitVec.ofNat 64 r1) (a1 % 4096) = some q →
    p ≠ q → dieOf p.sm = dieOf q.sm → dieOf p.dm = dieOf q.dm → s.hub.joins = [] →
    EndsAs (exec (.cjoin c) s) .ok ∧
    ∃ t j, exec (.cjoin c) s = .next t ∧ t.hub.joins = [j] ∧ j.srcDie = dieOf p.sm ∧ j.dstDie = dieOf p.dm ∧ j.order = [] ∧
      j.members.map (·.rcb) = [BitVec.ofNat 64 r0, BitVec.ofNat 64 r1] ∧ t.mem = s.mem) ∧
  (∀ (c : Command) (s s1 : State) (o : Op) (desc resa : Nat) (e : TlbEntry), Moves s o → c.sub = 0 → o.aux = [desc, resa] →
    desc % 128 = 0 → desc < cellRegBase → s.translate (s.opAgent o) desc = (s1, .ok e) →
    let u := s1.submit (e.pbase + (desc - e.vbase)) none
    exec (.launchCmd c) s = .next (u.1.modHere fun o =>
      { o with status := u.2.1, aux := o.aux ++ [(lsubstWord u.2.1 u.2.2).toNat] })) ∧
  (∀ (c : Command) (s s1 : State) (o : Op) (desc resa w : Nat), Moves s o → c.sub = 0 → o.aux = [desc, resa, w] → resa ≠ 0 →
    Writes s s1 o resa (bytesOf 8 w) false → s1.opHere = some o → EndsAs (exec (.launchCmd c) s) o.status) ∧
  (∀ (c : Command) (s : State) (o : Op) (p : Fin 4), Moves s o → c.sub = 1 → (graphBlock o.buf).prio = p.val →
    (s.hub.graphs[p]).length < 256 →
    ∃ t x, exec (.launchCmd c) s = .next t ∧ t.hub.graphs[p] = s.hub.graphs[p] ++ [⟨s.cur.m, s.coreHere, o.id, s.hub.graphNo⟩] ∧
      t.opHere = some x ∧ x.phase = .waiting ∧ t.mem = s.mem) ∧
  (∀ (c : Command) (s : State) (o : Op), Begins s o → c.sub = 0 → s.hub.ck.size ≠ 0 → s.hub.ck.en = true →
    s.hub.ck.rows.getLsbD s.cur.m.val = true →
    exec (.ckpt c) s = .next (s.modHere fun o => { o with phase := .moving })) ∧
  (∀ (c : Command) (s : State) (o : Op), Moves s o →
    exec (.ckpt c) s = .next (s.modHere fun o => { o with phase := .waiting }))

namespace Sys2Proof.Machine.Claim

/-! ### Completion -/

/-- A region of a slot with one field changed and every other slot of the core as before. -/
def slotFreed (s t : State) (m : RowId) (c : CoreId) (slot : SlotId) : Prop :=
  t.region m c slot = none ∧ ∀ j : SlotId, j ≠ slot → t.region m c j = s.region m c j

/-- The region has no ring port. -/
def noRingPort (g : Region) : Prop := ∀ e ∈ g.elems, e.isPort 2 = false ∧ e.isPort 3 = false

end Sys2Proof.Machine.Claim

/-- R92, R95, R96, R125, R126, R162, R243, R244, R256, Tables 4.9 and 5.6: an ended operation completes: alone in its queue it
retires, a status other than OK counts in %est with the first one's code, and a trapping command's waits as an engine trap; a
region whose completion condition holds goes to COMPLETING and then leaves its slot; a breakpoint that holds its token back
begins a cut; and a GRAPH request whose region is READY starts it and ends OK. -/
def Obligations.CompletionEvents : Prop :=
  (∀ (s : State) (m : RowId) (c : CoreId) (o : Op), (s.core m c).findOp o.id = some o → o.phase = .ended → o.drops = [] →
    s.suspended = [] → s.hub.budgets.awaited m c o.id = false →
    ∃ t, exec (.operationCompletion m c o.id) s = .next t ∧ (∀ x ∈ (t.core m c).ops, x.id = o.id → x.phase = .completed) ∧
      ((s.core m c).ops = [o] → (t.core m c).ops = []) ∧
      (o.status = .ok → (t.core m c).est = (s.core m c).est) ∧
      (o.status ≠ .ok →
        (t.core m c).est[o.engine].count = (if (s.core m c).est[o.engine].count = 255 then 255 else (s.core m c).est[o.engine].count + 1) ∧
        (t.core m c).est[o.engine].first = (if (s.core m c).est[o.engine].count = 0 then BitVec.ofNat 8 o.status.code
          else (s.core m c).est[o.engine].first)) ∧
      (∀ x, o.status ≠ .ok → o.status.trap = some x → (commandOf o.cmd).t = true → (s.core m c).engTrap[o.engine] = none →
        (t.core m c).engTrap[o.engine] =
          some ⟨x, o.errAddr, BitVec.ofNat 64 (o.engine.val * 2 ^ 48 + o.idx % 2 ^ 48)⟩)) ∧
  (∀ (s : State) (m : RowId) (c : CoreId) (slot : SlotId) (g : Region), s.region m c slot = some g → g.frozen = false →
    (s.row m).phase ≠ .mchk → g.st = .running → s.regionDone m c slot g = true →
    ∃ t, exec (.regionCompletion m c slot) s = .next t ∧ t.region m c slot = some { g with st := .completing } ∧
      ∀ j : SlotId, j ≠ slot → t.region m c j = s.region m c j) ∧
  (∀ (s : State) (m : RowId) (c : CoreId) (slot : SlotId) (g : Region), s.region m c slot = some g → (s.row m).phase ≠ .mchk →
    g.st = .completing → s.rcbWaits g.lid g.rcb = false →
    (g.donea = 0 ∨ (s.completionStore { m := m, unit := .core c, lid := g.lid } g.donea g.donev).2 ≠ .wait) →
    ∃ t, exec (.regionCompletion m c slot) s = .next t ∧ slotFreed s t m c slot) ∧
  (∀ (s : State) (m : RowId) (c : CoreId) (i : Fin 4) (g : Region), ((s.core m c).bps[i]).due = true →
    s.region m c ((s.core m c).bps[i]).slot = some g → g.frozen = false → g.flood = .none → g.queued = [] → g.disc ≠ 2 →
    ∃ t g', exec (.breakpoint m c i) s = .next t ∧ t.region m c ((s.core m c).bps[i]).slot = some g' ∧ g'.flood = .cut ∧
      g'.queued = []) ∧
  (∀ (s : State) (p : Fin 4) (req : GraphReq) (rest : List GraphReq) (o : Op) (m : RowId) (c : CoreId) (slot : SlotId) (org : Nat)
    (g : Region), s.hub.graphs[p] = req :: rest → (s.core req.m req.c).findOp req.op = some o → o.id = req.op →
    o.phase = .waiting → o.aux = [m.val, c.val, slot.val, org] → s.region m c slot = some g → g.st = .ready → noRingPort g →
    (graphBlock o.buf).resa = 0 →
    ∃ t x g', exec (.graphRequest p) s = .next t ∧ t.hub.graphs[p] = rest ∧ (t.core req.m req.c).findOp req.op = some x ∧
      x.phase = .ended ∧ x.status = .ok ∧ t.region m c slot = some g' ∧ g'.st = .running)

namespace Sys2Proof.Machine.Claim

/-! ### Launches -/

/-- The bytes of a descriptor that a write of LSUBMIT names (Table 3.3). -/
def descriptorAt (v : Word) : Nat := v.toNat / 2 ^ 7 % 2 ^ 33 * 128
/-- The identifier after another (R71). -/
def lidAfter (l : BitVec 16) : BitVec 16 := if l = 0xFFFF then 1 else l + 1
/-- A launch that a submission makes starts at once: nothing else is pending and its rows are free of every launch. -/
def StartsAtOnce (s : State) (l : Launch) : Prop :=
  (∀ x ∈ s.launches, x.st ≠ .pending ∧ x.lid ≠ s.hub.nextLid ∧ x.rows &&& l.rows = 0)
/-- A launch's completion store has no bank to wake and no cell to wait for (R76, R187). -/
def StoreGoes (s : State) (l : Launch) (v : Word) : Prop :=
  l.donea = 0 ∨ (s.completionStore (hubFor (l.rowList.headD 0) l.lid) l.donea v).2 ≠ .wait
/-- An entry once its slot u has fired: one noted before leaves the list of those, any other is the last slot (R82). -/
def takenAt (x : LtEntry) (u : Nat) : LtEntry :=
  if x.begun = [] then { x with lastSlot := some u } else { x with begun := x.begun.tail }

end Sys2Proof.Machine.Claim

/-- R71, R72, R73, R74, R76, R78, R80, R81, Tables 3.1, 3.3: a write of LSUBMIT submits the descriptor it names and leaves the
status and the identifier in LSUBST, a launch whose rows are free being given them at once; a launch start loads its rows as R74
says, registers, posts, predication, handles, walk slots, banks, cursors, causes and the instruction cache alike (that every post and its .rel begin at zero is the model's choice, log entry 43), and
configures no region, while no row of it is on a die that is switched off or behind a down edge; a launch whose rows, regions and operations are all done leaves the machine and its rows are free; an abort ends a pending
launch and tears a running one down. -/
def Obligations.LaunchesRun : Prop :=
  (∀ (ac : Fin 24) (v : Word) (s : State) (l : Launch), (s.apps[ac]).io = [] → s.readDesc (descriptorAt v) = .ok l → StartsAtOnce s l →
    l.entry = BitVec.ofNat 64 (leAt s.mem (descriptorAt v) 8) ∧ l.rows = BitVec.ofNat 24 (leAt s.mem (descriptorAt v + 8) 8) ∧
    ∃ t, exec (.lsubmitWrite ac v) s = .next t ∧ t.hub.lsubst[ac] = BitVec.ofNat 64 (s.hub.nextLid.toNat * 65536) ∧
      t.hub.nextLid = lidAfter s.hub.nextLid ∧
      t.launch s.hub.nextLid = some { l with lid := s.hub.nextLid, st := .starting, ltEntry := none } ∧
      t.rows = s.rows ∧ t.mem = s.mem) ∧
  (∀ (ac : Fin 24) (v : Word) (s : State) (st : Status), (s.apps[ac]).io = [] → s.readDesc (descriptorAt v) = .error st →
    exec (.lsubmitWrite ac v) s = .next (s.modHub fun h => { h with lsubst := h.lsubst.set ac (BitVec.ofNat 64 st.code) })) ∧
  (∀ (s : State) (l : Launch), s.launch l.lid = some l → l.st = .starting → s.hub.ck.open_ = false →
    (∀ m : RowId, l.rows.getLsbD m.val = true → (s.row m).lid = none ∧ s.rowDown m = false) →
    ∃ t, exec (.launchStart l.lid) s = .next t ∧ t.launch l.lid = some { l with st := .running } ∧ t.mem = s.mem ∧
      (∀ m : RowId, l.rows.getLsbD m.val = false → t.row m = s.row m) ∧
      ∀ m : RowId, l.rows.getLsbD m.val = true →
        (t.row m).phase = .running ∧ (t.row m).lid = some l.lid ∧ (t.row m).pc = l.entry ∧ (t.row m).ord = 0 ∧
        (t.row m).q[0] = 0 ∧ (t.row m).q[1] = l.params[0] ∧ (t.row m).q[2] = l.params[1] ∧ (t.row m).q[3] = l.params[2] ∧
        (t.row m).q[4] = l.params[3] ∧ (t.row m).q[5] = l.lid.setWidth 64 ∧ (t.row m).trap.hbase = l.hbase ∧
        (t.row m).trap.cause = 0 ∧ (t.row m).icache = [] ∧ (t.row m).post = 0 ∧ (t.row m).postRel = false ∧
        (∀ i : Fin 16, 6 ≤ i.val → (t.row m).q[i] = 0) ∧
        ∀ c : CoreId, (t.core m c).s = .replicate 32 0 ∧ (t.core m c).live = 0xFFFFFFFF ∧ (t.core m c).h = .replicate 16 0 ∧
          (t.core m c).w = .replicate 32 0 ∧ (t.core m c).trap.cause = 0 ∧
          ((∀ j : SlotId, (s.core m c).regions[j] = none) → ∀ j : SlotId, (t.core m c).regions[j] = none) ∧
          (t.core m c).active = true ∧ (t.core m c).stack = [] ∧ (t.core m c).cursor = 0 ∧ (t.core m c).trap.hbase = l.hbase ∧
          (t.core m c).epost = 0 ∧ (t.core m c).epostRel = false ∧
          (t.core m c).kidle = l.kidle.setWidth 24 ∧ ∀ b : Fin 4, (t.core m c).banks[b].st = .full) ∧
  (∀ (s : State) (l : Launch), s.launch l.lid = some l → l.st = .running → s.launchDone l = true → StoreGoes s l l.donev →
    ∃ t, exec (.launchCompletion l.lid) s = .next t ∧ t.launch l.lid = none ∧
      ∀ m : RowId, l.rows.getLsbD m.val = true → (t.row m).lid = none ∧ (t.row m).phase = .idle) ∧
  (∀ (v : Word) (s : State) (l : Launch), s.launch (v.setWidth 16) = some l →
    (l.st = .pending → StoreGoes s l l.abortv → ∃ t, exec (.labortWrite v) s = .next t ∧ t.launch (v.setWidth 16) = none) ∧
    (l.st = .running → ∃ t, exec (.labortWrite v) s = .next t ∧ t.launch (v.setWidth 16) = some { l with st := .aborting } ∧
      (∀ m c slot g, t.region m c slot = some g → g.lid ≠ v.setWidth 16) ∧
      ∀ m c, ∀ o ∈ (t.core m c).ops, o.lid = v.setWidth 16 → o.kvBase = none → o.phase = .ended ∨ o.phase = .completed))

/-- R82, R83, R85, Tables 3.5 and 3.6: a write of LTCTL enables or disables the table; the words of an entry take their writable
fields, and of MISS and OVRN one that is written with any bit 1 is cleared (the model's choice, log entry 14); an entry whose slot has come makes a new instance of its descriptor pending, or, while its last instance still runs and
its rule is SKIP, counts an overrun. -/
def Obligations.LaunchTable : Prop :=
  (∀ (v : Word) (s : State), ∃ t, exec (.ltctlWrite v) s = .next t ∧ t.hub.ltEn = v.getLsbD 63 ∧ t.mem = s.mem ∧ t.rows = s.rows ∧
    t.launches = s.launches) ∧
  (∀ (e : Fin 256) (v : Word) (s : State),
    (∃ t, exec (.ltentWrite e 0 v) s = .next t ∧ (t.hub.lt[e]).v = v.getLsbD 63 ∧ (t.hub.lt[e]).rule = v.extractLsb' 61 2 ∧
      (t.hub.lt[e]).offs = v.extractLsb' 0 40 ∧ (t.hub.lt[e]).desc = (s.hub.lt[e]).desc ∧
      ∀ j : Fin 256, j ≠ e → t.hub.lt[j] = s.hub.lt[j]) ∧
    (∃ t, exec (.ltentWrite e 1 v) s = .next t ∧ t.hub.lt[e] = { s.hub.lt[e] with desc := v.extractLsb' 7 33 } ∧
      ∀ j : Fin 256, j ≠ e → t.hub.lt[j] = s.hub.lt[j]) ∧
    exec (.ltentWrite e 2 v) s = .next (s.modHub fun h => { h with lt := h.lt.set e { h.lt[e] with
      miss := if v.extractLsb' 16 16 = 0 then (h.lt[e]).miss else 0
      ovrn := if v.extractLsb' 0 16 = 0 then (h.lt[e]).ovrn else 0 } }) ∧
    exec (.ltentWrite e 3 v) s = .next s) ∧
  (∀ (e : Fin 256) (s : State) (u : Nat) (l : Launch), s.dueSlot e = some u → s.firstDue e u = true → s.hub.hmode = 0 →
    s.entryState e = 0 → s.readDesc ((s.hub.lt[e]).desc.toNat * 128) = .ok l → StartsAtOnce s l →
    ∃ t, exec (.entryFire e) s = .next t ∧ t.hub.lt[e] = { takenAt (s.hub.lt[e]) u with lid := s.hub.nextLid } ∧
      t.launch s.hub.nextLid = some { l with lid := s.hub.nextLid, st := .starting, ltEntry := some e }) ∧
  (∀ (e : Fin 256) (s : State) (u : Nat), s.dueSlot e = some u → s.firstDue e u = true → s.hub.hmode = 0 →
    s.entryState e = 2 → (s.hub.lt[e]).rule = 0 → (s.hub.lt[e]).ovrn ≠ 0xFFFF →
    exec (.entryFire e) s = .next (s.modHub fun h => { h with lt := h.lt.set e { takenAt (h.lt[e]) u with
      ovrn := (h.lt[e]).ovrn + 1 } }))

namespace Sys2Proof.Machine.Claim

/-! ### Elements -/

/-- Element e of region g may act: its region runs, no flood passes and no token of it is doomed (R152, R154, R156, R241). -/
def Lives (s : State) (r : ElemRef) (g : Region) (e : Elem) : Prop :=
  s.elemAt r = some (g, e) ∧ g.st = .running ∧ g.frozen = false ∧ (s.row r.m).phase ≠ .mchk ∧ g.flood = .none ∧ e.discard = 0

/-- It may fire in arc order on the inputs is: its region is a lockstep one, every input holds what it needs and every output has
room (R134, R142). -/
def Acts (s : State) (r : ElemRef) (g : Region) (e : Elem) (is : List Nat) : Prop :=
  Lives s r g e ∧ g.disc = 0 ∧ g.needs r.e e = is ∧ (∀ i ∈ is, g.inReady r.e i = true) ∧ g.roomToFire r.e e = true

/-- The element is of a kind, with one stage word or record. -/
def Is (e : Elem) (kind : ElemKind) (op : Nat) : Prop := e.kind = kind ∧ e.stage0.op = op

/-- A token of one lane that two tokens of equal F make together (R137, R138). -/
def pairToken (ctx : BitVec 2) (a b : Token) (cnt : Nat) (lanes : Vector Lane 16) : Token :=
  { tag := a.tag, ctx := ctx, cnt := cnt, m := false, k := false, l3 := a.l3 || b.l3, l2 := a.l2 || b.l2, l1 := a.l1 || b.l1, f := a.f
    p := a.p || b.p, e := a.e || b.e, lanes := lanes }

/-- The TAG that a firing on inputs 0 and 1 gives its result: that of the lower-numbered input arc's token (R411). -/
def lowTag (g : Region) (r : ElemRef) (a b : Token) : BitVec 16 :=
  if (g.inArc r.e 0).getD 0 ≤ (g.inArc r.e 1).getD 0 then a.tag else b.tag

/-- Lane 0 alone. -/
def oneLane (v : Nat) : Vector Lane 16 := Vector.ofFn fun i => if i.val = 0 then BitVec.ofNat 32 v else 0

/-- The physical address of an offset in an element's own memory cell. -/
def ownCell (r : ElemRef) (e : Elem) (off : Nat) : Nat :=
  spadBase + sliceOffset r.m r.c (Fin.ofNat 64 (memIndex e.cell)) off

/-- The element's row has a line left in its budget at a place (R274). -/
def lineLeft (s : State) (r : ElemRef) (pa : Nat) : Prop := s.hub.budgets.full r.m (arbiterOf pa) = false

/-- A memory form of 4 bytes by lane that addresses its own cell (R431). -/
def ownWords (e : Elem) : Prop := e.form = .plain ∧ e.stage0.ty < 2 ∧ e.stage0.low % 2 = 1

/-- The outcome is that the firing has left u and then emitted a token on output 0, memory being as given. -/
def Emits (out : Out) (r : ElemRef) (t : Token) (mem : Memory) : Prop := ∃ u : State, out = .next (u.give r 0 t) ∧ u.mem = mem

end Sys2Proof.Machine.Claim

/-- R134, R138, R409, R410, R411, R415, R428, R431, R432, Tables 16.1 and 16.8: DUP emits its token on each of its outputs; a one-stage
integer ADD of two inputs emits the sums of the active lanes with the TAG of its lower-numbered input arc; MLD emits what its lane's address holds, MST stores its data there
and passes the address token on, and an adding MAMO leaves the sum and emits the old value. -/
def Obligations.ElementsCompute : Prop :=
  (∀ (s : State) (r : ElemRef) (g : Region) (e : Elem) (n : Nat) (x : Token), Acts s r g e [0] → Is e .ce 0x67 → e.form = .plain →
    s.holdReady r e = (s, true) → g.dataAt r.e 0 = some (n, x) →
    exec (.ceFiring r) s =
      .next ((List.range (e.stage0.low % 4 + 2)).foldl (fun u o => u.give r o x) ((s.take r 0).fired r))) ∧
  (∀ (s : State) (r : ElemRef) (g : Region) (e : Elem) (w : BitVec 64) (n n' : Nat) (a b : Token), Acts s r g e [0, 1] →
    Is e .ce 0x01 → e.form = .plain → e.words = [w] → e.stage0.sela = 1 → e.stage0.selb = 2 → e.stage0.dst = 9 →
    g.dataAt r.e 0 = some (n, a) → g.dataAt r.e 1 = some (n', b) → a.f = b.f → a.cnt = b.cnt → a.cnt ≤ 16 →
    Emits (exec (.ceFiring r) s) r
      { pairToken e.ctx a b a.cnt (Vector.ofFn fun i => if i.val < a.cnt then a.lanes[i] + b.lanes[i] else 0) with
        tag := lowTag g r a b } s.mem) ∧
  (∀ (s s1 : State) (r : ElemRef) (g : Region) (e : Elem) (n v : Nat) (a : Token), Acts s r g e [0] → Is e .me 0x70 →
    ownWords e → g.dataAt r.e 0 = some (n, a) → a.cnt = 1 → v = a.lanes[0].toNat → v % 4 = 0 → v < 0x20000 →
    s.spadReady (ownCell r e v) false = (s1, true) → lineLeft s r (ownCell r e v) → s.mem.dead (ownCell r e v) 4 = false →
    s.mem.poisoned (ownCell r e v) 4 = false →
    Emits (exec (.mld r) s) r (pairToken e.ctx a a 1 (oneLane (leAt s.mem (ownCell r e v) 4))) s.mem) ∧
  (∀ (s s1 : State) (r : ElemRef) (g : Region) (e : Elem) (n n' v : Nat) (a b : Token), Acts s r g e [0, 1] → Is e .me 0x71 →
    ownWords e → g.dataAt r.e 0 = some (n, a) → g.dataAt r.e 1 = some (n', b) → a.cnt = 1 → b.cnt = 1 → a.f = b.f → b.p = false →
    v = a.lanes[0].toNat → v % 4 = 0 → v < 0x20000 → s.spadReady (ownCell r e v) true = (s1, true) →
    lineLeft s r (ownCell r e v) →
    Emits (exec (.mst r) s) r (pairToken e.ctx a b 1 (oneLane v)) (s.mem.put (ownCell r e v) 4 b.lanes[0].toNat)) ∧
  (∀ (s s1 : State) (r : ElemRef) (g : Region) (e : Elem) (n n' v : Nat) (a b : Token), Acts s r g e [0, 1] → Is e .me 0x72 →
    ownWords e → e.stage0.low / 4 % 8 = 0 → g.dataAt r.e 0 = some (n, a) → g.dataAt r.e 1 = some (n', b) → a.cnt = 1 → b.cnt = 1 →
    a.f = b.f → b.p = false → v = a.lanes[0].toNat → v % 4 = 0 → v < 0x20000 → s.spadReady (ownCell r e v) false = (s1, true) →
    lineLeft s r (ownCell r e v) → s.hub.ck.replay = false → s.mem.dead (ownCell r e v) 4 = false → s.mem.poisoned (ownCell r e v) 4 = false →
    Emits (exec (.mamo r) s) r { pairToken e.ctx a b 1 (oneLane (leAt s.mem (ownCell r e v) 4)) with tag := lowTag g r a b }
      (s.mem.put (ownCell r e v) 4 ((leAt s.mem (ownCell r e v) 4 + b.lanes[0].toNat) % 2 ^ 32)))

/-- R145, R146, R150, R151, R429, R430, R467: SINK consumes a token and reports at its target; CNTR emits its run's index values
and marks the last; STAMP tags its tokens in turn while its window has room; ORDER takes a token in and emits it when its tag is
next; a ring port in emits the token it holds, or takes the slot at the head; a ring port out writes its token into the slot at
the tail. -/
def Obligations.EdgeElements : Prop :=
  (∀ (s : State) (r : ElemRef) (g : Region) (e : Elem) (n seen : Nat) (x : Token), Lives s r g e → Is e .me 0x68 → g.inReady r.e 0 = true →
    e.form = .sink seen false → g.dataAt r.e 0 = some (n, x) → x.e = false →
    (x.f = false → exec (.sinkElem r) s = .next ((s.take r 0).returnUnpaired r g x.tag)) ∧
    (x.f = true → seen + 1 = e.stage0.low % 65536 →
      ∃ t g' e', exec (.sinkElem r) s = .next t ∧ t.elemAt r = some (g', e') ∧ g'.sinks = g.sinks + 1 ∧
        e'.form = .sink (seen + 1) true ∧ t.mem = s.mem)) ∧
  (∀ (s : State) (r : ElemRef) (g : Region) (e : Elem) (run : CntrRun) (done : Bool) (i n : Nat) (start step : Lane),
    Lives s r g e → Is e .me 0x69 → e.form = .cntr (some run) done → run.idx = [i] → run.levels = [(start, step, n)] →
    g.outReady r.e 0 = true →
    exec (.cntr r) s = .next ((s.setForm r (.cntr (if i + 1 = n then none else some { run with idx := [i + 1] })
        (done || decide (i + 1 = n)))).give r 0
      { tag := run.tag, ctx := e.ctx, cnt := 3, m := false, k := false, l3 := false, l2 := false, l1 := decide (i + 1 = n)
        f := decide (i + 1 = n), p := run.p, e := run.e, lanes := oneLane (start + step * BitVec.ofNat 32 i).toNat })) ∧
  (∀ (s : State) (r : ElemRef) (g : Region) (e : Elem) (n : Nat) (x : Token) (next mark : BitVec 16) (out : List (BitVec 16)),
    Lives s r g e → Is e .me 0x6A → g.inReady r.e 0 = true → e.form = .stamp next out mark → g.dataAt r.e 0 = some (n, x) → g.outReady r.e 0 = true →
    out.length ≤ e.stage0.low / 2 ^ 16 % 16 →
    exec (.stampElem r) s = .next (((s.take r 0).setForm r (.stamp (next + 1) (out ++ [next]) mark)).give r 0
      { x with tag := next, ctx := e.ctx })) ∧
  (∀ (s : State) (r : ElemRef) (g : Region) (e : Elem) (n : Nat) (x : Token) (next : BitVec 16), Lives s r g e →
    Is e .me 0x6B → g.inReady r.e 0 = true → e.form = .order next [] → g.dataAt r.e 0 = some (n, x) → (x.tag - next).toNat < 16 →
    exec (.orderElem r) s = .next ((s.take r 0).setForm r (.order next [(n, { x with ctx := e.ctx })]))) ∧
  (∀ (s : State) (r : ElemRef) (g : Region) (e : Elem) (n : Nat) (x : Token) (next : BitVec 16), Lives s r g e →
    Is e .me 0x6B → e.form = .order next [(n, x)] → x.tag = next → g.outReady r.e 0 = true →
    exec (.orderElem r) s =
      .next (((s.setForm r (.order (next + 1) [])).returnTag r (e.stage0.low % 4096) next).give r 0 x)) ∧
  (∀ (s : State) (r : ElemRef) (g : Region) (e : Elem) (desc : Word) (rep has : Bool) (x : Token),
    Lives s r g e → e.isPort 2 = true → e.form = .ring desc false rep has (some x) → g.outReady r.e 0 = true →
    exec (.ringin r) s = .next ((s.setForm r (.ring desc false rep true none)).give r 0 x)) ∧
  (∀ (s s1 s2 : State) (r : ElemRef) (g : Region) (e : Elem) (desc : Word) (rep has : Bool) (pa : Nat)
    (ring : Ring) (ps : List (Nat × Nat)), Lives s r g e → e.isPort 2 = true → e.form = .ring desc false rep has none →
    s.portRing r g desc false = .ready s1 pa ring → ring.filled ≠ 0 → s1.hub.ck.replay = false →
    s1.writeCheck (elemAgent r g.lid) .load (linePieces (ring.slotAt ring.head) 68) = (s2, .ok, ps) →
    (∀ x ∈ ps, s2.mem.dead x.1 x.2 = false ∧ s2.mem.poisoned x.1 x.2 = false) →
    exec (.ringin r) s = .next ((((s2.usedLines (elemAgent r g.lid) 0 (ps.map (·.1))).advHead pa ring 1).atomicAt pa
      (elemAgent r g.lid)).setForm r (.ring desc false rep true (some (slotToken e.ctx (ps.flatMap fun x => s2.mem.read x.1 x.2) false false))))) ∧
  (∀ (s s1 s2 : State) (r : ElemRef) (g : Region) (e : Elem) (desc : Word) (has : Bool) (n pa : Nat) (x : Token) (ring : Ring)
    (pend : Option Token), Lives s r g e → e.isPort 3 = true → g.inReady r.e 0 = true → e.form = .ring desc false false has pend →
    g.dataAt r.e 0 = some (n, x) → s.portRing r g desc true = .ready s1 pa ring → ring.free ≠ 0 → s1.hub.ck.replay = false →
    s1.writeMem (elemAgent r g.lid) (ring.slotAt ring.tail)
      ((x.lanes.toList.map BitVec.toNat).flatMap (bytesOf 4) ++ bytesOf 4 x.hdr ++ List.replicate (ring.ssz - 68) 0) = (s2, .ok) →
    let u := ((((s2.advTail pa ring 1).atomicAt pa (elemAgent r g.lid)).take r 0).returnUnpaired r g x.tag).setForm r
      (.ring desc false x.f true none)
    exec (.ringout r) s = .next (if x.f then u.report r else u))

namespace Sys2Proof.Machine.Claim

/-! ### Checkpoints -/

/-- The state with the checkpoint registers changed. -/
def checkpointed (s : State) (f : Ckpt → Ckpt) : State := s.modHub fun h => { h with ck := f h.ck }
/-- PER ms of timebase have passed since the last checkpoint came due (R262): a ms is 16,000,000 units. -/
def Due (s : State) : Prop := s.hub.ck.lastAt + s.hub.ck.per.toNat * 16000000 ≤ s.tb.toNat
/-- Every row under checkpoint has its regions frozen, and no write of a controller waits for a bank of it (R187, R262). -/
def Frozen (s : State) : Prop :=
  ∀ m ∈ s.ckRows, s.portsIdle m = true ∧ ∀ c slot, ∀ g, s.region m c slot = some g → g.st = .running → g.frozen = true

end Sys2Proof.Machine.Claim

/-- R262, R263, R266, Table 9.8: a checkpoint that comes due begins, or is skipped while the last is open; once its regions are
frozen its epoch is written to the cellar and everything goes on, or, when the cellar has no room for it, FULLC is set and no
epoch is written; a write of CKREST that is refused leaves its status, and one that is not leaves the launch, with a kept row for
each of its rows, waiting to resume. The places of an epoch in the cellar are the model's own (log entry 32). -/
def Obligations.Checkpoints : Prop :=
  (∀ s : State, s.hub.ck.en = true → s.hub.ck.size ≠ 0 → Due s →
    (s.hub.ck.open_ = false → ∃ t, exec .checkpoint s = .next t ∧ t.hub.ck.open_ = true ∧ t.hub.ck.lastAt = s.tb.toNat ∧
      t.mem = s.mem ∧ t.tb = s.tb ∧ t.launches = s.launches ∧ ∀ m, (t.row m).phase = (s.row m).phase) ∧
    (s.hub.ck.open_ = true → exec .checkpoint s = .next (checkpointed s fun k =>
      { k with skip := if k.skip = 0xFFFF then k.skip else k.skip + 1, lastAt := s.tb.toNat }))) ∧
  (∀ s : State, s.hub.ck.open_ = true → Frozen s →
    ((s.epochBytes s.ckRows).length ≤ s.hub.ck.room →
      ∃ t a, exec .epoch s = .next t ∧ t.hub.ck.open_ = false ∧ t.hub.ck.epoch = s.hub.ck.epoch + 1 ∧ t.hub.ck.fullc = false ∧
        t.hub.ck.log = [] ∧ a + (s.epochBytes s.ckRows).length ≤ s.hub.ck.room ∧
        ((s.hub.ck.epoch + 1).toNat, a, (s.epochBytes s.ckRows).length) ∈ t.hub.ck.epochs ∧
        (MemOk s → s.tracing = [] → s.hub.ltWait = [] →
          t.mem.read (s.hub.ck.base * 2 ^ 26 + a) (s.epochBytes s.ckRows).length = s.epochBytes s.ckRows)) ∧
    (s.hub.ck.room < (s.epochBytes s.ckRows).length → s.hub.ltWait = [] →
      ∃ t, exec .epoch s = .next t ∧ t.hub.ck.open_ = false ∧ t.hub.ck.epoch = s.hub.ck.epoch ∧ t.hub.ck.fullc = true ∧
        t.hub.ck.epochs = s.hub.ck.epochs ∧ t.saved = s.saved ∧ t.mem = s.mem)) ∧
  (∀ (v : Word) (s : State) (st : Status), s.readDesc (descriptorAt v) = .error st → st ≠ .ok →
    exec (.ckrestWrite v) s = .next (checkpointed s fun k => { k with status := BitVec.ofNat 8 st.code })) ∧
  (∀ (v : Word) (s : State) (l : Launch), s.readDesc (descriptorAt v) = .ok l → (s.restore l).2 = .ok →
    s.launch s.hub.nextLid = none →
    ∃ t, exec (.ckrestWrite v) s = .next t ∧ t.hub.ck.status = 0 ∧ t.hub.nextLid = lidAfter s.hub.nextLid ∧ t.mem = s.mem ∧
      t.launch s.hub.nextLid = some { l with lid := s.hub.nextLid, st := .suspended, ltEntry := none } ∧
      ∀ m : RowId, l.rows.getLsbD m.val = true → ∃ x ∈ t.suspended, x.lid = s.hub.nextLid ∧ x.m = m)

namespace Sys2Proof.Machine.Claim

/-! ### The control complex -/

/-- The shape of a region that the attic knows stands on the board (R79). -/
def InUse (s : State) (a : AtticEntry) : Prop :=
  ∃ m c slot g, s.region m c slot = some g ∧ g.hash = a.hash ∧ g.rect.shape g.var.toNat = a.shape
/-- A cached translation is one that a TLBINV write names (Table 6.4). -/
def Named (v : Word) (iva : BitVec 36) (e : TlbEntry) : Prop :=
  v.extractLsb' 62 2 = 0 ∨ v.extractLsb' 62 2 = 3 ∨ (e.root = (v.extractLsb' 16 24).toNat ∧
    (v.extractLsb' 62 2 = 1 ∨ (e.vbase ≤ iva.toNat * 65536 ∧ iva.toNat * 65536 < e.vbase + e.size)))
/-- A TLBINV write reaches a die (Table 6.4). -/
def OnDie (v : Word) (d : Nat) : Prop := v.extractLsb' 40 4 = 0 ∨ v.getLsbD (40 + d) = true
/-- The base of a memory cell's bytes (Table 0.2). -/
def cellBase (m : RowId) (c : CoreId) (mi : Fin 64) : Nat :=
  0xB000000000 + m.val / 6 * 2 ^ 29 + m.val % 6 * 2 ^ 26 + c.val * 2 ^ 23 + mi.val * 2 ^ 17
/-- The base of a memory cell's registers in the cell register aperture (R47). -/
def cellRegsAt (m : RowId) (c : CoreId) (mi : Fin 64) : Nat :=
  0xB100000000 + m.val / 6 * 2 ^ 29 + m.val % 6 * 2 ^ 26 + c.val * 2 ^ 23 + mi.val * 2 ^ 17
/-- The core that SWARG names (Table 9.2). -/
def walkCore (arg : BitVec 32) : RowId × CoreId × SlotId :=
  (Fin.ofNat 24 (6 * (arg.extractLsb' 29 3).toNat + (arg.extractLsb' 26 3).toNat), Fin.ofNat 8 (arg.extractLsb' 23 3).toNat
    , Fin.ofNat 8 (arg.extractLsb' 20 3).toNat)
/-- The walk that SWARG asks for, with its record at an address (Table 9.2). -/
def walkFrom (arg : BitVec 32) (pa : Nat) (tb : Word) : Walker :=
  { m := (walkCore arg).1, c := (walkCore arg).2.1, slot := (walkCore arg).2.2, starve := arg.getLsbD 0, pa := pa, tb := tb
    elem := (arg.extractLsb' 8 12).toNat, hops := [] }
/-- The base of a trace buffer of 2^n records at a requested address (Table 9.5). -/
def bufferBase (v : Word) (n : Nat) : Nat := (v.extractLsb' 12 28).toNat * 4096 / 2 ^ (n + 4) * 2 ^ (n + 4)
/-- v held to the range lo to hi. -/
def held (lo hi v : Nat) : Nat := if v < lo then lo else if hi < v then hi else v

/-- What an application core sees after a load or an AMO. -/
def loaded (s : State) (ac : Fin 24) (v : Word) : State := { s with apps := s.apps.set ac { s.apps[ac] with result := v } }
/-- What an application core sees after a fault. -/
def faulted (s : State) (a : CcAccess) : State :=
  { s with apps := s.apps.set a.ac { s.apps[a.ac] with fault := some (.access a.addr) } }
/-- No earlier access of the core to the device's registers or scratchpads waits (R46). -/
def Unqueued (s : State) (ac : Fin 24) : Prop := (s.apps[ac]).io = []
/-- The access has a size that the control complex makes. -/
def Sized (a : CcAccess) : Prop := a.size = 1 ∨ a.size = 2 ∨ a.size = 4 ∨ a.size = 8
/-- The address lies in none of the ranges of Table 2.1 that an application core reaches. -/
def Unmapped (addr : Nat) : Prop :=
  0x9000000000 ≤ addr ∧ (addr < 0xA000000000 ∨ 0xA100000000 ≤ addr) ∧ (addr < 0xB000000000 ∨ 0xB200000000 ≤ addr)

end Sys2Proof.Machine.Claim

/-- R28, R33, R43, R50, R51, R79, R178, R180, R254, R257, R261, Tables 2.2, 6.4, 6.6, 9.2, 9.5: what writing the registers with
behaviour of their own does. ATFLUSH keeps only the attic entries in use; TLBINV removes the translations it names from the dies it
names; SWGO starts a walk, is ignored during one, and a walk that ends writes its 544-byte record (in a step of its own: the model's,
log entry 40); BPGO thaws the slots it names; HXM kills every line of its cell; TRCTL sets its
trace unit up, with an ANCHOR record where its row's budget has a line; HMODE takes its bits, CGIVE its clamped value, NODEID its first value; a register without behaviour of its own
takes the bits that it has; LSTERR clears by a 1 in any bit (log entry 14);
a response that answers no open request is only stored. -/
def Obligations.HubRegisters : Prop :=
  (∀ (v : Word) (s : State), ∃ t, exec (.atflushWrite v) s = .next t ∧ (∀ a, a ∈ t.hub.attic ↔ a ∈ s.hub.attic ∧ InUse s a) ∧
    t.mem = s.mem ∧ t.rows = s.rows) ∧
  (∀ (v : Word) (s : State), ∃ t, exec (.tlbinvWrite v) s = .next t ∧ t.mem = s.mem ∧ t.hub = s.hub ∧
    (∀ (d : Fin 4) e, e ∈ t.dieTlb[d] ↔ e ∈ s.dieTlb[d] ∧ ¬(OnDie v d.val ∧ Named v s.hub.tlbiva e)) ∧
    ∀ m c e, e ∈ (t.core m c).tlb ↔ e ∈ (s.core m c).tlb ∧ ¬(OnDie v (m.val / 6) ∧ Named v s.hub.tlbiva e)) ∧
  (∀ (v : Word) (s : State) (g : Region), (s.hub.swArg.extractLsb' 29 3).toNat < 4 → (s.hub.swArg.extractLsb' 26 3).toNat < 6 →
    s.region (walkCore s.hub.swArg).1 (walkCore s.hub.swArg).2.1 (walkCore s.hub.swArg).2.2 = some g → g.st = .running →
    (s.hub.swArg.extractLsb' 8 12).toNat < g.elems.length → descriptorAt v + 544 ≤ 0x9000000000 → s.hub.walk = none →
    exec (.swgoWrite v) s = .next (s.modHub fun h => { h with walk := some (walkFrom h.swArg (descriptorAt v) s.tb) })) ∧
  (∀ (v : Word) (s : State), s.hub.walk.isSome = true → exec (.swgoWrite v) s = .next s) ∧
  (∀ (v : Word) (s : State), s.hub.walk = none →
    4 ≤ (s.hub.swArg.extractLsb' 29 3).toNat ∨ 6 ≤ (s.hub.swArg.extractLsb' 26 3).toNat →
    exec (.swgoWrite v) s = .next (s.modHub fun h => { h with swStatus := .badDesc })) ∧
  (∀ (s : State) (rest : List Action) (w : Walker) (g : Region), s.agenda = .walk :: rest → s.hub.walk = some w →
    s.region w.m w.c w.slot = some g → g.st = .running → w.elem < g.elems.length → g.frozen = true →
    s.mem.poisoned w.pa 544 = false →
    ∃ bs : List Byte, bs.length = 544 ∧ bs.take 8 = bytesOf 8 w.tb.toNat ∧
      step s = .next { (s.withMem (s.mem.write w.pa bs)).modHub (fun h => { h with walk := none, swStatus := .ok }) with
        agenda := rest, ticks := s.ticks + 1 }) ∧
  (∀ (m : RowId) (c : CoreId) (v : Word) (s : State), ∃ t, exec (.bpgoWrite m c v) s = .next t ∧ t.mem = s.mem ∧
    (∀ slot : SlotId, v.getLsbD slot.val = false → t.region m c slot = s.region m c slot) ∧
    ∀ (slot : SlotId) (g : Region), v.getLsbD slot.val = true → s.region m c slot = some g → g.frozen = true → g.flood = .none →
      g.queued = [] → ∃ g', t.region m c slot = some g' ∧ g'.frozen = false ∧ g'.bpHold = false ∧ g'.st = g.st) ∧
  (∀ (m : RowId) (c : CoreId) (mi : Fin 64) (v : Word) (s : State), ∃ t, exec (.hxmWrite m c mi v) s = .next t ∧
    (t.core m c).mcells[mi].hxm = v.setWidth 24 ∧ (∀ off < 0x20000, t.mem.dead (cellBase m c mi + off) 1 = true) ∧
    (∀ b : Fin 16, ((t.core m c).mcells[mi].banks[b]).st = .off) ∧
    (∀ a, a < cellBase m c mi ∨ cellBase m c mi + 0x20000 ≤ a → t.mem.byte a = s.mem.byte a) ∧ t.hub = s.hub) ∧
  (∀ (m : RowId) (c : CoreId) (v : Word) (s : State),
    let n := held 8 24 (v.extractLsb' 40 5).toNat
    (v.getLsbD 63 = false → ∃ t, exec (.trctlWrite m c v) s = .next t ∧ t.mem = s.mem ∧
      (t.core m c).trace = { (s.core m c).trace with en := false, wrap := v.getLsbD 62, log2n := n, base := bufferBase v n }) ∧
    (v.getLsbD 63 = true → (s.core m c).trace.lost = 0 → bufferBase v n < 0x9000000000 → MemOk s →
      s.hub.budgets.full m (stackOf (bufferBase v n)) = false →
      ∃ t, exec (.trctlWrite m c v) s = .next t ∧ (t.core m c).trace = { (s.core m c).trace with
          en := true, wrap := v.getLsbD 62, log2n := n, base := bufferBase v n, idx := 1, lastTb := s.tb } ∧
        t.mem.read (bufferBase v n) 16 = bytesOf 8 0 ++ bytesOf 8 s.tb.toNat ∧
        ∀ a, a < bufferBase v n ∨ bufferBase v n + 16 ≤ a → t.mem.byte a = s.mem.byte a)) ∧
  (∀ (v : Word) (s : State), s.hub.hmode &&& ~~~ (v.setWidth 6) = 0 →
    exec (.hmodeWrite v) s = .next (s.modHub fun h => { h with hmode := v.setWidth 6 })) ∧
  (∀ (v : Word) (s : State), exec (.cgiveWrite v) s =
    .next (s.modHub fun h => { h with cgive := BitVec.ofNat 10 (held 1 1000 (v.extractLsb' 0 10).toNat) })) ∧
  (∀ (v : Word) (s : State), exec (.nodeidWrite v) s =
    .next (if s.hub.nodeSet then s else s.modHub fun h => { h with nodeId := v.setWidth 18, nodeSet := true })) ∧
  (∀ (v : Word) (s : State),
    exec (.registerWrite 0xE000 v) s = .next (s.modHub fun h => { h with rrootEn := v.getLsbD 63, rroot := v.extractLsb' 16 24 }) ∧
    exec (.registerWrite 0x8008 v) s = .next (s.modHub fun h => { h with tlbiva := v.extractLsb' 16 36 }) ∧
    exec (.registerWrite 0x3008 v) s =
      .next (s.modHub fun h => { h with evq := { h.evq with n := held 6 15 (v.extractLsb' 0 4).toNat } }) ∧
    exec (.registerWrite 0x5028 v) s =
      .next (s.modHub fun h => { h with lsterr := if v.setWidth 16 = (0 : BitVec 16) then h.lsterr else 0 }) ∧
    ∀ off : BitVec 32, off.extractLsb' 0 3 ≠ 0 → exec (.registerWrite off v) s = .next s) ∧
  (∀ (i : Fin 6) (v : Word) (s : State), (∀ x ∈ (s.hub.ha[i]).opened, x.1 ≠ ((s.hub.ha[i]).rsp[0]).extractLsb' 48 16) →
    exec (.harspCommit i v) s =
      .next (s.modHub fun h => { h with ha := h.ha.set i { h.ha[i] with rsp := (h.ha[i]).rsp.set 7 v } })) ∧
  (∀ (v : Word) (s : State) (who : List Nat), (s.hub.ha[(5 : Fin 6)]).opened = [(((s.hub.ha[(5 : Fin 6)]).rsp[0]).extractLsb' 48 16, who)] →
    exec (.harspCommit 5 v) s = .next (s.modHub fun h => { h with ha := h.ha.set 5 { h.ha[(5 : Fin 6)] with
      rsp := (h.ha[(5 : Fin 6)]).rsp.set 7 v, opened := [] } }))

/-- R43 to R47, R54, Tables 1.3 and 2.1: an application core reads, writes and adds to device HBM, a poisoned line faulting what
reads it; an address outside the map faults; NODEID is read where Table 2.2 has it; the scratchpad aperture loads a live line and
stores a byte string, and an AMO there faults; the cell register aperture reads and writes HXM. An access of the wrong size
or alignment faults, at the hub registers with a precise access fault, as an AMO does there. What an AMO on device HBM stores and
returns is the model's, after RISC-V (log entry 51). An uncorrectable error faults its core, poisons its line or interrupts every core, and a corrected one is
counted. -/
def Obligations.ControlComplex : Prop :=
  (∀ (a : CcAccess) (s : State), Unqueued s a.ac → Sized a → a.addr + a.size ≤ 0x9000000000 →
    (a.kind = .load → s.mem.poisoned a.addr a.size = false →
      exec (.controlComplexAccess a) s = .next (loaded s a.ac (BitVec.ofNat 64 (leAt s.mem a.addr a.size)))) ∧
    (a.kind = .load → s.mem.poisoned a.addr a.size = true → exec (.controlComplexAccess a) s = .next (faulted s a)) ∧
    (a.kind = .store → exec (.controlComplexAccess a) s = .next (s.withMem (s.mem.write a.addr (bytesOf a.size a.value.toNat)))) ∧
    (a.kind = .amoadd → 4 ≤ a.size → a.addr % a.size = 0 → s.mem.poisoned a.addr a.size = false → s.hub.ck.replay = false →
      exec (.controlComplexAccess a) s = .next (loaded
        ((s.withMem (s.mem.write a.addr (bytesOf a.size (leAt s.mem a.addr a.size + a.value.toNat)))).atomicAt a.addr
          (appAgent a.ac)) a.ac ((BitVec.ofNat (8 * a.size) (leAt s.mem a.addr a.size)).signExtend 64)))) ∧
  (∀ (a : CcAccess) (s : State), Unqueued s a.ac →
    (Unmapped a.addr → exec (.controlComplexAccess a) s = .next (faulted s a)) ∧
    (a.addr < 0x9000000000 → ¬Sized a → exec (.controlComplexAccess a) s = .next (faulted s a)) ∧
    (0xA000000000 ≤ a.addr → a.addr < 0xA100000000 → (a.kind ≠ .load ∧ a.kind ≠ .store) ∨ a.size ≠ 8 ∨ a.addr % 8 ≠ 0 →
      exec (.controlComplexAccess a) s = .next (faulted s a))) ∧
  (∀ (a : CcAccess) (s : State), Unqueued s a.ac → a.addr = 0xA000004000 → a.size = 8 → a.kind = .load →
    exec (.controlComplexAccess a) s = .next (loaded s a.ac (s.hub.nodeId.setWidth 64))) ∧
  (∀ (a : CcAccess) (s s1 : State) (m : RowId) (c : CoreId) (mi : Fin 64) (off : Nat), Unqueued s a.ac → off < 0x20000 →
    a.addr = cellBase m c mi + off →
    (a.kind = .amoadd ∨ ¬Sized a → exec (.scratchpadApertureAccess a) s = .next (faulted s a)) ∧
    (Sized a → a.addr % a.size ≠ 0 → a.kind = .load ∨ a.kind = .store → exec (.scratchpadApertureAccess a) s =
      .next { s with apps := s.apps.set a.ac { s.apps[a.ac] with fault := some (.misaligned a.addr) } }) ∧
    (Sized a → a.addr % a.size = 0 → s.spadReady a.addr (decide (a.kind = .store)) = (s1, true) →
      (a.kind = .store → ∃ t, exec (.scratchpadApertureAccess a) s = .next t ∧
        t.mem = s.mem.write a.addr (bytesOf a.size a.value.toNat) ∧ t.apps = s.apps ∧ t.hub = s.hub) ∧
      (a.kind = .load → s.mem.dead a.addr a.size = false → s.mem.poisoned a.addr a.size = false →
        ∃ t, exec (.scratchpadApertureAccess a) s = .next t ∧ t.mem = s.mem ∧ t.hub = s.hub ∧
          (t.apps[a.ac]).result = BitVec.ofNat 64 (leAt s.mem a.addr a.size) ∧ ∀ j : Fin 24, j ≠ a.ac → t.apps[j] = s.apps[j]) ∧
      (a.kind = .load → s.mem.dead a.addr a.size = true → exec (.scratchpadApertureAccess a) s = .next (faulted s1 a)))) ∧
  (∀ (a : CcAccess) (s : State) (m : RowId) (c : CoreId) (mi : Fin 64), Unqueued s a.ac → a.addr = cellRegsAt m c mi →
    (a.size ≠ 8 → exec (.cellRegisterApertureAccess a) s = .next (faulted s a)) ∧
    (a.kind = .load → a.size = 8 → exec (.cellRegisterApertureAccess a) s =
      .next (loaded s a.ac (((s.core m c).mcells[mi]).hxm.setWidth 64))) ∧
    (a.kind = .store → a.size = 8 → ∃ t, exec (.cellRegisterApertureAccess a) s = .next t ∧ ((t.core m c).mcells[mi]).hxm = a.value.setWidth 24 ∧
      ∀ off < 0x20000, t.mem.dead (cellBase m c mi + off) 1 = true) ∧
    (a.kind = .amoadd → exec (.cellRegisterApertureAccess a) s = .next (faulted s a))) ∧
  (∀ (ac : Fin 24) (s : State), ∃ t x, exec (.controlComplexUncorrectableError (.consumed ac)) s = .next t ∧
    (t.apps[ac]).fault = some x ∧ t.mem = s.mem ∧ ∀ j : Fin 24, j ≠ ac → t.apps[j] = s.apps[j]) ∧
  (∀ (addr : Nat) (s : State), addr < 0x9000000000 → ∃ t, exec (.controlComplexUncorrectableError (.dirtyBlock addr)) s = .next t ∧
    t.mem.poisoned addr 1 = true ∧ t.mem.cells = s.mem.cells ∧ t.apps = s.apps) ∧
  (∀ s : State, exec (.controlComplexUncorrectableError .unattributed) s =
    .next { s with apps := s.apps.map fun a => { a with mirq := true } }) ∧
  (∀ s : State, exec (.controlComplexUncorrectableError .corrected) s = .next (s.modHub fun h => { h with ccFixed := h.ccFixed + 1 }))

namespace Sys2Proof.Machine.Claim

/-! ### Frames and circuits -/

/-- The port that a frame comes to takes it: up to 4,200 bytes, with the one tag that the port is set for or none (R27). -/
def PortTakes (s : State) (f : Frame) : Prop := f.octets ≤ 4200 ∧ f.tags ≤ (if (s.hub.ports[f.port]).tagged then 1 else 0)
/-- A frame of a kind arrives that R27, R28, R29 and Table 1.4 do not drop. -/
def Arrives (s : State) (f : Frame) (kind : BitVec 4) : Prop :=
  PortTakes s f ∧ f.ethertype = 0x88B5 ∧ f.ver = 1 ∧ f.dst = s.hub.nodeId ∧ f.dst ≠ 0 ∧ f.dst ≠ 0x3FFFF ∧ f.kind = kind ∧
    f.len.toNat = f.payload.length ∧ f.payload.length ≤ 4096
/-- A field of a payload. -/
def pay (f : Frame) (o n : Nat) : Nat := natOf ((f.payload.drop o).take n)
/-- What a circuit has not had acknowledged after an acknowledgement up to n, compared serially (R30). -/
def stillOut (c : Circuit) (n : BitVec 32) : List OutFrame :=
  c.unacked.filter fun x => !(decide (x.seq = n) || decide (1 ≤ (n - x.seq).toNat ∧ (n - x.seq).toNat ≤ 2 ^ 31 - 1))
/-- Some port is up. -/
def SomePort (s : State) : Prop := ∃ p : Fin 16, (s.hub.ports[p]).up = true
/-- The frames that go out again, newest first, by the circuit's port, each with the header that its port gives it (R28, R29). -/
def again (h : Hub) (c : Circuit) (fs : List OutFrame) : List OutFrame := (fs.map fun f => h.dress { f with port := c.port }).reverse
/-- The circuit's OPEN goes out again ahead of its frames while the first frame that it carried is among them (log entry 28). -/
def opensAgain (c : Circuit) (fs os : List OutFrame) : Prop :=
  if fs.head?.map (·.seq) = some (c.start + 1) then
    ∃ o, os = [o] ∧ o.kind = 3 ∧ o.dst = c.peer ∧ o.circ = c.num ∧ o.seq = c.start
  else os = []
/-- The state after the order log, where it is on, has taken a frame (R265). -/
def noted (s : State) (f : Frame) (taken : Bool) : State :=
  if s.hub.ck.logen = false then s
  else s.modHub fun h => { h with ck := { h.ck with
    log := h.ck.log ++ [.frame f.circ f.src f.seq (h.ck.log.filter LogRec.isFrame).length f.kind taken f.op f.payload] } }

end Sys2Proof.Machine.Claim

/-- R27, R28, R29, R30, R31, R32, R33, R398: a frame that its port does not accept has no effect (that nothing counts it is the
model's, log entry 65); one of another version or for another node is dropped and counted. A DATA frame in
sequence is performed (a put, whose payload's layout is the model's own, log entry 28) and acknowledged, and one out of sequence
is answered with NAK; an ACK takes what it acknowledges off its circuit; after a NAK, or 20 µs without an acknowledgement (which
count from the last frame sent, on the oscillator: the model's, log entries 60 and 19), what is still out is sent again in order; OPEN begins a circuit, at the
number it carries, is sent again ahead of the circuit's first frame, and CLOSE ends it; PROBE changes nothing but the order log (the
number, the second OPEN and PROBE: the model's, log entry 28); after the give-up time, counted on the oscillator too, a
circuit breaks; a port that goes down keeps no circuit, and one that comes up is up. -/
def Obligations.FramesAndCircuits : Prop :=
  (∀ (f : Frame) (s : State), (¬PortTakes s f → exec (.dataFrame f) s = .next s ∧ exec (.ackFrame f) s = .next s ∧
      exec (.nakFrame f) s = .next s ∧ exec (.openFrame f) s = .next s ∧ exec (.closeFrame f) s = .next s ∧
      exec (.probeFrame f) s = .next s) ∧
    (PortTakes s f → f.ver ≠ 1 → exec (.dataFrame f) s =
      .next (s.modHub fun h => { h with drops := h.drops.set 0 (h.drops[0] + 1) })) ∧
    (PortTakes s f → f.ethertype = 0x88B5 → f.ver = 1 → f.dst ≠ s.hub.nodeId → exec (.dataFrame f) s =
      .next (s.modHub fun h => { h with drops := h.drops.set 1 (h.drops[1] + 1) }))) ∧
  (∀ (f : Frame) (s : State) (c : Circuit) (pa : Nat), Arrives s f 0 → s.hub.circuit false f.src f.circ = some c →
    c.broken = false → c.refused = [] → c.open_ = [] → s.hub.ck.replay = false → s.hub.hmode = 0 → f.seq = c.last + 1 →
    remoteOpOf f.op = some .put → pay f 20 1 = 0 → 22 ≤ f.payload.length →
    OwnRemote s (pay f 12 8) (f.payload.length - 21) .store pa →
    ∃ t, exec (.dataFrame f) s = .next t ∧ t.mem = s.mem.write pa (f.payload.drop 21) ∧
      t.hub.circuit false f.src f.circ = some { c with last := f.seq } ∧ t.rows = s.rows ∧
      (SomePort s → ∃ a, t.hub.sent = a :: s.hub.sent ∧ a.kind = 1 ∧ a.dst = f.src ∧ a.circ = f.circ ∧ a.ackseq = f.seq ∧
        a.src = s.hub.nodeId ∧ a.header = frameHeader a.frame)) ∧
  (∀ (f : Frame) (s : State) (c : Circuit), Arrives s f 0 → s.hub.circuit false f.src f.circ = some c → c.broken = false →
    c.open_ = [] → s.hub.ck.replay = false → f.seq ≠ c.last + 1 → SomePort s →
    ∃ t a, exec (.dataFrame f) s = .next t ∧ t.mem = s.mem ∧ t.rows = s.rows ∧ t.hub.circuits = s.hub.circuits ∧
      t.hub.sent = a :: s.hub.sent ∧ a.kind = 2 ∧ a.dst = f.src ∧ a.circ = f.circ ∧ a.ackseq = c.last) ∧
  (∀ (f : Frame) (s : State) (c : Circuit), s.hub.circuit true f.src f.circ = some c → c.broken = false → f.payload = [] →
    (Arrives s f 1 → ∃ t p, exec (.ackFrame f) s = .next t ∧ t.mem = s.mem ∧ t.hub.sent = s.hub.sent ∧
      t.hub.circuit true f.src f.circ =
        some { c with unacked := stillOut c f.ackseq, win := some f.win.toNat, lastProgress := p }) ∧
    (Arrives s f 2 → SomePort s → ∃ t os, exec (.nakFrame f) s = .next t ∧ t.mem = s.mem ∧
      opensAgain c (stillOut c f.ackseq) os ∧ t.hub.sent = again s.hub c (stillOut c f.ackseq) ++ os ++ s.hub.sent)) ∧
  (∀ (f : Frame) (s : State) (m : RowId) (k : CoreId), Arrives s f 1 → f.payload = [] →
    (∃ c, s.hub.circuit true f.src f.circ = some c ∧ c.broken = false) →
    (∀ o ∈ (s.core m k).ops, o.phase = .waiting → o.sawF = true → o.awaitSeq = [(f.circ, f.ackseq)] →
      ∃ t, exec (.ackFrame f) s = .next t ∧ { o with phase := .ended, awaitSeq := [] } ∈ (t.core m k).ops)) ∧
  (∀ (f : Frame) (s : State), Arrives s f 3 → s.hub.circuit false f.src f.circ = none →
    ∃ t c, exec (.openFrame f) s = .next t ∧ t.hub.circuit false f.src f.circ = some c ∧ c.cls = f.cls ∧ c.broken = false ∧
      c.last = f.seq ∧ t.mem = s.mem ∧ t.rows = s.rows ∧ ∀ x ∈ s.hub.circuits, x ∈ t.hub.circuits) ∧
  (∀ (f : Frame) (s : State), Arrives s f 4 → ∃ t, exec (.closeFrame f) s = .next t ∧ t.mem = s.mem ∧ t.rows = s.rows ∧
    ∀ x, x ∈ t.hub.circuits ↔ x ∈ s.hub.circuits ∧ ¬(x.outgoing = false ∧ x.peer = f.src ∧ x.num = f.circ)) ∧
  (∀ (f : Frame) (s : State), Arrives s f 5 → exec (.probeFrame f) s = .next (noted s f false)) ∧
  (∀ (circ : BitVec 16) (s : State) (c : Circuit), s.hub.outNum circ = some c → c.broken = false → c.unacked ≠ [] →
    (c.lastSent + 16 * 20000 ≤ s.osc → SomePort s → s.hub.nodeId ≠ 0 → ∃ t os, exec (.retransmitTimeout circ) s = .next t ∧
      t.mem = s.mem ∧ t.rows = s.rows ∧ opensAgain c c.unacked os ∧ t.hub.sent = again s.hub c c.unacked ++ os ++ s.hub.sent) ∧
    (c.lastProgress + 16 * (1000000 * s.hub.cgive.toNat) ≤ s.osc → ∃ t, exec (.circuitGiveUp circ) s = .next t ∧
      t.hub.outNum circ = some { c with broken := true, unacked := [] } ∧
      ∀ m k, ∀ o ∈ (t.core m k).ops, o.phase = .moving ∨ o.phase = .waiting → ∀ x ∈ o.awaitSeq, x.1 ≠ circ)) ∧
  (∀ (p q : Fin 16) (s : State), (s.hub.ports[p]).up = true → (s.hub.ports[q]).up = true → p ≠ q →
    ∃ t, exec (.portLinkDown p) s = .next t ∧ (t.hub.ports[p]).up = false ∧ t.mem = s.mem ∧ t.rows = s.rows ∧
      (∀ r : Fin 16, r ≠ p → t.hub.ports[r] = s.hub.ports[r]) ∧
      ∀ c ∈ t.hub.circuits, c.broken = false → c.port ≠ p.val) ∧
  (∀ (p : Fin 16) (s : State), s.mgmt.levels.extractLsb' 10 2 ≠ 2 → SomePort s →
    exec (.portLinkUp p) s = .next (s.modHub fun h => { h with ports := h.ports.set p { h.ports[p] with up := true } }))

namespace Sys2Proof.Machine.Claim

/-! ### Starts and the service -/

/-- Every row is free, no launch is present. -/
def NoLaunches (t : State) : Prop := t.rows = .replicate 24 .reset ∧ t.launches = [] ∧ t.suspended = []
/-- Every byte of device HBM is as it was. -/
def HbmKept (s t : State) : Prop := ∀ a < 0x9000000000, t.mem.byte a = s.mem.byte a
/-- The service takes everything but a password change: no password is still the factory's (R68). -/
def Serves (s : State) : Prop :=
  (s.mgmt.mode = .running ∨ s.mgmt.mode = .safe) ∧ (s.mgmt.accounts[0]).mustChange = false
/-- The service answers with a code and does nothing else. -/
def answered (s : State) (code : Nat) : State := { s with mgmt := { s.mgmt with http := code } }

end Sys2Proof.Machine.Claim

/-- R55, R59, R60, R63, R64, R68, R69, Tables 2.5, 2.7: power-on runs a start from a module without fabric state, and where its start
record is empty and every step succeeds it leaves the operating system running when the stored image is valid, else the recovery
responder; ForceRestart keeps HBM and frees every row; PowerCycle keeps no memory; a power loss leaves no power; the fabric's power
state is what is asked for, but for a die that went critical; WDOG takes its bits, WDKICK restarts the count, an expiry of the first
stage interrupts every application core, and any other resets the module. The model's: the answers 403 (of a module that is off too) and
409, the count that begins again as EN rises and the stage that WDKICK clears (log entry 34), the second expiry's full count from the first
(log entry 62), the watchdog's time on the oscillator (log entry 19), memory that reads zero after power (log entry 6), and what the
fabric's power takes with it (log entry 35). -/
def Obligations.StartsAndResets : Prop :=
  (∀ (o : StartInputs) (s : State), s.mgmt.mode = .unstarted ∨ s.mgmt.mode = .off →
    ∃ t, exec (.powerOn o) s = .next t ∧ t.mgmt.accounts = s.mgmt.accounts ∧ t.mem = State.reset.mem ∧ NoLaunches t) ∧
  (∀ s : State, s.mgmt.mode = .unstarted ∨ s.mgmt.mode = .off → s.mgmt.current = none →
    ∃ t, exec (.powerOn { steps := [] }) s = .next t ∧ t.mgmt.mode = (if s.mgmt.imageValid then .running else .recovery) ∧
      t.mgmt.fabricOn = s.mgmt.imageValid ∧ t.mgmt.startNo = 0) ∧
  (∀ (o : StartInputs) (s : State),
    (Serves s → ∃ t, exec (.forceRestart o) s = .next t ∧ HbmKept s t ∧ NoLaunches t ∧ t.mgmt.accounts = s.mgmt.accounts) ∧
    (Serves s → ∃ t, exec (.powerCycle o) s = .next t ∧ t.mem = State.reset.mem ∧ NoLaunches t ∧
      t.mgmt.accounts = s.mgmt.accounts) ∧
    (¬Serves s → exec (.forceRestart o) s = .next (answered s 403) ∧ exec (.powerCycle o) s = .next (answered s 403))) ∧
  (∀ s : State, s.mgmt.mode ≠ .off → ∃ t, exec .powerLoss s = .next t ∧ t.mgmt.mode = .off ∧ t.mem = State.reset.mem ∧ NoLaunches t ∧
    t.mgmt.accounts = s.mgmt.accounts ∧ t.mgmt.sectors = s.mgmt.sectors) ∧
  (∀ s : State, Serves s → s.mgmt.mode = .running → s.mgmt.fabricOn = false →
    ∃ t, exec (.fabricPowerState true) s = .next t ∧ t.mgmt = { s.mgmt with fabricOn := true } ∧ t.rows = s.rows ∧ t.mem = s.mem ∧
      t.hub.railsOff = 0 ∧ ∀ m : RowId, (t.hub.supply[m.val]).off =
        ((s.hub.supply[m.val]).off && (s.hub.thermal[m.val / 6]'(by omega)).halted)) ∧
  (∀ s : State, Serves s → s.mgmt.mode = .running →
    ∃ t, exec (.fabricPowerState false) s = .next t ∧ t.mgmt = { s.mgmt with fabricOn := false } ∧ NoLaunches t ∧ HbmKept s t ∧
      t.hub.railsOff = 15 ∧ ∀ m : RowId, (t.hub.supply[m.val]).off = true) ∧
  (∀ s : State, Serves s → s.mgmt.mode = .safe → exec (.fabricPowerState true) s = .next (answered s 409)) ∧
  (∀ (v : Word) (s : State), exec (.wdogWrite v) s = .next (s.modHub fun h => { h with wdog := { h.wdog with
    en := h.wdog.en || v.getLsbD 63, boot := h.wdog.boot && !v.getLsbD 61
    tmo := BitVec.ofNat 32 (held 1000 60000000 (v.extractLsb' 0 32).toNat)
    since := if (h.wdog.boot && v.getLsbD 61) || (v.getLsbD 63 && !h.wdog.en) then s.osc else h.wdog.since } })) ∧
  (∀ (v : Word) (s : State), exec (.wdkick v) s =
    .next (s.modHub fun h => { h with wdog := { h.wdog with since := s.osc, stage := 0 } })) ∧
  (∀ (o : StartInputs) (s : State), s.hub.wdog.en = true → s.mgmt.mode ≠ .off →
    s.hub.wdog.since + 16 * (1000 * s.hub.wdog.tmo.toNat) ≤ s.osc →
    (s.hub.wdog.boot = false → s.hub.wdog.stage = 0 →
      ∃ t, exec (.watchdogExpiry o) s = .next t ∧ t.hub.wdog = { s.hub.wdog with stage := 1, since := s.osc } ∧
        t.rows = s.rows ∧ t.launches = s.launches ∧ ∀ ac : Fin 24, (t.apps[ac]).mirq = true) ∧
    (s.hub.wdog.boot = true ∨ s.hub.wdog.stage ≠ 0 →
      ∃ t, exec (.watchdogExpiry o) s = .next t ∧ NoLaunches t ∧ t.mgmt.accounts = s.mgmt.accounts))

namespace Sys2Proof.Machine.Claim

/-! ### Firmware and accounts -/

/-- An image that R58 and R59 find good: both signatures verify over its digest, its keys are the module's own and not revoked, and
its security version is not below the minimum. -/
def goodImage (s : State) (h : ImageHeader) (bs : List Byte) : Bool :=
  pssVerify h.rsaKey h.rsaSig (bytesOf 48 (sha384 bs).toNat) && slhVerify h.slhKey h.slhSig (bytesOf 48 (sha384 bs).toNat) &&
    decide (sha384 (rsaKeyBytes h.rsaKey) = Config.rsaRootDigest ∧ sha384 h.slhKey = Config.slhRootDigest ∧
      s.mgmt.secMin.toNat ≤ h.secVersion.toNat) && !Config.revocationMask.getLsbD h.keyIndex.val
/-- The state with the management complex changed. -/
def managing (s : State) (f : Mgmt → Mgmt) : State := { s with mgmt := f s.mgmt }

end Sys2Proof.Machine.Claim

/-- R53, R57, R58, R67, R68, R69: a pushed image is refused while another push is in progress; else, when both signatures verify and
its keys and version pass, the stored image is erased and the new one programmed, with its commit word last, and otherwise the store
stays as it is; the start record is erased but for one entry of levels; a report over a nonce of 32 to 64 bytes carries the nonce and
both signatures over its digest; a login with the password opens a session, and a wrong one counts towards the lock that the fifth
brings; a password change takes the new password; a lock ends after its 60 s and a session after 30 idle minutes. The model's: that a
success, of a login or of a password change, clears the count of failures (log entry 67), the 60 s and the 30 minutes on the oscillator (log
entry 19), that an image longer than the range is refused and every code, of success and of refusal (log entry 34), and which bytes a key's digest
and the signatures are over and which bit of the revocation mask an image's keys have (log entry 57). -/
def Obligations.ServiceRequests : Prop :=
  (∀ (p : ImagePush) (s : State), Serves s → p.busy = true ∨ s.mgmt.push ≠ none ∨ s.mgmt.writing ≠ none →
    exec (.imagePush p) s = .next (answered s 503)) ∧
  (∀ (p : ImagePush) (s : State), Serves s → p.busy = false → s.mgmt.push = none → s.mgmt.writing = none → s.hub.hmode = 0 →
    p.len ≤ 0x3FF0000 →
    exec (.imagePush p) s = .next (if goodImage s p.header (s.mem.read p.addr p.len) = true then managing s fun g => { g with
        http := 202, image := { g.image with commit := false, bytes := [] }
        writing := some ({ header := p.header, digest := sha384 (s.mem.read p.addr p.len), commit := true
                           bytes := s.mem.read p.addr p.len }, p.readBack) }
      else answered s 400)) ∧
  (∀ (s : State) (rest : List Action) (x : Image) (ok : Bool), s.agenda = .program :: rest → s.mgmt.writing = some (x, ok) →
    ∃ t, step s = .next t ∧ t.mgmt.writing = none ∧ t.mgmt.image = { x with commit := ok } ∧
      t.mgmt.http = (if ok then 200 else 500) ∧ t.mem = s.mem ∧ t.hub = s.hub) ∧
  (∀ s : State, Serves s → ∃ t e, exec .clearStartRecord s = .next t ∧ t.mgmt.sectors[0] = [e] ∧ (entryOf e).evt = 4 ∧ (entryOf e).code = 0 ∧
    (∀ i : Fin 16, i ≠ 0 → t.mgmt.sectors[i] = []) ∧ t.mgmt.levels = 0 ∧ t.mem = s.mem ∧ t.hub = s.hub) ∧
  (∀ (nonce : List Byte) (s : State), Serves s →
    (32 ≤ nonce.length → nonce.length ≤ 64 → ∃ bs, exec (.attestationReport nonce) s = .next (managing s fun g => { g with
      http := 200, report := some (bs ++ nonce, Config.sign 0 (sha384 (bs ++ nonce)), Config.sign 1 (sha384 (bs ++ nonce))) })) ∧
    (nonce.length < 32 ∨ 64 < nonce.length → exec (.attestationReport nonce) s = .next (answered s 400))) ∧
  (∀ (i : Fin 16) (pw : List Byte) (s : State) (a : Account), s.mgmt.mode = .running ∨ s.mgmt.mode = .safe → s.mgmt.accounts[i] = a →
    a.used = true → (∀ t, a.lockedUntil = some t → t ≤ s.osc) →
    (a.password = pw → (s.mgmt.accounts[0]).mustChange = false → exec (.login i pw) s = .next (managing s fun g => { g with
      accounts := g.accounts.set i { a with fails := 0, lockedUntil := none }, nextSid := g.nextSid + 1, http := 200
      sessions := g.sessions ++ [{ sid := g.nextSid, acct := i, lastUse := s.osc }] })) ∧
    (a.password ≠ pw → a.fails < 4 → exec (.login i pw) s = .next (managing s fun g => { g with
      accounts := g.accounts.set i { a with fails := a.fails + 1 }, http := 401 })) ∧
    (a.password ≠ pw → 4 ≤ a.fails → exec (.login i pw) s = .next (managing s fun g => { g with
      accounts := g.accounts.set i { a with fails := 0, lockedUntil := some (s.osc + 16 * 60000000000) }, http := 401 })) ∧
    ∀ new, a.password = pw → exec (.passwordChange i pw new) s = .next (managing s fun g => { g with
      accounts := g.accounts.set i { a with password := new, mustChange := false, fails := 0 }, http := 200 })) ∧
  (∀ (i : Fin 16) (s : State) (t : Nat), (s.mgmt.accounts[i]).lockedUntil = some t →
    (t ≤ s.osc → exec (.lockoutExpiry i) s = .next (managing s fun g => { g with
      accounts := g.accounts.set i { g.accounts[i] with lockedUntil := none } })) ∧
    (s.osc < t → exec (.lockoutExpiry i) s = .next s)) ∧
  (∀ (sid : Nat) (s : State), ∃ t, exec (.sessionTimeout sid) s = .next t ∧ t.mgmt.accounts = s.mgmt.accounts ∧ t.mem = s.mem ∧
    t.hub = s.hub ∧ ∀ x, x ∈ t.mgmt.sessions ↔
      x ∈ s.mgmt.sessions ∧ ¬(x.sid = sid ∧ x.lastUse + 16 * 1800000000000 ≤ s.osc))

namespace Sys2Proof.Machine.Claim

/-! ### Supply, temperature and bridges -/

/-- A voltage request clamped and rounded down to a step (R39). -/
def stepped (n : Nat) : Nat := held 550 900 n / 5 * 5
/-- The rail of a region as it stands after a report (R270, Table 10.1). -/
def reported (x : Supply) (code : BitVec 10) : Supply :=
  { x with last := code, peak := if x.peak.toNat < code.toNat then code else x.peak }
/-- The state with a supply region replaced. -/
def supplied (s : State) (v : Fin 25) (x : Supply) : State := s.modHub fun h => { h with supply := h.supply.set v x }
/-- A die's temperature has crossed none of the thresholds above the warning one (R64). -/
def Below (t : BitVec 16) (thr : Nat) : Prop := t.toInt < 16 * (thr : Int)
/-- See `Below`. -/
def AtOrAbove (t : BitVec 16) (thr : Nat) : Prop := 16 * (thr : Int) ≤ t.toInt
/-- The lines of a budget in force at a scale of k sixteenths (R274). -/
def inForce (lines : BitVec 24) (k : Nat) : Nat :=
  if (if lines.toNat = 0 then 1 else lines.toNat) * k / 16 = 0 then 1 else (if lines.toNat = 0 then 1 else lines.toNat) * k / 16
/-- Byte i of a line's data. -/
def lineByte (d : BitVec 1024) (i : Nat) : Byte := d.extractLsb' (8 * i) 8

end Sys2Proof.Machine.Claim

/-- R24, R25, R26, R39, R64, R65, R269, R270, R272, R274, Tables 2.12, 10.1, 10.2: a temperature report is kept, and a compute die
at its critical threshold is switched off with its rows halted and stays off, while one at 115 °C removes all power; VSET takes its
stepped value, a regulator moves one step towards its target in each 250 ns, the brake's signal is kept, a current report, one in each
500 ns, is kept rail by rail with the power it makes; a sample that brings the excursion count to 20,000 cuts; a budget interval, which begins every 32,000 units, restarts the counts and takes the budgets in force; a
bridge writes the bytes a request names, clearing poison by a whole line alone, and holds back a request beyond its row's budget;
the scrubber counts or poisons. The model's: EXCURSION as a sample with the codes as they are, one sample and one step at most for a boundary
(log entry 42), and memory that reads zero after a trip has removed the power (log entry 6). -/
def Obligations.SupplyAndThermal : Prop :=
  (∀ (d : Fin 5) (temp : BitVec 16) (s : State), s.mgmt.mode ≠ .off → Below temp 115 →
    Below temp (s.hub.thermal[d]).crit.toNat →
    ∃ t, exec (.thwarn d temp) s = .next t ∧ exec (.thcrit d temp) s = .next t ∧ t.rows = s.rows ∧ t.launches = s.launches ∧
      t.hub.supply = s.hub.supply ∧ t.hub.thermal = s.hub.thermal.set d { s.hub.thermal[d] with
        now := temp, peak := if (s.hub.thermal[d]).peak.toInt < temp.toInt then temp else (s.hub.thermal[d]).peak }) ∧
  (∀ (d : Fin 5) (temp : BitVec 16) (s : State), s.mgmt.mode ≠ .off → Below temp 115 →
    AtOrAbove temp (s.hub.thermal[d]).crit.toNat → d.val < 4 → (s.hub.thermal[d]).halted = false →
    ∃ t, exec (.thcrit d temp) s = .next t ∧ t.mgmt.mode = s.mgmt.mode ∧ (t.hub.thermal[d]).halted = true ∧
      (∀ m : RowId, m.val / 6 = d.val → (t.hub.supply[m.val]'(by omega)).off = true ∧ (t.row m).phase =
        (if (s.row m).phase = .double ∨ (s.row m).phase = .doubleMchk then .doubleMchk else .mchk)) ∧
      ∀ m : RowId, m.val / 6 ≠ d.val → (t.row m).phase = (s.row m).phase ∧
        (t.hub.supply[m.val]'(by omega)).off = (s.hub.supply[m.val]'(by omega)).off) ∧
  (∀ (d : Fin 5) (temp : BitVec 16) (s : State), s.mgmt.mode ≠ .off → AtOrAbove temp 115 →
    ∃ t, exec (.thermalTrip d temp) s = .next t ∧ t.mgmt.mode = .off ∧ t.mgmt.tripped = true ∧ t.mem = State.reset.mem ∧
      NoLaunches t) ∧
  (∀ (v : Fin 25) (w : Word) (s : State), exec (.vsetWrite v w) s = .next (s.modHub fun h => { h with
      supply := h.supply.set v { h.supply[v] with mv := BitVec.ofNat 10 (stepped (w.extractLsb' 0 10).toNat) } })) ∧
  (∀ (v : Fin 25) (s : State), s.osc / 4000 ≤ (s.hub.supply[v]).stepped → exec (.regulatorStep v) s = .next s) ∧
  (∀ (v : Fin 25) (s : State) (x : Supply), s.hub.supply[v] = x → x.off = false → x.stepped < s.osc / 4000 →
    (x.act + 5 ≤ min x.mv.toNat x.ceil → exec (.regulatorStep v) s = .next (supplied s v { x with act := x.act + 5, stepped := s.osc / 4000 })) ∧
    (min x.mv.toNat x.ceil + 5 ≤ x.act → exec (.regulatorStep v) s =
      .next (supplied s v { x with act := x.act - 5, stepped := s.osc / 4000 })) ∧
    (x.act = min x.mv.toNat x.ceil → exec (.regulatorStep v) s = .next (supplied s v { x with stepped := s.osc / 4000 }))) ∧
  (∀ (b : Bool) (s : State), exec (.powerBrake b) s =
    .next (s.modHub fun h => { h with power := { h.power with brk := b } })) ∧
  (∀ (k : CurrentCodes) (s : State), s.osc / 8000 ≤ s.hub.power.sampled → exec (.currentReport k) s = .next s) ∧
  (∀ (k : CurrentCodes) (s : State), s.hub.power.sampled < s.osc / 8000 → ∃ t, exec (.currentReport k) s = .next t ∧ t.mem = s.mem ∧ t.rows = s.rows ∧
    (∀ v : Fin 25, (t.hub.supply[v]).last = k.regions.getD v.val 0 ∧
      (t.hub.supply[v]).peak = (reported s.hub.supply[v] (k.regions.getD v.val 0)).peak ∧ (t.hub.supply[v]).mv = (s.hub.supply[v]).mv) ∧
    (∀ f : Fin 8, (t.hub.fxrep[f]).1 = k.fixed.getD f.val 0) ∧
    t.hub.power.pnow = BitVec.ofNat 16 (min t.hub.modulePower 65535)) ∧
  (∀ s : State, s.hub.power.sampled < s.osc / 8000 → s.hub.power.exc = 19999 → s.hub.power.brk = false → s.hub.power.psus.toNat < s.hub.modulePower →
    ∃ t, exec .excursion s = .next t ∧ t.hub.power.exc = 20000 ∧ t.hub.power.cut = true ∧ t.mem = s.mem ∧ t.rows = s.rows ∧
      t.hub.power.bscale = (if s.hub.power.bscale ≤ 2 then 1 else s.hub.power.bscale - 1) ∧
      ∀ v : Fin 25, v.val < 24 → (t.hub.supply[v]).ceil = max s.hub.power.vfloor.toNat ((s.hub.supply[v]).ceil - 10)) ∧
  (∀ s : State, s.osc / 32000 ≤ s.hub.budgets.interval → exec .budgetInterval s = .next s) ∧
  (∀ s : State, s.hub.budgets.waiting = [] → s.hub.budgets.interval < s.osc / 32000 →
    exec .budgetInterval s = .next (s.modHub fun h => { h with budgets :=
    { counts := [], waiting := [], waited := 0, interval := s.osc / 32000, held := h.budgets.held
      inForce := Vector.ofFn fun m : Fin 24 => inForce (h.supply[m.val]'(by omega)).hbud h.power.bscale
      inForceS := Vector.ofFn fun m : Fin 24 => inForce (h.supply[m.val]'(by omega)).sbud h.power.bscale } })) ∧
  (∀ (r : BridgeRequest) (s : State), r.line * 128 < 0x9000000000 → r.row = none →
    (r.write = false → exec (.bridgeRequest r) s = .next s) ∧
    (r.write = true → MemOk s → ∃ t, exec (.bridgeRequest r) s = .next t ∧ t.hub = s.hub ∧ t.rows = s.rows ∧
      (∀ i < 128, t.mem.byte (r.line * 128 + i) =
        if r.mask.getLsbD i then lineByte r.data i else s.mem.byte (r.line * 128 + i)) ∧
      (∀ a, a < r.line * 128 ∨ r.line * 128 + 128 ≤ a → t.mem.byte a = s.mem.byte a) ∧
      (∀ l, t.mem.poison.contains l = (s.mem.poison.contains l && !(decide (l = r.line) && decide (r.mask = BitVec.allOnes 128)))))) ∧
  (∀ (r : BridgeRequest) (s : State) (m : RowId), r.line * 128 < 0x9000000000 → r.row = some m →
    s.hub.budgets.inForce[m] ≤ s.hub.budgets.count m.val (stackOf (r.line * 128)) →
    ∃ t, exec (.bridgeRequest r) s = .next t ∧ t.mem = s.mem ∧ t.rows = s.rows ∧
      t.hub.budgets.waiting = s.hub.budgets.waiting ++ [.bridge r] ∧ t.hub.budgets.counts = s.hub.budgets.counts) ∧
  (∀ (line : Nat) (s : State), line * 128 < 0x9000000000 →
    exec (.scrub line .clean) s = .next s ∧
    exec (.scrub line .corrected) s = .next (s.modHub fun h => { h with
      eccFixed := h.eccFixed.set (Fin.ofNat 12 (stackOf (line * 128))) (h.eccFixed[Fin.ofNat 12 (stackOf (line * 128))] + 1) }) ∧
    ∃ t, exec (.scrub line .uncorrectable) s = .next t ∧ t.mem.cells = s.mem.cells ∧ t.hub = s.hub ∧
      ∀ l, t.mem.poison.contains l = (s.mem.poison.contains l || decide (l = line)))

namespace Sys2Proof.Machine.Claim

/-! ### Edges and the timebase -/

/-- Module k of an edge, as a bit. -/
def moduleBit (k : Fin 8) : BitVec 8 := 1 <<< k.val
/-- The state with an edge replaced. -/
def edged (s : State) (e : Fin 8) (x : Edge) : State := s.modHub fun h => { h with edges := h.edges.set e x }
/-- The state with the timebase servo changed. -/
def servoed (s : State) (f : Servo → Servo) : State := s.modHub fun h => { h with servo := f h.servo }
/-- The message is for the device's domain, and its management port has power (R34, R35). -/
def Taken (s : State) (msg : PtpMessage) : Prop :=
  msg.domain = s.hub.servo.domain ∧ s.mgmt.mode ≠ .off ∧ s.mgmt.mode ≠ .unstarted
/-- The servo is in software's hands (R38). -/
def InSoftware (s : State) : Prop := s.hub.hmode.getLsbD 5 = true
/-- v held to the range lo to hi. -/
def heldI (lo hi v : Int) : Int := if v < lo then lo else if hi < v then hi else v
/-- A message's timestamp in timebase units: 16 to the ns (R53). -/
def originOf (msg : PtpMessage) : Word := BitVec.ofNat 64 (msg.seconds.toNat * 16000000000 + 16 * msg.nanos.toNat)
/-- Two correctionFields of 2^−16 ns together, in timebase units truncated toward zero (R53, Table 2.11). -/
def corrected (a b : Word) : Word := BitVec.ofInt 64 ((a.toInt + b.toInt).tdiv 4096)
/-- How far the timebase is ahead of its master, in units: T2 − T1 − corrections − the path delay (R35, IEEE 1588). -/
def offset (s : State) (t1 t2 corr : Word) : Int := (t2 - t1 - corr).toInt - s.hub.servo.delay

end Sys2Proof.Machine.Claim

/-- R21, R35, R36, R37, R38, R53, Tables 1.2 and 1.5: a flit retry is counted; a module with more than 16 retries in a row leaves
service to retrain, comes back when that succeeds, and when it fails and leaves none the edge is down; a Sync, with its Follow_Up
where it is of two steps, gives an offset, which a slew removes when it is within 10 µs; a delay exchange gives the path delay; the
loss of the master leaves the rate as it was; the timebase registers act in host-assisted mode and are ignored in hardware mode.
The model's: that the servo takes the offset as IEEE 1588 has it (log entry 33), that a rate written at a 10 ns boundary is in force
at once (log entry 10), and that an edge is down once its last module has failed to retrain (log entry 39). -/
def Obligations.EdgesAndTimebase : Prop :=
  (∀ (e k : Fin 8) (s : State) (x : Edge), s.hub.edges[e] = x →
    (x.modup &&& moduleBit k ≠ 0 → ∃ t n, exec (.flitRetry e k) s = .next t ∧ (n = 1 ∨ n = x.retries[k] + 1) ∧
      t.hub.edges = s.hub.edges.set e { x with
        crcrt := if x.crcrt = 0xFFFF then x.crcrt else x.crcrt + 1, retries := x.retries.set k n } ∧ t.mem = s.mem ∧ t.rows = s.rows) ∧
    (x.modup &&& moduleBit k ≠ 0 → 16 < x.retries[k] → exec (.moduleRetrain e k) s = .next (edged s e { x with
      modup := x.modup &&& ~~~ moduleBit k, training := x.training ||| moduleBit k
      retrn := if x.retrn = 0xFF then x.retrn else x.retrn + 1, retries := x.retries.set k 0 })) ∧
    (x.training &&& moduleBit k ≠ 0 → exec (.retrainingSuccess e k) s = .next (edged s e { x with
      modup := x.modup ||| moduleBit k, training := x.training &&& ~~~ moduleBit k })) ∧
    (x.training &&& moduleBit k ≠ 0 → x.modup ≠ 0 → exec (.retrainFailure e k) s = .next (edged s e { x with
      training := x.training &&& ~~~ moduleBit k })) ∧
    (x.training = moduleBit k → x.modup = 0 → ∃ t, exec (.retrainFailure e k) s = .next t ∧ (t.hub.edges[e]).wasdn = true ∧
      (t.hub.edges[e]).training = 0 ∧ (∀ j : Fin 8, j ≠ e → t.hub.edges[j] = s.hub.edges[j]))) ∧
  (∀ (msg : PtpMessage) (s : State), Taken s msg →
    (msg.twoStep = true → exec (.ptpSync msg) s = .next (servoed s fun v =>
      { v with awaitFollow := some (msg.seqId, msg.local_, msg.correction) })) ∧
    (msg.twoStep = false → s.hub.hmode = 0 → (offset s (originOf msg) msg.local_ (corrected msg.correction 0)).natAbs ≤ 160000 →
      ∃ t, exec (.ptpSync msg) s = .next t ∧ t.tb = s.tb ∧ t.mem = s.mem ∧ t.hub.servo.hasMaster = true ∧
        t.hub.servo.slew = -(offset s (originOf msg) msg.local_ (corrected msg.correction 0)) * 100000000 ∧
        t.hub.servo.syncT1 = originOf msg) ∧
    (∀ t2 corr : Word, s.hub.servo.awaitFollow = some (msg.seqId, t2, corr) → s.hub.hmode = 0 →
      (offset s (originOf msg) t2 (corrected corr msg.correction)).natAbs ≤ 160000 →
      ∃ t, exec (.ptpFollowUp msg) s = .next t ∧ t.tb = s.tb ∧ t.mem = s.mem ∧ t.hub.servo.awaitFollow = none ∧
        t.hub.servo.slew = -(offset s (originOf msg) t2 (corrected corr msg.correction)) * 100000000) ∧
    exec (.ptpDelayReq msg) s = .next (servoed s fun v => { v with delayT3 := msg.local_, delaySeq := some msg.seqId }) ∧
    (s.hub.servo.delaySeq = some msg.seqId → s.hub.hmode = 0 → s.hub.servo.haveSync = true →
      ∃ t, exec (.ptpDelayResp msg) s = .next t ∧ t.hub.servo.delaySeq = none ∧
        t.hub.servo.delay = ((s.hub.servo.syncT2 - s.hub.servo.syncT1 - s.hub.servo.syncCorr).toInt
          + (originOf msg - s.hub.servo.delayT3 - corrected msg.correction 0).toInt) / 2)) ∧
  (∀ s : State, exec .lossOfTheMaster s = .next (servoed s fun v =>
    { v with hasMaster := false, haveSync := false, awaitFollow := none, delaySeq := none })) ∧
  (∀ (v : Word) (s : State), InSoftware s →
    exec (.tbrateWrite v) s = .next (servoed s fun x =>
      if s.osc % 160 = 0 then { x with rate := heldI (-10000) 10000 (v.extractLsb' 0 24).toInt, rateNext := none }
      else { x with rateNext := some (heldI (-10000) 10000 (v.extractLsb' 0 24).toInt) }) ∧
    exec (.tbslewWrite v) s =
      .next (servoed s fun x => { x with slew := -(heldI (-160000) 160000 (v.extractLsb' 0 19).toInt) * 100000000 }) ∧
    (v ≠ 0 → ∃ t, exec (.tbstepWrite v) s = .next t ∧ t.tb = s.tb + v ∧ t.rows.toList.map (·.phase) = s.rows.toList.map (·.phase) ∧
      t.hub.servo.nstep = (if s.hub.servo.nstep = 0xFFFFFFFF then s.hub.servo.nstep else s.hub.servo.nstep + 1)) ∧
    exec (.tbstepWrite 0) s = .next s) ∧
  (∀ (v : Word) (s : State), ¬InSoftware s → exec (.tbrateWrite v) s = .next s ∧ exec (.tbslewWrite v) s = .next s ∧
    exec (.tbstepWrite v) s = .next s)

/-! ### The machine as a whole -/

/-- R28, R33, R50, R64, R82, R115, R262, R269, R273, Tables 1.5, 2.5, 10.1, 10.2: after reset no row holds a launch, no launch is present,
every scalar register is live, every function of the hub is in hardware mode, the node identifier is 0, the launch table and the
checkpoints are off, and the watchdog, the limits and the voltages stand at their reset values; memory lists nothing (the model's, log
entry 6) and has its one form; power is applied with every rail on (the model's, log entry 8). -/
def Obligations.ResetState : Prop :=
  MemOk State.reset ∧ State.reset.mem.cells = [] ∧ State.reset.launches = [] ∧ State.reset.hub.hmode = 0 ∧
  State.reset.hub.nodeId = 0 ∧ State.reset.hub.cgive = 100 ∧ State.reset.hub.ltEn = false ∧ State.reset.hub.ck.en = false ∧
  State.reset.hub.ck.per = 50 ∧ State.reset.hub.ck.fulln = 16 ∧ State.reset.hub.wdog.boot = true ∧
  State.reset.hub.wdog.tmo = 10000000 ∧ State.reset.hub.power.pmax = 2800 ∧ State.reset.hub.power.psus = 2400 ∧
  State.reset.hub.power.brake = 600 ∧
  (∀ v : Fin 25, (State.reset.hub.supply[v]).mv = 750 ∧ (State.reset.hub.supply[v]).off = false) ∧
  (∀ m : RowId, (State.reset.row m).lid = none ∧ (State.reset.row m).phase = .idle) ∧
  ∀ (m : RowId) (c : CoreId) (r : BitVec 5), (State.reset.core m c).isLive r = true

/-- R100, R102, R106, R107, R125, R203: a step whose next action is an event runs that event, or, at a cell, the event of the element
whose turn it is there; at a core that may move, it runs the
instruction that the head word of its hop decodes to; at a row fetch unit that may move, the one that the word at its pc decodes
to, read from memory where the instruction cache holds none; at an engine, the one that its operation's command decodes to. -/
def Obligations.StepRunsDecoded : Prop :=
  (∀ (s : State) (i : Instr) (rest : List Action), s.agenda = .event i :: rest → elemOf i = none →
    step s = exec i { s with agenda := rest, ticks := s.ticks + 1 }) ∧
  (∀ (s u : State) (i : Instr) (rest : List Action), s.agenda = .event i :: rest → u = { s with agenda := rest, ticks := s.ticks + 1 } →
    step s = exec (u.inTurn i).1 (u.inTurn i).2) ∧
  (∀ (s : State) (m : RowId) (c : CoreId) (rest : List Action) (w : VineWord) (ws : List VineWord) (i : Instr),
    s.agenda = .place m (placeOfCore c) :: rest → s.rowMoves m = true → (s.row m).phase = .running →
    (s.core m c).stopped = false → (s.core m c).halted = false → (s.row m).hops[c] = w :: ws → (s.core m c).skipBelow = none →
    (s.core m c).active = true → (∀ e : Fin 4, (s.core m c).engTrap[e] = none) → decodeSeq w.word w.lit = .ok i →
    step s = exec i { s with agenda := rest, ticks := s.ticks + 1, cur := { m := m, p := placeOfCore c, op := 0, word := w } }) ∧
  (∀ (s s1 : State) (m : RowId) (rest : List Action) (pa : Nat) (w : BitVec 32) (i : Instr),
    s.agenda = .place m rfuPlace :: rest → s.rowMoves m = true → (s.row m).phase = .running →
    (s.row m).stopped = false → (s.row m).halted = false → (s.row m).resendQ = [] →
    (∀ x ∈ (s.row m).icache, x.1 ≠ (s.row m).pc.toNat / 128) → (s.row m).pc.toNat % 4 = 0 → pa % 128 = (s.row m).pc.toNat % 128 →
    State.checkAddr { s with agenda := rest, ticks := s.ticks + 1 } { m := m, unit := .rfu, lid := (s.row m).lid.getD 0 }
      (s.row m).pc 4 .fetch = (s1, .ok (.mem pa)) →
    s1.mem.poisoned pa 4 = false → w = BitVec.ofNat 32 (leAt s1.mem pa 4) → isCmd w = false → decodeSeq w 0 = .ok i →
    step s = exec i { (s1.modRow m fun r => r.cacheLine ((s.row m).pc.toNat / 128) (s1.mem.read (pa / 128 * 128) 128)) with
      cur := { m := m, p := rfuPlace, op := 0, word :=
        { ord := (s.row m).ord, handler := false, word := w, lit := 0, addr := (s.row m).pc, post := (s.row m).post
          postRel := (s.row m).postRel, coll := 0 } } }) ∧
  (∀ (s : State) (m : RowId) (c : CoreId) (id : Nat) (rest : List Action) (o : Op) (i : Instr),
    s.agenda = .engine m c id :: rest → (s.row m).phase ≠ .mchk → (s.core m c).findOp id = some o →
    o.phase = .forked ∨ o.phase = .moving → decodeCommand o.cmd = .ok i →
    step s = exec i { s with agenda := rest, ticks := s.ticks + 1, cur := { s.cur with m := m, p := placeOfCore c, op := id } })

/-- Tables 12.8, 14.6 and 18.3: words of the manual decode to the instructions that it gives them. -/
def Obligations.WordsDecode : Prop :=
  decodeTableWord 32 0x04729815 = some (.div { q := false, d := 7, a := 5, b := 6, x := false, y := true }) ∧
  decodeTableWord 32 0x0831FFFE = some (.addi { q := false, d := 3, a := 3, i := -1, x := false }) ∧
  decodeTableWord 32 0x46407FFE = some (.bne { a := 4, b := 0, o := -2 }) ∧
  decodeTableWord 32 0x5A0FFFEA = some (.jal { l := 0, o := -22 }) ∧
  decodeTableWord 32 0x6C020004 = some (.posteRel { q := false, d := 0, a := 4, b := 0, x := false, y := false }) ∧
  decodeTableWord 32 0x8093FE20 = some (.ld { q := false, d := 9, b := 7, i := -8, s := 2, c := 0, x := false }) ∧
  decodeTableWord 32 0x98452E66 =
    some (.amocas { q := false, d := 4, a := 10, b := 11, c := 4, z := true, x := true, y := false }) ∧
  decodeTableWord 32 0x9C01004C = some (.waitf { d := 0, a := 2, b := 0, h := 3, x := false, y := false }) ∧
  decodeTableWord 32 0xA8604006 = some (.ecnt { d := 6, a := 0, i := 0, n := 0, e := 3, x := false }) ∧
  decodeTableWord 32 0xAC94000C = some (.rwait { d := 9, a := 8, b := 0, x := false, y := false }) ∧
  decodeTableWord 32 0xC6000054 = some (.trapW { q := true, d := 0, a := 0, i := 0x2A, x := false }) ∧
  decodeTableWord 32 0xCC100040 = some (.csrr { q := false, d := 1, a := 0, n := 0x020, x := false })

/-- Tables 12.2 to 12.10: every instruction that has an encoding and passes the encoding checks is what its encoding decodes to,
with every operand at every value. -/
def Obligations.RoundTrip : Prop :=
  ∀ i : Instr, i.wf = true → encode i ≠ .none → decodeEncoding (encode i) = some i

/-- R185: a step keeps memory in its one form: the cells that it lists rise strictly in address and none is zero, and the lists
of live lines, of poisoned lines and of granules written rise strictly. -/
def Obligations.MemoryFormKept : Prop :=
  ∀ s t : State, MemOk s → step s = .next t → MemOk t
end

