-- ==== Sys2Proof/Laws/State.lean ====
section
/-! SUPPORT. What each shared update of the state leaves in each field, and the accessors after it. -/

namespace Sys2Proof.Machine

/-! ### `State.modRow` -/

@[simp] theorem State.modRow_tb (s : State) (m : RowId) (f : Row → Row) : (s.modRow m f).tb = s.tb := rfl
@[simp] theorem State.modRow_osc (s : State) (m : RowId) (f : Row → Row) : (s.modRow m f).osc = s.osc := rfl
@[simp] theorem State.modRow_ticks (s : State) (m : RowId) (f : Row → Row) : (s.modRow m f).ticks = s.ticks := rfl
@[simp] theorem State.modRow_fresh (s : State) (m : RowId) (f : Row → Row) : (s.modRow m f).fresh = s.fresh := rfl
@[simp] theorem State.modRow_agenda (s : State) (m : RowId) (f : Row → Row) : (s.modRow m f).agenda = s.agenda := rfl
@[simp] theorem State.modRow_cur (s : State) (m : RowId) (f : Row → Row) : (s.modRow m f).cur = s.cur := rfl
@[simp] theorem State.modRow_mem (s : State) (m : RowId) (f : Row → Row) : (s.modRow m f).mem = s.mem := rfl
@[simp] theorem State.modRow_dieTlb (s : State) (m : RowId) (f : Row → Row) : (s.modRow m f).dieTlb = s.dieTlb := rfl
@[simp] theorem State.modRow_rows (s : State) (m : RowId) (f : Row → Row) : (s.modRow m f).rows = vmod s.rows m f := rfl
@[simp] theorem State.modRow_launches (s : State) (m : RowId) (f : Row → Row) : (s.modRow m f).launches = s.launches := rfl
@[simp] theorem State.modRow_suspended (s : State) (m : RowId) (f : Row → Row) : (s.modRow m f).suspended = s.suspended := rfl
@[simp] theorem State.modRow_saved (s : State) (m : RowId) (f : Row → Row) : (s.modRow m f).saved = s.saved := rfl
@[simp] theorem State.modRow_sides (s : State) (m : RowId) (f : Row → Row) : (s.modRow m f).sides = s.sides := rfl
@[simp] theorem State.modRow_portQ (s : State) (m : RowId) (f : Row → Row) : (s.modRow m f).portQ = s.portQ := rfl
@[simp] theorem State.modRow_hub (s : State) (m : RowId) (f : Row → Row) : (s.modRow m f).hub = s.hub := rfl
@[simp] theorem State.modRow_apps (s : State) (m : RowId) (f : Row → Row) : (s.modRow m f).apps = s.apps := rfl
@[simp] theorem State.modRow_mgmt (s : State) (m : RowId) (f : Row → Row) : (s.modRow m f).mgmt = s.mgmt := rfl

/-! ### `State.modHub` -/

@[simp] theorem State.modHub_tb (s : State) (f : Hub → Hub) : (s.modHub f).tb = s.tb := rfl
@[simp] theorem State.modHub_osc (s : State) (f : Hub → Hub) : (s.modHub f).osc = s.osc := rfl
@[simp] theorem State.modHub_ticks (s : State) (f : Hub → Hub) : (s.modHub f).ticks = s.ticks := rfl
@[simp] theorem State.modHub_fresh (s : State) (f : Hub → Hub) : (s.modHub f).fresh = s.fresh := rfl
@[simp] theorem State.modHub_agenda (s : State) (f : Hub → Hub) : (s.modHub f).agenda = s.agenda := rfl
@[simp] theorem State.modHub_cur (s : State) (f : Hub → Hub) : (s.modHub f).cur = s.cur := rfl
@[simp] theorem State.modHub_mem (s : State) (f : Hub → Hub) : (s.modHub f).mem = s.mem := rfl
@[simp] theorem State.modHub_dieTlb (s : State) (f : Hub → Hub) : (s.modHub f).dieTlb = s.dieTlb := rfl
@[simp] theorem State.modHub_rows (s : State) (f : Hub → Hub) : (s.modHub f).rows = s.rows := rfl
@[simp] theorem State.modHub_launches (s : State) (f : Hub → Hub) : (s.modHub f).launches = s.launches := rfl
@[simp] theorem State.modHub_suspended (s : State) (f : Hub → Hub) : (s.modHub f).suspended = s.suspended := rfl
@[simp] theorem State.modHub_saved (s : State) (f : Hub → Hub) : (s.modHub f).saved = s.saved := rfl
@[simp] theorem State.modHub_sides (s : State) (f : Hub → Hub) : (s.modHub f).sides = s.sides := rfl
@[simp] theorem State.modHub_portQ (s : State) (f : Hub → Hub) : (s.modHub f).portQ = s.portQ := rfl
@[simp] theorem State.modHub_hub (s : State) (f : Hub → Hub) : (s.modHub f).hub = f s.hub := rfl
@[simp] theorem State.modHub_apps (s : State) (f : Hub → Hub) : (s.modHub f).apps = s.apps := rfl
@[simp] theorem State.modHub_mgmt (s : State) (f : Hub → Hub) : (s.modHub f).mgmt = s.mgmt := rfl

/-! ### `State.modMgmt` -/

@[simp] theorem State.modMgmt_tb (s : State) (f : Mgmt → Mgmt) : (s.modMgmt f).tb = s.tb := rfl
@[simp] theorem State.modMgmt_osc (s : State) (f : Mgmt → Mgmt) : (s.modMgmt f).osc = s.osc := rfl
@[simp] theorem State.modMgmt_ticks (s : State) (f : Mgmt → Mgmt) : (s.modMgmt f).ticks = s.ticks := rfl
@[simp] theorem State.modMgmt_fresh (s : State) (f : Mgmt → Mgmt) : (s.modMgmt f).fresh = s.fresh := rfl
@[simp] theorem State.modMgmt_agenda (s : State) (f : Mgmt → Mgmt) : (s.modMgmt f).agenda = s.agenda := rfl
@[simp] theorem State.modMgmt_cur (s : State) (f : Mgmt → Mgmt) : (s.modMgmt f).cur = s.cur := rfl
@[simp] theorem State.modMgmt_mem (s : State) (f : Mgmt → Mgmt) : (s.modMgmt f).mem = s.mem := rfl
@[simp] theorem State.modMgmt_dieTlb (s : State) (f : Mgmt → Mgmt) : (s.modMgmt f).dieTlb = s.dieTlb := rfl
@[simp] theorem State.modMgmt_rows (s : State) (f : Mgmt → Mgmt) : (s.modMgmt f).rows = s.rows := rfl
@[simp] theorem State.modMgmt_launches (s : State) (f : Mgmt → Mgmt) : (s.modMgmt f).launches = s.launches := rfl
@[simp] theorem State.modMgmt_suspended (s : State) (f : Mgmt → Mgmt) : (s.modMgmt f).suspended = s.suspended := rfl
@[simp] theorem State.modMgmt_saved (s : State) (f : Mgmt → Mgmt) : (s.modMgmt f).saved = s.saved := rfl
@[simp] theorem State.modMgmt_sides (s : State) (f : Mgmt → Mgmt) : (s.modMgmt f).sides = s.sides := rfl
@[simp] theorem State.modMgmt_portQ (s : State) (f : Mgmt → Mgmt) : (s.modMgmt f).portQ = s.portQ := rfl
@[simp] theorem State.modMgmt_hub (s : State) (f : Mgmt → Mgmt) : (s.modMgmt f).hub = s.hub := rfl
@[simp] theorem State.modMgmt_apps (s : State) (f : Mgmt → Mgmt) : (s.modMgmt f).apps = s.apps := rfl
@[simp] theorem State.modMgmt_mgmt (s : State) (f : Mgmt → Mgmt) : (s.modMgmt f).mgmt = f s.mgmt := rfl

/-! ### `State.withMem` -/

@[simp] theorem State.withMem_tb (s : State) (x : Memory) : (s.withMem x).tb = s.tb := rfl
@[simp] theorem State.withMem_osc (s : State) (x : Memory) : (s.withMem x).osc = s.osc := rfl
@[simp] theorem State.withMem_ticks (s : State) (x : Memory) : (s.withMem x).ticks = s.ticks := rfl
@[simp] theorem State.withMem_fresh (s : State) (x : Memory) : (s.withMem x).fresh = s.fresh := rfl
@[simp] theorem State.withMem_agenda (s : State) (x : Memory) : (s.withMem x).agenda = s.agenda := rfl
@[simp] theorem State.withMem_cur (s : State) (x : Memory) : (s.withMem x).cur = s.cur := rfl
@[simp] theorem State.withMem_mem (s : State) (x : Memory) : (s.withMem x).mem = x := rfl
@[simp] theorem State.withMem_dieTlb (s : State) (x : Memory) : (s.withMem x).dieTlb = s.dieTlb := rfl
@[simp] theorem State.withMem_rows (s : State) (x : Memory) : (s.withMem x).rows = s.rows := rfl
@[simp] theorem State.withMem_launches (s : State) (x : Memory) : (s.withMem x).launches = s.launches := rfl
@[simp] theorem State.withMem_suspended (s : State) (x : Memory) : (s.withMem x).suspended = s.suspended := rfl
@[simp] theorem State.withMem_saved (s : State) (x : Memory) : (s.withMem x).saved = s.saved := rfl
@[simp] theorem State.withMem_sides (s : State) (x : Memory) : (s.withMem x).sides = s.sides := rfl
@[simp] theorem State.withMem_portQ (s : State) (x : Memory) : (s.withMem x).portQ = s.portQ := rfl
@[simp] theorem State.withMem_hub (s : State) (x : Memory) : (s.withMem x).hub = s.hub := rfl
@[simp] theorem State.withMem_apps (s : State) (x : Memory) : (s.withMem x).apps = s.apps := rfl
@[simp] theorem State.withMem_mgmt (s : State) (x : Memory) : (s.withMem x).mgmt = s.mgmt := rfl

/-! ### `State.modLaunch` -/

@[simp] theorem State.modLaunch_tb (s : State) (l : BitVec 16) (f : Launch → Launch) : (s.modLaunch l f).tb = s.tb := rfl
@[simp] theorem State.modLaunch_osc (s : State) (l : BitVec 16) (f : Launch → Launch) : (s.modLaunch l f).osc = s.osc := rfl
@[simp] theorem State.modLaunch_ticks (s : State) (l : BitVec 16) (f : Launch → Launch) : (s.modLaunch l f).ticks = s.ticks := rfl
@[simp] theorem State.modLaunch_fresh (s : State) (l : BitVec 16) (f : Launch → Launch) : (s.modLaunch l f).fresh = s.fresh := rfl
@[simp] theorem State.modLaunch_agenda (s : State) (l : BitVec 16) (f : Launch → Launch) : (s.modLaunch l f).agenda = s.agenda := rfl
@[simp] theorem State.modLaunch_cur (s : State) (l : BitVec 16) (f : Launch → Launch) : (s.modLaunch l f).cur = s.cur := rfl
@[simp] theorem State.modLaunch_mem (s : State) (l : BitVec 16) (f : Launch → Launch) : (s.modLaunch l f).mem = s.mem := rfl
@[simp] theorem State.modLaunch_dieTlb (s : State) (l : BitVec 16) (f : Launch → Launch) : (s.modLaunch l f).dieTlb = s.dieTlb := rfl
@[simp] theorem State.modLaunch_rows (s : State) (l : BitVec 16) (f : Launch → Launch) : (s.modLaunch l f).rows = s.rows := rfl
@[simp] theorem State.modLaunch_launches (s : State) (l : BitVec 16) (f : Launch → Launch) : (s.modLaunch l f).launches = s.launches.map fun x => if x.lid = l then f x else x := rfl
@[simp] theorem State.modLaunch_suspended (s : State) (l : BitVec 16) (f : Launch → Launch) : (s.modLaunch l f).suspended = s.suspended := rfl
@[simp] theorem State.modLaunch_saved (s : State) (l : BitVec 16) (f : Launch → Launch) : (s.modLaunch l f).saved = s.saved := rfl
@[simp] theorem State.modLaunch_sides (s : State) (l : BitVec 16) (f : Launch → Launch) : (s.modLaunch l f).sides = s.sides := rfl
@[simp] theorem State.modLaunch_portQ (s : State) (l : BitVec 16) (f : Launch → Launch) : (s.modLaunch l f).portQ = s.portQ := rfl
@[simp] theorem State.modLaunch_hub (s : State) (l : BitVec 16) (f : Launch → Launch) : (s.modLaunch l f).hub = s.hub := rfl
@[simp] theorem State.modLaunch_apps (s : State) (l : BitVec 16) (f : Launch → Launch) : (s.modLaunch l f).apps = s.apps := rfl
@[simp] theorem State.modLaunch_mgmt (s : State) (l : BitVec 16) (f : Launch → Launch) : (s.modLaunch l f).mgmt = s.mgmt := rfl

/-! ### `State.modCore` -/

@[simp] theorem State.modCore_tb (s : State) (m : RowId) (c : CoreId) (f : Core → Core) : (s.modCore m c f).tb = s.tb := rfl
@[simp] theorem State.modCore_osc (s : State) (m : RowId) (c : CoreId) (f : Core → Core) : (s.modCore m c f).osc = s.osc := rfl
@[simp] theorem State.modCore_ticks (s : State) (m : RowId) (c : CoreId) (f : Core → Core) : (s.modCore m c f).ticks = s.ticks := rfl
@[simp] theorem State.modCore_fresh (s : State) (m : RowId) (c : CoreId) (f : Core → Core) : (s.modCore m c f).fresh = s.fresh := rfl
@[simp] theorem State.modCore_agenda (s : State) (m : RowId) (c : CoreId) (f : Core → Core) : (s.modCore m c f).agenda = s.agenda := rfl
@[simp] theorem State.modCore_cur (s : State) (m : RowId) (c : CoreId) (f : Core → Core) : (s.modCore m c f).cur = s.cur := rfl
@[simp] theorem State.modCore_mem (s : State) (m : RowId) (c : CoreId) (f : Core → Core) : (s.modCore m c f).mem = s.mem := rfl
@[simp] theorem State.modCore_dieTlb (s : State) (m : RowId) (c : CoreId) (f : Core → Core) : (s.modCore m c f).dieTlb = s.dieTlb := rfl
@[simp] theorem State.modCore_rows (s : State) (m : RowId) (c : CoreId) (f : Core → Core) : (s.modCore m c f).rows = vmod s.rows m fun r => r.modCore c f := rfl
@[simp] theorem State.modCore_launches (s : State) (m : RowId) (c : CoreId) (f : Core → Core) : (s.modCore m c f).launches = s.launches := rfl
@[simp] theorem State.modCore_suspended (s : State) (m : RowId) (c : CoreId) (f : Core → Core) : (s.modCore m c f).suspended = s.suspended := rfl
@[simp] theorem State.modCore_saved (s : State) (m : RowId) (c : CoreId) (f : Core → Core) : (s.modCore m c f).saved = s.saved := rfl
@[simp] theorem State.modCore_sides (s : State) (m : RowId) (c : CoreId) (f : Core → Core) : (s.modCore m c f).sides = s.sides := rfl
@[simp] theorem State.modCore_portQ (s : State) (m : RowId) (c : CoreId) (f : Core → Core) : (s.modCore m c f).portQ = s.portQ := rfl
@[simp] theorem State.modCore_hub (s : State) (m : RowId) (c : CoreId) (f : Core → Core) : (s.modCore m c f).hub = s.hub := rfl
@[simp] theorem State.modCore_apps (s : State) (m : RowId) (c : CoreId) (f : Core → Core) : (s.modCore m c f).apps = s.apps := rfl
@[simp] theorem State.modCore_mgmt (s : State) (m : RowId) (c : CoreId) (f : Core → Core) : (s.modCore m c f).mgmt = s.mgmt := rfl

/-! ### `State.draw` -/

@[simp] theorem State.draw_tb (s : State) : s.draw.2.tb = s.tb := rfl
@[simp] theorem State.draw_osc (s : State) : s.draw.2.osc = s.osc := rfl
@[simp] theorem State.draw_ticks (s : State) : s.draw.2.ticks = s.ticks := rfl
@[simp] theorem State.draw_fresh (s : State) : s.draw.2.fresh = s.fresh + 1 := rfl
@[simp] theorem State.draw_agenda (s : State) : s.draw.2.agenda = s.agenda := rfl
@[simp] theorem State.draw_cur (s : State) : s.draw.2.cur = s.cur := rfl
@[simp] theorem State.draw_mem (s : State) : s.draw.2.mem = s.mem := rfl
@[simp] theorem State.draw_dieTlb (s : State) : s.draw.2.dieTlb = s.dieTlb := rfl
@[simp] theorem State.draw_rows (s : State) : s.draw.2.rows = s.rows := rfl
@[simp] theorem State.draw_launches (s : State) : s.draw.2.launches = s.launches := rfl
@[simp] theorem State.draw_suspended (s : State) : s.draw.2.suspended = s.suspended := rfl
@[simp] theorem State.draw_saved (s : State) : s.draw.2.saved = s.saved := rfl
@[simp] theorem State.draw_sides (s : State) : s.draw.2.sides = s.sides := rfl
@[simp] theorem State.draw_portQ (s : State) : s.draw.2.portQ = s.portQ := rfl
@[simp] theorem State.draw_hub (s : State) : s.draw.2.hub = s.hub := rfl
@[simp] theorem State.draw_apps (s : State) : s.draw.2.apps = s.apps := rfl
@[simp] theorem State.draw_mgmt (s : State) : s.draw.2.mgmt = s.mgmt := rfl

/-! ### Vectors -/

/-- Entry j of a vector after one entry is changed. -/
@[simp] theorem vmod_get {α : Type} {n : Nat} (v : Vector α n) (i : Fin n) (f : α → α) (j : Nat) (h : j < n) :
    (vmod v i f)[j] = if i.val = j then f v[j] else v[j] := by
  by_cases e : i.val = j <;> simp [vmod, e]

@[simp] theorem vmod_vmod {α : Type} {n : Nat} (v : Vector α n) (i : Fin n) (f g : α → α) :
    vmod (vmod v i f) i g = vmod v i (g ∘ f) := by
  ext j hj
  by_cases h : i.val = j <;> simp [h]

/-! ### Rows and cores -/

@[simp] theorem State.row_modRow_self (s : State) (m : RowId) (f : Row → Row) : (s.modRow m f).row m = f (s.row m) := by
  simp [State.row]

theorem State.row_modRow_ne (s : State) (m n : RowId) (f : Row → Row) (h : m ≠ n) : (s.modRow m f).row n = s.row n := by
  have : m.val ≠ n.val := fun e => h (Fin.ext e)
  simp [State.row, this]

@[simp] theorem State.core_modCore_self (s : State) (m : RowId) (c : CoreId) (f : Core → Core) :
    (s.modCore m c f).core m c = f (s.core m c) := by
  simp [State.core, Row.modCore]

theorem State.row_modCore_ne (s : State) (m n : RowId) (c : CoreId) (f : Core → Core) (h : m ≠ n) :
    (s.modCore m c f).row n = s.row n := s.row_modRow_ne m n _ h

theorem State.core_modCore_ne (s : State) (m : RowId) (c d : CoreId) (f : Core → Core) (h : c ≠ d) :
    (s.modCore m c f).core m d = s.core m d := by
  have : c.val ≠ d.val := fun e => h (Fin.ext e)
  simp [State.core, Row.modCore, this]

@[simp] theorem State.modRow_modRow (s : State) (m : RowId) (f g : Row → Row) :
    (s.modRow m f).modRow m g = s.modRow m (g ∘ f) := by
  simp [State.modRow]

theorem State.modCore_modRow (s : State) (m : RowId) (c : CoreId) (f : Core → Core) (g : Row → Row) :
    (s.modCore m c f).modRow m g = s.modRow m fun r => g (r.modCore c f) := by
  simp [State.modCore, Function.comp_def]

/-- Changing a core by a constant is setting it. -/
theorem Row.modCore_eq_set (r : Row) (c : CoreId) (f : Core → Core) :
    r.modCore c f = { r with cores := r.cores.set c (f r.cores[c]) } := rfl

/-! ### `Row.modCore`, `Row.advance` -/

@[simp] theorem Row.modCore_phase (r : Row) (c : CoreId) (f : Core → Core) : (r.modCore c f).phase = r.phase := rfl
@[simp] theorem Row.modCore_lid (r : Row) (c : CoreId) (f : Core → Core) : (r.modCore c f).lid = r.lid := rfl
@[simp] theorem Row.modCore_suspended (r : Row) (c : CoreId) (f : Core → Core) : (r.modCore c f).suspended = r.suspended := rfl
@[simp] theorem Row.modCore_q (r : Row) (c : CoreId) (f : Core → Core) : (r.modCore c f).q = r.q := rfl
@[simp] theorem Row.modCore_qpend (r : Row) (c : CoreId) (f : Core → Core) : (r.modCore c f).qpend = r.qpend := rfl
@[simp] theorem Row.modCore_echo (r : Row) (c : CoreId) (f : Core → Core) : (r.modCore c f).echo = r.echo := rfl
@[simp] theorem Row.modCore_getw (r : Row) (c : CoreId) (f : Core → Core) : (r.modCore c f).getw = r.getw := rfl
@[simp] theorem Row.modCore_pc (r : Row) (c : CoreId) (f : Core → Core) : (r.modCore c f).pc = r.pc := rfl
@[simp] theorem Row.modCore_ord (r : Row) (c : CoreId) (f : Core → Core) : (r.modCore c f).ord = r.ord := rfl
@[simp] theorem Row.modCore_post (r : Row) (c : CoreId) (f : Core → Core) : (r.modCore c f).post = r.post := rfl
@[simp] theorem Row.modCore_postRel (r : Row) (c : CoreId) (f : Core → Core) : (r.modCore c f).postRel = r.postRel := rfl
@[simp] theorem Row.modCore_trap (r : Row) (c : CoreId) (f : Core → Core) : (r.modCore c f).trap = r.trap := rfl
@[simp] theorem Row.modCore_held (r : Row) (c : CoreId) (f : Core → Core) : (r.modCore c f).held = r.held := rfl
@[simp] theorem Row.modCore_heldPc (r : Row) (c : CoreId) (f : Core → Core) : (r.modCore c f).heldPc = r.heldPc := rfl
@[simp] theorem Row.modCore_stopped (r : Row) (c : CoreId) (f : Core → Core) : (r.modCore c f).stopped = r.stopped := rfl
@[simp] theorem Row.modCore_halted (r : Row) (c : CoreId) (f : Core → Core) : (r.modCore c f).halted = r.halted := rfl
@[simp] theorem Row.modCore_hops (r : Row) (c : CoreId) (f : Core → Core) : (r.modCore c f).hops = r.hops := rfl
@[simp] theorem Row.modCore_resend (r : Row) (c : CoreId) (f : Core → Core) : (r.modCore c f).resend = r.resend := rfl
@[simp] theorem Row.modCore_resendQ (r : Row) (c : CoreId) (f : Core → Core) : (r.modCore c f).resendQ = r.resendQ := rfl
@[simp] theorem Row.modCore_rtrap (r : Row) (c : CoreId) (f : Core → Core) : (r.modCore c f).rtrap = r.rtrap := rfl
@[simp] theorem Row.modCore_icache (r : Row) (c : CoreId) (f : Core → Core) : (r.modCore c f).icache = r.icache := rfl
@[simp] theorem Row.modCore_cores (r : Row) (c : CoreId) (f : Core → Core) : (r.modCore c f).cores = vmod r.cores c f := rfl

/-- The place of a core is that core's. -/
@[simp] theorem coreOfPlace_placeOfCore (c : CoreId) : coreOfPlace (placeOfCore c) = some c := by
  simp [coreOfPlace, placeOfCore]

@[simp] theorem coreOfPlace_rfu : coreOfPlace rfuPlace = none := rfl

end Sys2Proof.Machine
end

