-- ==== Sys2Proof/Laws/Memory.lean ====
section
/-! SUPPORT. Memory's canonical form is kept by every memory operation, and what a read finds after a write. -/

namespace Sys2Proof.Machine

/-! ### Sorted lists -/

theorem risingNat_cons (x : Nat) (xs : List Nat) :
    risingNat (x :: xs) = true ↔ (∀ y ∈ xs.head?, x < y) ∧ risingNat xs = true := by
  cases xs <;> simp [risingNat]

theorem head_insertNat (x : Nat) (xs : List Nat) : ∀ y ∈ (insertNat x xs).head?, y = x ∨ y ∈ xs.head? := by
  cases xs with
  | nil => simp [insertNat]
  | cons z zs => unfold insertNat; split <;> (try split) <;> simp_all

theorem risingNat_insertNat (x : Nat) (xs : List Nat) (h : risingNat xs = true) : risingNat (insertNat x xs) = true := by
  induction xs with
  | nil => rfl
  | cons y ys ih =>
    rw [risingNat_cons] at h
    unfold insertNat
    split
    · simp_all [risingNat_cons]
    · split
      · simp_all [risingNat_cons]
      · rw [risingNat_cons]
        refine ⟨fun z hz => ?_, ih h.2⟩
        rcases head_insertNat x ys z hz with rfl | hz
        · omega
        · exact h.1 z hz

theorem risingNat_foldl_insertNat (ls xs : List Nat) (h : risingNat xs = true) :
    risingNat (ls.foldl (fun acc l => insertNat l acc) xs) = true := by
  induction ls generalizing xs with
  | nil => exact h
  | cons l ls ih => exact ih _ (risingNat_insertNat l xs h)

/-- A rising list is pairwise increasing. -/
theorem risingNat_iff (xs : List Nat) : risingNat xs = true ↔ xs.Pairwise (· < ·) := by
  induction xs with
  | nil => simp [risingNat]
  | cons x xs ih =>
    rw [risingNat_cons, ih, List.pairwise_cons]
    constructor
    · rintro ⟨h, p⟩
      refine ⟨fun y hy => ?_, p⟩
      cases xs with
      | nil => simp at hy
      | cons z zs =>
        have hz : x < z := h z (by simp)
        rw [List.pairwise_cons] at p
        rcases List.mem_cons.1 hy with rfl | hy
        · exact hz
        · exact Nat.lt_trans hz (p.1 y hy)
    · rintro ⟨h, p⟩
      exact ⟨fun y hy => h y (List.mem_of_mem_head? hy), p⟩

theorem risingNat_filter (p : Nat → Bool) (xs : List Nat) (h : risingNat xs = true) :
    risingNat (xs.filter p) = true := by
  rw [risingNat_iff] at *; exact h.filter p

/-- Cells rise exactly when they are pairwise increasing. -/
theorem risingCells_iff (cs : List Host.Cell) : risingCells cs = true ↔ (cs.map (·.1)).Pairwise (· < ·) := by
  rw [← risingNat_iff]
  induction cs with
  | nil => simp [risingCells, risingNat]
  | cons c cs ih => cases cs <;> simp_all [risingCells, risingNat]

theorem risingCells_filter (p : Host.Cell → Bool) (cs : List Host.Cell) (h : risingCells cs = true) :
    risingCells (cs.filter p) = true := by
  rw [risingCells_iff] at *
  exact h.sublist (List.Sublist.map _ List.filter_sublist)

/-! ### One byte -/

/-- The canonical form of a list of cells: rising addresses and no zero byte. -/
def cellsOk (cs : List Host.Cell) : Prop := risingCells cs = true ∧ ∀ c ∈ cs, c.2 ≠ 0

theorem risingCells_cons (c : Host.Cell) (cs : List Host.Cell) :
    risingCells (c :: cs) = true ↔ (∀ d ∈ cs.head?, c.1 < d.1) ∧ risingCells cs = true := by
  cases cs <;> simp [risingCells]

theorem head_putByte (a : Nat) (v : Byte) (cs : List Host.Cell) (h : risingCells cs = true) (b : Nat)
    (hb : b < a) (hc : ∀ d ∈ cs.head?, b < d.1) : ∀ y ∈ (putByte a v cs).head?, b < y.1 := by
  cases cs with
  | nil => unfold putByte; split <;> simp [hb]
  | cons c cs =>
    rw [risingCells_cons] at h
    have := hc c (by simp)
    unfold putByte
    split
    · split <;> simp_all
    · split
      · split
        · intro y hy
          have := h.1 y hy
          omega
        · simp_all
      · simpa using this

theorem cellsOk_putByte (a : Nat) (v : Byte) (cs : List Host.Cell) (h : cellsOk cs) : cellsOk (putByte a v cs) := by
  obtain ⟨hr, hz⟩ := h
  induction cs with
  | nil => unfold putByte; split <;> simp_all [cellsOk, risingCells]
  | cons c cs ih =>
    obtain ⟨b, w⟩ := c
    rw [risingCells_cons] at hr
    have ih := ih hr.2 fun c hc => hz c (List.mem_cons_of_mem _ hc)
    unfold putByte
    split
    · split
      · exact ⟨(risingCells_cons _ _).2 hr, hz⟩
      · refine ⟨(risingCells_cons _ _).2 ⟨by simpa, (risingCells_cons _ _).2 hr⟩, fun c hc => ?_⟩
        rcases List.mem_cons.1 hc with rfl | hc
        · assumption
        · exact hz c hc
    · split
      · subst_vars
        split
        · exact ⟨hr.2, fun c hc => hz c (List.mem_cons_of_mem _ hc)⟩
        · refine ⟨(risingCells_cons _ _).2 hr, fun c hc => ?_⟩
          rcases List.mem_cons.1 hc with rfl | hc
          · assumption
          · exact hz c (List.mem_cons_of_mem _ hc)
      · refine ⟨(risingCells_cons _ _).2 ⟨head_putByte a v cs hr.2 b (by omega) hr.1, ih.1⟩, fun c hc => ?_⟩
        rcases List.mem_cons.1 hc with rfl | hc
        · exact hz _ (by simp)
        · exact ih.2 c hc

theorem cellsOk_putBytes (a : Nat) (bs : List Byte) (cs : List Host.Cell) (h : cellsOk cs) : cellsOk (putBytes a bs cs) := by
  induction bs generalizing a cs with
  | nil => exact h
  | cons b bs ih => exact ih _ _ (cellsOk_putByte a b cs h)

/-- An address below every listed one reads zero. -/
theorem getByte_below (a : Nat) (cs : List Host.Cell) (h : risingCells cs = true) (hb : ∀ d ∈ cs.head?, a < d.1) :
    getByte a cs = 0 := by
  induction cs with
  | nil => rfl
  | cons c cs ih =>
    obtain ⟨b, w⟩ := c
    rw [risingCells_cons] at h
    have hab : a < b := hb (b, w) (by simp)
    unfold getByte
    rw [if_neg (by omega)]
    exact ih h.2 fun d hd => Nat.lt_trans hab (h.1 d hd)

/-- What a byte reads after one byte is written. -/
theorem getByte_putByte (a b : Nat) (v : Byte) (cs : List Host.Cell) (h : risingCells cs = true) :
    getByte b (putByte a v cs) = if b = a then v else getByte b cs := by
  induction cs with
  | nil =>
    unfold putByte
    split <;> simp_all [getByte]
  | cons c cs ih =>
    obtain ⟨x, w⟩ := c
    have hx := h
    rw [risingCells_cons] at h
    unfold putByte
    split
    · rename_i hax
      split
      · split
        · subst_vars
          exact getByte_below _ _ hx (by simpa using hax)
        · rfl
      · simp [getByte]
    · split
      · subst_vars
        split
        · split
          · subst_vars; exact getByte_below _ _ h.2 (by simpa using h.1)
          · simp [getByte, *]
        · simp only [getByte]; split <;> rfl
      · rename_i h1 h2
        simp only [getByte, ih h.2]
        split <;> split <;> simp_all

/-- What a byte reads after bytes are written at rising addresses. -/
theorem getByte_putBytes (a b : Nat) (bs : List Byte) (cs : List Host.Cell) (h : cellsOk cs) :
    getByte b (putBytes a bs cs) = if h : a ≤ b ∧ b < a + bs.length then bs[b - a]'(by omega) else getByte b cs := by
  induction bs generalizing a cs with
  | nil =>
    rw [dif_neg (by simp)]
    rfl
  | cons v vs ih =>
    have := ih (a + 1) (putByte a v cs) (cellsOk_putByte a v cs h)
    simp only [putBytes, this, getByte_putByte a b v cs h.1]
    by_cases e : b = a
    · subst e
      rw [dif_neg (by omega), if_pos rfl, dif_pos ⟨Nat.le_refl _, by simp⟩]
      simp
    · simp only [e, if_false]
      by_cases g : a + 1 ≤ b ∧ b < a + 1 + vs.length
      · have g' : a ≤ b ∧ b < a + (v :: vs).length := ⟨by omega, by simp; omega⟩
        have e2 : b - a = (b - (a + 1)) + 1 := by omega
        rw [dif_pos g, dif_pos g']
        simp [e2]
      · have g' : ¬ (a ≤ b ∧ b < a + (v :: vs).length) := by simp; omega
        rw [dif_neg g, dif_neg g']

/-! ### The operations of `Memory` -/

/-- Memory is well formed exactly when its cells are canonical and its three line lists rise. -/
theorem Memory.wf_iff (m : Memory) : m.wf = true ↔
    cellsOk m.cells ∧ risingNat m.live = true ∧ risingNat m.poison = true ∧ risingNat m.dirty = true := by
  simp [Memory.wf, cellsOk, and_assoc]

theorem Memory.wf_write (m : Memory) (a : Nat) (bs : List Byte) (h : m.wf = true) : (m.write a bs).wf = true := by
  rw [Memory.wf_iff] at *
  obtain ⟨hc, hl, hp, hd⟩ := h
  refine ⟨cellsOk_putBytes _ _ _ hc, ?_, risingNat_filter _ _ hp, risingNat_foldl_insertNat _ _ hd⟩
  simp only [Memory.write]
  split
  · exact risingNat_foldl_insertNat _ _ hl
  · exact hl

/-- A write shows every waiting barrier operation the bytes as they are after it (R408). -/
@[simp] theorem Memory.bars_write (m : Memory) (a : Nat) (bs : List Byte) :
    (m.write a bs).bars = m.bars.map fun b => b.examine (putBytes a bs m.cells) := rfl

theorem Memory.wf_put (m : Memory) (a n v : Nat) (h : m.wf = true) : (m.put a n v).wf = true := m.wf_write a _ h

theorem Memory.wf_poisonLines (m : Memory) (ls : List Nat) (h : m.wf = true) : (m.poisonLines ls).wf = true := by
  rw [Memory.wf_iff] at *
  exact ⟨h.1, h.2.1, risingNat_foldl_insertNat _ _ h.2.2.1, h.2.2.2⟩

/-- Filtering the cells and the line lists keeps the form. -/
theorem Memory.wf_filter (m : Memory) (p : Host.Cell → Bool) (q r t : Nat → Bool) (h : m.wf = true) :
    Memory.wf { m with cells := m.cells.filter p, live := m.live.filter q, poison := m.poison.filter r
                       dirty := m.dirty.filter t } = true := by
  rw [Memory.wf_iff] at *
  exact ⟨⟨risingCells_filter _ _ h.1.1, fun c hc => h.1.2 c ((List.mem_filter.1 hc).1)⟩, risingNat_filter _ _ h.2.1,
    risingNat_filter _ _ h.2.2.1, risingNat_filter _ _ h.2.2.2⟩

theorem Memory.wf_killLines (m : Memory) (ls : List Nat) (h : m.wf = true) : (m.killLines ls).wf = true := by
  have := m.wf_filter (fun c => !ls.contains (c.1 / 128)) (fun l => !ls.contains l) (fun l => !ls.contains l)
    (fun _ => true) h
  rwa [show m.dirty.filter (fun _ => true) = m.dirty from List.filter_eq_self.2 fun _ _ => rfl] at this

theorem Memory.wf_killRange (m : Memory) (lo hi : Nat) (h : m.wf = true) : (m.killRange lo hi).wf = true := by
  have := m.wf_filter (fun c => !decide (lo ≤ c.1 / 128 * 128 ∧ c.1 / 128 * 128 < hi))
    (fun l => !decide (lo ≤ l * 128 ∧ l * 128 < hi)) (fun l => !decide (lo ≤ l * 128 ∧ l * 128 < hi)) (fun _ => true) h
  rwa [show m.dirty.filter (fun _ => true) = m.dirty from List.filter_eq_self.2 fun _ _ => rfl] at this

/-- Emptying a line list keeps the form. -/
theorem Memory.wf_clear_dirty (m : Memory) (h : m.wf = true) : Memory.wf { m with dirty := [] } = true := by
  rw [Memory.wf_iff] at *
  exact ⟨h.1, h.2.1, h.2.2.1, rfl⟩

/-- What a byte reads after a write (R24). -/
theorem Memory.byte_write (m : Memory) (a b : Nat) (bs : List Byte) (h : m.wf = true) :
    (m.write a bs).byte b = if h : a ≤ b ∧ b < a + bs.length then bs[b - a]'(by omega) else m.byte b :=
  getByte_putBytes a b bs m.cells ((Memory.wf_iff m).1 h).1

@[simp] theorem length_bytesOf (n v : Nat) : (bytesOf n v).length = n := by
  induction n generalizing v <;> simp_all [bytesOf]

/-- The reset memory lists nothing. -/
theorem State.reset_mem_wf : State.reset.mem.wf = true := rfl

end Sys2Proof.Machine
end

