-- ==== Sys2Proof/Laws/Words.lean ====
section
/-! SUPPORT. What a word does at its place: everything that `State.runCore`, `State.runRfu` and `State.forward` can come to,
said once. -/

namespace Sys2Proof.Machine

theorem Core.wakeFor_awake (k : Core) (now : Nat) (rs : List (BitVec 5)) (h : k.awake rs = true) :
    k.wakeFor now rs = (k, true) := by
  unfold Core.wakeFor
  induction rs with
  | nil => rfl
  | cons r rs ih =>
    simp only [Core.awake, List.all_cons, Bool.and_eq_true] at h
    have hs : k.awake rs = true := h.2
    by_cases e : r = 0
    · simp only [ne_eq, e, not_true_eq_false, decide_false, Bool.false_eq_true, not_false_eq_true, List.filter_cons_of_neg]
      exact ih hs
    · have hb : k.banks[sBank r].st = .full := by
        have := h.1
        rw [Bool.or_eq_true, beq_iff_eq, beq_iff_eq] at this
        exact this.resolve_left e
      rw [List.filter_cons_of_pos (by simpa using e), List.foldl_cons, hb]
      exact ih hs

theorem Core.awake_append (k : Core) (xs ys : List (BitVec 5)) :
    k.awake (xs ++ ys) = true ↔ k.awake xs = true ∧ k.awake ys = true := by
  simp only [Core.awake, List.all_append, Bool.and_eq_true]

/-- What a ready word's effect comes to at a core (R340). -/
def State.settleCore (s : State) (c : CoreId) (f : Form) : Effect → State
  | .trap s' kind cs addr info => s'.trapHere kind cs addr info
  | .wait s' => s'
  | .left s' => s'
  | .done s' v | .jump s' v _ =>
    s'.modRow s.cur.m fun r => (r.modCore c fun k => k.finishWord s.tb f v).issue c (s.core s.cur.m c).epost (s.core s.cur.m c).epostRel s'.cur.word.coll
  | .load s' v =>
    (s'.modRow s.cur.m fun r => (r.modCore c fun k => k.finishWord s.tb f none).issue c
      (s.core s.cur.m c).epost (s.core s.cur.m c).epostRel s'.cur.word.coll).modCore s.cur.m c fun k =>
        { k with pend := k.pend ++ (f.dest.toList.filter (· ≠ 0)).map fun d => ⟨d, v⟩ }

/-- A ready word acts. -/
theorem State.runCore_ready (s : State) (c : CoreId) (f : Form) (act : State → (BitVec 5 → Word) → Effect)
    (h : s.ready c f = true) :
    s.runCore c f act = s.settleCore c f (act s (s.core s.cur.m c).read) := by
  simp only [State.ready, Bool.and_eq_true, Bool.or_eq_true, Bool.not_eq_true'] at h
  obtain ⟨⟨⟨⟨⟨ha, hi⟩, hq⟩, hl⟩, hw⟩, hr⟩ := h
  have h1 : (!(s.core s.cur.m c).active && !f.always) = false := by
    rcases ha with ha | ha <;> simp [ha]
  have h3 : ((f.regs ++ f.drops ++ f.names).any fun i => i != 0 && (s.core s.cur.m c).pend.any (·.dest == i)) = false := by
    rw [Bool.eq_false_iff]
    intro hc
    simp only [Core.quiet, List.all_eq_true, List.any_eq_true] at hq hc
    obtain ⟨i, hm, hi⟩ := hc
    have := hq i hm
    simp only [Bool.and_eq_true] at hi
    rw [hi.2] at this
    simp_all
  have h4 : (f.reads.filter fun i => !(s.core s.cur.m c).isLive i).isEmpty = true := by
    simp only [List.isEmpty_iff, List.filter_eq_nil_iff]
    intro i hm
    simpa using List.all_eq_true.1 hl i hm
  have hw' : (s.core s.cur.m c).awake f.reads = true ∧ (s.core s.cur.m c).awake f.dest.toList = true :=
    (Core.awake_append _ _ _).1 hw
  unfold State.runCore
  simp only [h1, hi, h3, h4, hr, Core.wakeFor_awake _ _ _ hw'.1, Core.wakeFor_awake _ _ _ hw'.2, Bool.false_eq_true, Bool.not_true,
    if_false]
  generalize act s (s.core s.cur.m c).read = e
  cases e <;> simp only [State.settleCore, State.modCore_modRow] <;> rfl

/-- A dead operand traps before anything of the word happens (R118, R340). -/
theorem State.runCore_dead (s : State) (c : CoreId) (f : Form) (act : State → (BitVec 5 → Word) → Effect)
    (ha : ((s.core s.cur.m c).active || f.always) = true) (hi : f.illop = false)
    (hq : (s.core s.cur.m c).quiet (f.regs ++ f.drops ++ f.names) = true)
    (hd : (f.reads.filter fun i => !(s.core s.cur.m c).isLive i) ≠ []) :
    s.runCore c f act = s.deadTrap (f.reads.filter fun i => !(s.core s.cur.m c).isLive i) := by
  have h1 : (!(s.core s.cur.m c).active && !f.always) = false := by
    rw [Bool.or_eq_true] at ha
    rcases ha with ha | ha <;> simp [ha]
  have h3 : ((f.regs ++ f.drops ++ f.names).any fun i => i != 0 && (s.core s.cur.m c).pend.any (·.dest == i)) = false := by
    rw [Bool.eq_false_iff]
    intro hc
    simp only [Core.quiet, List.all_eq_true, List.any_eq_true] at hq hc
    obtain ⟨i, hm, hi⟩ := hc
    have := hq i hm
    simp only [Bool.and_eq_true] at hi
    rw [hi.2] at this
    simp_all
  have h4 : (f.reads.filter fun i => !(s.core s.cur.m c).isLive i).isEmpty = false := by
    simpa [List.isEmpty_iff] using hd
  unfold State.runCore
  simp only [h1, hi, h3, h4, Bool.false_eq_true, Bool.not_false, if_false, if_true]

/-- A muted core passes a word on with the post it would have sent (R113). -/
theorem State.runCore_muted (s : State) (c : CoreId) (f : Form) (act : State → (BitVec 5 → Word) → Effect)
    (ha : (s.core s.cur.m c).active = false) (hf : f.always = false) (hr : (s.row s.cur.m).roomEast c = true) :
    s.runCore c f act = s.modRow s.cur.m fun r =>
      r.issue c (s.core s.cur.m c).epost (s.core s.cur.m c).epostRel s.cur.word.coll := by
  unfold State.runCore
  simp only [ha, hf, hr, Bool.not_false, Bool.and_self, if_true]

/-- What a ready word's effect comes to at the row fetch unit (R340). -/
def State.settleRfu (s : State) (f : Form) : Effect → State
  | .trap s' kind cs addr info => s'.trapHere kind cs addr info
  | .wait s' => s'
  | .left s' => s'
  | .done s' v => s'.modRow s.cur.m fun r =>
      (match v, f.dest with
        | some v, some d => r.writeQ d v
        | _, _ => r).advance (s.cur.word.addr + 4)
  | .jump s' v next => s'.modRow s.cur.m fun r =>
      (match v, f.dest with
        | some v, some d => r.writeQ d v
        | _, _ => r).advance next
  | .load s' v => s'.modRow s.cur.m fun r =>
      let r := r.advance (s.cur.word.addr + 4)
      { r with qpend := r.qpend ++ (f.dest.toList.filter (· ≠ 0)).map fun d => ⟨d, v⟩ }

/-- A ready Q = 1 word acts. -/
theorem State.runRfu_ready (s : State) (f : Form) (act : State → (BitVec 5 → Word) → Effect)
    (h : s.readyRfu f = true) : s.runRfu f act = s.settleRfu f (act s (s.row s.cur.m).readQ) := by
  simp only [State.readyRfu, Bool.and_eq_true, Bool.not_eq_true', List.all_eq_true, decide_eq_true_eq] at h
  obtain ⟨⟨⟨hi, hb⟩, hg⟩, hq⟩ := h
  have h1 : (f.illop || f.regs.any fun i => decide (16 ≤ i.toNat)) = false := by
    rw [hi, Bool.false_or, Bool.eq_false_iff]
    intro hc
    obtain ⟨i, hm, hi⟩ := List.any_eq_true.1 hc
    have := hb i hm
    simp at hi
    omega
  have h2 : ((s.row s.cur.m).getwWaits || f.regs.any (s.row s.cur.m).qPending) = false := by
    rw [hg, Bool.false_or, Bool.eq_false_iff]
    intro hc
    obtain ⟨i, hm, hi⟩ := List.any_eq_true.1 hc
    simp [hq i hm] at hi
  unfold State.runRfu
  simp only [h1, h2, Bool.false_eq_true, if_false]
  rcases act s (s.row s.cur.m).readQ with _ | _ | ⟨s', v⟩ | ⟨s', v, _⟩ | _ | _
  · rfl
  · rfl
  · cases v <;> cases hd : f.dest <;> simp [State.settleRfu, hd]
  · cases v <;> cases hd : f.dest <;> simp [State.settleRfu, hd]
  · simp [State.settleRfu, Function.comp_def]
  · rfl

/-- A word at a core. -/
theorem State.runWord_core (s : State) (c : CoreId) (f : Form) (act : State → (BitVec 5 → Word) → Effect)
    (hp : s.cur.p = placeOfCore c) (hq : f.q = false) : s.runWord f act = s.runCore c f act := by
  simp [State.runWord, hp, hq]

/-- A Q = 1 word at the row fetch unit. -/
theorem State.runWord_rfu (s : State) (f : Form) (act : State → (BitVec 5 → Word) → Effect)
    (hp : s.cur.p = rfuPlace) (hq : f.q = true) : s.runWord f act = s.runRfu f act := by
  simp [State.runWord, hp, hq]

/-- A Q = 0 word at the row fetch unit is forwarded. -/
theorem State.runWord_forward (s : State) (f : Form) (act : State → (BitVec 5 → Word) → Effect)
    (hp : s.cur.p = rfuPlace) (hq : f.q = false) : s.runWord f act = s.forward := by
  simp [State.runWord, hp, hq]

/-- Forwarding: the word joins hop 0 with the post, the resend buffer keeps it, and the next word follows (R102, R109, R237). -/
theorem State.forward_room (s : State) (h : (s.row s.cur.m).canForward s.cur.word.handler = true) :
    s.forward = s.modRow s.cur.m fun r =>
      { (r.advance (s.cur.word.addr + wordBytes s.cur.word.word)) with
        hops := r.hops.set 0 (r.hops[0] ++ [{ s.cur.word with post := (s.row s.cur.m).post, postRel := (s.row s.cur.m).postRel }])
        resend := if s.cur.word.handler then r.resend
          else r.resend ++ [{ s.cur.word with post := (s.row s.cur.m).post, postRel := (s.row s.cur.m).postRel }] } := by
  simp [State.forward, h]

/-- While hop 0 or the resend buffer is full the word waits and nothing happens (R105, R237). -/
theorem State.forward_full (s : State) (h : (s.row s.cur.m).canForward s.cur.word.handler = false) : s.forward = s := by
  simp [State.forward, h]

/-! ### What reading registers finds after a write -/

theorem reg32_inj (a b : BitVec 5) : reg32 a = reg32 b ↔ a = b := by
  exact ⟨fun h => BitVec.eq_of_toFin_eq h, fun h => h ▸ rfl⟩

@[simp] theorem Core.read_zero (k : Core) : k.read 0 = 0 := rfl

/-- s0 discards a write; any other register takes it (R115, R117). -/
theorem Core.read_write (k : Core) (d r : BitVec 5) (v : Word) :
    (k.write d v).read r = if r = d ∧ r ≠ 0 then v else k.read r := by
  unfold Core.write Core.read
  by_cases hr : r = 0
  · rw [if_pos hr, if_pos hr, if_neg fun h => h.2 hr]
  · rw [if_neg hr, if_neg hr]
    by_cases hd : d = 0
    · rw [if_pos hd, if_neg fun h => hr (h.1.trans hd)]
    · rw [if_neg hd]
      by_cases e : r = d
      · rw [if_pos ⟨e, hr⟩, e]
        exact Vector.getElem_set_self ..
      · rw [if_neg fun h => e h.1]
        exact Vector.getElem_set_ne (reg32 d).isLt (reg32 r).isLt fun x => e ((reg32_inj _ _).1 (Fin.ext x)).symm

/-- A written register is live (R117). -/
theorem Core.write_isLive (k : Core) (d r : BitVec 5) (v : Word) :
    (k.write d v).isLive r = (k.isLive r || decide (r = d)) := by
  unfold Core.write Core.isLive
  by_cases hr : r = 0
  · rw [decide_eq_true hr, Bool.true_or, Bool.true_or, Bool.true_or]
  · rw [decide_eq_false hr, Bool.false_or, Bool.false_or]
    by_cases hd : d = 0
    · rw [if_pos hd, decide_eq_false fun e => hr (e.trans hd), Bool.or_false]
    · rw [if_neg hd]
      have e1 : ((1 : BitVec 32) <<< d.toNat).getLsbD r.toNat = decide (r = d) := by
        rw [BitVec.getLsbD_shiftLeft]
        by_cases e : r = d
        · subst e
          simp only [Nat.sub_self, Nat.lt_irrefl]
          simp [r.isLt]
        · have h2 : d.toNat ≠ r.toNat := fun x => e (BitVec.eq_of_toNat_eq x).symm
          by_cases hlt : r.toNat < d.toNat
          · simp [e, hlt]
          · have : r.toNat - d.toNat ≠ 0 := by omega
            simp [this, e]
      show (k.live ||| maskBit d).getLsbD r.toNat = _
      rw [BitVec.getLsbD_or, maskBit, e1]

/-- Settling a bank changes no register and no liveness. -/
theorem Core.settle_s (k : Core) (b : Fin 4) : (k.settle b).s = k.s := by unfold Core.settle; split <;> rfl
theorem Core.settle_live (k : Core) (b : Fin 4) : (k.settle b).live = k.live := by unfold Core.settle; split <;> rfl
theorem Core.clear_s (k : Core) (r : BitVec 5) : (k.clear r).s = k.s := by unfold Core.clear; split <;> rfl
theorem Core.clear_banks (k : Core) (r : BitVec 5) : (k.clear r).banks = k.banks := by unfold Core.clear; split <;> rfl

/-- Two cores agree but in their scalar registers, liveness and banks. -/
def Core.SameButRegs (k k' : Core) : Prop := ∃ rs lv bk, k' = { k with s := rs, live := lv, banks := bk }

theorem Core.SameButRegs.refl (k : Core) : k.SameButRegs k := ⟨_, _, _, rfl⟩
theorem Core.SameButRegs.trans {a b c : Core} (h : a.SameButRegs b) (g : b.SameButRegs c) : a.SameButRegs c := by
  obtain ⟨_, _, _, rfl⟩ := h
  obtain ⟨_, _, _, rfl⟩ := g
  exact ⟨_, _, _, rfl⟩
theorem Core.sameButRegs_settle (k : Core) (b : Fin 4) : k.SameButRegs (k.settle b) := by
  unfold Core.settle; split
  · exact .refl k
  · exact ⟨_, _, _, rfl⟩
theorem Core.sameButRegs_clear (k : Core) (r : BitVec 5) : k.SameButRegs (k.clear r) := by
  unfold Core.clear; split
  · exact .refl k
  · exact ⟨_, _, _, rfl⟩
theorem Core.sameButRegs_write (k : Core) (r : BitVec 5) (v : Word) : k.SameButRegs (k.write r v) := by
  unfold Core.write; split
  · exact .refl k
  · exact ⟨_, _, _, rfl⟩
theorem Core.sameButRegs_touch (k : Core) (now : Word) (rs : List (BitVec 5)) : k.SameButRegs (k.touch now rs) := ⟨k.s, k.live, _, rfl⟩
theorem Core.sameButRegs_clears (k : Core) (rs : List (BitVec 5)) : k.SameButRegs (rs.foldl Core.clear k) := by
  induction rs generalizing k with
  | nil => exact .refl k
  | cons r rs ih => exact (k.sameButRegs_clear r).trans (ih _)

/-- Settling banks changes nothing but banks. -/
theorem Core.settles_eq (k : Core) (rs : List (BitVec 5)) :
    ∃ bk, rs.foldl (fun k r => k.settle (sBank r)) k = { k with banks := bk } := by
  induction rs generalizing k with
  | nil => exact ⟨_, rfl⟩
  | cons r rs ih =>
    obtain ⟨b, e⟩ := ih (k.settle (sBank r))
    refine ⟨b, e.trans ?_⟩
    unfold Core.settle
    split <;> rfl

theorem Core.read_clear (k : Core) (d r : BitVec 5) : (k.clear d).read r = k.read r := by
  simp only [Core.read, Core.clear_s]

/-- A dropped register is dead; s0 never is (R117, R118). -/
theorem Core.clear_isLive (k : Core) (d r : BitVec 5) :
    (k.clear d).isLive r = (decide (r = 0) || (k.isLive r && !decide (r = d))) := by
  by_cases hr : r = 0
  · simp [Core.isLive, hr]
  unfold Core.clear
  by_cases hd : d = 0
  · rw [if_pos hd, decide_eq_false hr, decide_eq_false fun e => hr (e.trans hd)]
    simp
  · rw [if_neg hd]
    unfold Core.isLive
    rw [decide_eq_false hr, Bool.false_or, Bool.false_or, Bool.false_or]
    have e1 : ((1 : BitVec 32) <<< d.toNat).getLsbD r.toNat = decide (r = d) := by
      rw [BitVec.getLsbD_shiftLeft]
      by_cases e : r = d
      · subst e
        simp only [Nat.sub_self, Nat.lt_irrefl]
        simp [r.isLt]
      · have h2 : d.toNat ≠ r.toNat := fun x => e (BitVec.eq_of_toNat_eq x).symm
        by_cases hlt : r.toNat < d.toNat
        · simp [e, hlt]
        · have : r.toNat - d.toNat ≠ 0 := by omega
          simp [this, e]
    show (k.live &&& ~~~ maskBit d).getLsbD r.toNat = _
    rw [BitVec.getLsbD_and, BitVec.getLsbD_not, maskBit, e1, decide_eq_true r.isLt, Bool.true_and]

theorem Core.read_clears (k : Core) (rs : List (BitVec 5)) (r : BitVec 5) : (rs.foldl Core.clear k).read r = k.read r := by
  induction rs generalizing k with
  | nil => rfl
  | cons x xs ih => exact (ih _).trans (k.read_clear x r)

theorem Core.clears_isLive (k : Core) (rs : List (BitVec 5)) (r : BitVec 5) :
    (rs.foldl Core.clear k).isLive r = (decide (r = 0) || (k.isLive r && !rs.contains r)) := by
  induction rs generalizing k with
  | nil => by_cases hr : r = 0 <;> simp [Core.isLive, hr]
  | cons x xs ih =>
    rw [List.foldl_cons, ih, Core.clear_isLive, List.contains_cons]
    by_cases hr : r = 0
    · simp [hr]
    · rw [decide_eq_false hr, Bool.false_or, Bool.false_or, Bool.false_or, Bool.not_or, Bool.and_assoc]
      rfl

theorem Core.touch_st (k : Core) (now : Word) (rs : List (BitVec 5)) (b : Fin 4) :
    (k.touch now rs).banks[b].st = k.banks[b].st := by
  have : ∀ (l : List (BitVec 5)) (bs : Vector Bank 4),
      (l.foldl (fun bs r => vmod bs (sBank r) fun x => x.use now k.kidle) bs)[b].st = bs[b].st := by
    intro l
    induction l with
    | nil => intro bs; rfl
    | cons r rs ih =>
      intro bs
      rw [List.foldl_cons, ih]
      simp only [Fin.getElem_fin, vmod_get]
      split <;> rfl
  exact this _ _

theorem Core.write_banks (k : Core) (r : BitVec 5) (v : Word) : (k.write r v).banks = k.banks := by
  unfold Core.write; split <;> rfl

/-- The registers after a word's drops and its destination's write, before its banks settle (R117–R119, R340). -/
theorem regsAfter_written (k : Core) (now : Word) (f : Form) (v : Option Word) (h : v.isSome = f.dest.isSome) :
    RegsAfter k (k.written now f v) f.dest (v.getD 0) f.drops := by
  have hs := (k.sameButRegs_touch now f.regs).trans (Core.sameButRegs_clears _ f.drops)
  have hr : ∀ r, (f.drops.foldl Core.clear (k.touch now f.regs)).read r = k.read r := fun r => Core.read_clears _ _ _
  have hl : ∀ r, (f.drops.foldl Core.clear (k.touch now f.regs)).isLive r =
      (decide (r = 0) || (k.isLive r && !f.drops.contains r)) := fun r => Core.clears_isLive _ _ _
  have hb : f.drops = [] → ∀ b : Fin 4, (f.drops.foldl Core.clear (k.touch now f.regs)).banks[b].st = k.banks[b].st := by
    intro e b
    rw [e]
    exact k.touch_st now f.regs b
  unfold Core.written
  cases v with
  | none =>
    cases hd : f.dest with
    | some d => simp [hd] at h
    | none => exact ⟨hs, fun r => by simp [hr], fun r => by simp [hl], hb⟩
  | some v =>
    cases hd : f.dest with
    | none => simp [hd] at h
    | some d =>
      refine ⟨hs.trans (Core.sameButRegs_write _ _ _), fun r => ?_, fun r => ?_, fun e b => ?_⟩
      · simp only [Core.read_write, hr, Option.some.injEq, Option.getD_some]
        by_cases e : r = d
        · subst e; simp
        · rw [if_neg fun x => e x.1, if_neg fun x => e x.1.symm]
      · simp only [Core.write_isLive, hl, Option.some.injEq]
        by_cases e : r = d
        · simp [e]
        · have e' : ¬ d = r := fun x => e x.symm
          simp only [e, e', decide_false, Bool.or_false]
      · simp only [Core.write_banks]
        exact hb e b

/-- The registers after a word's drops and its destination's write (R117–R119, R340). -/
theorem regsAfter_finishWord (k : Core) (now : Word) (f : Form) (v : Option Word) (h : v.isSome = f.dest.isSome) :
    RegsAfter k (k.finishWord now f v) f.dest (v.getD 0) f.drops := by
  obtain ⟨hs, hr, hl, hb⟩ := regsAfter_written k now f v h
  obtain ⟨bk, e⟩ := Core.settles_eq (k.written now f v) (f.drops.filter fun r => decide (r ≠ 0) && k.isLive r)
  rw [Core.finishWord]
  refine ⟨?_, ?_, ?_, ?_⟩
  · rw [e]
    exact Core.SameButRegs.trans hs ⟨_, _, _, rfl⟩
  · rw [e]
    exact hr
  · rw [e]
    exact hl
  · intro hd
    rw [hd]
    exact hb hd

/-- A ready word whose effect is done: what `ActsAt` says. -/
theorem State.actsAt_runCore (s s' : State) (c : CoreId) (f : Form) (act : State → (BitVec 5 → Word) → Effect)
    (v : Option Word) (h : s.ready c f = true) (ha : act s (s.core s.cur.m c).read = .done s' v)
    (hv : v.isSome = f.dest.isSome) :
    ActsAt s s' c (.next (s.runCore c f act)) f.dest (v.getD 0) f.drops := by
  rw [State.runCore_ready s c f act h, ha]
  refine ⟨_, regsAfter_finishWord (s'.core s.cur.m c) s.tb f v hv, ?_⟩
  simp only [State.settleCore, State.modRow, vmod, State.core, Row.modCore]

/-- The row registers after a word's destination's write (R99). -/
theorem rowRegsAfter_writeQ (r : Row) (d : BitVec 5) (v : Word) (h : d.toNat < 16) :
    RowRegsAfter r (r.writeQ d v) (some d) v := by
  intro i hi
  unfold Row.writeQ Row.readQ
  by_cases hi0 : i = 0
  · rw [if_pos hi0, if_pos hi0, if_neg fun x => x.2 hi0]
  · rw [if_neg hi0, if_neg hi0]
    by_cases h0 : d = 0
    · rw [if_pos h0, if_neg fun x => hi0 ((Option.some.inj x.1).symm.trans h0)]
    · rw [if_neg h0]
      by_cases e : i = d
      · rw [if_pos ⟨by rw [e], hi0⟩, e]
        exact Vector.getElem_set_self (reg16 d).isLt
      · rw [if_neg fun x => e (Option.some.inj x.1).symm]
        refine Vector.getElem_set_ne (reg16 d).isLt (reg16 i).isLt fun x => e ?_
        apply BitVec.eq_of_toNat_eq
        simp only [reg16, Fin.ofNat] at x
        omega

theorem Row.writeQ_eq (r : Row) (d : BitVec 5) (v : Word) : r.writeQ d v = { r with q := (r.writeQ d v).q } := by
  unfold Row.writeQ; split <;> rfl

/-- Where a word's effect sends the row fetch unit, and its destination's value; none when it does not act. -/
def Effect.target (e : Effect) (seq : Word) : Option (State × Option Word × Word) :=
  match e with
  | .done s v => some (s, v, seq)
  | .jump s v next => some (s, v, next)
  | _ => none

/-- A ready Q = 1 word that acts: what `ActsAtRfu` says. -/
theorem State.actsAtRfu_runRfu (s s' : State) (f : Form) (act : State → (BitVec 5 → Word) → Effect) (v : Option Word)
    (next : Word) (h : s.readyRfu f = true)
    (ha : (act s (s.row s.cur.m).readQ).target (s.cur.word.addr + 4) = some (s', v, next))
    (hv : v.isSome = f.dest.isSome) :
    ActsAtRfu s s' (.next (s.runRfu f act)) f.dest (v.getD 0) next := by
  rw [State.runRfu_ready s f act h]
  have hlt : ∀ d, f.dest = some d → d.toNat < 16 := by
    intro d hd
    simp only [State.readyRfu, Bool.and_eq_true, List.all_eq_true, decide_eq_true_eq] at h
    exact h.1.1.2 d (by simp [Form.regs, hd])
  have e : s.settleRfu f (act s (s.row s.cur.m).readQ) = s'.modRow s.cur.m fun r =>
      (match v, f.dest with
        | some v, some d => r.writeQ d v
        | _, _ => r).advance next := by
    generalize act s (s.row s.cur.m).readQ = x at ha
    cases x <;> simp only [Effect.target, Option.some.injEq, reduceCtorEq, Prod.mk.injEq] at ha <;>
      (obtain ⟨rfl, rfl, rfl⟩ := ha; rfl)
  rw [e]
  cases v with
  | none =>
    cases hd : f.dest with
    | some d => simp [hd] at hv
    | none => exact ⟨(s'.row s.cur.m).q, fun i _ => by simp [Row.readQ], by simp only [Row.advance, State.modRow, vmod, State.row]⟩
  | some v =>
    cases hd : f.dest with
    | none => simp [hd] at hv
    | some d =>
      refine ⟨((s'.row s.cur.m).writeQ d v).q, ?_, ?_⟩
      · have := rowRegsAfter_writeQ (s'.row s.cur.m) d v (hlt d hd)
        rw [Row.writeQ_eq] at this
        exact this
      · simp only [State.modRow, vmod, State.row]
        rw [Row.writeQ_eq]
        rfl

/-- The pending entry of a load's destination; a load of register 0 has none. -/
theorem pendOf_dest (d : BitVec 5) (v : Word) :
    ((some d).toList.filter (· ≠ 0)).map (fun d => (⟨d, v⟩ : Pending)) = if d = 0 then [] else [⟨d, v⟩] := by
  by_cases e : d = 0
  · subst e; rfl
  · rw [if_neg e, Option.toList_some, List.filter_cons_of_pos (by simpa using e)]
    rfl

/-- A ready load or atomic: what `LoadsAt` says. -/
theorem State.loadsAt_runCore (s s' : State) (c : CoreId) (f : Form) (act : State → (BitVec 5 → Word) → Effect)
    (d : BitVec 5) (v : Word) (h : s.ready c f = true) (hd : f.dest = some d)
    (ha : act s (s.core s.cur.m c).read = .load s' v) :
    LoadsAt s s' c (.next (s.runCore c f act)) d v f.drops := by
  rw [State.runCore_ready s c f act h, ha]
  refine ⟨s'.modRow s.cur.m fun r => (r.modCore c fun k => k.finishWord s.tb f none).issue c
      (s.core s.cur.m c).epost (s.core s.cur.m c).epostRel s'.cur.word.coll, ?_, ?_⟩
  · refine ⟨_, regsAfter_finishWord (s'.core s.cur.m c) s.tb { f with dest := none, reads := f.regs } none rfl, ?_⟩
    simp [State.modRow, vmod, State.core, Row.modCore, Core.finishWord, Core.written, Form.regs]
  · simp only [State.settleCore, hd, pendOf_dest]

/-- A ready load or atomic at the row fetch unit: what `LoadsAtRfu` says. -/
theorem State.loadsAtRfu_runRfu (s s' : State) (f : Form) (act : State → (BitVec 5 → Word) → Effect)
    (d : BitVec 5) (v : Word) (h : s.readyRfu f = true) (hd : f.dest = some d)
    (ha : act s (s.row s.cur.m).readQ = .load s' v) :
    LoadsAtRfu s s' (.next (s.runRfu f act)) d v := by
  rw [State.runRfu_ready s f act h, ha]
  refine ⟨s'.modRow s.cur.m fun r => r.advance (s.cur.word.addr + 4), ⟨(s'.row s.cur.m).q, fun i _ => by simp [Row.readQ], ?_⟩, ?_⟩
  · simp only [Row.advance, State.modRow, vmod, State.row]
  · simp only [State.settleRfu, hd, State.modRow_modRow, pendOf_dest, Function.comp_def]

end Sys2Proof.Machine
end

