-- ==== Sys2Proof/Tests/Slice0.lean ====
section
/-! SUPPORT. Our own tests: words written out from the manual's encodings, terms that the encoding checks refuse, single steps
with results from the manual, and for every statement with hypotheses a state that meets them. -/

namespace Sys2Proof.Tests

set_option Elab.async false

open Sys2Proof.Machine Sys2Proof.Machine.Claim

/-! ### Decoding: every word from Tables 12.2 to 12.10, bit by bit -/

theorem test_decode_register_a_words :
    decodeTableWord 32 0b00000100100101101001100000000010 =
      some (.add { q := false, d := 9, a := 0xd, b := 6, x := true, y := false }) ∧
    decodeTableWord 32 0b00000110100101101001100000000110 =
      some (.sub { q := true, d := 9, a := 0xd, b := 6, x := true, y := false }) ∧
    decodeTableWord 32 0b00000100100101101001100000001010 =
      some (.mul { q := false, d := 9, a := 0xd, b := 6, x := true, y := false }) ∧
    decodeTableWord 32 0b00000110100101101001100000001110 =
      some (.mulh { q := true, d := 9, a := 0xd, b := 6, x := true, y := false }) ∧
    decodeTableWord 32 0b00000100100101101001100000010010 =
      some (.mulhu { q := false, d := 9, a := 0xd, b := 6, x := true, y := false }) ∧
    decodeTableWord 32 0b00000110100101101001100000010110 =
      some (.div { q := true, d := 9, a := 0xd, b := 6, x := true, y := false }) ∧
    decodeTableWord 32 0b00000100100101101001100000011010 =
      some (.divu { q := false, d := 9, a := 0xd, b := 6, x := true, y := false }) ∧
    decodeTableWord 32 0b00000110100101101001100000011110 =
      some (.rem { q := true, d := 9, a := 0xd, b := 6, x := true, y := false }) ∧
    decodeTableWord 32 0b00000100100101101001100000100010 =
      some (.remu { q := false, d := 9, a := 0xd, b := 6, x := true, y := false }) ∧
    decodeTableWord 32 0b00000110100101101001100000100110 =
      some (.andR { q := true, d := 9, a := 0xd, b := 6, x := true, y := false }) ∧
    decodeTableWord 32 0b00000100100101101001100000101010 =
      some (.orR { q := false, d := 9, a := 0xd, b := 6, x := true, y := false }) ∧
    decodeTableWord 32 0b00000110100101101001100000101110 =
      some (.xorR { q := true, d := 9, a := 0xd, b := 6, x := true, y := false }) ∧
    decodeTableWord 32 0b00000100100101101001100000110010 =
      some (.shl { q := false, d := 9, a := 0xd, b := 6, x := true, y := false }) := by decide

theorem test_decode_register_b_words :
    decodeTableWord 32 0b00000110100101101001100000110110 =
      some (.shr { q := true, d := 9, a := 0xd, b := 6, x := true, y := false }) ∧
    decodeTableWord 32 0b00000100100101101001100000111010 =
      some (.sra { q := false, d := 9, a := 0xd, b := 6, x := true, y := false }) ∧
    decodeTableWord 32 0b00000110100101101001100000111110 =
      some (.minR { q := true, d := 9, a := 0xd, b := 6, x := true, y := false }) ∧
    decodeTableWord 32 0b00000100100101101001100001000010 =
      some (.maxR { q := false, d := 9, a := 0xd, b := 6, x := true, y := false }) ∧
    decodeTableWord 32 0b00000110100101101001100001000110 =
      some (.minu { q := true, d := 9, a := 0xd, b := 6, x := true, y := false }) ∧
    decodeTableWord 32 0b00000100100101101001100001001010 =
      some (.maxu { q := false, d := 9, a := 0xd, b := 6, x := true, y := false }) ∧
    decodeTableWord 32 0b00000110100101101001100001001110 =
      some (.clz { q := true, d := 9, a := 0xd, b := 6, x := true, y := false }) ∧
    decodeTableWord 32 0b00000100100101101001100001010010 =
      some (.popc { q := false, d := 9, a := 0xd, b := 6, x := true, y := false }) ∧
    decodeTableWord 32 0b00000110100101101001100001010110 =
      some (.sel { q := true, d := 9, a := 0xd, b := 6, x := true, y := false }) ∧
    decodeTableWord 32 0b00000100100101101001100001011010 =
      some (.slt { q := false, d := 9, a := 0xd, b := 6, x := true, y := false }) ∧
    decodeTableWord 32 0b00000110100101101001100001011110 =
      some (.sltu { q := true, d := 9, a := 0xd, b := 6, x := true, y := false }) ∧
    decodeTableWord 32 0b00000100100101101001100001100010 =
      some (.seq { q := false, d := 9, a := 0xd, b := 6, x := true, y := false }) ∧
    decodeTableWord 32 0b01101110100101101001100000000010 =
      some (.poste { q := true, d := 9, a := 0xd, b := 6, x := true, y := false }) := by decide

theorem test_decode_register_c_words :
    decodeTableWord 32 0b01101100100101101001100000000110 =
      some (.posteRel { q := false, d := 9, a := 0xd, b := 6, x := true, y := false }) ∧
    decodeTableWord 32 0b01101110100101101001100000001010 =
      some (.getw { q := true, d := 9, a := 0xd, b := 6, x := true, y := false }) ∧
    decodeTableWord 32 0b11000010100101101001100000000010 =
      some (.nop { q := true, d := 9, a := 0xd, b := 6, x := true, y := false }) ∧
    decodeTableWord 32 0b11000000100101101001100000000110 =
      some (.halt { q := false, d := 9, a := 0xd, b := 6, x := true, y := false }) ∧
    decodeTableWord 32 0b11000010100101101001100000001010 =
      some (.eret { q := true, d := 9, a := 0xd, b := 6, x := true, y := false }) ∧
    decodeTableWord 32 0b11000000100101101001100000001110 =
      some (.tbr { q := false, d := 9, a := 0xd, b := 6, x := true, y := false }) := by decide

theorem test_decode_immediate_words :
    decodeTableWord 32 0b00001010100101101101010100101011 =
      some (.addi { q := true, d := 9, a := 0xd, i := 0x2a95, x := true }) ∧
    decodeTableWord 32 0b00001100100101101101010100101011 =
      some (.andi { q := false, d := 9, a := 0xd, i := 0x2a95, x := true }) ∧
    decodeTableWord 32 0b00010010100101101101010100101011 =
      some (.ori { q := true, d := 9, a := 0xd, i := 0x2a95, x := true }) ∧
    decodeTableWord 32 0b00010100100101101101010100101011 =
      some (.xori { q := false, d := 9, a := 0xd, i := 0x2a95, x := true }) ∧
    decodeTableWord 32 0b00011010100101101101010100101011 =
      some (.shli { q := true, d := 9, a := 0xd, i := 0x2a95, x := true }) ∧
    decodeTableWord 32 0b00011100100101101101010100101011 =
      some (.shri { q := false, d := 9, a := 0xd, i := 0x2a95, x := true }) ∧
    decodeTableWord 32 0b00100010100101101101010100101011 =
      some (.srai { q := true, d := 9, a := 0xd, i := 0x2a95, x := true }) ∧
    decodeTableWord 32 0b00100100100101101101010100101011 =
      some (.lui { q := false, d := 9, a := 0xd, i := 0x2a95, x := true }) ∧
    decodeTableWord 32 0b00101010100101101101010100101011 =
      some (.lea { q := true, d := 9, a := 0xd, i := 0x2a95, x := true }) ∧
    decodeTableWord 32 0b11000110100101101101010100101011 =
      some (.trapW { q := true, d := 9, a := 0xd, i := 0x2a95, x := true }) ∧
    decodeTableWord 32 0b11001000100101101101010100101011 =
      some (.brk { q := false, d := 9, a := 0xd, i := 0x2a95, x := true }) := by decide

theorem test_decode_branch_words :
    decodeTableWord 32 0b01000010110100110101101010100011 =
      some (.beq { a := 0xd, b := 6, o := 0x5aa3 }) ∧
    decodeTableWord 32 0b01000110110100110101101010100011 =
      some (.bne { a := 0xd, b := 6, o := 0x5aa3 }) ∧
    decodeTableWord 32 0b01001010110100110101101010100011 =
      some (.blt { a := 0xd, b := 6, o := 0x5aa3 }) ∧
    decodeTableWord 32 0b01001110110100110101101010100011 =
      some (.bge { a := 0xd, b := 6, o := 0x5aa3 }) ∧
    decodeTableWord 32 0b01010010110100110101101010100011 =
      some (.bltu { a := 0xd, b := 6, o := 0x5aa3 }) ∧
    decodeTableWord 32 0b01010110110100110101101010100011 =
      some (.bgeu { a := 0xd, b := 6, o := 0x5aa3 }) ∧
    decodeTableWord 32 0b01100010110100110101101010100011 =
      some (.loopW { a := 0xd, b := 6, o := 0x5aa3 }) := by decide

theorem test_decode_jump_words :
    decodeTableWord 32 0b01011010101110110101101001110011 =
      some (.jal { l := 0xb, o := 0xb5a73 }) ∧
    decodeTableWord 32 0b01011110100101101101010100101011 =
      some (.jalr { d := 9, a := 0xd, i := 0x2a95, x := true }) := by decide

theorem test_decode_row_and_region_words :
    decodeTableWord 32 0b01100110100101101001100000000010 =
      some (.rowall { d := 9, a := 0xd, b := 6, x := true, y := false }) ∧
    decodeTableWord 32 0b01100110100101101001100000000110 =
      some (.rowany { d := 9, a := 0xd, b := 6, x := true, y := false }) ∧
    decodeTableWord 32 0b01100110100101101001100000001010 =
      some (.rowsum { d := 9, a := 0xd, b := 6, x := true, y := false }) ∧
    decodeTableWord 32 0b01101000100101101001100000000010 =
      some (.cif { d := 9, a := 0xd, b := 6, x := true, y := false }) ∧
    decodeTableWord 32 0b01101000100101101001100000000110 =
      some (.celse { d := 9, a := 0xd, b := 6, x := true, y := false }) ∧
    decodeTableWord 32 0b01101000100101101001100000001010 =
      some (.cend { d := 9, a := 0xd, b := 6, x := true, y := false }) ∧
    decodeTableWord 32 0b10101100100101101001100000000010 =
      some (.rcfg { d := 9, a := 0xd, b := 6, x := true, y := false }) ∧
    decodeTableWord 32 0b10101100100101101001100000000110 =
      some (.rstart { d := 9, a := 0xd, b := 6, x := true, y := false }) ∧
    decodeTableWord 32 0b10101100100101101001100000001010 =
      some (.rswitch { d := 9, a := 0xd, b := 6, x := true, y := false }) ∧
    decodeTableWord 32 0b10101100100101101001100000001110 =
      some (.rwait { d := 9, a := 0xd, b := 6, x := true, y := false }) ∧
    decodeTableWord 32 0b10110000100101101001100000000010 =
      some (.tnext { d := 9, a := 0xd, b := 6, x := true, y := false }) ∧
    decodeTableWord 32 0b10110000100100011000100000000110 =
      some (.bank { d := 9, a := 3, b := 2, x := true, y := false }) ∧
    decodeTableWord 32 0b10110000100101101001100000001010 =
      some (.drop { d := 9, a := 0xd, b := 6, x := true, y := false }) := by decide

theorem test_decode_memory_words :
    decodeTableWord 32 0b10000000100100110101010101100111 =
      some (.ld { q := false, d := 9, b := 6, i := 0x155, s := 2, c := 3, x := true }) ∧
    decodeTableWord 32 0b10000110100100110101010101100111 =
      some (.ldu { q := true, d := 9, b := 6, i := 0x155, s := 2, c := 3, x := true }) ∧
    decodeTableWord 32 0b10001000100100110101010101100111 =
      some (.st { q := false, d := 9, b := 6, i := 0x155, s := 2, c := 3, x := true }) ∧
    decodeTableWord 32 0b10001110100100110101010101100111 =
      some (.lda { q := true, d := 9, b := 6, i := 0x155, s := 2, c := 3, x := true }) ∧
    decodeTableWord 32 0b10010000100100110101010101100111 =
      some (.stl { q := false, d := 9, b := 6, i := 0x155, s := 2, c := 3, x := true }) ∧
    decodeTableWord 32 0b10010110100100110101010101100111 =
      some (.fence { q := true, d := 9, b := 6, i := 0x155, s := 2, c := 3, x := true }) := by decide

theorem test_decode_atomic_words :
    decodeTableWord 32 0b10011000100101101001100000011110 =
      some (.amoadd { q := false, d := 9, a := 0xd, b := 6, c := 3, z := true, x := true, y := false }) ∧
    decodeTableWord 32 0b10011010100101101001100001011110 =
      some (.amoand { q := true, d := 9, a := 0xd, b := 6, c := 3, z := true, x := true, y := false }) ∧
    decodeTableWord 32 0b10011000100101101001100010011110 =
      some (.amoor { q := false, d := 9, a := 0xd, b := 6, c := 3, z := true, x := true, y := false }) ∧
    decodeTableWord 32 0b10011010100101101001100011011110 =
      some (.amoxor { q := true, d := 9, a := 0xd, b := 6, c := 3, z := true, x := true, y := false }) ∧
    decodeTableWord 32 0b10011000100101101001100100011110 =
      some (.amomin { q := false, d := 9, a := 0xd, b := 6, c := 3, z := true, x := true, y := false }) ∧
    decodeTableWord 32 0b10011010100101101001100101011110 =
      some (.amomax { q := true, d := 9, a := 0xd, b := 6, c := 3, z := true, x := true, y := false }) ∧
    decodeTableWord 32 0b10011000100101101001100110011110 =
      some (.amominu { q := false, d := 9, a := 0xd, b := 6, c := 3, z := true, x := true, y := false }) ∧
    decodeTableWord 32 0b10011010100101101001100111011110 =
      some (.amomaxu { q := true, d := 9, a := 0xd, b := 6, c := 3, z := true, x := true, y := false }) ∧
    decodeTableWord 32 0b10011000100101101001101000011110 =
      some (.amoswp { q := false, d := 9, a := 0xd, b := 6, c := 3, z := true, x := true, y := false }) ∧
    decodeTableWord 32 0b10011010100101101001101001011110 =
      some (.amocas { q := true, d := 9, a := 0xd, b := 6, c := 3, z := true, x := true, y := false }) := by decide

theorem test_decode_ring_words :
    decodeTableWord 32 0b10011100100101101001100000101010 =
      some (.hset { d := 9, a := 0xd, b := 6, h := 0xa, x := true, y := false }) ∧
    decodeTableWord 32 0b10011100100101101001100001101010 =
      some (.waitf { d := 9, a := 0xd, b := 6, h := 0xa, x := true, y := false }) ∧
    decodeTableWord 32 0b10011100100101101001100010101010 =
      some (.waite { d := 9, a := 0xd, b := 6, h := 0xa, x := true, y := false }) ∧
    decodeTableWord 32 0b10011100100101101001100011101010 =
      some (.advh { d := 9, a := 0xd, b := 6, h := 0xa, x := true, y := false }) ∧
    decodeTableWord 32 0b10011100100101101001100100101010 =
      some (.advt { d := 9, a := 0xd, b := 6, h := 0xa, x := true, y := false }) ∧
    decodeTableWord 32 0b10011100100101101001100101101010 =
      some (.hcnt { d := 9, a := 0xd, b := 6, h := 0xa, x := true, y := false }) := by decide

theorem test_decode_command_words :
    decodeTableWord 160 (0b10100001010100110100110101100101 + 0x0123456789ABCDEF00112233445566AA * 2 ^ 32) =
      some (.cmd { e := 2, h := 0xa, a := 0xd, b := 6, f := true, g := false, j := true, x := true, y := false, u := 5 } 0x0123456789ABCDEF00112233445566AA) ∧
    decodeTableWord 32 0b10100101010100110100110101100101 =
      some (.cmdm { e := 2, h := 0xa, a := 0xd, b := 6, f := true, g := false, j := true, x := true, y := false, u := 5 }) := by decide

theorem test_decode_engine_wait_words :
    decodeTableWord 32 0b10101000100101101001101011001101 =
      some (.waitc { d := 9, a := 0xd, i := 0x35, n := 9, e := 2, x := true }) ∧
    decodeTableWord 32 0b10101000100101101101101011001101 =
      some (.ecnt { d := 9, a := 0xd, i := 0x35, n := 9, e := 2, x := true }) := by decide

theorem test_decode_system_register_words :
    decodeTableWord 32 0b11001110100101101001010001101011 =
      some (.csrr { q := true, d := 9, a := 0xd, n := 0xa35, x := true }) ∧
    decodeTableWord 32 0b11010000100101101001010001101011 =
      some (.csrw { q := false, d := 9, a := 0xd, n := 0xa35, x := true }) := by decide

/-- One frame of Table 12.9 with every field at a value of its own, by OP. -/
def frame (op : Nat) : Nat :=
  op * 2 ^ 120 + 0b1 * 2 ^ 119 + 0b011 * 2 ^ 116 + 0b0 * 2 ^ 115 + 0b101 * 2 ^ 112 + 0b1001 * 2 ^ 108 + 0b0110 * 2 ^ 104
    + 0b10011 * 2 ^ 99 + 0b01101 * 2 ^ 94 + 0b1 * 2 ^ 93 + 0b1010 * 2 ^ 89 + 0x155AA33 * 2 ^ 64 + 0x0123456789ABCDEF

/-- What `frame` carries. -/
def framed : Command :=
  { t := true, scp := 3, drp := false, sub := 5, ha := 9, hb := 6, wa := 19, wb := 13, pdir := true, port := 10
    arg := 0x155AA33, addr := 0x0123456789ABCDEF }

/-- Table 12.10. -/
theorem test_decode_commands :
    ∀ p ∈ [(0x01, Instr.srd), (0x02, .swr), (0x03, .scopy), (0x04, .sfill), (0x05, .pset), (0x10, .sgather), (0x11, .sscatter),
        (0x12, .sscatop), (0x20, .kvapp), (0x21, .pick), (0x22, .gathp), (0x30, .mxldw), (0x31, .mxgo), (0x32, .mxdrn),
        (0x40, .sput), (0x41, .sget), (0x42, .ared), (0x43, .cjoin), (0x50, .launchCmd), (0x51, .ckpt), (0x52, .markCmd),
        (0x53, .signalCmd), (0x54, .barCmd)],
      decodeTableWord 128 (frame p.1) = some (p.2 framed) := by decide

/-- R308: an unassigned OP is no command. -/
theorem test_decode_refuses_command : ∀ op ∈ [0x00, 0x06, 0x13, 0x23, 0x33, 0x44, 0x55, 0x60, 0xFF],
    decodeTableWord 128 (frame op) = none := by decide

/-- Table 14.6. -/
theorem test_decode_manual_words :
    decodeTableWord 32 0x28500200 = some (.lea { q := false, d := 5, a := 0, i := 0x100, x := false }) ∧
    decodeTableWord 32 0x94000028 = some (.fence { q := false, d := 0, b := 0, i := 0, s := 2, c := 4, x := false }) ∧
    decodeTableWord 32 0x98219010 =
      some (.amoadd { q := false, d := 2, a := 3, b := 4, c := 2, z := false, x := false, y := false }) ∧
    decodeTableWord 32 0xA8000002 = some (.waitc { d := 0, a := 0, i := 0, n := 0, e := 1, x := false }) ∧
    decodeTableWord 32 0xAC040000 = some (.rcfg { d := 0, a := 8, b := 0, x := false, y := false }) ∧
    decodeTableWord 32 0xB0008004 = some (.bank { d := 0, a := 1, b := 0, x := false, y := false }) ∧
    decodeTableWord 32 0xB0A5B008 = some (.drop { d := 10, a := 11, b := 12, x := false, y := false }) ∧
    decodeTableWord 32 0xC4000054 = some (.trapW { q := false, d := 0, a := 0, i := 0x2A, x := false }) := by decide

/-- Tables 12.8 and 18.3. -/
theorem test_decode_program_words :
    decodeTableWord 32 0x04410C01 = some (.add { q := false, d := 4, a := 2, b := 3, x := false, y := true }) ∧
    decodeTableWord 32 0x6C300008 = some (.getw { q := false, d := 3, a := 0, b := 0, x := false, y := false }) ∧
    decodeTableWord 32 0x90530034 = some (.stl { q := false, d := 5, b := 6, i := 0, s := 3, c := 2, x := false }) ∧
    decodeTableWord 32 0x42307FFB = some (.beq { a := 3, b := 0, o := -5 }) ∧
    decodeTableWord 32 0xC0000000 = some (.nop { q := false, d := 0, a := 0, b := 0, x := false, y := false }) ∧
    decodeTableWord 32 0xC0000004 = some (.halt { q := false, d := 0, a := 0, b := 0, x := false, y := false }) ∧
    decodeTableWord 160 0xA12B0160 =
      some (.cmd { e := 2, h := 5, a := 12, b := 0, f := true, g := false, j := true, x := true, y := false, u := 0 } 0) ∧
    decodeTableWord 32 0xCE600006 = some (.csrr { q := true, d := 6, a := 0, n := 3, x := false }) ∧
    decodeTableWord 32 0x4660001C = some (.bne { a := 6, b := 0, o := 28 }) ∧
    decodeTableWord 32 0x56A6FFFE = some (.bgeu { a := 10, b := 13, o := -2 }) ∧
    decodeTableWord 32 0x06B73054 = some (.sel { q := true, d := 11, a := 14, b := 12, x := false, y := false }) ∧
    decodeTableWord 32 0xC60000A2 = some (.trapW { q := true, d := 0, a := 0, i := 0x51, x := false }) ∧
    decodeTableWord 32 0xC0000008 = some (.eret { q := false, d := 0, a := 0, b := 0, x := false, y := false }) := by decide

/-! ### The encoding checks refuse ill-formed terms -/

/-- R298: a row fetch unit names q0 to q15. -/
theorem test_wf_row_register :
    (Instr.add { q := true, d := 16, a := 0, b := 0, x := false, y := false }).wf = false ∧
    (Instr.addi { q := true, d := 0, a := 31, i := 0, x := false }).wf = false ∧
    (Instr.beq { a := 0, b := 16, o := 0 }).wf = false ∧ (Instr.jal { l := 20, o := 0 }).wf = false ∧
    (Instr.jalr { d := 0, a := 17, i := 0, x := false }).wf = false ∧
    (Instr.rowsum { d := 16, a := 31, b := 0, x := false, y := false }).wf = false ∧
    (Instr.csrw { q := true, d := 0, a := 16, n := 0x40, x := false }).wf = false ∧
    (Instr.add { q := false, d := 31, a := 30, b := 29, x := true, y := true }).wf = true := by decide

/-- R207: scope codes 6 and 7. -/
theorem test_wf_scope :
    (Instr.ld { q := false, d := 1, b := 2, i := 0, s := 3, c := 6, x := false }).wf = false ∧
    (Instr.amoswp { q := false, d := 1, a := 2, b := 3, c := 7, z := true, x := false, y := false }).wf = false ∧
    (Instr.stl { q := false, d := 1, b := 2, i := 0, s := 3, c := 5, x := false }).wf = true := by decide

/-- R303, R371: FENCE has three kinds, BANK four banks and three states. -/
theorem test_wf_fence_and_bank :
    (Instr.fence { q := false, d := 0, b := 0, i := 0, s := 3, c := 0, x := false }).wf = false ∧
    (Instr.bank { d := 0, a := 4, b := 0, x := false, y := false }).wf = false ∧
    (Instr.bank { d := 0, a := 3, b := 3, x := false, y := false }).wf = false ∧
    (Instr.bank { d := 0, a := 3, b := 2, x := false, y := false }).wf = true := by decide

/-- A word that fails an encoding check does not decode: ADD at the row fetch unit with d = 16. -/
theorem test_wf_decoder_refuses : decodeTableWord 32 0b00000111000000000000000000000000 = none := by decide

/-! ### Single steps, with results from the manual -/

/-- The word of the small states: ordinal 5, carrying post 7. -/
def word5 : VineWord := { VineWord.none with ord := 5, addr := 0x10000000, post := 7 }
/-- Row 0 runs launch 1, and its core 0 is at a word, with s5 = a and s6 = b. -/
def at0 (a b : Word) : State :=
  { ((State.reset.probeRow.modCore 0 0 fun k => { k with s := (k.s.set 5 a).set 6 b }).modRow 0 fun r =>
      { r with hops := r.hops.set 0 [word5] }) with cur := { m := 0, p := 0, op := 0, word := word5 } }
/-- The same at the row fetch unit, with q5 = a and q6 = b. -/
def rfu0 (a b : Word) : State :=
  { (State.reset.probeRow.modRow 0 fun r => { r with q := (r.q.set 5 a).set 6 b }) with
    cur := { m := 0, p := 8, op := 0, word := word5 } }
/-- What stands in the state that an outcome answers. -/
def after {α : Type} (o : Out) (d : α) (f : State → α) : α := match o with | .next t => f t | _ => d
/-- s[r] of core 0 of row 0. -/
def s0 (r : BitVec 5) (t : State) : Word := (t.core 0 0).read r
/-- q[r] of row 0. -/
def q0 (r : BitVec 5) (t : State) : Word := (t.row 0).readQ r

/-- d = 7, a = 5, b = 6. -/
def ab : FmtA := { q := false, d := 7, a := 5, b := 6, x := false, y := false }
/-- The same with b dropped. -/
def abDrop : FmtA := { ab with y := true }
/-- The same at the row fetch unit. -/
def abQ : FmtA := { ab with q := true }

/-- Table 14.2: the edge cases of division. -/
theorem test_division_corners :
    after (exec (.div ab) (at0 9 0)) 0 (s0 7) = 0xFFFFFFFFFFFFFFFF ∧
    after (exec (.rem ab) (at0 9 0)) 0 (s0 7) = 9 ∧
    after (exec (.div ab) (at0 0x8000000000000000 0xFFFFFFFFFFFFFFFF)) 0 (s0 7) = 0x8000000000000000 ∧
    after (exec (.rem ab) (at0 0x8000000000000000 0xFFFFFFFFFFFFFFFF)) 1 (s0 7) = 0 ∧
    after (exec (.div ab) (at0 (-7) 2)) 0 (s0 7) = -3 ∧ after (exec (.rem ab) (at0 (-7) 2)) 0 (s0 7) = -1 := by decide +kernel

/-- Table 14.1: sums wrap, shift counts are six bits, a count of leading zeros of 0 is 64. -/
theorem test_register_corners :
    after (exec (.add ab) (at0 0xFFFFFFFFFFFFFFFF 2)) 0 (s0 7) = 1 ∧ after (exec (.shl ab) (at0 1 65)) 0 (s0 7) = 2 ∧
    after (exec (.sra ab) (at0 0x8000000000000000 63)) 0 (s0 7) = 0xFFFFFFFFFFFFFFFF ∧
    after (exec (.clz ab) (at0 0 0)) 0 (s0 7) = 64 ∧ after (exec (.slt ab) (at0 (-1) 0)) 0 (s0 7) = 1 ∧
    after (exec (.sltu ab) (at0 (-1) 0)) 1 (s0 7) = 0 ∧
    after (exec (.mulhu ab) (at0 (-1) (-1))) 0 (s0 7) = 0xFFFFFFFFFFFFFFFE := by decide +kernel

/-- R117, R118: a drop bit leaves its register dead, and the word still reads it. -/
theorem test_drop : after (exec (.add abDrop) (at0 3 4)) 0 (s0 7) = 7 ∧
    after (exec (.add abDrop) (at0 3 4)) true (fun t => (t.core 0 0).isLive 6) = false := by decide +kernel

/-- R347, R348, R349 at 0x1000_0000: a taken branch, JAL's link and LOOP's last turn. -/
theorem test_control_flow :
    after (exec (.blt { a := 5, b := 6, o := -2 }) (rfu0 (-1) 0)) 0 (fun t => (t.row 0).pc) = 0x0FFFFFF8 ∧
    after (exec (.jal { l := 3, o := 4 }) (rfu0 0 0)) 0 (q0 3) = 0x10000004 ∧
    after (exec (.loopW { a := 5, b := 0, o := -2 }) (rfu0 1 0)) 0 (fun t => (t.row 0).pc) = 0x10000004 ∧
    after (exec (.loopW { a := 5, b := 0, o := -2 }) (rfu0 1 0)) 1 (q0 5) = 0 := by decide +kernel

/-- Table 8.1: TRAP 0x2A at core 0 records cause 0x0A, its immediate and the ordinal after its own. -/
theorem test_trap :
    after (exec (.trapW { q := false, d := 0, a := 0, i := 0x2A, x := false }) (at0 0 0)) default
      (fun t => ((t.core 0 0).trap.cause, (t.core 0 0).trap.xinfo, (t.core 0 0).trap.xord)) = (0x0A, 0x2A, 6) := by decide +kernel

/-! ### Witnesses: for every statement with hypotheses, states and operands that meet them -/

/-- A function's answer is met by some first component. -/
theorem answers {α β : Type} {x : α × β} {b : β} (h : x.2 = b) : ∃ a, x = (a, b) := ⟨x.1, by rw [← h]⟩
/-- See `answers`; what follows holds of that component. -/
theorem answersAnd {α β : Type} {x : α × β} {b : β} {p : α → Prop} (h : x.2 = b) (k : p x.1) : ∃ a, x = (a, b) ∧ p a :=
  ⟨x.1, by rw [← h], k⟩

/-- An immediate form of s5. -/
def im (q : Bool) : FmtI := { q := q, d := 7, a := 5, i := 0x3FFF, x := !q }
/-- A form of the row and region words. -/
def fa : FmtA0 := { d := 7, a := 5, b := 6, x := true, y := false }

theorem witness_RegisterGroup :
    ((at0 3 4).cur.p = placeOfCore 0 ∧ (at0 3 4).ready 0 (useAB abDrop) = true) ∧
    (abQ.q = true ∧ (rfu0 3 4).cur.p = rfuPlace ∧ (rfu0 3 4).readyRfu (useAB abQ) = true) := by decide +kernel

theorem witness_ImmediateGroup :
    ((at0 3 4).cur.p = placeOfCore 0 ∧ (at0 3 4).ready 0 (useA ab) = true ∧ (at0 3 4).ready 0 (useSel abDrop) = true ∧
      (at0 3 4).ready 0 (useI (im false)) = true ∧ (at0 3 4).ready 0 (useD (im false)) = true) ∧
    ((rfu0 3 4).cur.p = rfuPlace ∧ (rfu0 3 4).readyRfu (useA abQ) = true ∧ (rfu0 3 4).readyRfu (useSel abQ) = true ∧
      (rfu0 3 4).readyRfu (useI (im true)) = true ∧ (rfu0 3 4).readyRfu (useD (im true)) = true) := by decide +kernel

theorem witness_RowControlFlow :
    (rfu0 3 4).cur.p = rfuPlace ∧ (rfu0 3 4).readyRfu { q := true, reads := [5, 6] } = true ∧
    (rfu0 3 4).readyRfu { q := true, reads := [], dest := some 15 } = true ∧
    (rfu0 3 4).readyRfu { q := true, reads := [5], dest := some 15 } = true ∧
    (rfu0 3 4).readyRfu { q := true, reads := [5], dest := some 5 } = true := by decide +kernel

/-- Hop 0 full. -/
def fullHop : State := (rfu0 3 4).modRow 0 fun r => { r with hops := r.hops.set 0 (.replicate 5 word5) }

/-- The resend buffer full. -/
def fullResend : State := (rfu0 3 4).modRow 0 fun r => { r with resend := .replicate 40 word5 }

theorem witness_RowFetchUnitForwards :
    onlyForwarded (.add ab) = true ∧ (rfu0 3 4).cur.p = rfuPlace ∧ hasRoom (rfu0 3 4) = true ∧
    fullHop.cur.p = rfuPlace ∧ hasRoom fullHop = false ∧ fullResend.cur.p = rfuPlace ∧ hasRoom fullResend = false := by decide +kernel

theorem witness_RowReductions :
    (at0 3 4).cur.p = placeOfCore 0 ∧ (at0 3 4).ready 0 { q := true, reads := [5], drops := dropIf true 5 } = true ∧
    (rfu0 3 4).cur.p = rfuPlace := by decide +kernel

/-- Core 0 with a predication stack of n entries, active or not. -/
def stacked (n : Nat) (els active : Bool) : State :=
  (at0 3 4).modCore 0 0 fun k => { k with stack := .replicate n ⟨true, false, els⟩, active := active }

theorem witness_Predication :
    ((stacked 7 false true).ready 0 { q := false, reads := [5], drops := dropIf true 5, always := true } = true) ∧
    ((stacked 7 false false).ready 0 { q := false, reads := [], always := true } = true) ∧
    ((stacked 1 false false).core 0 0).stack = [⟨true, false, false⟩] ∧
    ((stacked 1 false false).ready 0 { q := false, reads := [], always := true } = true) ∧
    (((stacked 8 false true).core 0 0).stack).length = 8 ∧
    ((stacked 8 false true).ready 0 { q := false, reads := [5], always := true } = true) ∧
    ((stacked 0 false true).core 0 0).stack = [] ∧
    ((stacked 0 false true).ready 0 { q := false, reads := [], always := true } = true) ∧
    ((stacked 1 true true).core 0 0).stack = [⟨true, false, true⟩] ∧
    ((stacked 1 true true).ready 0 { q := false, reads := [], always := true } = true) ∧
    ((stacked 1 true true).row 0).phase = .running ∧ (stacked 1 true true).cur.p = placeOfCore 0 := by decide +kernel

theorem witness_VinePosts :
    (at0 3 4).ready 0 { q := false, reads := [5], drops := dropIf true 5 } = true ∧
    (rfu0 3 4).readyRfu { q := true, reads := [5] } = true ∧
    (at0 3 4).ready 0 { q := false, reads := [], dest := some 31 } = true ∧
    (rfu0 3 4).readyRfu { q := true, reads := [], dest := some 15 } = true := by decide +kernel

/-- The first line of the slices of core 0 of row 0 is live, in banks that are FULL; s5, s6, q5 and q6 name it. -/
def padded (s : State) : State :=
  { s with
    mem := { cells := [], live := [0xB000000000 / 128], poison := [], dirty := [] }
    rows := s.rows.set 0 { s.rows[0] with cores := s.rows[0].cores.set 0 { s.rows[0].cores[0] with
      mcells := s.rows[0].cores[0].mcells.set 0 { MemCell.reset with banks := .replicate 16 .full } } } }
/-- Offset 0 of those slices. -/
def padBase : Word := 0x7F00000000
/-- A load or store of s7 at its base register s5. -/
def fm (q : Bool) (s : BitVec 2) : FmtM := { q := q, d := 7, b := 5, i := 0, s := s, c := 0, x := !q }

theorem witness_LoadsComplete :
    ((padded (at0 padBase 0)).ready 0 (useLoad (fm false 3)) = true ∧
      ∃ s', (padded (at0 padBase 0)).checkAccess (padded (at0 padBase 0)).agentHere
        (effective (fm false 3) (((padded (at0 padBase 0)).core 0 0).read 5)) 8 .load = (s', .ok (.mem 0xB000000000))) ∧
    ((padded (rfu0 padBase 0)).readyRfu (useLoad (fm true 0)) = true ∧
      ∃ s', (padded (rfu0 padBase 0)).checkAccess (padded (rfu0 padBase 0)).agentHere
        (effective (fm true 0) (((padded (rfu0 padBase 0)).row 0).readQ 5)) 1 .load = (s', .ok (.mem 0xB000000000))) :=
  ⟨⟨by decide +kernel, answers (by decide +kernel)⟩, ⟨by decide +kernel, answers (by decide +kernel)⟩⟩

theorem witness_StoresComplete :
    ((padded (at0 padBase 0)).mem.wf = true ∧ (padded (at0 padBase 0)).ready 0 (useStore (fm false 3)) = true ∧
      ∃ s', (padded (at0 padBase 0)).checkAccess (padded (at0 padBase 0)).agentHere
        (effective (fm false 3) (((padded (at0 padBase 0)).core 0 0).read 5)) 8 .store = (s', .ok (.mem 0xB000000000))) ∧
    ((padded (rfu0 padBase 0)).mem.wf = true ∧ (padded (rfu0 padBase 0)).readyRfu (useStore (fm true 0)) = true ∧
      ∃ s', (padded (rfu0 padBase 0)).checkAccess (padded (rfu0 padBase 0)).agentHere
        (effective (fm true 0) (((padded (rfu0 padBase 0)).row 0).readQ 5)) 1 .store = (s', .ok (.mem 0xB000000000))) :=
  ⟨⟨by decide +kernel, by decide +kernel, answers (by decide +kernel)⟩,
    ⟨by decide +kernel, by decide +kernel, answers (by decide +kernel)⟩⟩

/-- An atomic of 8 bytes on s5 and s6. -/
def fat (q : Bool) : FmtAmo := { q := q, d := 7, a := 5, b := 6, c := 2, z := true, x := false, y := !q }

theorem witness_AtomicsComplete :
    ((padded (at0 padBase 0)).ready 0 (useAtomic (fat false)) = true ∧ (padded (at0 padBase 0)).ready 0 (useCas (fat false)) = true ∧
      ∃ s', (padded (at0 padBase 0)).checkAccess (padded (at0 padBase 0)).agentHere
        (((padded (at0 padBase 0)).core 0 0).read 5) 8 .atomic = (s', .ok (.mem 0xB000000000)) ∧
        s'.atomicTurn 0xB000000000 s'.agentHere = true) ∧
    ((padded (rfu0 padBase 0)).readyRfu (useAtomic (fat true)) = true ∧ (padded (rfu0 padBase 0)).readyRfu (useCas (fat true)) = true ∧
      ∃ s', (padded (rfu0 padBase 0)).checkAccess (padded (rfu0 padBase 0)).agentHere
        (((padded (rfu0 padBase 0)).row 0).readQ 5) 8 .atomic = (s', .ok (.mem 0xB000000000)) ∧
        s'.atomicTurn 0xB000000000 s'.agentHere = true) :=
  ⟨⟨by decide +kernel, by decide +kernel, answersAnd (by decide +kernel) (by decide +kernel)⟩,
    ⟨by decide +kernel, by decide +kernel, answersAnd (by decide +kernel) (by decide +kernel)⟩⟩

/-- The last byte of the window is in the slices of no core; its first slice is core 0's of row 0. -/
theorem witness_AccessChecks :
    (0x7F00000001 : Word).toNat % 8 ≠ 0 ∧ (2 ^ 52 ≤ (0x10000000000000 : Word).toNat ∧ (0x10000000000000 : Word).toNat % 8 = 0) ∧
    (sliceBase ≤ (0x7FFFFFFFFF : Word).toNat ∧ (0x7FFFFFFFFF : Word).toNat < sliceBase + 2 ^ 32 ∧
      sliceOf ((0x7FFFFFFFFF : Word).toNat - sliceBase) = none) ∧
    (∃ sl, sliceOf (padBase.toNat - sliceBase) = some sl ∧ ((padded (at0 0 0)).row sl.m).lid = some 1 ∧
      ((padded (at0 0 0)).row sl.m).suspended = none ∧
      (((padded (at0 0 0)).core sl.m sl.c).mcells[sl.mi].banks[bankOf ((padded (at0 0 0)).core sl.m sl.c).mcells[sl.mi].hxm sl.off]).st
        = .full) ∧
    (∃ sl, sliceOf (padBase.toNat - sliceBase) = some sl ∧ (State.reset.row sl.m).lid ≠ some 1 ∧
      (State.reset.row sl.m).suspended ≠ some 1 ∧ State.reset.given 1 sl.m = false) :=
  ⟨by decide, by decide, by decide, ⟨⟨0, 0, 0, 0⟩, by decide, by decide +kernel, by decide +kernel, by decide +kernel⟩,
    ⟨⟨0, 0, 0, 0⟩, by decide, by decide +kernel, by decide +kernel, by decide +kernel⟩⟩

/-- LIVE15 is the last register of Table 6.6, and nothing follows it; the last byte of the window is no core's. -/
theorem witness_AccessChecks_registers :
    (∀ a ∈ [0x7E00000178, 0x7E00020178], (0x7E00000000 : Nat) ≤ a ∧ a < cellRegBase + 2 ^ 32 ∧ a % 8 = 0) ∧
    (∃ sl, sliceOf (0x7E00000178 - cellRegBase) = some sl ∧ sl.off / 8 * 8 ∈ cellRegisterOffsets ∧ ((at0 0 0).row sl.m).lid = some 1 ∧
      ((at0 0 0).row sl.m).suspended = none) ∧
    (∃ sl, sliceOf (0x7E00020180 - cellRegBase) = some sl ∧ sl.mi ≠ 0 ∧ sl.off / 8 * 8 ∉ cellRegisterOffsets) ∧
    sliceOf (0x7EFFFFFFFF - cellRegBase) = none :=
  ⟨by decide, ⟨⟨0, 0, 0, 0x178⟩, by decide +kernel, by decide, by decide +kernel, by decide +kernel⟩,
    ⟨⟨0, 0, 1, 0x180⟩, by decide +kernel, by decide, by decide⟩, by decide +kernel⟩

/-- Launch 1 with its root at 1 MiB, whose level 1 points to a level 2 at 0x110000 with a leaf of 64 MiB there (Tables 6.2, 6.3). -/
def rooted (leaf : Byte) : State :=
  { at0 0 0 with
    launches := [{ probeLaunch with root := 0x100000 }]
    mem := { cells := [(0x100000, 1), (0x100002, 0x11), (0x110000, leaf), (0x110003, 4)], live := [], poison := [], dirty := [] } }

/-- A leaf without W or X, and an entry that is not valid. -/
theorem witness_AccessChecks_walk :
    Walks (rooted 3).mem 0x3FFFFF8 tableLevels 0x100000 (.ok (0x7FFFFF8, 0x4000003)) ∧
    Walks (rooted 2).mem 0x3FFFFF8 tableLevels 0x100000 (.error .xlate) ∧
    (∀ e ∈ [(3 : Byte), 2], (rooted e).launch 1 = some { probeLaunch with root := 0x100000 } ∧
      TlbMisses (rooted e) (rooted e).agentHere 0x10 0x3FFFFF8 ∧
      ((rooted e).askWalk (rooted e).agentHere (walkReads (rooted e).mem 0x3FFFFF8 levels 0x100000)).2 = true) ∧
    ((0x4000003 / 2 ^ 2 % 2 = 0 ∧ 0x4000003 / 2 ^ 3 % 2 = 0) ∧ (0x400000F / 2 ^ 2 % 2 = 1 ∧ 0x400000F / 2 ^ 3 % 2 = 1)) := by
  refine ⟨.down (.pointer ?_ ?_ ?_ ?_ ?_ ?_) (.leaf (.leaf ?_ ?_ ?_ ?_ ?_ ?_ ?_)),
    .down (.pointer ?_ ?_ ?_ ?_ ?_ ?_) (.stop (.bad ?_ ?_ ?_)), ?_, by decide⟩
  all_goals decide +kernel

/-- s5 dead. -/
def dead5 : State := (at0 3 4).modCore 0 0 fun k => { k with live := 0xFFFFFFDF }

theorem witness_LocalTraps :
    ((at0 1 0).ready 0 (useLoad (fm false 3)) = true ∧ ((at0 1 0).row 0).phase = .running ∧
      ∃ s', (at0 1 0).checkAccess (at0 1 0).agentHere (effective (fm false 3) (((at0 1 0).core 0 0).read 5)) 8 .load
        = (s', .fail .align)) ∧
    ((at0 1 0).ready 0 (useStore (fm false 3)) = true ∧
      ∃ s', (at0 1 0).checkAccess (at0 1 0).agentHere (effective (fm false 3) (((at0 1 0).core 0 0).read 5)) 8 .store
        = (s', .fail .align)) ∧
    ((at0 1 0).ready 0 (useAtomic (fat false)) = true ∧
      ∃ s', (at0 1 0).checkAccess (at0 1 0).agentHere (((at0 1 0).core 0 0).read 5) 8 .atomic = (s', .fail .align)) ∧
    (((rfu0 1 0).row 0).phase = .running ∧ (rfu0 1 0).readyRfu (useLoad (fm true 3)) = true ∧
      (rfu0 1 0).readyRfu (useStore (fm true 3)) = true ∧
      (∃ s', (rfu0 1 0).checkAccess (rfu0 1 0).agentHere (effective (fm true 3) (((rfu0 1 0).row 0).readQ 5)) 8 .load = (s', .fail .align)) ∧
      ∃ s', (rfu0 1 0).checkAccess (rfu0 1 0).agentHere (effective (fm true 3) (((rfu0 1 0).row 0).readQ 5)) 8 .store = (s', .fail .align)) ∧
    (dead5.cur.p = placeOfCore 0 ∧ (dead5.row 0).phase = .running ∧ (dead5.core 0 0).active = true ∧ (dead5.core 0 0).pend = [] ∧
      (dead5.core 0 0).isLive 5 = false ∧ (dead5.core 0 0).isLive 6 = true) :=
  ⟨⟨by decide +kernel, by decide +kernel, answers (by decide +kernel)⟩, ⟨by decide +kernel, answers (by decide +kernel)⟩,
    ⟨by decide +kernel, answers (by decide +kernel)⟩,
    ⟨by decide +kernel, by decide +kernel, by decide +kernel, answers (by decide +kernel), answers (by decide +kernel)⟩, by decide +kernel⟩

/-- s7 awaits data. -/
def pending7 : State := (at0 3 4).modCore 0 0 fun k => { k with pend := [⟨7, 1⟩] }

theorem witness_MutedAndWaiting :
    (passedMuted (.rowall fa) = true ∧ passedMuted (.st (fm false 3)) = true ∧ passedMuted (.amocas (fat false)) = true ∧
      passedMuted (.cmdm ⟨0, 0, 5, 6, false, false, false, false, false, 0⟩) = true ∧ passedMuted (.rwait fa) = true ∧
      passedMuted (.eret ab) = false) ∧
    ((stacked 1 false false).core 0 0).active = false ∧ ((stacked 1 false false).row 0).roomEast 0 = true ∧
    (pending7.core 0 0).active = true ∧ (pending7.core 0 0).quiet [5, 6, 7] = false := by decide +kernel

/-- The cells that bytes from an address on list. -/
def cellsAt : Nat → List Byte → List Host.Cell
  | _, [] => []
  | a, b :: bs => if b = 0 then cellsAt (a + 1) bs else (a, b) :: cellsAt (a + 1) bs
/-- The first bytes of the slices of core 0 of row 0, in live lines. -/
def inPad (s : State) (bs : List Byte) : State :=
  { padded s with mem := { cells := cellsAt 0xB000000000 bs, live := List.range' (0xB000000000 / 128) ((bs.length + 127) / 128)
                           poison := [], dirty := [] } }
/-- A descriptor of a ring of two slots of 64 bytes, after its own line. -/
def ringBytes (filled : Nat) : List Byte :=
  bytesOf 8 0x7F00000080 ++ bytesOf 4 64 ++ bytesOf 4 1 ++ bytesOf 4 0 ++ bytesOf 4 (filled % 2) ++ bytesOf 4 filled
    ++ bytesOf 4 (2 - filled) ++ List.replicate 32 0
/-- What it says. -/
def ringIs (filled : Nat) : Ring :=
  { base := 0x7F00000080, ssz := 64, logn := 1, head := 0, tail := filled % 2, filled := filled, free := 2 - filled }
/-- A count in s5, and handle 3 bound to that ring, or to none. -/
def ringed (n filled : Nat) (h : Word) : State :=
  (inPad (at0 (BitVec.ofNat 64 n) 0) (ringBytes filled)).modCore 0 0 fun k => { k with h := k.h.set 3 h }
/-- A ring form with handle 3. -/
def fr : FmtRing := { d := 7, a := 5, b := 0, h := 3, x := true, y := false }

/-- How a ring form reaches its ring. -/
theorem reaches {s : State} {c : CoreId} {f : FmtRing} {kind : Kind} {pa : Nat} {r : Ring} (h1 : bound s c f.h ≠ 0)
    (h2 : (s.checkAccess s.agentHere (bound s c f.h) 64 kind).2 = .ok (.mem pa))
    (h3 : (s.checkAccess s.agentHere (bound s c f.h) 64 kind).1.ringAt pa = some r) : ∃ s', Reaches s s' c f kind pa r :=
  ⟨_, h1, by rw [← h2], h3⟩

theorem witness_HandlesAndRingWaits :
    ((at0 0 0).ready 0 (useCount fr) = true ∧ ((at0 0 0).core 0 0).read fr.a = 0) ∧
    ((inPad (at0 padBase 0) (ringBytes 1)).ready 0 (useCount fr) = true ∧
      ∃ s', (inPad (at0 padBase 0) (ringBytes 1)).checkAccess (inPad (at0 padBase 0) (ringBytes 1)).agentHere padBase 64 .load
        = (s', .ok (.mem 0xB000000000)) ∧ s'.ringAt 0xB000000000 = some (ringIs 1)) ∧
    ((∃ s', Reaches (ringed 1 1 padBase) s' 0 fr .load 0xB000000000 (ringIs 1)) ∧ (ringed 1 1 padBase).ready 0 (useCount fr) = true ∧
      count (ringed 1 1 padBase) 0 fr ≤ (ringIs 1).filled ∧ count (ringed 1 1 padBase) 0 fr ≤ (ringIs 1).free) ∧
    ((∃ s', Reaches (ringed 2 1 padBase) s' 0 fr .load 0xB000000000 (ringIs 1)) ∧
      (ringIs 1).filled < count (ringed 2 1 padBase) 0 fr ∧ (ringIs 1).free < count (ringed 2 1 padBase) 0 fr ∧
      count (ringed 2 1 padBase) 0 fr ≤ (ringIs 1).slots) ∧
    (ringed 1 1 padBase).ready 0 (useHcnt fr) = true :=
  ⟨by decide +kernel, ⟨by decide +kernel, answersAnd (by decide +kernel) (by decide +kernel)⟩,
    ⟨reaches (by decide +kernel) (by decide +kernel) (by decide +kernel), by decide +kernel⟩,
    ⟨reaches (by decide +kernel) (by decide +kernel) (by decide +kernel), by decide +kernel⟩, by decide +kernel⟩

theorem witness_RingAdvances :
    ((ringed 1 1 padBase).mem.wf = true ∧ (ringed 1 1 padBase).ready 0 (useCount fr) = true ∧
      (∃ s', Reaches (ringed 1 1 padBase) s' 0 fr .atomic 0xB000000000 (ringIs 1)) ∧
      (ringed 1 1 padBase).hub.ck.replay = false ∧ count (ringed 1 1 padBase) 0 fr ≤ (ringIs 1).filled ∧
      count (ringed 1 1 padBase) 0 fr ≤ (ringIs 1).free) ∧
    ((∃ s', Reaches (ringed 0 0 padBase) s' 0 fr .atomic 0xB000000000 (ringIs 0)) ∧
      count (ringed 0 0 padBase) 0 fr ≤ (ringIs 0).filled) ∧
    ((∃ s', Reaches (ringed 2 0 padBase) s' 0 fr .atomic 0xB000000000 (ringIs 0)) ∧
      count (ringed 2 0 padBase) 0 fr ≤ (ringIs 0).free) :=
  ⟨⟨by decide +kernel, by decide +kernel, reaches (by decide +kernel) (by decide +kernel) (by decide +kernel), by decide +kernel⟩,
    ⟨reaches (by decide +kernel) (by decide +kernel) (by decide +kernel), by decide +kernel⟩,
    ⟨reaches (by decide +kernel) (by decide +kernel) (by decide +kernel), by decide +kernel⟩⟩

/-- s5, and handle 3 bound to `padBase`, where no well-formed descriptor stands. -/
def unringed (v : Word) : State :=
  (inPad (at0 v 0) (List.replicate 64 0)).modCore 0 0 fun k => { k with h := k.h.set 3 padBase }

/-- How a ring form meets a malformed descriptor. -/
theorem malformed {s : State} {c : CoreId} {f : FmtRing} {kind : Kind} (pa : Nat) (h1 : bound s c f.h ≠ 0)
    (h2 : (s.checkAccess s.agentHere (bound s c f.h) 64 kind).2 = .ok (.mem pa))
    (h3 : (s.checkAccess s.agentHere (bound s c f.h) 64 kind).1.ringAt pa = none) : ∃ s', Malformed s s' c f kind :=
  ⟨_, h1, pa, by rw [← h2], h3⟩

/-- How HSET meets one. -/
theorem badAt {s : State} {v : Word} (pa : Nat) (h1 : v ≠ 0) (h2 : (s.checkAccess s.agentHere v 64 .load).2 = .ok (.mem pa))
    (h3 : (s.checkAccess s.agentHere v 64 .load).1.ringAt pa = none) (h4 : v.toNat % 64 = 0 ∧ namesSlice v.toNat = true) :
    ∃ s', BadBinding s s' v :=
  ⟨_, h1, .inr ⟨h4.1, h4.2, pa, by rw [← h2], h3⟩⟩

theorem witness_RingErrors_handles :
    ((ringed 1 1 0).ready 0 (useHcnt fr) = true ∧ bound (ringed 1 1 0) 0 fr.h = 0) ∧
    (((unringed 1).row 0).phase = .running ∧ (unringed 1).ready 0 (useHcnt fr) = true ∧ (unringed 1).ready 0 (useCount fr) = true ∧
      (∃ s', Malformed (unringed 1) s' 0 fr .load) ∧ ∃ s', Malformed (unringed 1) s' 0 fr .atomic) ∧
    (((unringed (padBase + 1)).row 0).phase = .running ∧ (unringed (padBase + 1)).ready 0 (useCount fr) = true ∧
      ((unringed (padBase + 1)).core 0 0).read fr.a = padBase + 1) ∧
    (((unringed 64).row 0).phase = .running ∧ (unringed 64).ready 0 (useCount fr) = true ∧ ((unringed 64).core 0 0).read fr.a = 64) ∧
    (((unringed padBase).row 0).phase = .running ∧ (unringed padBase).ready 0 (useCount fr) = true ∧
      ((unringed padBase).core 0 0).read fr.a = padBase) ∧
    (BadBinding (unringed (padBase + 1)) (unringed (padBase + 1)) (padBase + 1) ∧ BadBinding (unringed 64) (unringed 64) 64 ∧
      ∃ s', BadBinding (unringed padBase) s' padBase) :=
  ⟨by decide +kernel, ⟨by decide +kernel, by decide +kernel, by decide +kernel,
      malformed 0xB000000000 (by decide +kernel) (by decide +kernel) (by decide +kernel),
      malformed 0xB000000000 (by decide +kernel) (by decide +kernel) (by decide +kernel)⟩, by decide +kernel, by decide +kernel, by decide +kernel,
    ⟨⟨by decide, .inl ⟨.inl (by decide), rfl⟩⟩, ⟨by decide, .inl ⟨.inr (by decide +kernel), rfl⟩⟩,
      badAt 0xB000000000 (by decide) (by decide +kernel) (by decide +kernel) (by decide +kernel)⟩⟩

theorem witness_RingErrors :
    (((ringed 1 1 0).row 0).phase = .running ∧ (ringed 1 1 0).ready 0 (useCount fr) = true ∧ bound (ringed 1 1 0) 0 fr.h = 0) ∧
    ((∃ s', Reaches (ringed 3 1 padBase) s' 0 fr .load 0xB000000000 (ringIs 1)) ∧
      (ringIs 1).slots < count (ringed 3 1 padBase) 0 fr ∧ (ringed 3 1 padBase).ready 0 (useCount fr) = true) ∧
    ((∃ s', Reaches (ringed 2 1 padBase) s' 0 fr .atomic 0xB000000000 (ringIs 1)) ∧
      (ringIs 1).filled < count (ringed 2 1 padBase) 0 fr ∧ (ringIs 1).free < count (ringed 2 1 padBase) 0 fr) :=
  ⟨by decide +kernel, ⟨reaches (by decide +kernel) (by decide +kernel) (by decide +kernel), by decide +kernel⟩,
    ⟨reaches (by decide +kernel) (by decide +kernel) (by decide +kernel), by decide +kernel⟩⟩

/-- A command word that substitutes s5 and the handle. -/
def fc : FmtC := { e := 3, h := 3, a := 5, b := 6, f := true, g := false, j := true, x := true, y := false, u := 0 }

theorem witness_CommandsFork :
    ((at0 3 4).ready 0 (useCmd fc) = true ∧ queued ((at0 3 4).core 0 0) (engineNo fc.e) (at0 3 4).agentHere.lid < 8 ∧
      noPset ((at0 3 4).core 0 0) = true) ∧
    ((inPad (at0 padBase 4) (ringBytes 0)).ready 0 (useCmdm fc) = true ∧ padBase.toNat % 16 = 0 ∧
      (∃ s', (inPad (at0 padBase 4) (ringBytes 0)).checkAccess (inPad (at0 padBase 4) (ringBytes 0)).agentHere padBase 4 .load
        = (s', .ok (.mem 0xB000000000))) ∧
      queued ((inPad (at0 padBase 4) (ringBytes 0)).core 0 0) (engineNo fc.e) (at0 3 4).agentHere.lid < 8 ∧
      noPset ((inPad (at0 padBase 4) (ringBytes 0)).core 0 0) = true) :=
  ⟨by decide +kernel, by decide +kernel, by decide +kernel, answers (by decide +kernel), by decide +kernel⟩

/-- An operation of launch 1 on engine 3, with command word w. -/
def anOp (w : BitVec 128) : Op :=
  { id := 0, engine := 3, lid := 1, cmd := w, cmdAddr := 0, ha := none, hb := none, wa := 0, wb := 0, phase := .moving
    status := .ok, idx := 0, buf := [], bufP := false, lanes := 0, sawF := false, errAddr := 0, errInCmd := false, region := none
    drops := [], kvBase := none, aux := [], awaitSeq := [] }
/-- One such operation on core 0. -/
def oneOp : State := (at0 3 4).modCore 0 0 fun k => { k with ops := [anOp 0], nextOp := 1 }
/-- WAITC and ECNT of engine 3. -/
def fw (n : BitVec 4) : FmtW := { d := 7, a := 0, i := 0, n := n, e := 3, x := false }

theorem witness_EngineWaitsAndCounts :
    oneOp.ready 0 { q := false, reads := [] } = true ∧
    queued (oneOp.core 0 0) (engineNo (fw 1).e) oneOp.agentHere.lid ≤ (fw 1).n.toNat ∧
    queued (oneOp.core 0 0) (engineNo (fw 1).e) oneOp.agentHere.lid ≤ 8 ∧
    (fw 0).n.toNat < queued (oneOp.core 0 0) (engineNo (fw 0).e) oneOp.agentHere.lid ∧
    oneOp.ready 0 { q := false, reads := [], dest := some (fw 0).d } = true := by decide +kernel

/-- A CE or other element with the given words. -/
def anElem (kind : ElemKind) (words : List (BitVec 64)) (form : FormState) : Elem :=
  { kind := kind, words := words, cell := 0, eslot := 0, ctx := 0, holds := .replicate 8 none, hbank := .off, firings := 0
    matching := [], discard := 0, flooded := false, markE := false, rot := 0, form := form }
/-- A region of launch 1 under the RCB at `padBase`, in a rectangle of two cells. -/
def aRegion (st : RegionSt) (elems : List Elem) (arcs : List Arc) : Region :=
  { rcb := padBase, st := st, lid := 1, image := 0x7F00000080, org := 0, w := 1, h := 0, ctxn := 0, var := 0, fold := 0, donea := 0
    donev := 0, qk := 0, sticky := 0, dskip := 0, sinkn := 0, sinks := 0, status := .ok, hash := 0, disc := 0, elems := elems
    arcs := arcs, inits := [], folds := [], flood := .none, queued := [], frozen := false, bpHold := false, wsource := none
    chained := false, links := [], copy := [], switches := [], given := [] }
/-- SHA-256 of the image's body, with its first byte least significant, as a library outside the model gives it. -/
def bodyHash : BitVec 256 := 0x77ee4ba6e0b82d5784b40678acf3dae561f08722b4b0f352f1cdb000ab7bd75c
/-- An RCB (Table 5.4) that names the image on the next line, for two cells, and an image of one fabric input port (Tables 12.15,
12.16): the bytes that are not zero. -/
def imageCells : List Host.Cell :=
  [(0xB000000000, 128), (0xB000000004, 127), (0xB000000009, 4), (0xB000000080, 70), (0xB000000081, 65), (0xB000000082, 82), (0xB000000083, 71), (0xB000000084, 1)]
    ++ [(0xB000000088, 1), (0xB000000090, 64), (0xB000000098, 128), (0xB00000009C, 192), (0xB0000000A0, 192), (0xB0000000A4, 192), (0xB0000000A8, 192), (0xB0000000C0, 92)]
    ++ [(0xB0000000C1, 215), (0xB0000000C2, 123), (0xB0000000C3, 171), (0xB0000000C5, 176), (0xB0000000C6, 205), (0xB0000000C7, 241), (0xB0000000C8, 82), (0xB0000000C9, 243)]
    ++ [(0xB0000000CA, 176), (0xB0000000CB, 180), (0xB0000000CC, 34), (0xB0000000CD, 135), (0xB0000000CE, 240), (0xB0000000CF, 97), (0xB0000000D0, 229), (0xB0000000D1, 218)]
    ++ [(0xB0000000D2, 243), (0xB0000000D3, 172), (0xB0000000D4, 120), (0xB0000000D5, 6), (0xB0000000D6, 180), (0xB0000000D7, 132), (0xB0000000D8, 87), (0xB0000000D9, 45)]
    ++ [(0xB0000000DA, 184), (0xB0000000DB, 224), (0xB0000000DC, 166), (0xB0000000DD, 75), (0xB0000000DE, 238), (0xB0000000DF, 119), (0xB000000101, 32)]
/-- What it says. -/
def imageIs : ImageData :=
  { disc := 0, elems := [(.xe, [0])], arcs := [], inits := [], consts := [], folds := [], hash := bodyHash }
/-- The RCB and the image in the first three lines of core 0's slices, with slot 0 as given; s5 names the RCB. -/
def withRcb (g : Option Region) : State :=
  { (padded (at0 padBase 0)).modCore 0 0 fun k => { k with regions := k.regions.set 0 g } with
    mem := { cells := imageCells, live := List.range' (0xB000000000 / 128) 3, poison := [], dirty := [] } }

/-- How a region word reaches its RCB. -/
theorem rcbAt {s : State} {c : CoreId} {f : FmtA0} {pa : Nat} {p : State → Prop}
    (h1 : (rcbAddr s c f).toNat % 128 = 0 ∧ namesSlice (rcbAddr s c f).toNat = true ∧
      (rcbAddr s c f).toNat / 2 ^ 23 = (slicesOf s.cur.m c.val).toNat / 2 ^ 23)
    (h2 : (s.checkAccess s.agentHere (rcbAddr s c f) 8 .load).2 = .ok (.mem pa))
    (h3 : p (s.checkAccess s.agentHere (rcbAddr s c f) 8 .load).1) : ∃ s', RcbAt s s' c f pa ∧ p s' :=
  ⟨_, ⟨h1.1, h1.2.1, h1.2.2, by rw [← h2]⟩, h3⟩

/-- The region that `withRcb` configures, LOADING. -/
def loading : State := withRcb (some (aRegion .loading [] []))
/-- One whose image's address is not aligned. -/
def misnamed : State := withRcb (some { aRegion .loading [] [] with image := 0x7F00000081 })

/-- The one memory cell of the rectangle is chosen, whatever the choice. -/
theorem placed : placeImage imageIs 0 (rectOf 0 1 0) = some [(0, 0, 1)] := by
  have h (n : Nat) : pickAt [1] n = 1 := by simp [pickAt, Nat.mod_one]
  have h2 : (rectOf 0 1 0).cells = [0, 1] := by decide
  have h3 : ([0, 1] : List Nat).filter isCompute = [0] := by decide
  have h4 : ([0, 1] : List Nat).filter (fun c => !isCompute c) = [1] := by decide
  have h5 : ([0] : List Nat).eraseDups = [0] := by decide
  have h6 (w : BitVec 64) : sysFits { imageIs with elems := [(.xe, [w])] } (rectOf 0 1 0) = true := rfl
  unfold imageIs at h6
  simp [placeImage, imageIs, h2, h3, h4, h5, h6, mapEntry, groupStores, assignCells, assignSlots, h, portRecOf, bits, List.range, List.range.loop]

/-- The bytes of the image, as they are read. -/
def imageBytes : List Byte := match (loading.readImage 0 0 1 0x7F00000080).2 with
  | .ok bs _ => bs
  | _ => []
/-- The state with the image read, and its copy at the placement engine. -/
def copiedImage : State := copied (loading.readImage 0 0 1 0x7F00000080).1 0 0 0 imageBytes

theorem witness_RegionConfigured_word :
    (withRcb none).ready 0 (useRcb fa) = true ∧ ∃ s', RcbAt (withRcb none) s' 0 fa 0xB000000000 ∧
      (s'.core 0 0).slotOf (rcbAddr (withRcb none) 0 fa) = none ∧ rcbOk s'.mem 0xB000000000 = true ∧ (s'.core 0 0).regions[0] = none :=
  ⟨by decide +kernel, rcbAt (by decide +kernel) (by decide +kernel) (by decide +kernel)⟩

theorem witness_RegionConfigured_placed :
    loading.region 0 0 0 = some (aRegion .loading [] []) ∧
      ∃ s1, loading.readImage 0 0 1 0x7F00000080 = (s1, .ok imageBytes imageIs) ∧ copied s1 0 0 0 imageBytes = copiedImage :=
  ⟨by decide +kernel, answersAnd (by decide +kernel) rfl⟩

theorem witness_RegionConfigured_room :
    copiedImage.wantsQuarter 0 0 0 { aRegion .loading [] [] with copy := imageBytes } = false ∧
      copiedImage.haOpen 0 [0, 0, 0, ((rectOf 0 1 0).shape 0).toNat, bodyHash.toNat] = false ∧
      copiedImage.roomFor 0 0 0 1 imageIs 0 0 (rectOf 0 1 0) [] = true := by decide +kernel

theorem witness_RegionConfigured_attic :
    ∃ s2, copiedImage.atticLook bodyHash ((rectOf 0 1 0).shape 0) = (s2, none) ∧ s2.hub.assisted 0 = false ∧
      Stands s2 0 0 0 (aRegion .loading [] []) imageIs [(0, 0, 1)] :=
  answersAnd (by decide +kernel) ⟨by decide +kernel, by decide +kernel, by decide +kernel, by decide +kernel⟩

theorem witness_RegionConfigured_refused :
    misnamed.region 0 0 0 = some { aRegion .loading [] [] with image := 0x7F00000081 } ∧
      ∃ s1, misnamed.readImage 0 0 1 0x7F00000081 = (s1, .fail .badImg) :=
  ⟨by decide +kernel, answers (by decide +kernel)⟩

/-- A LOADING region that has its elements, one a store of one record, and whose image is still at hand. -/
def storing : Region := { aRegion .loading [{ anElem .xe [BitVec.ofNat 64 (5 * 2 ^ 60 + 4 * 2 ^ 40)] .plain with cell := 1 }] [] with copy := [0] }

theorem witness_RegionConfigured_stores :
    (withRcb (some storing)).region 0 0 0 = some storing ∧ storing.st = .loading ∧ (withRcb (some storing)).wantsQuarter 0 0 0 storing = false ∧
    (∃ s1, (withRcb (some storing)).spansServed (ctlAgent 0 0 0 storing.lid) true (storeSpans 0 0 storing.elems) = (s1, true)) ∧
    ∃ s1, ((withRcb (some storing)).modBank 0 0 0 15 fun x => { x with st := .keep }).spansServed (ctlAgent 0 0 0 storing.lid) true
      (storeSpans 0 0 [{ anElem .xe [BitVec.ofNat 64 (5 * 2 ^ 60 + 1024 * 2 ^ 40)] .plain with cell := 1 }]) = (s1, false) :=
  ⟨by decide +kernel, by decide, by decide +kernel, answers (by decide +kernel), answers (by decide +kernel)⟩

/-- The region of the image, in a state of Table 5.6. -/
def stood (st : RegionSt) : State := withRcb (some (aRegion st [anElem .xe [0] .plain] []))

theorem witness_RegionStarted :
    ((stood .ready).ready 0 (useRcb fa) = true ∧ ∃ s', RcbAt (stood .ready) s' 0 fa 0xB000000000 ∧
      (s'.core 0 0).slotOf (rcbAddr (stood .ready) 0 fa) = some 0 ∧
      (s'.core 0 0).regions[0] = some (aRegion .ready [anElem .xe [0] .plain] [])) ∧
    ((anElem .xe [0] .plain).isPort 2 = false ∧ (anElem .xe [0] .plain).isPort 3 = false) ∧
    ∃ s', RcbAt (withRcb none) s' 0 fa 0xB000000000 ∧ (s'.core 0 0).slotOf (rcbAddr (withRcb none) 0 fa) = none :=
  ⟨⟨by decide +kernel, rcbAt (by decide +kernel) (by decide +kernel) (by decide +kernel)⟩, by decide +kernel,
    rcbAt (by decide +kernel) (by decide +kernel) (by decide +kernel)⟩

/-- A region with an RSWITCH word whose image has yet to be read. -/
def switchingRegion : Region :=
  { aRegion .running [anElem .xe [0] .plain] [] with switches := [(0, 0x7F00000080, 9, [])] }
/-- It stands on core 0. -/
def switching : State := withRcb (some switchingRegion)

theorem witness_RegionSwitched :
    ((stood .running).ready 0 (useRcb fa) = true ∧ ∃ s', RcbAt (stood .running) s' 0 fa 0xB000000000 ∧
      (s'.core 0 0).slotOf (rcbAddr (stood .running) 0 fa) = some 0 ∧
      (s'.core 0 0).regions[0] = some (aRegion .running [anElem .xe [0] .plain] [])) ∧
    ∃ s', RcbAt (stood .ready) s' 0 fa 0xB000000000 ∧ (s'.core 0 0).slotOf (rcbAddr (stood .ready) 0 fa) = some 0 :=
  ⟨⟨by decide +kernel, rcbAt (by decide +kernel) (by decide +kernel) (by decide +kernel)⟩,
    rcbAt (by decide +kernel) (by decide +kernel) (by decide +kernel)⟩

theorem witness_RegionSwitched_image :
    switching.region 0 0 0 = some switchingRegion ∧ keepsShape switchingRegion imageIs = true ∧
      ∃ s2, switching.readImage 0 0 1 0x7F00000080 = (s2, .ok imageBytes imageIs) ∧ (s2.core 0 0).portsFree 0 [] imageIs.elems = true :=
  ⟨by decide +kernel, by decide +kernel, answersAnd (by decide +kernel) (by decide +kernel)⟩

/-- The same in a bank that waits for its wake. -/
def wakingRcb : State := (stood .ready).modBank 0 0 0 0 fun x => { x with st := .waking, wakeAt := 1 }

theorem witness_RegionAwaited :
    (∀ st ∈ [RegionSt.loading, .running, .completing, .ready], (stood st).ready 0 (useRwait fa) = true ∧
      (rcbAddr (stood st) 0 fa).toNat % 128 = 0 ∧ namesSlice (rcbAddr (stood st) 0 fa).toNat = true ∧
      (rcbAddr (stood st) 0 fa).toNat / 2 ^ 23 = (slicesOf (stood st).cur.m 0).toNat / 2 ^ 23 ∧
      ((stood st).core 0 0).slotOf (rcbAddr (stood st) 0 fa) = some 0 ∧
      ((stood st).core 0 0).regions[0] = some (aRegion st [anElem .xe [0] .plain] [])) ∧
    (stood .ready).mem.wf = true ∧
    (∃ s1, (stood .ready).lineAddr (stood .ready).agentHere (rcbAddr (stood .ready) 0 fa) 8 .load = (s1, .ok (.mem 0xB000000000)) ∧
      ∃ s2, s1.writtenBack 0 0 0 (aRegion .ready [anElem .xe [0] .plain] []) = (s2, true)) ∧
    (wakingRcb.writtenBack 0 0 0 (aRegion .ready [anElem .xe [0] .plain] [])).2 = false ∧
    ((withRcb none).ready 0 (useRwait fa) = true ∧ (withRcb none).awaited (rcbAddr (withRcb none) 0 fa) = none ∧
      ∃ s', RcbAt (withRcb none) s' 0 fa 0xB000000000 ∧ s'.cur.m = 0) :=
  ⟨by decide +kernel, by decide +kernel, answersAnd (by decide +kernel) (answers (by decide +kernel)), by decide +kernel,
    by decide +kernel, by decide +kernel, rcbAt (by decide +kernel) (by decide +kernel) (by decide +kernel)⟩

/-- Launch 1 with two tile records. -/
def tiled (cursor : Nat) : State :=
  { (at0 0 0).modCore 0 0 fun k => { k with cursor := cursor } with launches := [{ probeLaunch with ntile := 2 }] }

theorem witness_PlainSystemWords :
    (at0 0 0).ready 0 { q := false, reads := [] } = true ∧ (rfu0 0 0).readyRfu { q := true, reads := [] } = true ∧
    (at0 0 0).ready 0 { q := false, reads := [], dest := some 31 } = true ∧
    (rfu0 0 0).readyRfu { q := true, reads := [], dest := some 15 } = true ∧
    (at0 0 0).ready 0 { q := false, reads := [], drops := [fa.d, fa.a, fa.b].filter (· ≠ 0) } = true ∧
    (tiled 1).ready 0 { q := false, reads := [], dest := some fa.d } = true ∧
    (tiled 1).launch (tiled 1).agentHere.lid = some { probeLaunch with ntile := 2 } ∧ ((tiled 1).core 0 0).cursor < 2 ∧
    (tiled 2).launch (tiled 2).agentHere.lid = some { probeLaunch with ntile := 2 } ∧ 2 ≤ ((tiled 2).core 0 0).cursor ∧
    (at0 0 0).ready 0 { q := false, reads := [], always := true } = true ∧ (rfu0 0 0).cur.p = rfuPlace := by decide +kernel

/-- BANK 3, FULL. -/
def fbank : FmtA0 := { d := 0, a := 3, b := 2, x := false, y := false }

/-- Bank 3 of core 0 in a power state. -/
def powered (p : Power) : State := (at0 0 0).modCore 0 0 fun k => { k with banks := k.banks.set 3 ⟨p, 0, 0, 0⟩ }

theorem witness_BankWord : ∀ p ∈ [Power.off, .keep, .full, .waking],
    fbank.a.toNat < 4 ∧ (powered p).cur.p = placeOfCore 0 ∧
    (powered p).ready 0 { q := false, reads := [], names := bankRegs (bankNamed fbank) } = true := by decide +kernel

theorem witness_SoftwareTraps :
    (((at0 0 0).row 0).phase = .running ∧ (at0 0 0).ready 0 { q := false, reads := [] } = true) ∧
    (((rfu0 0 0).row 0).phase = .running ∧ (rfu0 0 0).readyRfu { q := true, reads := [] } = true) := by decide +kernel

/-- CSRR or CSRW of a system register. -/
def fcsr (n : BitVec 12) : FmtCsr := { q := false, d := 7, a := 5, n := n, x := true }

theorem witness_SystemRegisters :
    (((fcsr 0x63).n.toNat, (0 : Word)) ∈ systemRegisters (at0 0 0) 0 ∧
      (at0 0 0).ready 0 { q := false, reads := [], dest := some 7 } = true) ∧
    (∀ p ∈ writableRegisters, (fcsr (BitVec.ofNat 12 p.1)).n.toNat = p.1) ∧
    (at0 0 0).ready 0 { q := false, reads := [5], drops := dropIf true 5 } = true ∧
    ((0x40, (0 : Word)) ∈ rowSystemRegisters (rfu0 0 0) ∧ (rfu0 0 0).readyRfu { q := true, reads := [], dest := some 7 } = true) ∧
    (∀ p ∈ rowWritableRegisters, (fcsr (BitVec.ofNat 12 p.1)).n.toNat = p.1) ∧
    (rfu0 0 0).readyRfu { q := true, reads := [5], drops := dropIf true 5 } = true := by decide +kernel

/-- Data and echoes that have yet to return. -/
def returning : State :=
  (pending7.modRow 0 fun r => { r with qpend := [⟨15, 1⟩], echo := [⟨15, 1, false⟩] })

theorem witness_DataAndEchoReturn :
    (returning.row 0).phase ≠ .mchk ∧ (returning.core 0 0).pend = [⟨7, 1⟩] ∧ (returning.core 0 0).banks[sBank 7].st = .full ∧
    (returning.row 0).qpend = [⟨15, 1⟩] ∧ (15 : BitVec 5).toNat < 16 ∧ (returning.row 0).echo = [⟨15, 1, false⟩] := by decide +kernel

/-- A CE with entry k0 of its hold bank live, the bank in a power state. -/
def holding (p : Power) : Elem :=
  { anElem .ce [0] .plain with holds := (Vector.replicate 8 none).set 0 (some (.replicate 16 0)), hbank := ⟨p, 0, 0, 1⟩ }
/-- Banks of core 0 in a power state, 16 units after their last use. -/
def banksAt (p : Power) : State :=
  { (padded (at0 0 0)).modCore 0 0 fun k => { k with
      banks := .replicate 4 ⟨p, 0, 0, 1⟩, mcells := k.mcells.set 0 { MemCell.reset with banks := .replicate 16 ⟨p, 0, 0, 1⟩ }
      regions := k.regions.set 0 (some (aRegion .running [holding p] [])) } with osc := 16, tb := 16 }

theorem witness_BankEvents :
    (idleOver ((banksAt .full).core 0 0).banks[(3 : Fin 4)] (banksAt .full).tb = true ∧ ((31 : BitVec 5) ≠ 0 ∧ sBank 31 = 3 ∧ ((banksAt .full).core 0 0).isLive 31 = true) ∧
      ((banksAt .full).core 0 0).pend = []) ∧
    (((banksAt .waking).core 0 0).banks[(3 : Fin 4)].st = .waking ∧ ((banksAt .waking).core 0 0).banks[(3 : Fin 4)].wakeAt ≤ (banksAt .waking).osc) ∧
    (idleOver (padBank (banksAt .full) 0 0 0 0) (banksAt .full).tb = true ∧ (banksAt .full).bankLive 0 0 0 0 ≠ []) ∧
    ((padBank (banksAt .waking) 0 0 0 15).st = .waking ∧ (padBank (banksAt .waking) 0 0 0 15).wakeAt ≤ (banksAt .waking).osc ∧
      (banksAt .waking).portQ = []) ∧
    (elemAt (banksAt .full) ⟨0, 0, 0, 0⟩ = some (holding .full) ∧ idleOver (holding .full).hbank (banksAt .full).tb = true ∧
      (holding .full).holds[(0 : Fin 8)] ≠ none) ∧
    (elemAt (banksAt .waking) ⟨0, 0, 0, 0⟩ = some (holding .waking) ∧ (holding .waking).hbank.st = .waking ∧
      (holding .waking).hbank.wakeAt ≤ (banksAt .waking).osc) := by decide +kernel

/-- Every place of row 0 has stopped, core 0 by a trap. -/
def stoppedRow : State :=
  (at0 0 0).modRow 0 fun r => { r with
    phase := .stopping none, stopped := true
    cores := (r.cores.map fun k => { k with stopped := true }).set 0 { r.cores[0] with
      stopped := true, trap := { r.cores[0].trap with cause := 2, trapOrd := some 5 } } }

theorem witness_HandlerEntered :
    (stoppedRow.row 0).phase = .stopping none ∧ (∀ p, (stoppedRow.row 0).isStopped p = true) ∧ (stoppedRow.row 0).firstTrap ≠ none ∧
    stoppedRow.rowMoves 0 = true := by decide +kernel

/-- Row 0 in its handler with its window open or not, core c or the row fetch unit at a word. -/
def handling (s : State) (p : PlaceId) (win : Bool) : State :=
  { s.modRow 0 fun r => { r with phase := .handler, trap := { r.trap with winOpen := win } } with
    cur := { s.cur with p := p } }

theorem witness_HandlerReturns :
    ((handling (at0 0 0) 0 true).cur.p = placeOfCore 0 ∧ ((handling (at0 0 0) 0 true).row 0).phase = .handler ∧
      (handling (at0 0 0) 0 true).ready 0 { q := false, reads := [], always := true } = true) ∧
    ((handling (at0 0 0) 7 true).cur.p = placeOfCore 7 ∧ ((handling (at0 0 0) 7 true).row 0).phase = .handler ∧
      (handling (at0 0 0) 7 true).ready 7 { q := false, reads := [], always := true } = true) ∧
    ((handling (rfu0 0 0) 8 true).cur.p = rfuPlace ∧ ((handling (rfu0 0 0) 8 true).row 0).phase = .handler) := by decide +kernel

/-- Core 0 has trapped first. -/
def srcCore : State := (handling (at0 0 0) 0 true).modCore 0 0 fun k => { k with trap := { k.trap with src := 0 } }

theorem witness_TrapsInHandlers :
    (((handling (at0 0 0) 0 true).row 0).phase = .handler ∧ ((handling (at0 0 0) 0 true).row 0).trap.winOpen = true) ∧
    (((handling (at0 0 0) 0 false).row 0).phase = .handler ∧ ((handling (at0 0 0) 0 false).row 0).trap.winOpen = false) ∧
    ((srcCore.row 0).phase = .handler ∧ (fcsr 0x20).n = 0x20 ∧ (srcCore.core 0 0).trap.src.toNat = 0 ∧
      srcCore.ready 0 { q := false, reads := [], dest := some 7 } = true) := by decide +kernel

theorem witness_MachineChecks : ((at0 0 0).row 0).lid ≠ none ∧ ((at0 0 0).row 0).phase ≠ .mchk ∧ ((at0 0 0).row 0).phase ≠ .double := by
  decide +kernel

/-- A page of device HBM, as core 0's TLB holds it. -/
def page : TlbEntry := { root := 1, vbase := 0x10000000, size := 2 ^ 26, pbase := 0x10000000, w := true, x := true }
/-- Its first address. -/
def hbm : Word := 0x10000000
/-- Operation o stands at the cursor, and memory holds cells. -/
def working (cells : List Host.Cell) (o : Op) : State :=
  { (at0 0 0).modCore 0 0 fun k => { k with ops := [o], nextOp := 1, tlb := [page] } with
    mem := { cells := cells, live := [], poison := [], dirty := [] } }
/-- A walk of one level (Table 6.10). -/
def walk (base esz cnt stride : Nat) : BitVec 256 :=
  BitVec.ofNat 256 (base + esz * 2 ^ 52 + 2 ^ 56 + stride * 2 ^ 64 + cnt * 2 ^ 96)
/-- Four words from `hbm` on. -/
def words4 : BitVec 256 := walk 0x10000000 2 4 4
/-- A command with an address and an argument. -/
def cmdAt (addr : Word) (arg : BitVec 25) : Command :=
  { t := false, scp := 0, drp := false, sub := 0, ha := 0, hb := 0, wa := 31, wb := 0, pdir := false, port := 0, arg := arg, addr := addr }
/-- An operation on four words, past its checks, at element n. -/
def moving (n : Nat) : Op := { anOp 0 with wa := words4, wb := words4, idx := n }
/-- One whose checks are yet to be made. -/
def forked : Op := { moving 0 with phase := .forked }

theorem elemIs {s : State} {o : Op} {w : Walk} {n a : Nat} {p : State → Prop}
    (h : (s.elemAddr (s.opAgent o) w n).2 = .at_ a) (k : p (s.elemAddr (s.opAgent o) w n).1) : ∃ s1, ElemIs s s1 o w n a ∧ p s1 :=
  ⟨_, by unfold ElemIs; rw [← h], k⟩
theorem readsAs {s : State} {o : Op} {a n : Nat} {bs : List Byte} {b : Bool} {p : State → Prop}
    (h : (s.readMem (s.opAgent o) a n).2 = .ok bs b) (k : p (s.readMem (s.opAgent o) a n).1) : ∃ s1, Reads s s1 o a n bs b ∧ p s1 :=
  ⟨_, by unfold Reads; rw [← h], k⟩
theorem writesAs {s : State} {o : Op} {a : Nat} {bs : List Byte} {b : Bool}
    (h : (s.writeMem (s.opAgent o) a bs b).2 = .ok) : ∃ s1, Writes s s1 o a bs b :=
  ⟨_, by unfold Writes; rw [← h]⟩
theorem readsTo {s : State} {o : Op} {a n : Nat} {bs : List Byte} {b : Bool}
    (h : (s.readMem (s.opAgent o) a n).2 = .ok bs b) : ∃ s1, Reads s s1 o a n bs b :=
  ⟨_, by unfold Reads; rw [← h]⟩
theorem begins {s : State} {o : Op} (h : s.opHere = some o ∧ o.phase = .forked ∧ (s.core s.cur.m s.coreHere).mayStart o = true) :
    Begins s o := h
theorem moves {s : State} {o : Op} (h : s.opHere = some o ∧ o.phase = .moving) : Moves s o := h

theorem witness_CommandsRefuseReservedSub :
    Begins (working [] forked) forked ∧ forked.drops = [] ∧
    (∀ n ∈ [1, 7], ({ cmdAt 0 0 with sub := n } : Command).sub ≠ 0) ∧ ((working [] forked).core 0 0).earlierDone forked = true ∧
    2 ≤ ({ cmdAt 0 0 with sub := 2 } : Command).sub.toNat ∧ 3 ≤ ({ cmdAt 0 0 with sub := 3 } : Command).sub.toNat ∧
    5 ≤ ({ cmdAt 0 0 with sub := 5 } : Command).sub.toNat :=
  ⟨begins (by decide +kernel), by decide +kernel⟩

theorem witness_FillSetAndMark :
    (Begins (working [] forked) forked ∧ (cmdAt 0 0xFFFF).sub = 0 ∧ (walkOf forked.wa).ok = true ∧ (cmdAt 0 0xFFFF).arg.toNat < 2 ^ 16) ∧
    (Moves (working [] (moving 3)) (moving 3) ∧ (moving 3).idx ≠ (walkOf (moving 3).wa).count ∧
      ∃ s1, ElemIs (working [] (moving 3)) s1 (moving 3) (walkOf (moving 3).wa) (moving 3).idx 0x1000000C ∧
        ∃ s2, Writes s1 s2 (moving 3) 0x1000000C (repeated 5 (walkOf (moving 3).wa).size) false) ∧
    (Moves (working [] (moving 4)) (moving 4) ∧ (moving 4).idx = (walkOf (moving 4).wa).count ∧ (moving 4).drops = []) ∧
    ((cmdAt hbm 0).addr.toNat % 32 = 0 ∧
      ∃ s1, Reads (working [] forked) s1 forked (cmdAt hbm 0).addr.toNat 32 (List.replicate 32 0) false) :=
  ⟨⟨begins (by decide +kernel), by decide +kernel⟩,
    ⟨moves (by decide +kernel), by decide +kernel, elemIs (by decide +kernel) (writesAs (by decide +kernel))⟩,
    ⟨moves (by decide +kernel), by decide +kernel⟩, ⟨by decide +kernel, readsTo (by decide +kernel)⟩⟩

/-- The same with region g in slot 0 and launch 1's operation o forked on its behalf. -/
def workingIn (cells : List Host.Cell) (o : Op) (g : Region) : State :=
  (working cells o).modCore 0 0 fun k => { k with regions := k.regions.set 0 (some g) }
/-- A token of one lane. -/
def token (cnt : Nat) (f : Bool) (v : Lane) : Token :=
  { tag := 0, ctx := 0, cnt := cnt, m := false, k := false, l3 := false, l2 := false, l1 := false, f := f, p := false, e := false
    lanes := .replicate 16 v }
/-- An arc into input i of element 0 with tokens on it. -/
def arcIn (i : Nat) (toks : List (Nat × Token)) : Arc :=
  { prod := 1, pout := i, cons := 0, cin := i, cap := 8, nin := 1, nout := 1, cmask := 1, res := [8, 0, 0, 0], toks := toks, emptt := 0
    fullt := 0, movt := 0, tokn := toks.length, held := [] }
/-- A fabric port, in (kind 0) or out (kind 1), and others of Table 12.16. -/
def portElem (kind : Nat) (form : FormState) : Elem := anElem .xe [BitVec.ofNat 64 (kind * 2 ^ 60)] form
/-- A region of a port into the fabric, and of one out of it with a token at hand. -/
def feedRegion : Region := aRegion .running [portElem 0 .plain] []
/-- See `feedRegion`. -/
def drainRegion : Region := aRegion .running [portElem 1 .plain] [arcIn 0 [(0, token 1 false 9)]]
/-- An operation that has read n of the elements and written idx, with bytes in hand. -/
def copying (n idx : Nat) (buf : List Byte) : Op := { moving idx with lanes := n, buf := buf, aux := [0], region := some 0 }

theorem witness_CopyAndFeed :
    (Moves (working [] (copying 4 3 [1, 2, 3, 4])) (copying 4 3 [1, 2, 3, 4]) ∧ (4 : Nat) = (walkOf words4).count ∧
      ∃ s1, ElemIs (working [] (copying 4 3 [1, 2, 3, 4])).draw.2 s1 (copying 4 3 [1, 2, 3, 4]) (walkOf words4) 3 0x1000000C ∧
        ∃ s2, Writes s1 s2 (copying 4 3 [1, 2, 3, 4]) 0x1000000C [1, 2, 3, 4] false) ∧
    (Moves (working [] (copying 3 3 [])) (copying 3 3 []) ∧ (3 : Nat) ≠ (walkOf words4).count ∧ (cmdAt 0 0).drp = false ∧
      ∃ s1, ElemIs (working [] (copying 3 3 [])).draw.2 s1 (copying 3 3 []) (walkOf words4) 3 0x1000000C ∧
        ∃ s2, Reads s1 s2 (copying 3 3 []) 0x1000000C 4 (List.replicate 4 0) false) ∧
    (Moves (working [] (copying 4 4 [])) (copying 4 4 []) ∧ (copying 4 4 []).idx = (walkOf words4).count ∧ ringBit (cmdAt 0 0) = false ∧
      ((working [] (copying 4 4 [])).core 0 0).holdsPort (copying 4 4 []) 0 0 = true) ∧
    (Moves (working [] (copying 0 3 [])) (copying 0 3 []) ∧ ((working [] (copying 0 3 [])).core 0 0).holdsPort (copying 0 3 []) 0 0 = true ∧
      ∃ s1, (working [] (copying 0 3 [])).elemAddr (((working [] (copying 0 3 [])).opAgent (copying 0 3 [])).forElem 3) (walkOf words4) 3
          = (s1, .at_ 0x1000000C) ∧
        ∃ s2, s1.readMem (((working [] (copying 0 3 [])).opAgent (copying 0 3 [])).forElem 3) 0x1000000C 4
          = (s2, .ok (List.replicate 4 0) false)) ∧
    (∀ x ∈ [(64, 0, 3), (4, 3, 3), (4, 0, 4)], let o := copying 0 x.2.2 (List.replicate x.1 0)
     let s := workingIn [] o feedRegion
     Moves s o ∧ (64 ≤ o.buf.length ∨ (o.buf ≠ [] ∧ (fibreEnd (cmdAt 0 (BitVec.ofNat 25 x.2.1)) o.idx = true ∨
      o.idx = (walkOf words4).count ∨ o.status ≠ .ok))) ∧ (s.core 0 0).holdsPort o 0 0 = true ∧ s.portOf o 0 0 = some ⟨0, 0, 0, 0⟩ ∧
      s.elemAt ⟨0, 0, 0, 0⟩ = some (feedRegion, portElem 0 .plain) ∧ feedRegion.portMoves (portElem 0 .plain) = true ∧
      feedRegion.outReady 0 0 = true) :=
  ⟨⟨moves (by decide +kernel), by decide +kernel, elemIs (by decide +kernel) (writesAs (by decide +kernel))⟩,
    ⟨moves (by decide +kernel), by decide +kernel, by decide +kernel, elemIs (by decide +kernel) (readsTo (by decide +kernel))⟩,
    ⟨moves (by decide +kernel), by decide +kernel⟩,
    ⟨moves (by decide +kernel), by decide +kernel, answersAnd (by decide +kernel) (answers (by decide +kernel))⟩, by
      unfold Moves
      decide +kernel⟩

/-- An SSCATOP that is to begin, on a region with a port out of the fabric. -/
def scatters : Op := { forked with region := some 0 }

theorem witness_CommandsRefuseReservedSub_starts :
    ∀ n ∈ [(0 : BitVec 3), 3, 4, 7], let c : Command := { cmdAt 0 0 with sub := n, pdir := true }
      (workingIn [] scatters drainRegion).opHere = some scatters ∧ scatters.phase = .forked ∧
      ((workingIn [] scatters drainRegion).core 0 0).mayStart scatters = true ∧ c.arg.toNat % 2 ^ 23 = 0 ∧ (walkOf scatters.wa).ok = true ∧
      (walkOf scatters.wa).esz = 2 ∧ ringBit c = false ∧ ((workingIn [] scatters drainRegion).portOf scatters 1 c.port.toNat).isSome = true ∧
      ∀ slot : SlotId, scatters.region = some slot → (workingIn [] scatters drainRegion).spilled scatters.lid 0 0 slot = false := by
  decide +kernel

/-- An operation on four words of scratchpad at element n. -/
def padOp (n : Nat) : Op := { anOp 0 with wa := walk 0x7F00000000 2 4 4, idx := n, region := some 0 }
/-- It at the cursor, its lines live. -/
def padWork (n : Nat) : State := (inPad (at0 0 0) (List.replicate 16 0)).modCore 0 0 fun k => { k with ops := [padOp n] }

/-- An SWR that has drained two words, and the state that it works in. -/
def draining : Op := copying 0 2 []
/-- See `draining`. -/
def drainState : State := workingIn [] draining drainRegion

theorem witness_DrainAndScatter_command :
    ringBit (cmdAt 0 0) = false ∧ arg23 (cmdAt 0 0) = false ∧ draining.buf = [] ∧ (walkOf draining.wa).ind = 0 ∧
      (walkOf draining.wa).esz = 2 ∧ draining.idx + 1 < (walkOf draining.wa).count := by decide +kernel

theorem witness_DrainAndScatter_port :
    (drainState.core 0 0).holdsPort draining 1 0 = true ∧ drainState.portOf draining 1 0 = some ⟨0, 0, 0, 0⟩ ∧
      drainState.elemAt ⟨0, 0, 0, 0⟩ = some (drainRegion, portElem 1 .plain) ∧
      drainRegion.dataAt 0 0 = some (0, token 1 false 9) := by decide +kernel

theorem witness_DrainAndScatter_store :
    Moves drainState draining ∧ ElemIs drainState drainState draining (walkOf draining.wa) 2 0x10000008 ∧
      ∃ s1, drainState.pieceCheck ((drainState.opAgent draining).forElem 2) 0x10000008 .store = (s1, .ok (.mem 0x10000008)) ∧
        ∃ s2, s1.writeMem ((drainState.opAgent draining).forElem 2) 0x10000008 (bytesOf 4 9) false = (s2, .ok) :=
  ⟨moves (by decide +kernel), rfl, answersAnd (by decide +kernel) (answers (by decide +kernel))⟩

/-- The fourth word of an SSCATOP, in the state that it works in. -/
theorem witness_DrainAndScatter_atomic :
    Moves (padWork 2) (padOp 2) ∧ ElemIs (padWork 2) (padWork 2) (padOp 2) (walkOf (padOp 2).wa) 2 0x7F00000008 ∧
      (padOp 2).drops = [] ∧ (padOp 2).idx + 1 < (walkOf (padOp 2).wa).count ∧
      sliceOf (0x7F00000008 - sliceBase) = some ⟨0, 0, 0, 8⟩ ∧ ((padWork 2).row 0).lid = some (padOp 2).lid ∧
      ((padWork 2).row 0).suspended = none ∧ (padWork 2).hub.ck.replay = false ∧
      (((padWork 2).core 0 0).mcells[0].banks[bankOf ((padWork 2).core 0 0).mcells[0].hxm 8]).st = .full ∧
      (padWork 2).mem.dead (spadBase + 8) 4 = false ∧ (padWork 2).mem.poisoned (spadBase + 8) 4 = false ∧
      8 / 2 ^ 29 = dieOf (padWork 2).cur.m ∧ (padWork 2).hub.budgets.full 0 (arbiterOf (spadBase + 8)) = false :=
  ⟨moves (by decide +kernel), rfl, by decide +kernel⟩

/-- An appending operation of one key of 64 channels, whose rinds stand at `hbm`. -/
def appending (base : Option Nat) (phase : OpPhase) : Op :=
  { anOp (BitVec.ofNat 128 (2 ^ 64)) with phase := phase, kvBase := base, buf := List.replicate 128 0
                                          aux := [0x10010000, 0x10000000, 1, 0, 64, 0xB000000000, 0] }
/-- It with its key set in the first line of core 0's slices. -/
def publishing (o : Op) : State :=
  (padded (at0 0 0)).modCore 0 0 fun k => { k with ops := [o], nextOp := 1, tlb := [page] }

theorem witness_KeysAppended :
    (let s := working [(0x10000010, 1)] (appending none .moving)
     Moves s (appending none .moving) ∧ (cmdAt hbm 1).arg.toNat % 65536 ≠ 0 ∧
      ∃ s1, s.engCheck (s.opAgent (appending none .moving)) (cmdAt hbm 1).addr.toNat .atomic = (s1, .ok (.mem 0x10000000)) ∧
        s1.mem.dead 0x10000000 64 = false ∧ s1.mem.poisoned 0x10000000 64 = false ∧
        s1.atomicTurn 0x10000000 (s.opAgent (appending none .moving)) = true ∧
        leAt s1.mem 0x10000018 4 + 1 ≤ 64 * leAt s1.mem 0x10000010 4) ∧
    (let s := working [] (appending none .moving)
      ∃ s1, s.engCheck (s.opAgent (appending none .moving)) (cmdAt hbm 1).addr.toNat .atomic = (s1, .ok (.mem 0x10000000)) ∧
        64 * leAt s1.mem 0x10000010 4 < leAt s1.mem 0x10000018 4 + 1) ∧
    (Moves (working [] (appending (some 0) .moving)) (appending (some 0) .moving) ∧
      1 * (appendingOf (appending (some 0) .moving)).ks.keyBytes ≤ (appending (some 0) .moving).buf.length) ∧
    (cmdAt hbm 0x10000).arg.toNat % 65536 = 0 ∧
    (let o := appending (some 0) .waiting
     let s := publishing o
     (s.core 0 0).findOp o.id = some o ∧ (s.row 0).phase ≠ .mchk ∧ s.kvTurn (appendingOf o) = true ∧
      (commandOf o.cmd).arg.toNat % 65536 = 1 ∧ 0 < (appendingOf o).ks.d ∧ o.drops = [] ∧
      ∃ u, (s.atOp 0 0 o.id).lineAddr ((s.atOp 0 0 o.id).opAgent o)
          (BitVec.ofNat 64 (sliceBase + ((appendingOf o).pa + 0x1C - spadBase))) 4 .store = (u, .ok (.mem ((appendingOf o).pa + 0x1C))) ∧
        ∃ v, u.rindsReady (u.opAgent o) (appendingOf o) 0 [0] = (v, true) ∧
          ∃ s1, Writes v s1 o (appendingOf o).ks.rb (publishedRind (appendingOf o) 0 1 o.buf 0 (emptyRind 64)) false) :=
  ⟨⟨moves (by decide +kernel), by decide +kernel, answersAnd (by decide +kernel) (by decide +kernel)⟩,
    answersAnd (by decide +kernel) (by decide +kernel), ⟨moves (by decide +kernel), by decide +kernel⟩, by decide +kernel,
    ⟨by decide +kernel, by decide +kernel, by decide +kernel, by decide +kernel, by decide +kernel, by decide +kernel,
      answersAnd (by decide +kernel) (answersAnd (by decide +kernel) (writesAs (by decide +kernel)))⟩⟩

/-- A picking operation over n keys of 64 channels: rinds at `hbm`, choices after them, the keys in the next page. -/
def picking (n idx lanes : Nat) (more : List Nat) : Op :=
  { anOp 0 with idx := idx, lanes := lanes, region := some 0, buf := []
                aux := [0, 0x10001000, 1, 0, 0, 0, 1, 0, 0, 0x10010000, 0x10000000, 1, 0, 64, n] ++ more }

/-- GATHP's count word, and the second line of a page of 64 keys: the status, bytes in hand and the port do not matter within a page. -/
theorem witness_KeysPicked_within :
    (let o : Op := { picking 1 0 0 [] with aux := (picking 1 0 0 []).aux.take 14 }
     Moves (working [] o) o ∧ o.aux.length ≤ 14 ∧ natOf ((List.replicate 8 (0 : Byte)).take 4) ≤ (pickOf o).1.cap ∧
      ∃ s1, Reads (working [] o) s1 o ((pickOf o).1.pun + 8 * (pickOf o).1.cap) 8 (List.replicate 8 0) false) ∧
    (Moves (working [] (picking 1 0 0 [128, 1])) (picking 1 0 0 [128, 1]) ∧ (picking 1 0 0 [128, 1]).aux.getD 16 0 = 0 + 1 ∧
      ∃ s1, Reads (working [] (picking 1 0 0 [128, 1])) s1 (picking 1 0 0 [128, 1]) 0x10010080 128 (List.replicate 128 0) false) :=
  ⟨⟨moves (by decide +kernel), by decide +kernel, by decide +kernel, readsTo (by decide +kernel)⟩,
    ⟨moves (by decide +kernel), by decide +kernel, readsTo (by decide +kernel)⟩⟩

theorem witness_KeysPicked :
    (Moves (working [] (picking 1 0 0 [])) (picking 1 0 0 []) ∧ 15 ≤ (picking 1 0 0 []).aux.length ∧
      (picking 1 0 0 []).idx < ((picking 1 0 0 []).aux.getD 14 0 + 63) / 64 ∧
      ∃ s1, Reads (working [] (picking 1 0 0 [])) s1 (picking 1 0 0 []) 0x10000000 512 (List.replicate 512 0) false) ∧
    (Moves (working [] (picking 1 1 0 [5, 1])) (picking 1 1 0 [5, 1]) ∧
      ((picking 1 1 0 [5, 1]).aux.getD 14 0 + 63) / 64 ≤ (picking 1 1 0 [5, 1]).idx ∧
      (pickSelect (pickOf (picking 1 1 0 [5, 1])).1 (pagesOf (picking 1 1 0 [5, 1]))).1[0]? = some ⟨0, 5, true⟩ ∧
      ∃ s1, Writes (working [] (picking 1 1 0 [5, 1])) s1 (picking 1 1 0 [5, 1]) 0x10001000 (bytesOf 8 (5 * 2 ^ 32)) false) ∧
    (Moves (working [] (picking 0 0 0 [])) (picking 0 0 0 []) ∧
      (pickSelect (pickOf (picking 0 0 0 [])).1 (pagesOf (picking 0 0 0 []))).1.length ≤ 0 ∧
      ∃ s1, (working [] (picking 0 0 0 [])).writeMem ((working [] (picking 0 0 0 [])).opAgent (picking 0 0 0 [])) 0x10001008
          (bytesOf 8 0) false = (s1, .ok) ∧ s1.opHere = some (picking 0 0 0 [])) ∧
    (Moves (working [] (picking 1 0 0 [0, 0])) (picking 1 0 0 [0, 0]) ∧ ringBit (cmdAt 0 0) = false ∧ (cmdAt 0 0).drp = false ∧
      (picking 1 0 0 [0, 0]).aux.getD 16 0 = 0 ∧ (picking 1 0 0 [0, 0]).idx ≠ (picking 1 0 0 [0, 0]).aux.getD 14 0 ∧
      ((working [] (picking 1 0 0 [0, 0])).core 0 0).holdsPort (picking 1 0 0 [0, 0]) 0 0 = true ∧
      natOf ((List.replicate 8 (0 : Byte)).take 4) < (pickOf (picking 1 0 0 [0, 0])).2.npage ∧
      ∃ s1, Reads (working [] (picking 1 0 0 [0, 0])) s1 (picking 1 0 0 [0, 0]) 0x10001000 8 (List.replicate 8 0) false) :=
  ⟨⟨moves (by decide +kernel), by decide +kernel, by decide +kernel, readsTo (by decide +kernel)⟩,
    ⟨moves (by decide +kernel), by decide +kernel, by decide +kernel, writesAs (by decide +kernel)⟩,
    ⟨moves (by decide +kernel), by decide +kernel, answersAnd (by decide +kernel) (by decide +kernel)⟩,
    ⟨moves (by decide +kernel), by decide +kernel, by decide +kernel, by decide +kernel, by decide +kernel, by decide +kernel,
      by decide +kernel, readsTo (by decide +kernel)⟩⟩

/-- A head slot's state and what it says. -/
def slotSt (x : SlotGot) : State := match x with | .ready s _ _ | .wait s | .bad s _ => s
/-- See `slotSt`. -/
def slotOk (x : SlotGot) : Option (Nat × Ring) := match x with | .ready _ pa r => some (pa, r) | _ => none
theorem slotReady {x : SlotGot} {pa : Nat} {r : Ring} {p : State → Prop} (h : slotOk x = some (pa, r)) (k : p (slotSt x)) :
    ∃ s1, x = .ready s1 pa r ∧ p s1 := by
  cases x with
  | ready s a b => exact ⟨s, by simp_all [slotOk], k⟩
  | wait s => simp [slotOk] at h
  | bad s st => simp [slotOk] at h

/-- MMA on INT8 (Table 12.14, type 0xA) at column 0 and depth 0, with weights or none. -/
def mmaElem (form : FormState) : Elem := anElem .ce [0x80A0EEE000000000] form
/-- Its accumulator store: four records of a line at offset 0 of memory cell 0 (Table 12.16). -/
def storeElem : Elem := { anElem .xe [BitVec.ofNat 64 (5 * 2 ^ 60 + 4 * 2 ^ 40)] .plain with cell := 1 }
/-- A systolic region of one row and sixteen columns under the RCB at `padBase`. -/
def mxRegionOf (form : FormState) : Region :=
  { aRegion .running [mmaElem form, storeElem] [] with disc := 2, wsource := some 0x10000000 }
/-- How the operation sees it. -/
def driven (form : FormState) : Driven :=
  { slot := 0, g := mxRegionOf form, x := { ty := 0xA, scale := false, nc := 1, nd := 1, rows := 1, stores := [1] } }
/-- A systolic operation with its rings in the second line, past its checks. -/
def mxOp (idx : Nat) (stage : Nat) : Op :=
  { anOp 0 with ha := some 0x7F00000080, hb := some 0x7F00000080, region := some 0, idx := idx, aux := [stage]
                wa := walk 0x10000000 3 16 8 }
/-- The bytes of a ring of one filled slot of 1,024 bytes from the eighth line on. -/
def mxRingBytes : List Byte :=
  bytesOf 8 0x7F00000400 ++ bytesOf 4 1024 ++ bytesOf 4 0 ++ bytesOf 4 0 ++ bytesOf 4 0 ++ bytesOf 4 1 ++ bytesOf 4 0
    ++ List.replicate 32 0
/-- What they say. -/
def mxRing : Ring := { base := 0x7F00000400, ssz := 1024, logn := 0, head := 0, tail := 0, filled := 1, free := 0 }
/-- The operation at the cursor, 24 lines live. -/
def mxWork (o : Op) (form : FormState) : State :=
  { (padded (at0 padBase 0)).modCore 0 0 fun k => { k with
      ops := [o], nextOp := 1, tlb := [page], regions := k.regions.set 0 (some (mxRegionOf form)) } with
    mem := { cells := cellsAt 0xB000000080 mxRingBytes, live := List.range' (0xB000000000 / 128) 24, poison := [], dirty := [] } }
/-- A systolic command on that region. -/
def mxCmd (arg : BitVec 25) : Command := cmdAt padBase arg

theorem witness_SystolicCommands_weights :
    (Moves (mxWork (mxOp 0 1) (.mma none)) (mxOp 0 1) ∧ (mxOp 0 1).aux = [1] ∧
      (mxWork (mxOp 0 1) (.mma none)).mxRegion (mxCmd 0) (mxOp 0 1) = .ready (driven (.mma none)) ∧
      ∃ s1, (mxWork (mxOp 0 1) (.mma none)).headSlot (mxOp 0 1) (mxOp 0 1).hb = .ready s1 0xB000000080 mxRing ∧
        ∃ s2, s1.readMem (s1.slotAgent (mxOp 0 1)) (toWord (mxRing.slotAt mxRing.head)).toNat (driven (.mma none)).x.bTile
          = (s2, .ok (List.replicate (driven (.mma none)).x.bTile 0) false)) ∧
    (Moves (mxWork (mxOp 0 2) (.mma (some []))) (mxOp 0 2) ∧
      (mxWork (mxOp 0 2) (.mma (some []))).mxRegion (mxCmd 0) (mxOp 0 2) = .ready (driven (.mma (some []))) ∧
      ∃ s1, (mxWork (mxOp 0 2) (.mma (some []))).headSlot (mxOp 0 2) (mxOp 0 2).hb = .ready s1 0xB000000080 mxRing ∧
        ((driven (.mma (some []))).g.hasWeights = true ∧ ∃ s2, s1.popTurn (mxOp 0 2) [(mxOp 0 2).hb] = (s2, true))) :=
  ⟨⟨moves (by decide +kernel), by decide +kernel, by decide +kernel, slotReady (by decide +kernel) (answers (by decide +kernel))⟩,
    ⟨moves (by decide +kernel), by decide +kernel, slotReady (by decide +kernel) ⟨by decide +kernel, answers (by decide +kernel)⟩⟩⟩

/-- KEEPW and one row (R396). -/
def goCmd : Command := mxCmd (BitVec.ofNat 25 (2 ^ 24 + 1))
/-- Weights that are there. -/
def weighted : FormState := .mma (some [])

theorem witness_SystolicCommands_rows :
    (Moves (mxWork (mxOp 0 3) weighted) (mxOp 0 3) ∧ keepW goCmd = true ∧ mxMode goCmd = .plain ∧ (driven weighted).x.scale = false ∧
      (mxWork (mxOp 0 3) weighted).mxRegion goCmd (mxOp 0 3) = .ready (driven weighted) ∧ (mxOp 0 3).idx ≠ mxRows goCmd ∧
      (driven weighted).g.hasWeights = true ∧
      ∃ s1, (mxWork (mxOp 0 3) weighted).headSlot (mxOp 0 3) (mxOp 0 3).ha = .ready s1 0xB000000080 mxRing ∧
        ∃ s2, s1.rowReady (s1.opAgent (mxOp 0 3)) (driven weighted) (mxMode goCmd) (mxOp 0 3).idx = (s2, true) ∧
          ∃ s3, Reads s2 s3 (mxOp 0 3) 0x7F00000400 64 (List.replicate 64 0) false) ∧
    (Moves (mxWork (mxOp 1 3) weighted) (mxOp 1 3) ∧ (mxOp 1 3).idx = mxRows goCmd ∧
      (mxWork (mxOp 1 3) weighted).mxRegion goCmd (mxOp 1 3) = .ready (driven weighted) ∧
      ∃ s1, (mxWork (mxOp 1 3) weighted).headSlot (mxOp 1 3) (mxOp 1 3).ha = .ready s1 0xB000000080 mxRing ∧
        ∃ s2, s1.popTurn (mxOp 1 3) [(mxOp 1 3).ha] = (s2, true)) :=
  ⟨⟨moves (by decide +kernel), by decide +kernel, by decide +kernel, by decide +kernel, by decide +kernel, by decide +kernel,
      by decide +kernel, slotReady (by decide +kernel) (answersAnd (by decide +kernel) (readsTo (by decide +kernel)))⟩,
    ⟨moves (by decide +kernel), by decide +kernel, by decide +kernel, slotReady (by decide +kernel) (answers (by decide +kernel))⟩⟩

/-- MXDRN to BF16 or, as here, to wide fixed point (R397). -/
def drnCmd : Command := mxCmd 0xD

theorem witness_SystolicCommands_drain :
    (Moves (mxWork (mxOp 16 1) weighted) (mxOp 16 1) ∧ ringBit drnCmd = false ∧
      (mxWork (mxOp 16 1) weighted).mxRegion drnCmd (mxOp 16 1) = .ready (driven weighted) ∧
      (mxOp 16 1).idx = (driven weighted).x.rows * (driven weighted).x.n) ∧
    (let o := mxOp 15 1
     let s := mxWork o weighted
     let d := driven weighted
     Moves s o ∧ drnNorm drnCmd = false ∧ drnClr drnCmd = false ∧ d.x.wide = true ∧ drnType drnCmd = 0xD ∧
      s.mxRegion drnCmd o = .ready d ∧ o.idx ≠ d.x.rows * d.x.n ∧ o.idx ≠ (walkOf o.wa).count ∧
      ∃ s1, ElemIs s s1 o (walkOf o.wa) o.idx 0x10000078 ∧ ∃ s2, s1.pieceCheck (s.opAgent o) 0x10000078 .store = (s2, .ok (.mem 0x10000078)) ∧
        ∃ s3, s2.spansServed (s.opAgent o) false [((s2.drnPlace d o.idx).1 + 16 * (s2.drnPlace d o.idx).2.1, 16)] = (s3, true) ∧
          s3.mem.dead 0xB0000000F0 16 = false ∧ s3.mem.poisoned 0xB0000000F0 16 = false ∧
          (let en := entryAt true (s3.mem.read (s2.drnPlace d o.idx).1 512) (s2.drnPlace d o.idx).2.1
           let out := drnRead d.x 0xD { code := 0, seed := 0, index := o.idx } none en
           out.2.2 = en ∧
            ∃ s4, Writes (s3.setSticky 0 0 d.slot (flagSticky out.2.1 ||| AccFlags.sticky en.fl)) s4 o 0x10000078 (bytesOf 8 out.1)
              false)) :=
  ⟨⟨moves (by decide +kernel), by decide +kernel, by decide +kernel, by decide +kernel⟩,
    ⟨moves (by decide +kernel), by decide +kernel, by decide +kernel, by decide +kernel, by decide +kernel, by decide +kernel,
      by decide +kernel, by decide +kernel, elemIs (by decide +kernel) (answersAnd (by decide +kernel)
        (answersAnd (by decide +kernel) ⟨by decide +kernel, by decide +kernel, by decide +kernel, writesAs (by decide +kernel)⟩))⟩⟩

/-- An outgoing circuit of core 0 to node 6. -/
def circuit6 : Circuit :=
  { outgoing := true, num := 3, peer := 6, cls := 0, issuer := some (0, 0), broken := false, port := 0, last := 7, win := some 4
    unacked := [], lastProgress := 0, lastSent := 0, refused := [] }
/-- Node 5 with port 0 up, its remote root over the page at `hbm`, and a circuit to node 6. -/
def node (s : State) : State :=
  { s with
    hub := { s.hub with
      nodeId := 5, nodeSet := true, ports := s.hub.ports.set 0 { up := true, iface := 0, tagged := false }, rrootEn := true, rroot := 1
      circuits := [circuit6] } }
/-- Its page table (R174, R175): level 1 entry 0 to a table, level 2 entry 4 a leaf of 64 MiB with X and W. -/
def tables : List Host.Cell := [(0x10000, 1), (0x10002, 2), (0x20020, 15), (0x20023, 16)]
/-- An operation on four words at element n. -/
def remoteOp (n : Nat) (got : Bool) : Op := { moving n with bufP := got, buf := if got then [1, 2, 3, 4] else [] }
/-- It at the cursor of node 5. -/
def netWork (o : Op) : State := node (working tables o)

theorem witness_RemoteTransfers_starts :
    Begins (netWork forked) forked ∧ (cmdAt hbm 6).sub = 0 ∧ (cmdAt hbm 6).arg.toNat < 2 ^ 20 ∧ (walkOf forked.wa).ok = true ∧
    usable (netWork forked) (nodeNamed (cmdAt hbm 6)) ∧ ¬usable (netWork forked) (nodeNamed (cmdAt hbm 0x3FFFF)) :=
  ⟨begins (by decide +kernel), by decide +kernel, by decide +kernel, by decide +kernel,
    ⟨by decide +kernel, by decide +kernel, by decide +kernel, 0, by decide +kernel⟩, fun h => h.2.1 (by decide +kernel)⟩

theorem witness_RemoteTransfers_puts :
    (Moves (netWork (remoteOp 3 false)) (remoteOp 3 false) ∧ (netWork (remoteOp 3 false)).hub.hmode = 0 ∧
      (remoteOp 3 false).idx < (walkOf words4).count ∧ nodeNamed (cmdAt hbm 5) = (netWork (remoteOp 3 false)).hub.nodeId ∧
      ∃ s1, ElemIs (netWork (remoteOp 3 false)) s1 (remoteOp 3 false) (walkOf words4) 3 0x1000000C ∧
        ∃ s2, Reads s1 s2 (remoteOp 3 false) 0x1000000C 4 [0, 0, 0, 0] false ∧
          (s2.hub.nodeId = (netWork (remoteOp 3 false)).hub.nodeId ∧ OwnRemote s2 ((cmdAt hbm 5).addr.toNat + 3 * 4) 4 .store 0x1000000C)) ∧
    ((netWork (remoteOp 0 false)).maySend (nodeNamed (cmdAt hbm 6)) (classNamed (cmdAt hbm 6)) = true ∧
      ∃ s1, ElemIs (netWork (remoteOp 0 false)) s1 (remoteOp 0 false) (walkOf words4) 0 0x10000000 ∧
        ∃ s2, Reads s1 s2 (remoteOp 0 false) 0x10000000 4 [0, 0, 0, 0] false ∧
          (nodeNamed (cmdAt hbm 6) ≠ s2.hub.nodeId ∧ Open s2 (nodeNamed (cmdAt hbm 6)) (classNamed (cmdAt hbm 6)) circuit6 ∧
            (∃ q : Fin 16, (s2.hub.ports[q]).up = true) ∧ s2.opHere = some (remoteOp 0 false))) ∧
    (Moves (netWork (remoteOp 4 false)) (remoteOp 4 false) ∧ (remoteOp 4 false).idx = (walkOf words4).count ∧
      (remoteOp 4 false).drops = [] ∧ (remoteOp 4 false).awaitSeq = []) :=
  ⟨⟨moves (by decide +kernel), by decide +kernel, by decide +kernel, by decide +kernel, elemIs (by decide +kernel)
      (readsAs (by decide +kernel) ⟨by decide +kernel, by decide +kernel, rfl⟩)⟩,
    ⟨by decide +kernel, elemIs (by decide +kernel) (readsAs (by decide +kernel)
      ⟨by decide +kernel, ⟨by decide +kernel, by decide +kernel⟩, ⟨0, by decide +kernel⟩, by decide +kernel⟩)⟩,
    ⟨moves (by decide +kernel), by decide +kernel⟩⟩

theorem witness_RemoteTransfers_gets :
    (Moves (netWork (remoteOp 3 false)) (remoteOp 3 false) ∧ (remoteOp 3 false).lanes = 0 ∧
      nodeNamed (cmdAt hbm 5) = (netWork (remoteOp 3 false)).hub.nodeId ∧
      OwnRemote (netWork (remoteOp 3 false)) ((cmdAt hbm 5).addr.toNat + 3 * 4) 4 .load 0x1000000C ∧
      (netWork (remoteOp 3 false)).mem.poisoned 0x1000000C 4 = false) ∧
    (Moves (netWork (remoteOp 3 true)) (remoteOp 3 true) ∧ (remoteOp 3 true).bufP = true ∧
      ∃ s1, ElemIs (netWork (remoteOp 3 true)) s1 (remoteOp 3 true) (walkOf words4) 3 0x1000000C ∧
        ∃ s2, Writes s1 s2 (remoteOp 3 true) 0x1000000C (remoteOp 3 true).buf false) :=
  ⟨⟨moves (by decide +kernel), by decide +kernel, by decide +kernel, ⟨by decide +kernel, rfl⟩, by decide +kernel⟩,
    ⟨moves (by decide +kernel), by decide +kernel, elemIs (by decide +kernel) (writesAs (by decide +kernel))⟩⟩

/-- An operation on two dwords. -/
def signalling (n : Nat) (phase : OpPhase) (aux : List Nat) : Op :=
  { anOp 0 with wa := walk 0x10000000 3 2 8, idx := n, phase := phase, aux := aux }

/-- A barrier that waits at its word for 2, met or not. -/
def barring (met : Bool) : State :=
  let s := working [] (signalling 0 .moving [2, 0x10000000, 5])
  s.withMem { s.mem with bars := [⟨5, 1, 0x10000000, 2, met⟩], barNo := 6 }

theorem witness_SignalsAndBarriers :
    (Begins (working [] (signalling 0 .forked [])) (signalling 0 .forked []) ∧
      ((working [] (signalling 0 .forked [])).core 0 0).earlierDone (signalling 0 .forked []) = true ∧ (cmdAt hbm 0).scp.toNat < 6 ∧
      (walkOf (signalling 0 .forked []).wa).ok = true ∧ (walkOf (signalling 0 .forked []).wa).esz = 3 ∧
      argBit (cmdAt hbm 1) 24 = false ∧ (cmdAt hbm 1).arg.toNat ≠ 0 ∧ (cmdAt hbm 1).addr.toNat % 8 = 0) ∧
    (Moves (working [] (signalling 1 .moving [])) (signalling 1 .moving []) ∧ argBit (cmdAt hbm 0) 20 = false ∧
      ∃ s1, ElemIs (working [] (signalling 1 .moving [])) s1 (signalling 1 .moving []) (walkOf (signalling 1 .moving []).wa) 1 0x10000008 ∧
        ∃ s2, s1.pieceCheck ((working [] (signalling 1 .moving [])).opAgent (signalling 1 .moving [])) 0x10000008 .store
          = (s2, .ok (.mem 0x10000008))) ∧
    (argBit (cmdAt hbm 0x100000) 20 = true ∧
      ∃ s1, ElemIs (working [] (signalling 1 .moving [])) s1 (signalling 1 .moving []) (walkOf (signalling 1 .moving []).wa) 1 0x10000008 ∧
        ∃ s2, AtomicAt s1 s2 (signalling 1 .moving []) 0x10000008 0x10000008) ∧
    (Moves (working [] (signalling 2 .moving [])) (signalling 2 .moving []) ∧ (signalling 2 .moving []).idx = 2 ∧
      (signalling 2 .moving []).drops = [] ∧ (signalling 2 .moving []).awaitSeq = []) ∧
    ((signalling 0 .moving []).aux = [] ∧
      ∃ s1, AtomicAt (working [] (signalling 0 .moving [])) s1 (signalling 0 .moving []) (cmdAt hbm 1).addr.toNat 0x10000000 ∧
        (leAt s1.mem 0x10000000 8 / 1 + 1) * 1 < 2 ^ 64) ∧
    (∀ met ∈ [false, true], let s := barring met
      s.opHere = some (signalling 0 .moving [2, 0x10000000, 5]) ∧ (signalling 0 .moving [2, 0x10000000, 5]).drops = [] ∧
      s.mem.bars.find? (fun x => x.no == 5) = some ⟨5, 1, 0x10000000, 2, met⟩) ∧
    ((barring false).mem.write 0x10000000 [1]).bars = [⟨5, 1, 0x10000000, 2, false⟩] ∧
    ((barring false).mem.write 0x10000000 [2]).bars = [⟨5, 1, 0x10000000, 2, true⟩] := by
  refine ⟨⟨begins (by decide +kernel), by decide +kernel⟩,
    ⟨moves (by decide +kernel), by decide +kernel, elemIs (by decide +kernel) (answers (by decide +kernel))⟩,
    ⟨by decide +kernel, elemIs (by decide +kernel) ⟨_, Prod.ext rfl ?_, ?_⟩⟩, ⟨moves (by decide +kernel), by decide +kernel⟩,
    ⟨by decide +kernel, _, ⟨Prod.ext rfl ?_, ?_⟩, ?_⟩, ?_⟩ <;> decide +kernel

/-- ARED's operation, past its checks: one word from `hbm` with the sum to the next line, nodes 5 and 6, group 9. -/
def reducing (stage idx : Nat) (buf : List Byte) : Op :=
  { anOp 0 with lanes := stage, idx := idx, buf := buf, aux := [0x10000000, 0x10000080, 2, 0, 9, 5, 6] }
/-- Its block: the header and the list of nodes. -/
def aredCells : List Host.Cell := [(0x10000010, 1), (0x1000001A, 2), (0x10000040, 5), (0x10000044, 6)]
/-- The header's bytes. -/
def aredHdr : List Byte := ((List.replicate 64 0).set 0x10 1).set 0x1A 2
/-- What the block says. -/
def aredIs : Ared := { src := 0, dst := 0, len := 1, ty := 0, group := 0, nodes := [5, 6] }

theorem witness_CollectiveCommands_ared :
    (Begins (node (working aredCells forked)) forked ∧ (cmdAt hbm 0).arg.toNat % 2 ^ 18 = 0 ∧ (cmdAt hbm 0).addr.toNat % 64 = 0 ∧
      (node (working aredCells forked)).hub.nodeId ≠ 0 ∧
      ∃ s1, Reads (node (working aredCells forked)) s1 forked (cmdAt hbm 0).addr.toNat 64 aredHdr false ∧
        (participants aredHdr = 2 ∧
        ∃ s2, Reads s1 s2 forked ((cmdAt hbm 0).addr + 0x40).toNat 8 [5, 0, 0, 0, 6, 0, 0, 0] false ∧
          aredBlock s2.hub.nodeId.toNat aredHdr [5, 0, 0, 0, 6, 0, 0, 0] = some aredIs)) ∧
    (∀ n ∈ aredIs.nodes, n ≠ 0 ∧ n ≠ 0x3FFFF) ∧
    (Moves (working [] (reducing 1 0 [])) (reducing 1 0 []) ∧
      (let s := (working [] (reducing 1 0 [])).modHub fun h => { h with aredIn := [(9, [1, 0, 0, 0])] }
       (s.pollAred (aredOf (reducing 1 0 [])).group 1).map (·.1) = some [0])) ∧
    (Moves (working [] (reducing 2 0 [])) (reducing 2 0 []) ∧ (cmdAt hbm 0).drp = false ∧
      (working [] (reducing 2 0 [])).maySend (BitVec.ofNat 18 ((aredOf (reducing 2 0 [])).nodes.headD 0)) (classNamed (cmdAt hbm 0)) = true ∧
      (aredOf (reducing 2 0 [])).w = 4 ∧ (0 : Nat) + 1 ≠ (aredOf (reducing 2 0 [])).len ∧
      ∃ s1, Reads (working [] (reducing 2 0 [])) s1 (reducing 2 0 []) 0x10000000 4 [0, 0, 0, 0] false) ∧
    (Moves (working [] (reducing 3 1 [1, 2, 3, 4])) (reducing 3 1 [1, 2, 3, 4]) ∧
      ∃ s1, Writes (working [] (reducing 3 1 [1, 2, 3, 4])) s1 (reducing 3 1 [1, 2, 3, 4]) 0x10000084 [1, 2, 3, 4] false) ∧
    (Moves (working [] (reducing 3 2 [])) (reducing 3 2 []) ∧ (reducing 3 2 []).idx = (aredOf (reducing 3 2 [])).len) :=
  ⟨⟨begins (by decide +kernel), by decide +kernel, by decide +kernel, by decide +kernel,
      readsAs (by decide +kernel) ⟨by decide +kernel, readsAs (by decide +kernel) (by decide +kernel)⟩⟩, by decide,
    ⟨moves (by decide +kernel), by decide +kernel⟩,
    ⟨moves (by decide +kernel), by decide +kernel, by decide +kernel, by decide +kernel, by decide +kernel, readsTo (by decide +kernel)⟩,
    ⟨moves (by decide +kernel), writesAs (by decide +kernel)⟩, ⟨moves (by decide +kernel), by decide +kernel⟩⟩

/-- Node 0's running reduction of one word on nodes 5 and 6: its own data is there, node 6's is yet to come. -/
def gathering : AredGroup :=
  let p : List Byte := [0, 0] ++ bytesOf 4 1 ++ bytesOf 4 5 ++ bytesOf 4 6
  { group := 9, verdict := some true
    parts := [{ node := 5, cls := 0, params := p, busy := false, data := [1, 0, 0, 0, 0] }
             , { node := 6, cls := 0, params := p, busy := false, data := [] }] }

theorem witness_CollectiveCommands_result :
    let s := (node State.reset).modHub fun h => { h with areds := [gathering] }
    let parts := gathering.parts.map fun (p : AredPart) => if p.node = 6 then { p with data := p.data ++ [2, 0, 0, 0, 0] } else p
    s.hub.areds.find? (fun g => g.group == 9 && g.verdict == some true) = some gathering ∧
      (aredParams (parts.headD ⟨0, 0, [], false, []⟩).params).2.nodes = [5, 6] ∧ (aredParams (parts.headD ⟨0, 0, [], false, []⟩).params).2.len = 1 ∧
      (aredParams (parts.headD ⟨0, 0, [], false, []⟩).params).2.w = 4 ∧ (∀ x ∈ parts, 5 ≤ x.data.length) ∧ (∃ x ∈ parts, x.node = s.hub.nodeId) ∧
      s.hub.nodeId ≠ 0 ∧ (∃ q : Fin 16, (s.hub.ports[q]).up = true) ∧ (∃ x ∈ parts, x.node ≠ s.hub.nodeId) := by
  decide +kernel

/-- An arc out of output 0 of element e, and one into input 0 of element e. -/
def arcFrom (e : Nat) : Arc := { arcIn 0 [] with prod := e, pout := 0, cons := 2, cin := e }
/-- See `arcFrom`. -/
def arcTo (e : Nat) : Arc := { arcIn 0 [] with prod := 2, pout := e, cons := e, cin := 0 }
/-- The port element of a number. -/
def portNo (kind num : Nat) : Elem := anElem .xe [BitVec.ofNat 64 (kind * 2 ^ 60 + num * 2 ^ 56)] .plain
/-- Launch 1 holds a row of die 1 too, where a region's two outputs are linked to the ports of one on row 0. -/
def joined : State :=
  let s := workingIn [] { anOp 0 with aux := [0x7F20000000, 0, 0x7F20000000, 1] }
    (aRegion .running [portNo 0 0, portNo 0 1] [arcFrom 0, arcFrom 1])
  (s.modRow 6 fun r => { r with phase := .running, lid := some 1 }).modCore 6 0 fun k => { k with regions := k.regions.set 0 (some
    { aRegion .running [portNo 1 0, portNo 1 1] [arcTo 0, arcTo 1] with
      rcb := 0x7F20000000, links := [⟨0, 0, 0, true, 0⟩, ⟨0, 0, 1, true, 1⟩] }) }
/-- One of its links. -/
def linkOf (e : Nat) : LinkPath :=
  { sm := 6, sc := 0, sslot := 0, sarc := e, selem := e, dm := 0, dc := 0, dslot := 0, darc := e, delem := e }

/-- LAUNCH's and CKPT's operations. -/
def asking (idx : Nat) (phase : OpPhase) (aux : List Nat) : Op := { anOp 0 with idx := idx, phase := phase, aux := aux }
/-- Checkpoints of row 0 are on, at two granules. -/
def checked (s : State) : State := s.modHub fun h => { h with ck := { h.ck with en := true, size := 2, rows := 1 } }

theorem witness_CollectiveCommands_hub :
    (Moves joined { anOp 0 with aux := [0x7F20000000, 0, 0x7F20000000, 1] } ∧ joined.joinEntry 1 0x7F20000000 0 = some (linkOf 0) ∧
      joined.joinEntry 1 0x7F20000000 1 = some (linkOf 1) ∧ linkOf 0 ≠ linkOf 1 ∧ dieOf (linkOf 0).sm = dieOf (linkOf 1).sm ∧
      dieOf (linkOf 0).dm = dieOf (linkOf 1).dm ∧ joined.hub.joins = []) ∧
    (Moves (working [] (asking 0 .moving [0x10000000, 0])) (asking 0 .moving [0x10000000, 0]) ∧ 0x10000000 % 128 = 0 ∧
      ∃ s1, (working [] (asking 0 .moving [0x10000000, 0])).translate
        ((working [] (asking 0 .moving [0x10000000, 0])).opAgent (asking 0 .moving [0x10000000, 0])) 0x10000000 = (s1, .ok page)) ∧
    (Moves (working [] (asking 0 .moving [0, 0x10000000, 4])) (asking 0 .moving [0, 0x10000000, 4]) ∧
      ∃ s1, (working [] (asking 0 .moving [0, 0x10000000, 4])).writeMem
        ((working [] (asking 0 .moving [0, 0x10000000, 4])).opAgent (asking 0 .moving [0, 0x10000000, 4])) 0x10000000 (bytesOf 8 4) false
          = (s1, .ok) ∧ s1.opHere = some (asking 0 .moving [0, 0x10000000, 4])) ∧
    (Moves (working [] (asking 0 .moving [])) (asking 0 .moving []) ∧ (graphBlock (asking 0 .moving []).buf).prio = (0 : Fin 4).val ∧
      ((working [] (asking 0 .moving [])).hub.graphs[(0 : Fin 4)]).length < 256) ∧
    (Begins (checked (working [] forked)) forked ∧ (checked (working [] forked)).hub.ck.size ≠ 0 ∧
      (checked (working [] forked)).hub.ck.en = true ∧ (checked (working [] forked)).hub.ck.rows.getLsbD 0 = true) :=
  ⟨⟨moves (by decide +kernel), by decide +kernel⟩, ⟨moves (by decide +kernel), by decide +kernel, _, Prod.ext rfl rfl⟩,
    ⟨moves (by decide +kernel), answersAnd (by decide +kernel) (by decide +kernel)⟩, ⟨moves (by decide +kernel), by decide +kernel⟩,
    ⟨begins (by decide +kernel), by decide +kernel⟩⟩

/-- An operation that has ended with a status, T set. -/
def ended (st : Status) : Op := { anOp (BitVec.ofNat 128 (2 ^ 119)) with phase := .ended, status := st }
/-- A region whose one SINK has reported. -/
def sunk (st : RegionSt) : Region := { aRegion st [] [] with sinkn := 1, sinks := 1 }
/-- A breakpoint on slot 0 that holds its token back. -/
def breaking : State := (at0 0 0).modCore 0 0 fun k => { k with
  bps := k.bps.set 3 { Breakpoint.reset with en := true, due := true }, regions := k.regions.set 0 (some (aRegion .running [] [])) }
/-- A GRAPH request whose region is READY. -/
def requested : State := (workingIn [] (asking 0 .waiting [0, 0, 0, 0]) (aRegion .ready [] [])).modHub fun h =>
  { h with graphs := h.graphs.set 3 [⟨0, 0, 0, 0⟩] }

theorem witness_CompletionEvents :
    (∀ st ∈ [Status.ok, .align], ((working [] (ended st)).core 0 0).findOp (ended st).id = some (ended st) ∧ (ended st).drops = [] ∧
      (working [] (ended st)).suspended = [] ∧ (working [] (ended st)).hub.budgets.awaited 0 0 (ended st).id = false ∧ ((working [] (ended st)).core 0 0).ops = [ended st]) ∧
    (Status.align.trap.isSome = true ∧ (commandOf (ended .align).cmd).t = true ∧
      ((working [] (ended .align)).core 0 0).engTrap[(ended .align).engine] = none) ∧
    (let s := (at0 0 0).modCore 0 0 fun k => { k with regions := k.regions.set 0 (some (sunk .running)) }
     s.region 0 0 0 = some (sunk .running) ∧ (sunk .running).frozen = false ∧ (s.row 0).phase ≠ .mchk ∧
      s.regionDone 0 0 0 (sunk .running) = true) ∧
    (let s := (at0 0 0).modCore 0 0 fun k => { k with regions := k.regions.set 0 (some (sunk .completing)) }
     s.region 0 0 0 = some (sunk .completing) ∧ (s.row 0).phase ≠ .mchk ∧ s.rcbWaits (sunk .completing).lid (sunk .completing).rcb = false) ∧
    ((breaking.core 0 0).bps[(3 : Fin 4)].due = true ∧ breaking.region 0 0 ((breaking.core 0 0).bps[(3 : Fin 4)]).slot = some (aRegion .running [] []) ∧
      (aRegion .running [] []).frozen = false ∧ (aRegion .running [] []).flood = .none ∧ (aRegion .running [] []).disc ≠ 2) ∧
    (requested.hub.graphs[(3 : Fin 4)] = [⟨0, 0, 0, 0⟩] ∧ (requested.core 0 0).findOp 0 = some (asking 0 .waiting [0, 0, 0, 0]) ∧
      requested.region 0 0 0 = some (aRegion .ready [] []) ∧ (graphBlock (asking 0 .waiting [0, 0, 0, 0]).buf).resa = 0) := by
  decide +kernel

/-- A descriptor at 0 of a launch on row 0 with its entry at `hbm` (Table 3.1), every die in service. -/
def described : State :=
  { State.reset.modHub (fun h => { h with edges := h.edges.map fun e => { e with modup := 0xFF } }) with
    mem := { cells := [(3, 16), (8, 1)], live := [], poison := [], dirty := [] } }
/-- What it describes. -/
def descLaunch : Launch :=
  { lid := 0, st := .pending, prio := 0, rows := 1, entry := hbm, root := 0, params := .replicate 4 0, sched := 0, ntile := 0, donea := 0
    donev := 0, abortv := 0, larder := 0, hbase := 0, kidle := 0, ltEntry := none }
/-- A launch of row 0 alone, in a phase. -/
def launched (st : LaunchSt) : State := { described with launches := [{ descLaunch with lid := 1, st := st }] }
/-- Its row finished. -/
def finished : State := (launched .running).modRow 0 fun r => { r with phase := .finished, lid := some 1 }

/-- The reading of a descriptor, compared. -/
theorem reads_as {x : Except Status Launch} {l : Launch} (h : (match x with | .ok a => decide (a = l) | .error _ => false) = true) :
    x = .ok l := by
  cases x <;> simp_all

theorem witness_LaunchesRun :
    (described.readDesc (descriptorAt 0) = .ok descLaunch ∧ described.launches = [] ∧ (described.apps[(23 : Fin 24)]).io = []) ∧
    (State.reset.apps[(23 : Fin 24)]).io = [] ∧
    State.reset.readDesc (descriptorAt 0) = .error .badDesc ∧
    ((launched .starting).launch 1 = some { descLaunch with lid := 1, st := .starting } ∧ (launched .starting).hub.ck.open_ = false ∧
      ∀ m : RowId, ((launched .starting).row m).lid = none ∧ (m = 0 → (launched .starting).rowDown m = false)) ∧
    ((launched .running).launch 1 = some { descLaunch with lid := 1, st := .running } ∧
      finished.launchDone { descLaunch with lid := 1, st := .running } = true) ∧
    (launched .pending).launch ((1 : Word).setWidth 16) = some { descLaunch with lid := 1, st := .pending } := by
  refine ⟨⟨reads_as ?_, ?_⟩, rfl, rfl, ?_, ?_, ?_⟩ <;> decide +kernel

/-- Entry 255 of the launch table fires its descriptor at 0 every frame from 0 on. -/
def tabled : State := described.modHub fun h => { h with
  ltEn := true, lt := h.lt.set 255 { LtEntry.reset with v := true } }
/-- Its last instance still runs. -/
def overrun : State :=
  { tabled.modHub (fun h => { h with lt := h.lt.set 255 { LtEntry.reset with v := true, lid := 1 } }) with
    launches := [{ descLaunch with lid := 1, st := .running, ltEntry := some 255 }] }

theorem witness_LaunchTable :
    (tabled.dueSlot 255 = some 0 ∧ tabled.firstDue 255 0 = true ∧ tabled.hub.hmode = 0 ∧ tabled.entryState 255 = 0 ∧
      (tabled.hub.lt[(255 : Fin 256)]).desc.toNat * 128 = 0 ∧ tabled.launches = []) ∧
    tabled.readDesc 0 = .ok descLaunch ∧
    (overrun.dueSlot 255 = some 0 ∧ overrun.firstDue 255 0 = true ∧ overrun.entryState 255 = 2 ∧
      (overrun.hub.lt[(255 : Fin 256)]).rule = 0 ∧ (overrun.hub.lt[(255 : Fin 256)]).ovrn ≠ 0xFFFF) := by
  refine ⟨?_, reads_as ?_, ?_⟩ <;> decide +kernel

/-- Element 0 of slot 0 of core 0. -/
def here : ElemRef := ⟨0, 0, 0, 0⟩
/-- A memory element at memory cell 0, and a CE, of one stage word (Table 12.11). -/
def memElem (w : BitVec 64) (form : FormState) : Elem := { anElem .me [w] form with cell := 1 }
/-- A region of one element with a token on each of its inputs. -/
def fed (e : Elem) (ts : List Token) : Region :=
  aRegion .running [e] ((List.zip (List.range ts.length) ts).map fun x => arcIn x.1 [(0, x.2)])
/-- It stands, with the first line of memory cell 0 live. -/
def stands (g : Region) : State := (padded (at0 0 0)).modCore 0 0 fun k => { k with regions := k.regions.set 0 (some g) }
/-- DUP, ADD of 32-bit integers, MLD, MST and an adding MAMO on the element's own cell. -/
def wDup : BitVec 64 := 0x6701EE0100000000
/-- See `wDup`. -/
def wAdd : BitVec 64 := 0x01012E9100000000
/-- See `wDup`. -/
def wMld : BitVec 64 := 0x7001EE0100000001
/-- See `wDup`. -/
def wMst : BitVec 64 := 0x71012E0100000001
/-- See `wDup`. -/
def wMamo : BitVec 64 := 0x72012E0100000001

theorem witness_ElementsCompute_cells :
    (let e := anElem .ce [wDup] .plain
     let g := fed e [token 16 true 9]
     Acts (stands g) here g e [0] ∧ Is e .ce 0x67 ∧ (stands g).holdReady here e = (stands g, true) ∧
      g.dataAt 0 0 = some (0, token 16 true 9)) ∧
    (let e := anElem .ce [wAdd] .plain
     let g := fed e [token 16 true 9, token 16 true 0xFFFFFFFF]
     Acts (stands g) here g e [0, 1] ∧ Is e .ce 0x01 ∧ e.stage0.sela = 1 ∧ e.stage0.selb = 2 ∧ e.stage0.dst = 9 ∧
      g.dataAt 0 0 = some (0, token 16 true 9) ∧ g.dataAt 0 1 = some (0, token 16 true 0xFFFFFFFF)) :=
  ⟨⟨⟨⟨by decide +kernel, by decide +kernel⟩, by decide +kernel⟩, by unfold Is; decide +kernel, rfl, by decide +kernel⟩,
    ⟨⟨⟨by decide +kernel, by decide +kernel⟩, by decide +kernel⟩, by unfold Is; decide +kernel, by decide +kernel⟩⟩

theorem witness_ElementsCompute_memory :
    (let e := memElem wMld .plain
     let g := fed e [token 1 false 124]
     Acts (stands g) here g e [0] ∧ Is e .me 0x70 ∧ ownWords e ∧ g.dataAt 0 0 = some (0, token 1 false 124) ∧
      (∃ s1, (stands g).spadReady (ownCell here e 124) false = (s1, true)) ∧ (stands g).mem.dead (ownCell here e 124) 4 = false ∧
      (stands g).mem.poisoned (ownCell here e 124) 4 = false) ∧
    (let e := memElem wMst .plain
     let g := fed e [token 1 false 0, token 1 false 7]
     Acts (stands g) here g e [0, 1] ∧ Is e .me 0x71 ∧ ownWords e ∧ g.dataAt 0 0 = some (0, token 1 false 0) ∧
      g.dataAt 0 1 = some (0, token 1 false 7) ∧ ∃ s1, (stands g).spadReady (ownCell here e 0) true = (s1, true)) ∧
    (let e := memElem wMamo .plain
     let g := fed e [token 1 false 0, token 1 false 7]
     Acts (stands g) here g e [0, 1] ∧ Is e .me 0x72 ∧ ownWords e ∧ e.stage0.low / 4 % 8 = 0 ∧ g.dataAt 0 1 = some (0, token 1 false 7) ∧
      (∃ s1, (stands g).spadReady (ownCell here e 0) false = (s1, true)) ∧ (stands g).hub.ck.replay = false ∧
      (stands g).mem.dead (ownCell here e 0) 4 = false ∧ (stands g).mem.poisoned (ownCell here e 0) 4 = false) :=
  ⟨⟨⟨⟨by decide +kernel, by decide +kernel⟩, by decide +kernel⟩, by unfold Is; decide +kernel, by unfold ownWords; decide +kernel,
      by decide +kernel, answers (by decide +kernel), by decide +kernel⟩,
    ⟨⟨⟨by decide +kernel, by decide +kernel⟩, by decide +kernel⟩, by unfold Is; decide +kernel, by unfold ownWords; decide +kernel,
      by decide +kernel, by decide +kernel, answers (by decide +kernel)⟩,
    ⟨⟨⟨by decide +kernel, by decide +kernel⟩, by decide +kernel⟩, by unfold Is; decide +kernel, by unfold ownWords; decide +kernel,
      by decide +kernel, by decide +kernel, answers (by decide +kernel), by decide +kernel⟩⟩

/-- SINK that reports at its second F, CNTR of one level, STAMP with a window of 15, ORDER of element 0. -/
def wSink : BitVec 64 := 0x6801EE0100000002
/-- See `wSink`. -/
def wCntr : BitVec 64 := 0x690EEE0100002000
/-- See `wSink`. -/
def wStamp : BitVec 64 := 0x6A01EE01000F0000
/-- See `wSink`. -/
def wOrder : BitVec 64 := 0x6B01EE0100000000
/-- The last index of a run of four. -/
def lastRun : CntrRun := { idx := [3], levels := [(5, 2, 4)], tag := 0, e := false, p := false }

theorem witness_EdgeElements_tokens :
    (∀ f : Bool,
      let e := memElem wSink (.sink 1 false)
      let g := fed e [token 1 f 9]
      Lives (stands g) here g e ∧ Is e .me 0x68 ∧ g.inReady 0 0 = true ∧ g.dataAt 0 0 = some (0, token 1 f 9) ∧
        (token 1 f 9).e = false ∧ (1 : Nat) + 1 = e.stage0.low % 65536) ∧
    (let e := memElem wCntr (.cntr (some lastRun) false)
     let g := fed e []
     Lives (stands g) here g e ∧ Is e .me 0x69 ∧ lastRun.idx = [3] ∧ lastRun.levels = [(5, 2, 4)] ∧ g.outReady 0 0 = true) ∧
    (let e := memElem wStamp (.stamp 0xFFFF (List.replicate 15 0) 0)
     let g := fed e [token 1 false 9]
     Lives (stands g) here g e ∧ Is e .me 0x6A ∧ g.inReady 0 0 = true ∧ g.outReady 0 0 = true ∧
      (List.replicate 15 (0 : BitVec 16)).length ≤ e.stage0.low / 2 ^ 16 % 16) ∧
    (let e := memElem wOrder (.order 0xFFF1 [])
     let g := fed e [token 1 false 9]
     Lives (stands g) here g e ∧ Is e .me 0x6B ∧ g.inReady 0 0 = true ∧ ((token 1 false 9).tag - 0xFFF1).toNat < 16) ∧
    (let e := memElem wOrder (.order 0 [(4, token 1 false 9)])
     let g := fed e []
     Lives (stands g) here g e ∧ Is e .me 0x6B ∧ (token 1 false 9).tag = 0 ∧ g.outReady 0 0 = true) := by
  unfold Lives Is
  refine ⟨fun f => ?_, ?_, ?_, ?_, ?_⟩
  · revert f; decide +kernel
  all_goals decide +kernel

/-- A ring for ports: two slots of 128 bytes after its descriptor's line. -/
def portRingBytes (filled : Nat) : List Byte :=
  bytesOf 8 0x7F00000080 ++ bytesOf 4 128 ++ bytesOf 4 1 ++ bytesOf 4 0 ++ bytesOf 4 (filled % 2) ++ bytesOf 4 filled
    ++ bytesOf 4 (2 - filled) ++ List.replicate 32 0
/-- What it says. -/
def portRingIs (filled : Nat) : Ring :=
  { base := 0x7F00000080, ssz := 128, logn := 1, head := 0, tail := filled % 2, filled := filled, free := 2 - filled }
/-- A region of a ring port beside that ring, three lines live. -/
def ringStands (filled : Nat) (g : Region) : State :=
  { (inPad (at0 0 0) (portRingBytes filled)).modCore 0 0 fun k => { k with regions := k.regions.set 0 (some g) } with
    mem := { cells := cellsAt 0xB000000000 (portRingBytes filled), live := List.range' (0xB000000000 / 128) 3, poison := []
             dirty := [] } }
/-- What a ring's reading comes to. -/
def ringSt (x : RingGot) : State := match x with | .ready s _ _ | .wait s | .stop s _ => s
/-- See `ringSt`. -/
def ringOk (x : RingGot) : Option (Nat × Ring) := match x with | .ready _ pa r => some (pa, r) | _ => none
theorem ringReady {x : RingGot} {pa : Nat} {r : Ring} {p : State → Prop} (h : ringOk x = some (pa, r)) (k : p (ringSt x)) :
    ∃ s1, x = .ready s1 pa r ∧ p s1 := by
  cases x with
  | ready s a b => exact ⟨s, by simp_all [ringOk], k⟩
  | wait s => simp [ringOk] at h
  | stop s st => simp [ringOk] at h
theorem answersThird {α β γ : Type} {x : α × β × γ} {b : β} {c : γ} (h : x.2 = (b, c)) : ∃ a, x = (a, b, c) := ⟨x.1, by rw [← h]⟩

theorem witness_EdgeElements_rings :
    (let e := portElem 2 (.ring padBase false false true (some (token 1 true 9)))
     let g := fed e []
     Lives (stands g) here g e ∧ e.isPort 2 = true ∧ g.outReady 0 0 = true) ∧
    (let e := portElem 2 (.ring padBase false false true none)
     let g := fed e []
     Lives (ringStands 1 g) here g e ∧
      ∃ s1, (ringStands 1 g).portRing here g padBase false = .ready s1 0xB000000000 (portRingIs 1) ∧
        ((portRingIs 1).filled ≠ 0 ∧ s1.hub.ck.replay = false ∧
        ∃ s2, s1.writeCheck (elemAgent here 1) .load (linePieces ((portRingIs 1).slotAt (portRingIs 1).head) 68)
          = (s2, .ok, [(0xB000000080, 68)]) ∧
          (s2.mem.dead 0xB000000080 68 = false ∧ s2.mem.poisoned 0xB000000080 68 = false))) ∧
    (let e := portElem 3 (.ring padBase false false true none)
     let g := fed e [token 1 true 9]
     Lives (ringStands 1 g) here g e ∧ e.isPort 3 = true ∧ g.inReady 0 0 = true ∧
      ∃ s1, (ringStands 1 g).portRing here g padBase true = .ready s1 0xB000000000 (portRingIs 1) ∧
        ((portRingIs 1).free ≠ 0 ∧ s1.hub.ck.replay = false ∧
        ∃ s2, s1.writeMem (elemAgent here 1) ((portRingIs 1).slotAt (portRingIs 1).tail)
          (((token 1 true 9).lanes.toList.map BitVec.toNat).flatMap (bytesOf 4) ++ bytesOf 4 (token 1 true 9).hdr
            ++ List.replicate ((portRingIs 1).ssz - 68) 0) = (s2, .ok))) := by
  refine ⟨⟨?_, ?_⟩, ⟨?_, ringReady ?_ ⟨?_, ?_, answersAnd ?_ ?_⟩⟩, ⟨?_, ?_, ?_, ringReady ?_ ⟨?_, ?_, answers ?_⟩⟩⟩ <;>
    first | decide +kernel | (unfold Lives; decide +kernel)

/-- A checkpoint of no row is open, over n granules. -/
def cutting (n : BitVec 12) : State := State.reset.modHub fun h => { h with ck := { h.ck with en := true, size := n, open_ := true } }
/-- A descriptor at 0 of a launch on row 0 with root 0x1_0000 and its larder at 0x1000_0000; its table maps the larder to the page
at `hbm`, where the header of core 0's block stands (Table 8.6), and a row of that timebase is kept. -/
def larderState : State :=
  { described with
    mem := { cells := [(3, 16), (8, 1), (0x12, 1), (0x63, 16), (0x10000, 1), (0x10002, 2)]
               ++ ((List.range 5).flatMap fun k => [(0x20020 + 8 * k, 15), (0x20023 + 8 * k, 16)])
               ++ [(0x10000002, 1), (0x10000004, 0x44), (0x10000005, 0x52), (0x10000006, 0x41), (0x10000007, 0x4C)]
             live := [], poison := [], dirty := [] }
    saved := [{ epoch := 1, tb := 0, m := 0, row := Row.reset }] }
/-- What it describes. -/
def larderLaunch : Launch := { descLaunch with root := 0x10000, larder := 0x10000000 }

theorem witness_Checkpoints :
    ((checked State.reset).hub.ck.en = true ∧ (checked State.reset).hub.ck.size ≠ 0 ∧
      Due { checked State.reset with tb := 50 * 16000000 } ∧ (checked State.reset).hub.ck.open_ = false) ∧
    ((cutting 1).hub.ck.open_ = true ∧ Frozen (cutting 1) ∧ (cutting 1).tracing = [] ∧ (cutting 1).hub.ltWait = [] ∧ ((cutting 1).epochBytes (cutting 1).ckRows).length ≤ (cutting 1).hub.ck.room) ∧
    ((cutting 0).hub.ltWait = [] ∧ (cutting 0).hub.ck.room < ((cutting 0).epochBytes (cutting 0).ckRows).length) ∧
    State.reset.readDesc (descriptorAt 0) = .error .badDesc ∧
    (larderState.readDesc (descriptorAt 0) = .ok larderLaunch ∧ (larderState.restore larderLaunch).2 = .ok ∧
      larderState.launch larderState.hub.nextLid = none) := by
  have h : (cutting 1).ckRows = [] := by decide +kernel
  have h2 : Frozen (cutting 1) := by intro m hm; rw [h] at hm; cases hm
  refine ⟨⟨?_, ?_, ?_, ?_⟩, ⟨?_, h2, ?_, ?_, ?_⟩, ?_, rfl, reads_as ?_, ?_, ?_⟩ <;>
    first | decide +kernel | (unfold Due; decide +kernel)

/-- A stall walk of element 0 of slot 0 of core 0 of row 0, which runs; slot 0 of core 0 is frozen, by a breakpoint. -/
def walked : State := (stands (fed (anElem .ce [wDup] .plain) [])).modHub fun h => { h with swArg := 0 }
/-- See `walked`. -/
def frozenSlot : State := stands { aRegion .running [] [] with frozen := true, bpHold := true }
/-- Function 5 has one request open. -/
def asked : State := State.reset.modHub fun h => { h with ha := h.ha.set 5 { h.ha[(5 : Fin 6)] with opened := [(0, [1])] } }

/-- A walk is under way in slot 0 of core 0, which is frozen; its record goes to the last line of HBM but some. -/
def walking : State :=
  { (frozenSlot.modRegion 0 0 0 fun g => { g with elems := [anElem .ce [wDup] .plain] }).modHub fun h =>
      { h with walk := some (walkFrom 0 0x8FFFFFFD80 7) } with agenda := [.walk] }

theorem witness_HubRegisters_walk :
    ((walked.hub.swArg.extractLsb' 29 3).toNat < 4 ∧ (walked.hub.swArg.extractLsb' 26 3).toNat < 6 ∧
      walked.region (walkCore walked.hub.swArg).1 (walkCore walked.hub.swArg).2.1 (walkCore walked.hub.swArg).2.2
        = some (fed (anElem .ce [wDup] .plain) []) ∧ (walked.hub.swArg.extractLsb' 8 12).toNat < 1 ∧
      descriptorAt 0x8FFFFFFD80 + 544 ≤ 0x9000000000 ∧ walked.hub.walk = none) ∧
    walking.hub.walk.isSome = true ∧
    (State.reset.modHub fun h => { h with swArg := 0x80000000 }).hub.walk = none ∧ 4 ≤ ((0x80000000 : BitVec 32).extractLsb' 29 3).toNat ∧
    (walking.agenda = [.walk] ∧ walking.hub.walk = some (walkFrom 0 0x8FFFFFFD80 7) ∧
      (walking.region 0 0 0).map (fun g => (g.st, g.frozen, g.elems.length)) = some (.running, true, 1) ∧
      walking.mem.poisoned 0x8FFFFFFD80 544 = false) := by decide +kernel

theorem witness_HubRegisters :
    ((1 : Word).getLsbD (0 : Fin 8).val = true ∧
      frozenSlot.region 0 0 0 = some { aRegion .running [] [] with frozen := true, bpHold := true } ∧ (2 : Word).getLsbD (0 : Fin 8).val = false) ∧
    ((0 : Word).getLsbD 63 = false ∧ (0x8000000010000000 : Word).getLsbD 63 = true ∧ (State.reset.core 0 0).trace.lost = 0 ∧
      bufferBase 0x8000000010000000 (held 8 24 ((0x8000000010000000 : Word).extractLsb' 40 5).toNat) < 0x9000000000 ∧
      State.reset.mem.wf = true ∧ State.reset.hub.budgets.full 0
        (stackOf (bufferBase 0x8000000010000000 (held 8 24 ((0x8000000010000000 : Word).extractLsb' 40 5).toNat))) = false) ∧
    (State.reset.hub.hmode &&& ~~~ ((0x3F : Word).setWidth 6) = 0) ∧ ((0xE004 : BitVec 32).extractLsb' 0 3 ≠ 0) ∧
    ((State.reset.hub.ha[(0 : Fin 6)]).opened = []) ∧
    ((asked.hub.ha[(5 : Fin 6)]).opened = [(((asked.hub.ha[(5 : Fin 6)]).rsp[0]).extractLsb' 48 16, [1])]) := by decide +kernel

/-- An access of application core 23. -/
def access (addr size : Nat) (kind : CcKind) : CcAccess := { ac := 23, addr := addr, size := size, kind := kind, value := 5 }
/-- The last line of device HBM, and the first line of scratchpad, are poisoned. -/
def poisonedLines : State :=
  { padded State.reset with
    mem := { cells := [], live := [0xB000000000 / 128], poison := [0x8FFFFFFF80 / 128, 0xB000000000 / 128], dirty := [] } }

theorem witness_ControlComplex_faults :
    Unqueued State.reset 23 ∧ ¬Sized (access 0 3 .load) ∧ ¬Sized (access 0xB000000000 16 .load) ∧
    (access 0xA0FFFFFFF8 8 .amoadd).kind ≠ .load ∧ (access 0xA0FFFFFFF8 8 .amoadd).kind ≠ .store ∧
    (access 0xA000000000 4 .load).size ≠ 8 ∧ (access 0xA000000004 8 .load).addr % 8 ≠ 0 ∧ (access 0xA0FFFFFFF8 8 .amoadd).addr < 0xA100000000 ∧
    (access 0xB100000000 4 .load).addr = cellRegsAt 0 0 0 ∧ (access 0xB100000000 4 .load).size ≠ 8 :=
  ⟨rfl, by unfold Sized; decide, by unfold Sized; decide, by decide⟩

theorem witness_ControlComplex :
    (State.reset.hub.ck.replay = false ∧ Unqueued State.reset 23 ∧ Unqueued (padded State.reset) 23 ∧ Sized (access 0x8FFFFFFFF8 8 .load) ∧ (access 0x8FFFFFFFF8 8 .load).addr + 8 ≤ 0x9000000000 ∧
      State.reset.mem.poisoned 0x8FFFFFFFF8 8 = false ∧ poisonedLines.mem.poisoned 0x8FFFFFFFF8 8 = true ∧
      (access 0x8FFFFFFFF8 8 .amoadd).addr % 8 = 0) ∧
    (Unmapped (access 0x9000000000 8 .load).addr ∧ Unmapped (access 0xB200000000 8 .load).addr) ∧
    ((access 0xA000004000 8 .load).addr = 0xA000004000) ∧
    ((access 0xB000000000 8 .load).addr = cellBase 0 0 0 + 0 ∧ (access 0xB000000000 8 .load).addr % 8 = 0 ∧
      ((padded State.reset).spadReady 0xB000000000 true).2 = true ∧ ((padded State.reset).spadReady 0xB000000000 false).2 = true ∧
      (State.reset.spadReady 0xB000000000 false).2 = true ∧ (access 0xB000000001 8 .store).addr % 8 ≠ 0 ∧
      (padded State.reset).mem.dead 0xB000000000 8 = false ∧ (padded State.reset).mem.poisoned 0xB000000000 8 = false ∧
      State.reset.mem.dead 0xB000000000 8 = true) ∧
    ((access 0xB100000000 8 .store).addr = cellRegsAt 0 0 0) ∧ (0x8FFFFFFFFF : Nat) < 0x9000000000 :=
  ⟨⟨rfl, rfl, rfl, .inr (.inr (.inr rfl)), by decide +kernel⟩, ⟨by unfold Unmapped; decide, by unfold Unmapped; decide⟩, by decide, by decide +kernel,
    by decide, by decide⟩

/-- A frame of a kind from node 6 to node 5. -/
def frameOf (kind : BitVec 4) (seq ackseq : BitVec 32) (op : BitVec 8) (payload : List Byte) : Frame :=
  { ethertype := 0x88B5, ver := 1, kind := kind, dst := 5, src := 6, cls := 0, circ := 3, seq := seq, ackseq := ackseq, op := op, win := 8
    len := BitVec.ofNat 16 payload.length, payload := payload }
/-- What node 5 knows of the circuit from node 6, its last frame having number 0xFFFFFFFF. -/
def fromSix : Circuit :=
  { circuit6 with outgoing := false, issuer := none, last := 0xFFFFFFFF }
/-- A frame of the circuit to node 6 that awaits its acknowledgement. -/
def unacked7 : OutFrame :=
  { kind := 0, dst := 6, circ := 3, cls := 0, seq := 7, ackseq := 0, op := 0, win := 0, port := 0, payload := [] }
/-- Node 5 with that circuit, one of its own with a frame out, and ports 0 and 15 up. -/
def meshed (osc : Nat) : State :=
  { (node (working tables { anOp 0 with phase := .waiting, sawF := true, awaitSeq := [(3, 7)] })).modHub fun h => { h with
      circuits := [{ circuit6 with unacked := [unacked7] }, fromSix]
      ports := h.ports.set 15 { up := true, iface := 0, tagged := false } } with osc := osc }
/-- A put of one byte to `hbm` (log entry 28). -/
def putPayload : List Byte := List.replicate 12 0 ++ bytesOf 8 0x10000000 ++ [0, 9]

theorem witness_FramesAndCircuits_data :
    (¬PortTakes (meshed 0) { frameOf 0 0 0 0 [] with octets := 4201 } ∧ ¬PortTakes (meshed 0) { frameOf 0 0 0 0 [] with tags := 1 } ∧
      PortTakes (meshed 0) { frameOf 0 0 0 0 [] with octets := 4200 } ∧
      ({ frameOf 0 0 0 0 [] with ver := 2 } : Frame).ver ≠ 1 ∧ ({ frameOf 0 0 0 0 [] with dst := 7 } : Frame).dst ≠ (meshed 0).hub.nodeId) ∧
    (let f := frameOf 0 0 0 RemoteOp.put.code putPayload
     Arrives (meshed 0) f 0 ∧ (meshed 0).hub.circuit false f.src f.circ = some fromSix ∧ fromSix.broken = false ∧ fromSix.refused = [] ∧ fromSix.open_ = [] ∧
      (meshed 0).hub.ck.replay = false ∧ (meshed 0).hub.hmode = 0 ∧ f.seq = fromSix.last + 1 ∧ remoteOpOf f.op = some .put ∧
      pay f 20 1 = 0 ∧ 22 ≤ f.payload.length ∧ OwnRemote (meshed 0) (pay f 12 8) (f.payload.length - 21) .store 0x10000000) ∧
    (let f := frameOf 0 1 0 0 []
     Arrives (meshed 0) f 0 ∧ f.seq ≠ fromSix.last + 1 ∧ SomePort (meshed 0)) := by
  refine ⟨by unfold PortTakes; decide +kernel, ⟨?_, ?_, rfl, rfl, rfl, ?_, ?_, ?_, ?_, ?_, ?_, ?_, ?_⟩, ?_, ?_, ⟨15, ?_⟩⟩
  case _ => unfold Arrives PortTakes; decide +kernel
  all_goals first
    | decide +kernel
    | (unfold Arrives PortTakes; decide +kernel)
    | rfl
    | simp [remoteOpOf, frameOf]

theorem witness_FramesAndCircuits_others :
    (Arrives (meshed 0) (frameOf 1 0 7 0 []) 1 ∧ Arrives (meshed 0) (frameOf 2 0 6 0 []) 2 ∧ Arrives (meshed 0) (frameOf 4 0 0 0 []) 4 ∧
      Arrives (meshed 0) (frameOf 5 0 0 0 []) 5 ∧
      (meshed 0).hub.circuit true 6 3 = some { circuit6 with unacked := [unacked7] } ∧
      (let o : Op := { anOp 0 with phase := .waiting, sawF := true, awaitSeq := [(3, 7)] }
       o ∈ ((meshed 0).core 0 0).ops ∧ o.awaitSeq = [((frameOf 1 0 7 0 []).circ, (frameOf 1 0 7 0 []).ackseq)])) ∧
    (Arrives (node State.reset) (frameOf 3 0 0 0 []) 3 ∧ (node State.reset).hub.circuit false 6 3 = none) ∧
    ((meshed 320000).hub.outNum 3 = some { circuit6 with unacked := [unacked7] } ∧ circuit6.lastSent + 16 * 20000 ≤ (meshed 320000).osc ∧
      SomePort (meshed 320000) ∧ (meshed 320000).hub.nodeId ≠ 0) ∧
    circuit6.lastProgress + 16 * (1000000 * (meshed 1600000000).hub.cgive.toNat) ≤ (meshed 1600000000).osc ∧
    (((meshed 0).hub.ports[(0 : Fin 16)]).up = true ∧ ((meshed 0).hub.ports[(15 : Fin 16)]).up = true ∧
      (meshed 0).mgmt.levels.extractLsb' 10 2 ≠ 2 ∧ SomePort (meshed 0)) := by
  unfold Arrives PortTakes
  refine ⟨?_, ?_, ⟨?_, ?_, ⟨15, ?_⟩, ?_⟩, ?_, ?_, ?_, ?_, ⟨15, ?_⟩⟩ <;> decide +kernel

/-- Account 0 has a password of its own, and fails behind it. -/
def account (fails : Nat) (lock : Option Nat) : Account :=
  { used := true, password := [1], mustChange := false, fails := fails, lockedUntil := lock }
/-- The service runs, in a mode. -/
def serving (m : CcMode) (a : Account) : State :=
  { State.reset with mgmt := { State.reset.mgmt with mode := m, accounts := State.reset.mgmt.accounts.set 0 a } }
/-- The watchdog runs and its count has come to its end. -/
def expired (stage : BitVec 2) : State :=
  { (serving .running (account 0 none)).modHub fun h => { h with
      wdog := { en := true, boot := false, stage := stage, tmo := 1000, since := 0 } } with osc := 16000000 }

theorem witness_StartsAndResets :
    (State.reset.mgmt.mode = .unstarted ∧ State.reset.mgmt.current = none) ∧
    (Serves (serving .running (account 0 none)) ∧ ¬Serves State.reset) ∧
    ((serving .running (account 0 none)).mgmt.mode ≠ .off ∧ (serving .running (account 0 none)).mgmt.fabricOn = false) ∧
    (Serves (serving .safe (account 0 none)) ∧ (serving .safe (account 0 none)).mgmt.mode = .safe) ∧
    (∀ st : BitVec 2, st ∈ [(0 : BitVec 2), 2] → (expired st).hub.wdog.en = true ∧ (expired st).hub.wdog.boot = false ∧
      (expired st).mgmt.mode ≠ .off ∧ (expired st).hub.wdog.since + 16 * (1000 * (expired st).hub.wdog.tmo.toNat) ≤ (expired st).osc ∧
      (expired st).hub.wdog.stage = st) := by
  refine ⟨⟨?_, ?_⟩, ⟨⟨.inl ?_, ?_⟩, fun h => absurd h.1 (by decide +kernel)⟩, ⟨?_, ?_⟩, ⟨⟨.inr ?_, ?_⟩, ?_⟩, ?_⟩ <;>
    decide +kernel

/-- A push that is in progress or not. -/
def push (busy : Bool) : ImagePush :=
  { addr := 0, len := 0, busy := busy, readBack := true
    header := { secVersion := 0, steps := [], rsaKey := { n := 0, e := 0 }, slhKey := [], keyIndex := 0, rsaSig := 0, slhSig := [] } }
/-- Its programming is under way, and its next step comes. -/
def programming : State :=
  { State.reset with agenda := [.program]
                     mgmt := { State.reset.mgmt with writing := some ({ header := (push false).header, digest := 0, commit := true, bytes := [] }, false) } }

theorem witness_ServiceRequests :
    ((push true).busy = true ∧ (push false).busy = false ∧ (serving .running (account 0 none)).mgmt.push = none ∧
      (serving .running (account 0 none)).mgmt.writing = none ∧ (serving .running (account 0 none)).hub.hmode = 0 ∧
      (push false).len ≤ 0x3FF0000) ∧
    (programming.agenda = [.program] ∧ programming.mgmt.writing.isSome = true) ∧
    (∀ n ∈ [32, 64], 32 ≤ (List.replicate n (0 : Byte)).length ∧ (List.replicate n (0 : Byte)).length ≤ 64) ∧
    (List.replicate 31 (0 : Byte)).length < 32 ∧
    ((serving .running (account 3 none)).mgmt.mode = .running ∧
      (serving .running (account 3 none)).mgmt.accounts[(0 : Fin 16)] = account 3 none ∧ (account 3 none).used = true ∧
      (account 3 none).lockedUntil = none ∧ (account 3 none).password = [1] ∧ (account 3 none).password ≠ [2] ∧ (account 3 none).fails < 4 ∧
      4 ≤ (account 4 none).fails) ∧
    ((serving .running (account 0 (some 7))).mgmt.accounts[(0 : Fin 16)]).lockedUntil = some 7 := by decide +kernel

/-- Region 0's rail with a voltage asked for. -/
def railed (mv : BitVec 10) : State := State.reset.modHub fun h => { h with supply := h.supply.set 0 { Supply.reset with mv := mv } }
/-- Every rail at its full code, one sample before the cut. -/
def loadedRails : State := State.reset.modHub fun h => { h with
  supply := h.supply.map fun x => { x with last := 1023 }, power := { h.power with psus := 0, exc := 19999 } }
/-- Row 23 has no budget. -/
def budgeted : State := State.reset.modHub fun h => { h with budgets := { h.budgets with inForce := h.budgets.inForce.set 23 0 } }

theorem witness_SupplyAndThermal :
    (State.reset.mgmt.mode ≠ .off ∧ Below 1679 115 ∧ Below 1679 (State.reset.hub.thermal[(4 : Fin 5)]).crit.toNat) ∧
    (Below 1839 115 ∧ AtOrAbove 1680 (State.reset.hub.thermal[(3 : Fin 5)]).crit.toNat ∧ (3 : Fin 5).val < 4 ∧
      (State.reset.hub.thermal[(3 : Fin 5)]).halted = false) ∧
    AtOrAbove 1840 115 ∧
    ((railed 755).hub.supply[(0 : Fin 25)] = { Supply.reset with mv := 755 } ∧ 750 + 5 ≤ min (755 : BitVec 10).toNat 900 ∧
      (railed 745).hub.supply[(0 : Fin 25)] = { Supply.reset with mv := 745 } ∧ min (745 : BitVec 10).toNat 900 + 5 ≤ 750 ∧
      State.reset.hub.supply[(0 : Fin 25)] = Supply.reset ∧ Supply.reset.off = false ∧
      Supply.reset.act = min Supply.reset.mv.toNat Supply.reset.ceil ∧ Supply.reset.stepped < 4000 / 4000 ∧ 3999 / 4000 ≤ Supply.reset.stepped) ∧
    (7999 / 8000 ≤ State.reset.hub.power.sampled ∧ State.reset.hub.power.sampled < 8000 / 8000) ∧
    (loadedRails.hub.power.exc = 19999 ∧ loadedRails.hub.power.brk = false ∧
      loadedRails.hub.power.psus.toNat < loadedRails.hub.modulePower) ∧
    (State.reset.osc / 32000 ≤ State.reset.hub.budgets.interval ∧ State.reset.hub.budgets.waiting = [] ∧
      ({ State.reset with osc := 32000 } : State).hub.budgets.interval < 32000 / 32000) ∧ (0x11FFFFFF * 128 < 0x9000000000 ∧ MemOk State.reset) ∧
    (budgeted.hub.budgets.inForce[(23 : Fin 24)] ≤ budgeted.hub.budgets.count 23 (stackOf 0)) := by
  unfold Below AtOrAbove MemOk; decide +kernel

/-- Edge 7, module 7: in service with n retries behind it, or training. -/
def edgeOf (modup training : BitVec 8) (n : Nat) : Edge :=
  { retrn := 0, crcrt := 0, modup := modup, training := training, wasdn := false, cut := false, retries := .replicate 8 n }
/-- A Sync of one or two steps, 10 µs off. -/
def sync (two : Bool) : PtpMessage :=
  { twoStep := two, domain := 0, seqId := 9, seconds := 0, nanos := 0, local_ := 160000, correction := 0, master := 0, port := 0 }
/-- Message 9 is awaited, as a Follow_Up and as a Delay_Resp. -/
def awaiting : State := (serving .running (account 0 none)).modHub fun h => { h with
  servo := { h.servo with awaitFollow := some (9, 160000, 0), delaySeq := some 9, haveSync := true, syncT2 := 160000 } }
/-- The timebase is in software's hands. -/
def assisted : State := State.reset.modHub fun h => { h with hmode := 0x20 }

theorem witness_EdgesAndTimebase :
    ((edgeOf 0x80 0 17).modup &&& moduleBit 7 ≠ 0 ∧ 16 < (edgeOf 0x80 0 17).retries[(7 : Fin 8)] ∧
      (edgeOf 0x01 0x80 0).training &&& moduleBit 7 ≠ 0 ∧ (edgeOf 0x01 0x80 0).modup ≠ 0 ∧
      (edgeOf 0 0x80 0).training = moduleBit 7 ∧ (edgeOf 0 0x80 0).modup = 0) ∧
    (Claim.Taken awaiting (sync true) ∧ (sync true).twoStep = true ∧ Claim.Taken awaiting (sync false) ∧ (sync false).twoStep = false ∧
      awaiting.hub.hmode = 0 ∧ (offset awaiting (originOf (sync false)) (sync false).local_ (corrected (sync false).correction 0)).natAbs ≤ 160000 ∧
      awaiting.hub.servo.awaitFollow = some ((sync true).seqId, 160000, 0) ∧
      (offset awaiting (originOf (sync true)) 160000 (corrected 0 (sync true).correction)).natAbs ≤ 160000 ∧
      awaiting.hub.servo.delaySeq = some (sync true).seqId ∧ awaiting.hub.servo.haveSync = true) ∧
    (Claim.InSoftware assisted ∧ (1 : Word) ≠ 0 ∧ ¬Claim.InSoftware State.reset) := by
  unfold Claim.Taken Claim.InSoftware; decide +kernel

/-- A NOP before core 0, a BNE at the row fetch unit, and an SRD on engine 0. -/
def nopFirst : State := State.reset.withFetchWord 32 0xC0000000
/-- See `nopFirst`. -/
def bneFirst : State := State.reset.withFetchWord 32 0x46407FFE
/-- See `nopFirst`. -/
def srdFirst : State := State.reset.withFetchWord 128 (2 ^ 120)
/-- The NOP on the vine. -/
def nopWord : VineWord := { VineWord.none with word := 0xC0000000, addr := 0x10000000 }

/-- A word that decodes. -/
theorem decodes {α β : Type} {x : Except β α} {i : α} (h : x.toOption = some i) : x = .ok i := by
  cases x with
  | ok j => cases h; rfl
  | error _ => cases h

theorem witness_StepRunsDecoded :
    (nopFirst.agenda = [.place 0 (placeOfCore 0)] ∧ nopFirst.rowMoves 0 = true ∧ (nopFirst.row 0).phase = .running ∧
      (nopFirst.core 0 0).stopped = false ∧ (nopFirst.core 0 0).halted = false ∧ (nopFirst.row 0).hops[(0 : CoreId)] = [nopWord] ∧
      (nopFirst.core 0 0).skipBelow = none ∧ (nopFirst.core 0 0).active = true ∧ (∀ e : Fin 4, (nopFirst.core 0 0).engTrap[e] = none)) ∧
    decodeSeq nopWord.word nopWord.lit = .ok (.nop { q := false, d := 0, a := 0, b := 0, x := false, y := false }) ∧
    (bneFirst.agenda = [.place 0 rfuPlace] ∧ bneFirst.rowMoves 0 = true ∧ (bneFirst.row 0).phase = .running ∧
      (bneFirst.row 0).stopped = false ∧ (bneFirst.row 0).halted = false ∧ (bneFirst.row 0).resendQ = [] ∧ (bneFirst.row 0).icache = [] ∧
      (bneFirst.row 0).pc.toNat % 4 = 0 ∧ 0x10000000 % 128 = (bneFirst.row 0).pc.toNat % 128 ∧
      ∃ s1, State.checkAddr { bneFirst with agenda := [], ticks := bneFirst.ticks + 1 }
          { m := 0, unit := .rfu, lid := (bneFirst.row 0).lid.getD 0 } (bneFirst.row 0).pc 4 .fetch = (s1, .ok (.mem 0x10000000)) ∧
        (s1.mem.poisoned 0x10000000 4 = false ∧ BitVec.ofNat 32 (leAt s1.mem 0x10000000 4) = 0x46407FFE ∧
          isCmd 0x46407FFE = false)) ∧
    decodeSeq 0x46407FFE 0 = .ok (.bne { a := 4, b := 0, o := -2 }) ∧
    (srdFirst.agenda = [.engine 0 0 0] ∧ (srdFirst.row 0).phase ≠ .mchk ∧
      ((srdFirst.core 0 0).findOp 0).map (fun o => (o.phase, o.cmd)) = some (.forked, BitVec.ofNat 128 (2 ^ 120))) ∧
    decodeCommand (BitVec.ofNat 128 (2 ^ 120)) = .ok (.srd (cmdAt 0 0 |> fun c => { c with wa := 0 })) := by
  refine ⟨?_, rfl, ⟨?_, ?_, ?_, ?_, ?_, ?_, ?_, ?_, ?_, answersAnd ?_ ?_⟩, rfl, ?_, decodes ?_⟩ <;> decide +kernel

theorem witness_RoundTrip : (Instr.add abDrop).wf = true ∧ encode (.add abDrop) ≠ .none := by decide +kernel

/-- A NODEID write and a CE firing come as events, of which one is an element's. -/
theorem witness_StepRunsDecoded_events :
    elemOf (.nodeidWrite 5) = none ∧ elemOf (.ceFiring here) = some here := ⟨rfl, rfl⟩

/-- The node number is written next. -/
def renamed : State := { State.reset with agenda := [.event (.nodeidWrite 5)] }

theorem witness_MemoryFormKept :
    MemOk renamed ∧ ∃ t, step renamed = .next t := by
  refine ⟨by unfold MemOk; decide +kernel, ?_⟩
  have h : after (step renamed) false (fun _ => true) = true := by decide +kernel
  cases e : step renamed with
  | next t => exact ⟨t, rfl⟩
  | fault f => rw [e] at h; cases h
  | refused r => rw [e] at h; cases h

/-- R298: a row fetch unit's step on BNE with q4 = q0 goes to the next word. -/
theorem test_step_row_fetch_unit : after (step bneFirst) 0 (fun t => (t.row 0).pc) = 0x10000004 := by decide +kernel


end Sys2Proof.Tests
end

section
/-! The register group and the immediate forms (R342–R346): the results the model computes are those of Tables 14.1 to 14.3, and a
form that writes a function of its operands and does nothing else acts as `ActsAt` and `ActsAtRfu` say. -/

namespace Sys2Proof.Machine
open Sys2Proof.Machine.Claim

/-! ### Results: multiplication and division -/

/-- The 128-bit product of the sign-extended operands is the integer product modulo 2^128, whose bits [127:64] are the quotient by
2^64 modulo 2^64. -/
theorem mulHigh_eq_extract (a b : Word) :
    mulHigh a b = (a.signExtend 128 * b.signExtend 128).extractLsb' 64 64 := by
  have product : a.signExtend 128 * b.signExtend 128 = BitVec.ofInt 128 (a.toInt * b.toInt) := by
    rw [BitVec.ofInt_mul]
    rfl
  apply BitVec.eq_of_toNat_eq
  rw [mulHigh, product, BitVec.extractLsb'_toNat, BitVec.toNat_ofInt, BitVec.toNat_ofInt, Nat.shiftRight_eq_div_pow]
  omega

theorem mulHighU_eq_extract (a b : Word) :
    mulHighU a b = (a.setWidth 128 * b.setWidth 128).extractLsb' 64 64 := by
  have noOverflow : a.toNat * b.toNat < 2 ^ 128 :=
    Nat.lt_of_lt_of_eq (Nat.mul_lt_mul'' a.isLt b.isLt) (Nat.pow_add 2 64 64).symm
  apply BitVec.eq_of_toNat_eq
  rw [BitVec.extractLsb'_toNat, BitVec.toNat_mul, BitVec.toNat_setWidth_of_le (by decide),
    BitVec.toNat_setWidth_of_le (by decide), Nat.mod_eq_of_lt noOverflow, Nat.shiftRight_eq_div_pow]
  rfl

theorem sdiv_eq_ofInt_tdiv (a b : Word) : a.sdiv b = BitVec.ofInt 64 (a.toInt.tdiv b.toInt) :=
  BitVec.eq_of_toInt_eq (by rw [BitVec.toInt_sdiv, BitVec.toInt_ofInt])

theorem srem_eq_ofInt_tmod (a b : Word) : a.srem b = BitVec.ofInt 64 (a.toInt.tmod b.toInt) := by
  rw [← BitVec.toInt_srem, BitVec.ofInt_toInt]

theorem divS_eq_quotient (a b : Word) : divS a b = quotient a b := by
  rw [divS, quotient, sdiv_eq_ofInt_tdiv]

theorem remS_eq_remainder (a b : Word) : remS a b = remainder a b := by
  rw [remS, remainder, srem_eq_ofInt_tmod]

/-! ### Results: shifts -/

theorem shiftCount_eq_extract (b : Word) : shiftCount b = (b.extractLsb' 0 6).toNat := by
  rw [BitVec.extractLsb'_toNat]
  rfl

theorem immCount_eq_extract (f : FmtI) : immCount f = (f.i.extractLsb' 0 6).toNat := by
  rw [BitVec.extractLsb'_toNat]
  rfl

theorem immOf_shiftLeft_14 (f : FmtI) : immOf f <<< 14 = f.i.signExtend 64 * 16384 :=
  BitVec.shiftLeft_eq_mul_twoPow (immOf f) 14

/-! ### Results: comparisons -/

theorem truth_slt (a b : Word) : truth (a.slt b) = flag (a.toInt < b.toInt) := by
  simp only [truth, flag, BitVec.slt_iff_toInt_lt]

theorem truth_decide (p : Prop) [Decidable p] : truth (decide p) = flag p := by
  simp only [truth, flag, decide_eq_true_eq]

/-- The model tests b < a and the table a ≤ b. -/
theorem min_slt_eq (a b : Word) : (if b.slt a then b else a) = if a.toInt ≤ b.toInt then a else b := by
  simp only [BitVec.slt_iff_toInt_lt, ← Int.not_le, ite_not]

theorem max_slt_eq (a b : Word) : (if a.slt b then b else a) = if a.toInt ≤ b.toInt then b else a := by
  rcases Int.lt_trichotomy a.toInt b.toInt with h | h | h
  · rw [if_pos (BitVec.slt_iff_toInt_lt.2 h), if_pos (Int.le_of_lt h)]
  · rw [BitVec.eq_of_toInt_eq h, ite_self, ite_self]
  · rw [if_neg (mt BitVec.slt_iff_toInt_lt.1 (by omega)), if_neg (by omega)]

theorem minu_lt_eq (a b : Word) : (if b < a then b else a) = if a.toNat ≤ b.toNat then a else b := by
  simp only [BitVec.lt_def, ← Nat.not_le, ite_not]

theorem maxu_lt_eq (a b : Word) : (if a < b then b else a) = if a.toNat ≤ b.toNat then b else a := by
  rcases Nat.lt_trichotomy a.toNat b.toNat with h | h | h
  · rw [if_pos (BitVec.lt_def.2 h), if_pos (Nat.le_of_lt h)]
  · rw [BitVec.eq_of_toNat_eq h, ite_self, ite_self]
  · rw [if_neg (mt BitVec.lt_def.1 (by omega)), if_neg (by omega)]

/-! ### Results: counts of bits -/

/-- The zero bits of v above its highest one bit, among bits n − 1 down to 0. -/
theorem length_takeWhile_zeros (n v : Nat) (hv : v < 2 ^ n) :
    ((List.range n).reverse.takeWhile fun i => !v.testBit i).length = if v = 0 then n else n - 1 - v.log2 := by
  induction n with
  | zero => simp
  | succ n ih =>
    rw [List.range_succ, List.reverse_append, List.reverse_singleton, List.singleton_append]
    by_cases top : v < 2 ^ n
    · rw [List.takeWhile_cons_of_pos (by rw [Nat.testBit_lt_two_pow top, Bool.not_false]), List.length_cons, ih top]
      by_cases h0 : v = 0
      · rw [if_pos h0, if_pos h0]
      · have := (Nat.log2_lt h0).2 top
        rw [if_neg h0, if_neg h0]
        omega
    · have h0 : v ≠ 0 := fun e => top (e ▸ Nat.two_pow_pos n)
      have hlog : v.log2 = n := (Nat.log2_eq_iff h0).2 ⟨Nat.le_of_not_lt top, hv⟩
      have hbit : v.testBit n = true := hlog ▸ Nat.testBit_log2 h0
      rw [List.takeWhile_cons_of_neg (by simp [hbit]), if_neg h0, hlog]
      simp

theorem leadingZeros_eq_zerosAbove (a : Word) : leadingZeros a = zerosAbove a := by
  have count := length_takeWhile_zeros 64 a.toNat a.isLt
  simp only [BitVec.testBit_toNat] at count
  rw [zerosAbove, count, leadingZeros]
  by_cases h0 : a = 0
  · subst h0
    rfl
  · rw [if_neg h0, if_neg (show a.toNat ≠ 0 from fun e => h0 (BitVec.eq_of_toNat_eq e))]
    rfl

/-- Bit 0 is counted apart, and bit i + 1 of v is bit i of v / 2. -/
theorem onesBelow_eq_length_filter (n v : Nat) : onesBelow n v = ((List.range n).filter v.testBit).length := by
  induction n generalizing v with
  | zero => rfl
  | succ n ih =>
    have shifted : v.testBit ∘ Nat.succ = (v / 2).testBit := funext (Nat.testBit_succ v)
    rw [onesBelow, ih, List.range_succ_eq_map, List.filter_cons, List.filter_map, shifted, Nat.testBit_zero]
    rcases Nat.mod_two_eq_zero_or_one v with h | h
    · simp [h]
    · simp [h, Nat.add_comm]

theorem onesCount_eq_onesIn (a : Word) : onesCount a = onesIn a := by
  have bitsOf : a.toNat.testBit = fun i => a.getLsbD i := funext fun i => BitVec.testBit_toNat a
  rw [onesCount, onesBelow_eq_length_filter, bitsOf]
  rfl

/-! ### Results: addresses of slices -/

theorem ownSlices_core (m : RowId) (c : CoreId) : ownSlices m (placeOfCore c) = slicesOf m c.val := by
  rw [ownSlices, if_pos (show (placeOfCore c).val < 8 from c.isLt)]
  rfl

theorem ownSlices_rfu (m : RowId) : ownSlices m rfuPlace = slicesOf m 0 := rfl

/-! ### Words whose only effect is their destination -/

/-- At s, the word answers by writing g of its registers' values to the destination of form f, and by nothing else. -/
def Computes (s : State) (o : Out) (f : Form) (g : (BitVec 5 → Word) → Word) : Prop :=
  o = .next (s.runWord f (pureForm g))

theorem Computes.congr {s : State} {o : Out} {f : Form} {g g' : (BitVec 5 → Word) → Word} (h : Computes s o f g)
    (e : ∀ x, g x = g' x) : Computes s o f g' :=
  funext e ▸ h

/-- Such a word, ready at a core, writes g of the scalar registers. -/
theorem Computes.actsAt {s : State} {o : Out} {f : Form} {g : (BitVec 5 → Word) → Word} (h : Computes s o f g) {c : CoreId}
    {d : BitVec 5} (hd : f.dest = some d) (hq : f.q = false) (hp : s.cur.p = placeOfCore c) (hr : s.ready c f = true) :
    ActsAt s s c o (some d) (g (s.core s.cur.m c).read) f.drops := by
  have acts := s.actsAt_runCore s c f (pureForm g) (some (g (s.core s.cur.m c).read)) hr rfl (by rw [hd]; rfl)
  rwa [hd, ← s.runWord_core c f _ hp hq, ← show o = _ from h] at acts

/-- Such a word with Q = 1, ready at the row fetch unit, writes g of the row registers, and the next word follows. -/
theorem Computes.actsAtRfu {s : State} {o : Out} {f : Form} {g : (BitVec 5 → Word) → Word} (h : Computes s o f g)
    {d : BitVec 5} (hd : f.dest = some d) (hq : f.q = true) (hp : s.cur.p = rfuPlace) (hr : s.readyRfu f = true) :
    ActsAtRfu s s o (some d) (g (s.row s.cur.m).readQ) (s.cur.word.addr + 4) := by
  have acts := s.actsAtRfu_runRfu s f (pureForm g) (some (g (s.row s.cur.m).readQ)) (s.cur.word.addr + 4) hr rfl
    (by rw [hd]; rfl)
  rwa [hd, ← s.runWord_rfu f _ hp hq, ← show o = _ from h] at acts

/-! ### The groups of Tables 14.1 to 14.3 -/

/-- Every form of the register group computes the result that the table gives it. -/
theorem registerGroup_computes : ∀ p ∈ registerGroup, ∀ (f : FmtA) (s : State),
    Computes s (exec (p.1 f) s) (useAB f) fun x => p.2 (x f.a) (x f.b) := by
  simp only [registerGroup, List.forall_mem_cons]
  refine ⟨?add, ?sub, ?mul, ?mulh, ?mulhu, ?div, ?divu, ?rem, ?remu, ?and, ?or, ?xor, ?shl, ?shr, ?sra, ?min, ?max, ?minu, ?maxu,
    ?slt, ?sltu, ?seq, nofun⟩
  case mulh => exact fun f s => .congr rfl fun x => mulHigh_eq_extract (x f.a) (x f.b)
  case mulhu => exact fun f s => .congr rfl fun x => mulHighU_eq_extract (x f.a) (x f.b)
  case div => exact fun f s => .congr rfl fun x => divS_eq_quotient (x f.a) (x f.b)
  case rem => exact fun f s => .congr rfl fun x => remS_eq_remainder (x f.a) (x f.b)
  case shl => exact fun f s => .congr rfl fun x => congrArg (x f.a <<< ·) (shiftCount_eq_extract (x f.b))
  case shr => exact fun f s => .congr rfl fun x => congrArg (x f.a >>> ·) (shiftCount_eq_extract (x f.b))
  case sra => exact fun f s => .congr rfl fun x => congrArg (x f.a).sshiftRight (shiftCount_eq_extract (x f.b))
  case min => exact fun f s => .congr rfl fun x => min_slt_eq (x f.a) (x f.b)
  case max => exact fun f s => .congr rfl fun x => max_slt_eq (x f.a) (x f.b)
  case minu => exact fun f s => .congr rfl fun x => minu_lt_eq (x f.a) (x f.b)
  case maxu => exact fun f s => .congr rfl fun x => maxu_lt_eq (x f.a) (x f.b)
  case slt => exact fun f s => .congr rfl fun x => truth_slt (x f.a) (x f.b)
  case sltu => exact fun f s => .congr rfl fun x => truth_decide ((x f.a).toNat < (x f.b).toNat)
  case seq => exact fun f s => .congr rfl fun x => truth_decide (x f.a = x f.b)
  -- The model computes the other forms with the table's own operators.
  all_goals exact fun f s => rfl

theorem unaryGroup_computes : ∀ p ∈ unaryGroup, ∀ (f : FmtA) (s : State),
    Computes s (exec (p.1 f) s) (useA f) fun x => p.2 (x f.a) := by
  simp only [unaryGroup, List.forall_mem_cons]
  refine ⟨?clz, ?popc, nofun⟩
  case clz => exact fun f s => .congr rfl fun x => leadingZeros_eq_zerosAbove (x f.a)
  case popc => exact fun f s => .congr rfl fun x => onesCount_eq_onesIn (x f.a)

theorem immediateGroup_computes : ∀ p ∈ immediateGroup, ∀ (f : FmtI) (s : State),
    Computes s (exec (p.1 f) s) (useI f) fun x => p.2 (x f.a) f.i := by
  simp only [immediateGroup, List.forall_mem_cons]
  refine ⟨?addi, ?andi, ?ori, ?xori, ?shli, ?shri, ?srai, nofun⟩
  case shli => exact fun f s => .congr rfl fun x => congrArg (x f.a <<< ·) (immCount_eq_extract f)
  case shri => exact fun f s => .congr rfl fun x => congrArg (x f.a >>> ·) (immCount_eq_extract f)
  case srai => exact fun f s => .congr rfl fun x => congrArg (x f.a).sshiftRight (immCount_eq_extract f)
  all_goals exact fun f s => rfl

theorem sel_computes (f : FmtA) (s : State) :
    Computes s (exec (.sel f) s) (useSel f) fun x => if x f.d = 0 then x f.b else x f.a :=
  .congr rfl fun x => ite_not (x f.d = 0) (x f.a) (x f.b)

theorem lui_computes (f : FmtI) (s : State) :
    Computes s (exec (.lui f) s) (useD f) fun _ => f.i.signExtend 64 * 16384 :=
  .congr rfl fun _ => immOf_shiftLeft_14 f

theorem lea_computes (f : FmtI) (s : State) :
    Computes s (exec (.lea f) s) (useI f) fun x => ownSlices s.cur.m s.cur.p + x f.a + f.i.signExtend 64 := rfl

end Sys2Proof.Machine

namespace Sys2Proof.Proofs
open Sys2Proof.Machine Sys2Proof.Machine.Claim

/-- Settles O1: every form of the group only computes its destination, and the results are the tables'. -/
theorem registerGroup : Obligations.RegisterGroup := by
  unfold Obligations.RegisterGroup
  refine ⟨fun p hp f s c hq hc hr => ?core, fun p hp f s hq hc hr => ?rfu⟩
  case core => exact (registerGroup_computes p hp f s).actsAt rfl hq hc hr
  case rfu => exact (registerGroup_computes p hp f s).actsAtRfu rfl hq hc hr

/-- Settles O2, form by form, at a core and at the row fetch unit; LEA's slices are those of the place's core. -/
theorem immediateGroup : Obligations.ImmediateGroup := by
  unfold Obligations.ImmediateGroup
  refine ⟨fun p hp f s c hq hc hr => (unaryGroup_computes p hp f s).actsAt rfl hq hc hr,
    fun f s c hq hc hr => (sel_computes f s).actsAt rfl hq hc hr,
    fun p hp f s c hq hc hr => (immediateGroup_computes p hp f s).actsAt rfl hq hc hr,
    fun f s c hq hc hr => (lui_computes f s).actsAt rfl hq hc hr, fun f s c hq hc hr => ?leaCore,
    fun p hp f s hq hc hr => (unaryGroup_computes p hp f s).actsAtRfu rfl hq hc hr,
    fun f s hq hc hr => (sel_computes f s).actsAtRfu rfl hq hc hr,
    fun p hp f s hq hc hr => (immediateGroup_computes p hp f s).actsAtRfu rfl hq hc hr,
    fun f s hq hc hr => (lui_computes f s).actsAtRfu rfl hq hc hr, fun f s hq hc hr => ?leaRfu⟩
  case leaCore =>
    rw [← ownSlices_core, ← hc]
    exact (lea_computes f s).actsAt rfl hq hc hr
  case leaRfu =>
    rw [← ownSlices_rfu, ← hc]
    exact (lea_computes f s).actsAtRfu rfl hq hc hr

end Sys2Proof.Proofs
end
